-- ==== Sys2Proof/Word.lean ====
section
/-! DEFINITION. The word types of the VX4 and the sparse store every addressed memory of the model uses. -/

namespace Sys2Proof

/-- One byte. -/
abbrev Byte := BitVec 8
/-- A 32-bit register, command word or instruction word (R9). -/
abbrev Word := BitVec 32
/-- An F20 code (R270). -/
abbrev F20 := BitVec 20
/-- An A40 code (R280). -/
abbrev A40 := BitVec 40
/-- Channel number, CH0 to CH3 (R6). -/
abbrev ChanId := Fin 4
/-- Global core number, C0 to C7 (R6). -/
abbrev CoreId := Fin 8
/-- Global array number, A0 to A15 (R6). -/
abbrev ArrId := Fin 16
/-- A queue of a channel by its OWNERS bit (R209). -/
abbrev QId := Fin 17

/-- A sparse store: strictly rising keys, no entry equal to the default. -/
abbrev SMap (α : Type) := List (Nat × α)

end Sys2Proof
end

