-- ==== Sys2Proof/Syntax.lean ====
section
/-! DEFINITION. The commands of the VX4: one constructor per row of spec/opcode_table.json, in the table's order. An
operand is what the event brings with it: the unit it acts on, the data that arrives, and, where the step is the one
that finds a physical error, what its check saw (log 12). An operand of type Unit brings nothing: the row's pool check
is made later, with the grant of its lines (log 12), or its place in a cc comes from the state (log 15). -/

namespace Sys2Proof

/-- A word of an accumulator file whose check bits show an error when it is read: a double-bit one, or else a
single-bit one (R366). -/
structure WordFind where
  word   : Nat
  double : Bool
  deriving DecidableEq, Repr

/-- What the checks of an array's accumulator file find in a row: the words read with an error, and the 32-entry groups
whose tag parity fails (R366, R367). -/
structure AccSee where
  finds : List WordFind
  par   : List (BitVec 10)
  deriving DecidableEq, Repr

/-- The same for one array of a channel: local core, local array (R366, R367). -/
structure ArrSee where
  core : Fin 2
  arr  : Fin 2
  see  : AccSee
  deriving DecidableEq, Repr

/-- What the checks of one pool bank find in a cc: the words of the line it serves that show a single-bit and a
double-bit error (R504-R506). -/
structure BankFind where
  core   : Fin 2
  bank   : Fin 16
  single : BitVec 16
  double : BitVec 16
  deriving DecidableEq, Repr

/-- The six PLLs (R132). -/
inductive Pll where
  | time
  | mem
  | core (n : ChanId)
  deriving DecidableEq, Repr

/-- What the checkers saw while a vector was computed, in its array or, for `sib`, in the sibling that a SPAN vector
also enters (R324, R325, R392). -/
inductive VecObs where
  | clean
  | weightParity (sib : Bool)
  | residue (sib : Bool) (col row : BitVec 5) (tree : Bool)
  deriving DecidableEq, Repr

/-- What a lockstep pair's checkers show in one cc (R681, R682). `stage` and `output` locate a parity error. -/
structure LockObs where
  cmpA   : Bool
  cmpB   : Bool
  parity : Bool
  stage  : BitVec 2
  output : Bool
  offset : Word
  deriving DecidableEq, Repr

/-- The fetch of a control core's next instruction: its core, and the word of it, counted from the first, that fails
its parity check (R529). -/
structure Fetch where
  core : CoreId
  bad  : Option (Fin 14)
  deriving DecidableEq, Repr

/-- The header of a peer packet less TYPE and FLITS (R630). -/
structure PktHdr where
  ver   : Byte
  snode : Word
  dnode : Word
  deriving DecidableEq, Repr

/-- The body of a WRITE_WIN or ACC_INTO packet (R632); LEN is the payload's length. -/
structure DataBody where
  win     : BitVec 4
  core    : Fin 2
  coll    : Bool
  timed   : Bool
  late    : Bool
  epoch   : BitVec 16
  seq     : Word
  offset  : Word
  tag     : BitVec 16
  payload : List Byte
  deriving DecidableEq, Repr

/-- The commands. -/
inductive Instr where
  -- host port
  | registerWrite (addr : BitVec 24) (data : Word)
  | hostPoolRead (addr : BitVec 24) (check : Unit := ())
  | hostPoolWrite (addr : BitVec 24) (data : Word) (check : Unit := ())
  -- initiator side
  | initiatorReadCompletion (ok : Bool) (data : List Byte)
  | initiatorWriteCompletion (ok : Bool)
  | initiatorTimeout (write : Bool)
  -- memory ports
  | mpResponse (n : ChanId) (tag : Byte) (status : BitVec 2) (data : List Byte)
  | mpTimeout (n : ChanId) (tag : Byte)
  | snoop (n : ChanId) (granule : BitVec 42)
  | memoryPortSlot (n : ChanId) (ready : Bool) (tag : Byte)
  -- radio frames in, rings
  | grid (n : ChanId) (rxtime : BitVec 64) (frame : List Byte)
  | sample (n : ChanId) (rxtime : BitVec 64) (frame : List Byte)
  | ringEntryWritten (n : ChanId) (r : Fin 4)
  | radioOutboundCredit (n : ChanId)
  -- peer port signals
  | peerOutboundCredit (n : ChanId)
  | peerLinkUp (n : ChanId)
  | peerLinkDown (n : ChanId)
  -- pulses, supply, power gates
  | ppsCapture (k : Fin 2)
  | ppsOutWidthEnd
  | vackRise
  | vackFall
  | vackTimeout
  | pgackRise (n : ChanId)
  | pgackFall (n : ChanId)
  | pgackTimeout (n : ChanId)
  -- resets and test access port
  | porstNFall
  | porstNRise (refsel : Bool) (xsel : BitVec 2) (mbistEn : Bool)
  | engrstNFall
  | engrstNRise
  | chrstNFall (n : ChanId)
  | chrstNRise (n : ChanId)
  | tapReset
  | idcode
  | bypass (code : Byte)
  -- bring-up
  | bootstrapStart
  | fuseRead
  | fuseReadEnd (word : BitVec 128)
  | missingEdge
  | stabilityCountEnd (cycles : Nat)
  | refFail
  | retry
  | pllLock (p : Pll)
  | pllLockTimeout (p : Pll)
  | pllLossOfLock (p : Pll)
  | memoryTestEnd (chFail : BitVec 4) (engFail : Bool)
  | clearPassEnd
  | go
  -- clocks, thermal, power
  | clkObsWrite (data : Word)
  | thermalSample (k : Fin 6) (raw : BitVec 11)
  | averagingPeriodEnd
  | rampEnd (n : ChanId)
  | maxOpWrite (v : BitVec 3)
  | powerGate (n : ChanId)
  | ungate (n : ChanId)
  -- channel start and ticks
  | runSet (n : ChanId)
  | runClear (n : ChanId)
  | release (n : ChanId)
  | firstTick (tick : ChanId × List ArrSee)
  | slotTick (n : ChanId) (sees : List ArrSee)
  | tickGap (n : ChanId)
  | histogramPoolWrite (a : ArrId)
  -- survey transactions
  | begin (empty : Bool)
  | commit (now : Bool)
  | rollback
  | srvDataWrite (data : Word)
  | srvDataRead
  | txnWrite (type scope : BitVec 16) (offset : Nat) (bytes : List Byte)
  | validationEnd
  | surveyBarrierSample
  | commonInstant
  | applyTimeReached
  -- logbook
  | logRecordWrite
  | compactionInterval
  | compact
  | restart
  | checkpoint
  | trim
  | logHalt
  -- time
  | tdSet (d : Fin 2) (force : Bool)
  | tdAdj (d : Fin 2) (force : Bool)
  | tdIncFracWrite (d : Fin 2) (v : Word)
  | tdIncIntWrite (d : Fin 2) (v : Word)
  | tdNsRead (d : Fin 2)
  | tcIncrement
  | force
  | switchRecheck
  | calSet (force : Bool)
  | calDateRead
  | frameLaunch (n : ChanId) (peer : Bool) (slipped : Bool)
  -- peers
  | peerHelloTimer (n : ChanId)
  | partnerLost (n : ChanId) (i : Fin 8)
  | hello (n : ChanId) (h : PktHdr) (engId : Word) (fprint : BitVec 64) (pstate : Byte) (epoch : BitVec 16)
  | fprint (n : ChanId) (h : PktHdr) (fprint : BitVec 64)
  | timeRequest (n : ChanId) (h : PktHdr) (t1 : BitVec 64) (res : BitVec 24)
  | timeReply (n : ChanId) (h : PktHdr) (res : BitVec 24) (t1 : BitVec 64) (t2 : Word) (t4 : BitVec 64)
  | writeWin (n : ChanId) (h : PktHdr) (b : DataBody)
  | accInto (n : ChanId) (h : PktHdr) (b : DataBody)
  | ack (n : ChanId) (h : PktHdr) (win : Byte) (status : Byte) (epoch : BitVec 16) (seq : Word)
  | voidSlot (n : ChanId) (h : PktHdr) (tag : BitVec 16)
  | close (n : ChanId) (h : PktHdr) (reason : Byte)
  | peerPacketSend (n : ChanId) (dma : Bool)
  | peerNodeWrite (n : ChanId) (entry : Option (Fin 8)) (v : Word)
  | peerPortHalt (n : ChanId)
  -- cairns, descriptors, pool
  | doorbell (n : ChanId) (cairn : BitVec 11) (amount : Byte)
  | pendingSumApply (n : ChanId) (cairn : BitVec 11)
  | cairnWaitEvaluation (n : ChanId) (cairn : BitVec 11)
  | descriptorCompletion (n : ChanId)
  | poolAccessGrant (n : ChanId) (finds : List BankFind)
  | poolReadData (c : CoreId) (check : Unit := ())
  -- control core
  | add (f : Fetch) (rd rs1 rs2 : BitVec 5)
  | sub (f : Fetch) (rd rs1 rs2 : BitVec 5)
  | and (f : Fetch) (rd rs1 rs2 : BitVec 5)
  | or (f : Fetch) (rd rs1 rs2 : BitVec 5)
  | xor (f : Fetch) (rd rs1 rs2 : BitVec 5)
  | sll (f : Fetch) (rd rs1 rs2 : BitVec 5)
  | srl (f : Fetch) (rd rs1 rs2 : BitVec 5)
  | sra (f : Fetch) (rd rs1 rs2 : BitVec 5)
  | mul (f : Fetch) (rd rs1 rs2 : BitVec 5)
  | min (f : Fetch) (rd rs1 rs2 : BitVec 5)
  | max (f : Fetch) (rd rs1 rs2 : BitVec 5)
  | minu (f : Fetch) (rd rs1 rs2 : BitVec 5)
  | maxu (f : Fetch) (rd rs1 rs2 : BitVec 5)
  | slt (f : Fetch) (rd rs1 rs2 : BitVec 5)
  | sltu (f : Fetch) (rd rs1 rs2 : BitVec 5)
  | addi (f : Fetch) (rd rs1 : BitVec 5) (imm : BitVec 16)
  | andi (f : Fetch) (rd rs1 : BitVec 5) (imm : BitVec 16)
  | ori (f : Fetch) (rd rs1 : BitVec 5) (imm : BitVec 16)
  | xori (f : Fetch) (rd rs1 : BitVec 5) (imm : BitVec 16)
  | slli (f : Fetch) (rd rs1 : BitVec 5) (imm : BitVec 16)
  | srli (f : Fetch) (rd rs1 : BitVec 5) (imm : BitVec 16)
  | srai (f : Fetch) (rd rs1 : BitVec 5) (imm : BitVec 16)
  | slti (f : Fetch) (rd rs1 : BitVec 5) (imm : BitVec 16)
  | lui (f : Fetch) (rd : BitVec 5) (imm20 : BitVec 20)
  | lw (f : Fetch) (rd rs1 : BitVec 5) (imm : BitVec 16) (check : Unit := ())
  | sw (f : Fetch) (rd rs1 : BitVec 5) (imm : BitVec 16) (check : Unit := ())
  | vaddH (f : Fetch) (rd rs1 rs2 : BitVec 5)
  | vsubH (f : Fetch) (rd rs1 rs2 : BitVec 5)
  | vminH (f : Fetch) (rd rs1 rs2 : BitVec 5)
  | vmaxH (f : Fetch) (rd rs1 rs2 : BitVec 5)
  | mova (f : Fetch) (ad : BitVec 4) (rs1 : BitVec 5)
  | setinc (f : Fetch) (ad : BitVec 4) (rs1 : BitVec 5)
  | rda (f : Fetch) (rd : BitVec 5) (as : BitVec 4)
  | rdp (f : Fetch) (rd ps : BitVec 5)
  | pnext (f : Fetch) (pd rs1 : BitVec 5)
  | rdq (f : Fetch) (rd : BitVec 5) (qs : BitVec 3)
  | qset (f : Fetch) (qd : BitVec 3) (rs1 : BitVec 5)
  | rep (f : Fetch) (rs1 : BitVec 5) (imm : BitVec 16)
  | nop (f : Fetch)
  | illegal (f : Fetch) (word : Word)
  | push (f : Fetch) (queue n : BitVec 4) (guard : BitVec 5) (subst : BitVec 13) (words : List Word)
  | endList (f : Fetch)
  | select (f : Fetch) (immf : Bool) (qi : BitVec 3) (index : BitVec 4)
  | replayStart (c : CoreId)
  | cont (c : CoreId)
  | stagedParameterWrite (c : CoreId) (i : BitVec 5) (v : Word)
  -- station commands
  | wait (n : ChanId) (q : QId)
  | signal (n : ChanId) (q : QId)
  | signalApplied (n : ChanId) (q : QId)
  | barrier (n : ChanId) (q : QId)
  | tload (a : ArrId) (check : Unit := ())
  | pload (a : ArrId) (check : Unit := ())
  | wload (a : ArrId) (check : Unit := ())
  | wloadSwap (a : ArrId) (parity : Bool)
  | mpass (a : ArrId)
  | step (a : ArrId)
  | dload (a : ArrId) (check : Unit := ())
  | dpload (a : ArrId) (check : Unit := ())
  | drain (a : ArrId)
  | chain (a : ArrId)
  | lrun (c : CoreId)
  | lload (c : CoreId) (check : Unit := ())
  | siphon (c : CoreId) (see : AccSee)
  | xfer (n : ChanId)
  | frame (n : ChanId) (check : Unit := ())
  | psend (n : ChanId) (check : Unit := ())
  | commandCompletion (n : ChanId) (q : QId)
  | cmdTimeout (n : ChanId) (q : QId)
  -- array datapath
  | vectorEntry (a : ArrId) (part : Fin 8) (obs : VecObs) (see : AccSee)
  | dripReceive (a : ArrId) (see : AccSee) (check : Unit := ())
  | accumulateInto (a : ArrId) (see : AccSee)
  | gateIssue (a : ArrId) (see : AccSee) (check : Unit := ()) (written : Unit := ())
  | loopSliceReady (a : ArrId)
  | endStateClear (a : ArrId) (see : AccSee)
  | siphonSweep (c : CoreId) (see : AccSee)
  | laneRound (c : CoreId) (same : Bool) (check : Unit := ())
  | summaryWrite (c : CoreId)
  -- faults and recovery
  | channelRollback (n : ChanId) (sees : List ArrSee)
  | halt (n : ChanId) (sees : List ArrSee)
  | chLost (n : ChanId)
  | lockstepChecking (c : CoreId) (obs : LockObs)
  | cmpSelftest (c : CoreId) (missed : BitVec 2)
  | deadlock (n : ChanId)
  | driverHalt (n : ChanId)
  | quarantineRelease (n : ChanId) (cores : BitVec 2) (wins : Word)
  | supplyClear
  -- counter clears
  | arrCntClear (a : ArrId)
  | stepClear (a : ArrId)
  | siphClear (c : CoreId)
  | gateClear (a : ArrId)
  | laneClear (c : CoreId)
  | poolClear (c : CoreId)
  | dmaClear (n : ChanId)
  | lchClear (n : ChanId)
  | rpClear (n : ChanId)
  | icacheClear (c : CoreId)
  -- malformed arrivals, end of ungating
  | malformedRadioFrame (n : ChanId)
  | radioInboundOverrun (n : ChanId)
  | malformedPeerPacket (n : ChanId)
  | peerInboundOverrun (n : ChanId)
  | peerRxErr (n : ChanId)
  | ungateResetRelease (n : ChanId)
  deriving DecidableEq, Repr

end Sys2Proof
end

