-- ==== Sys2Proof/Config.lean ====
section
/-! DEFINITION. The values the spec leaves open: constants without a body, so that a claim holds whatever they are. -/

namespace Sys2Proof

/-- A byte whose content the spec leaves undefined, by the running number of the draw (log 11). -/
opaque Config.freeByte : Nat → Byte

/-- An F20 code the spec leaves open, by the running number of the draw: an unwritten link register (R710), T6 and T7
after a SIPHON with GATES 1 (R462) (log 10). -/
opaque Config.freeF20 : Nat → F20

/-- The F20 code a built-in function delivers in native mode: a fixed function of its input (R439);
the function code is ARG of R437. The bound of R437 is put on it where it is used (log 9). -/
opaque Config.nativeCode : BitVec 5 → F20 → F20

/-- Whether a register that shows a time in coarser units shows an inexact value rounded up; the spec states no
rounding (TD_PHASE and TD_DIFF, R624; log 26). The argument is the exact value in units of 10⁻⁵ · 2⁻³² ns. -/
opaque Config.showUp : Int → Bool

end Sys2Proof
end

