-- ==== Sys2Proof/Machine/State.lean ====
section
/-! DEFINITION. The state of the VX4 as plain data: every register, store, queue and pin the spec gives the block
(INVENTORY.md '## State'), the queue of waiting commands, the reasons a step can stop, and the state after reset. -/

namespace Sys2Proof.Machine

/-- Why the machine stops with a fault. -/
inductive Fault where
  /-- Raised by a row whose byte-list operand has a length the row's event cannot have (WellFormed.lean): no such
  event exists at the boundary. Safe: the machine stops where the hardware has nothing to do. -/
  | illFormed
  deriving DecidableEq, Repr

/-- Why a command has no meaning. -/
inductive Refusal where
  /-- Raised by an arm of exec whose command has no meaning yet. Safe. -/
  | notModelled (mnemonic : String)
  deriving DecidableEq, Repr

/-- Four of a kind, one per channel. -/
structure Quad (α : Type) where
  c0 : α
  c1 : α
  c2 : α
  c3 : α
  deriving DecidableEq, Repr

/-- Two of a kind: the cores of a channel, the arrays of a core, the time domains. -/
structure Duo (α : Type) where
  c0 : α
  c1 : α
  deriving DecidableEq, Repr

def Quad.get {α : Type} (q : Quad α) : Fin 4 → α
  | 0 => q.c0
  | 1 => q.c1
  | 2 => q.c2
  | 3 => q.c3

def Quad.set {α : Type} (q : Quad α) (i : Fin 4) (x : α) : Quad α :=
  match i with
  | 0 => { q with c0 := x }
  | 1 => { q with c1 := x }
  | 2 => { q with c2 := x }
  | 3 => { q with c3 := x }

def Duo.get {α : Type} (q : Duo α) : Fin 2 → α
  | 0 => q.c0
  | 1 => q.c1

def Duo.set {α : Type} (q : Duo α) (i : Fin 2) (x : α) : Duo α :=
  match i with
  | 0 => { q with c0 := x }
  | 1 => { q with c1 := x }

/-! ### Engine -/

/-- Pins, straps, test access port and boot registers (R50–R54, R66, R67, R115–R117, R122, R189). -/
structure Eng where
  porst     : Bool          -- PORST_N level
  engrst    : Bool          -- ENGRST_N level
  chrst     : BitVec 4      -- CHRST_N levels
  refsel    : Bool
  xsel      : BitVec 2
  mbistEn   : Bool
  mbistDone : Bool
  mbistPass : Bool
  fuseCk    : Bool          -- FUSE_CK runs, at the bootstrap oscillator's frequency ÷ 8; 0 otherwise
  fuseLd    : Bool
  fatalN    : Bool
  hpUp      : Bool          -- the target side serves accesses (R162)
  hostQ     : List Instr    -- accepted accesses not yet ended, the first a pool access in progress (R58–R60, R491)
  hostSt    : Fin 3         -- that access waits for its slot, has been granted, has ended
  rValid    : Bool          -- HP_R_VALID, HP_R_DATA, HP_R_CODE of the latest response
  rData     : Word
  rCode     : BitVec 2
  stepping  : Byte          -- ENG_ID.STEP
  grade     : BitVec 2
  arrays    : BitVec 16
  deriving DecidableEq, Repr

/-- The target side takes an access and acts on it at once: it serves, and no earlier access waits (R58, R60). -/
def Eng.hpReady (e : Eng) : Bool := e.hpUp && e.hostQ.isEmpty

/-- ENG_BOOT and what bring-up keeps beside it (R160–R173, R189). -/
structure Boot where
  chFail   : BitVec 4
  engFail  : Bool
  fuseBad  : Bool
  survey   : BitVec 2
  log      : BitVec 2
  stage    : BitVec 4
  bootOn   : Bool           -- bootstrap oscillator runs
  trim     : BitVec 6
  fuseBusy : Bool           -- a fuse read is in progress
  counting : Bool           -- the stability count runs
  deriving DecidableEq, Repr

/-- ENG_HPERR and ENG_HPERR_ADDR (R66, R67). -/
structure HpErr where
  more  : Byte
  write : Bool
  code  : BitVec 2
  valid : Bool
  addr  : BitVec 24
  deriving DecidableEq, Repr

/-- The states of the IEEE 1149.1 controller (R115). -/
inductive TapState where
  | testLogicReset
  | runTestIdle
  | selectDr
  | captureDr
  | shiftDr
  | exit1Dr
  | pauseDr
  | exit2Dr
  | updateDr
  | selectIr
  | captureIr
  | shiftIr
  | exit1Ir
  | pauseIr
  | exit2Ir
  | updateIr
  deriving DecidableEq, Repr

/-- The test access port (R115, R116, R187). -/
structure Tap where
  st    : TapState
  ir    : Byte              -- the instruction in effect
  irSh  : Byte              -- the instruction register's shift stage
  tdr   : Word              -- the selected data register: IDCODE's 32 bits, or BYPASS's bit in bit 0
  mfr   : BitVec 11         -- TAP_MFR tie-off
  deriving DecidableEq, Repr

/-- CLK_STATUS, CLK_OBS and the PLLs (R132–R138). -/
structure Clk where
  cpllLock : BitVec 4
  mpllLock : Bool
  tpllLock : Bool
  pllFail  : Bool
  refLost  : Bool
  refFail  : Bool
  refOk    : Bool
  freqBad  : Bool
  xselBad  : Bool
  trimOk   : Bool
  pllOn    : BitVec 6       -- PLLs started: core 0–3, memory port, time
  obsDiv   : BitVec 12
  obsSel   : BitVec 4
  obsCnt   : Nat            -- cycles of the selected clock since CKOBS's period began (R136)
  obsLeft  : Nat            -- cycles CKOBS stays low after a write of CLK_OBS, to the end of its old period
  obsOld   : BitVec 4       -- the clock those cycles are of
  deriving DecidableEq, Repr

/-- The supply sequencer and power gates (R110–R113, R139–R154). -/
structure Pwr where
  pg       : BitVec 4       -- PWR_CTRL.PG
  maxOp    : BitVec 3
  gated    : BitVec 4
  vack     : Bool
  vreq     : BitVec 3
  vreqOld  : BitVec 3       -- VREQ before the change in progress
  waitVack : Bool           -- a change on VREQ awaits VACK
  thermOp  : BitVec 3
  supplyOp : Option (BitVec 3)  -- ceiling of R148 while the supply fault stands
  pgreq    : BitVec 4
  pgack    : BitVec 4
  gating   : BitVec 4       -- PGREQ raised or to be raised, PGACK not yet high
  ungating : BitVec 4       -- PG lowered, channel not yet released
  pgHeld   : BitVec 4       -- a reversing write waits for the handshake (R154)
  deriving DecidableEq, Repr

/-- One thermal sensor (R155, R156, R159). -/
structure Sens where
  valid   : Bool
  temp    : BitVec 11
  trim    : Byte
  samples : List Int
  deriving DecidableEq, Repr

/-- THM_CTRL, THM_LIMIT, THM_STATUS and the six sensors (R155–R159). -/
structure Thm where
  avg       : BitVec 3
  hi        : Byte
  lo        : Byte
  crit      : Byte
  critFlag  : Bool
  throttles : BitVec 24
  sens      : List Sens
  deriving DecidableEq, Repr

/-- A requested step of a time domain (R601). -/
inductive TdStep where
  | load (sec : BitVec 48) (ns : Word)
  | add (ns : Int)
  deriving DecidableEq, Repr

/-- One time domain (R598–R602, R624). -/
structure Td where
  sec      : BitVec 48
  ns       : Word
  frac     : Word
  incInt   : BitVec 2
  incFrac  : Word
  heldFrac : Option Word
  incNext  : Option (BitVec 2 × Word)      -- takes effect in the next tc
  stepNext : Option TdStep          -- a step that takes effect in the next tc
  latSec   : BitVec 48
  latFrac  : Word
  adj      : Word
  setNs    : Word
  setSec   : BitVec 48
  cap0Ns   : Word
  cap0Sec  : Word
  cap1Ns   : Word
  cap1Sec  : Word
  disc     : Bool
  deriving DecidableEq, Repr

/-- The common time registers (R602–R608, R624). -/
structure Tdc where
  running  : Bool           -- the time PLL has locked in step 5
  held     : Bool
  heldTo   : Fin 2          -- the domain a held switch names
  forced   : Bool           -- FORCE written since the hold began
  refused  : Bool
  cap0     : Bool
  cap1     : Bool
  ticksel  : Fin 2
  ppsw     : Byte
  phi      : Int            -- φ in units of 10⁻⁵ · 2⁻³² ns
  ppsOut   : Bool
  lastSec  : BitVec 48      -- seconds of the followed domain in the tc before
  deriving DecidableEq, Repr

/-- The calendar registers (R622–R624). -/
structure Cal where
  offset  : Word
  date    : Word
  time    : Word
  ns      : Word
  setDate : Word
  setTime : Word
  reject  : Bool
  reason  : BitVec 3
  deriving DecidableEq, Repr

/-- The states of the survey transaction unit (R225). -/
inductive SrvState where
  | idle
  | open
  | validating
  | logging
  | pending
  deriving DecidableEq, Repr

/-- The survey transaction unit (R225–R247). Instants are nanoseconds of tick time. -/
structure Srv where
  state    : SrvState
  done     : Bool
  tries    : BitVec 5
  affected : BitVec 4
  notReady : BitVec 4
  result   : BitVec 4
  retry    : BitVec 4
  txn      : Word
  applyNs  : Word
  applySec : BitVec 48
  instant  : Nat            -- T_c shown in SRV_INSTANT_*
  addr     : BitVec 20      -- word offset
  len      : BitVec 23
  chkType  : BitVec 16
  chkReason : Byte
  chkPos   : BitVec 22
  deriving DecidableEq, Repr

/-- What a transaction keeps beside its registers. -/
structure Txn where
  shadow   : SMap Byte
  image    : Option (List Byte)   -- the image in effect
  dirty    : List (Nat × Nat)     -- TYPE and scope of the sections a txn write changed (R232)
  txnWrote : Bool
  slotLen  : Nat                  -- L of R237
  ready    : Option (BitVec 4)    -- readiness at the sample (R239)
  cancelled : BitVec 4            -- cancelling events since the sample (R240)
  logged   : Nat                  -- SECTION records issued
  logDone  : Nat                  -- SECTION records completed
  firstSeq : Word
  planned  : Bool                 -- a common instant is fixed
  committing : Bool               -- switched; the survey commit record is on its way
  rbHeld   : Bool                 -- a ROLLBACK came after the sample of the current attempt (R244)
  applyNs  : Option Nat           -- apply time taken at COMMIT; none under NOW
  deriving DecidableEq, Repr

/-- One logbook record on its way to the window: TYPE, SRC, PLEN and time with its payload (R250). -/
structure LogRec where
  kind    : Byte
  src     : Byte
  sec     : BitVec 48
  ns      : Word
  payload : List Byte
  deriving DecidableEq, Repr

/-- The purpose of an initiator write in flight. -/
inductive LogDest where
  | plain
  | srvSection (txn : Word)       -- a SECTION record of that transaction
  | commit (txn : Word)           -- the COMMIT record of that transaction
  | snapshot
  | marker
  deriving DecidableEq, Repr

/-- The logbook writer (R248–R261). -/
structure Log where
  base     : BitVec 48
  size     : Word
  interval : BitVec 16
  dropped  : Byte
  compacting : Bool
  half     : Bool
  fail     : Bool
  run      : Bool
  fill     : BitVec 17
  next     : Word
  engQ     : List LogRec          -- records raised by the engine
  chQ      : Quad (List LogRec)   -- records raised by each channel
  lastCh   : Fin 4                -- channel served last; 3 at reset: the first round starts with CH0 (R38, log 23)
  inflight : List (LogDest × BitVec 42 × List Byte)  -- writes issued and not complete
  snapshot : List LogRec          -- rest of the snapshot being written
  snapHalf : Bool
  snapFirst : Word                -- SEQ of the snapshot's first record
  trigger  : Bool                 -- a compaction waits (R257)
  haltReq  : Bool                 -- HALT waits for the record in progress
  lastSec  : BitVec 48            -- TD0 seconds of the last compaction
  commitPay : List Byte           -- payload of the COMMIT record of the image in effect
  deriving DecidableEq, Repr

/-- Logbook recovery (R258) and requests from before ENGRST_N (R183). -/
structure Rec where
  reading : Option Nat            -- record index being read, half 1 after half 0
  wants   : Option Nat            -- record whose read waits for the requests from before ENGRST_N (R183)
  got     : SMap (List Byte)      -- records read
  staleR  : Nat                   -- reads and writes from before the last ENGRST_N
  staleW  : Nat
  lateR   : Nat                   -- reads and writes that timed out: their completions are discarded
  lateW   : Nat
  deriving DecidableEq, Repr

/-- FLT_ENG and the engine interrupt enables (R699). -/
structure FltEng where
  more   : Byte
  cause  : Byte
  fatal  : Bool
  supply : Bool
  valid  : Bool
  info   : Word
  irqEn  : BitVec 9
  deriving DecidableEq, Repr

/-! ### Station queues -/

/-- A command in a station queue (R516, R541). -/
structure Cmd where
  words  : List Word
  pusher : Fin 2            -- local core whose control core pushed it
  addr   : Word             -- code-window byte offset of the PUSH
  repidx : BitVec 16
  order  : Nat              -- push order within the channel (R496)
  feed   : Option Nat       -- the pass of a feed job (R561)
  deriving DecidableEq, Repr

/-- A scoreboard range: whole lines of one pool of the channel (R492). -/
structure Range where
  core  : Fin 2
  first : Nat
  last  : Nat
  write : Bool
  deriving DecidableEq, Repr

/-- A command issued and not complete (R545, R546). -/
structure Issued where
  cmd    : Cmd
  ranges : List Range
  tilesR : Byte
  tilesW : Byte
  ended  : Bool             -- its work has ended
  failed : Bool             -- it completes with an error
  deriving DecidableEq, Repr

/-- One station queue. -/
structure Queue where
  waiting : List Cmd
  issued  : List Issued
  deriving DecidableEq, Repr

/-! ### Array -/

/-- An exact integer with the markers of R299. -/
inductive Acc where
  | fin (v : Int)
  | pinf
  | ninf
  | void
  deriving DecidableEq, Repr

/-- A slice of a feeder entry: 32 bytes and four E8 codes (R311). -/
structure Slice where
  bytes : List Byte
  codes : List Byte
  deriving DecidableEq, Repr

/-- A state entry (R337). -/
structure Entry where
  copy0 : A40
  copy1 : A40
  cur   : Bool
  tag   : Bool
  deriving DecidableEq, Repr

/-- A word of an accumulator file updated in the cc in progress (R281, R332–R336). -/
structure CcWord where
  prior : A40               -- its value before every update of the cc, which a read of the cc returns
  copy  : Bool              -- the copy that held it
  base  : Option Acc        -- the base and contribution of the cc's writer, void after a second one; none: the prior value
  into  : Acc               -- the arrivals of the cc, their exact sum
  ovf   : Bool              -- the result is a finite sum that leaves the range
  deriving DecidableEq, Repr

/-- A write of a STATE or NORM stage of an issue of the gate pipe, applied at the start of a later cc (R356, R428). -/
structure StageWrite where
  due   : Nat
  order : Nat               -- its command
  word  : Nat
  val   : Acc
  deriving DecidableEq, Repr

/-- A run of accumulate-into contributions to consecutive words (R362). -/
structure Arrival where
  word : Nat
  vals : List Acc
  src  : Option Nat         -- descriptor that sent it
  peer : Option Nat         -- inbound packet or collective copy it belongs to, by job number
  flits : Nat               -- flits of the inbound buffer it empties; 0 for a collective's local copy
  own  : Option Nat         -- sibling pass that sent it, by order
  deriving DecidableEq, Repr

/-- What the feeder of a pass reads next (R373, R375, R562). -/
inductive FeedPhase where
  | init
  | csel
  | mask
  | vec
  | done
  deriving DecidableEq, Repr

/-- A feeder entry: its vector, its reset code, its slices by logical row; a loop row's slice is taken at entry. -/
structure FeedEntry where
  v      : Nat
  code   : BitVec 2
  slices : List Slice
  deriving DecidableEq, Repr

/-- A pass on an array (R561–R564). `prof` is its profile with the command's words put in, then XADDR. -/
structure Pass where
  order   : Nat
  isStep  : Bool
  prof    : List Word
  vecs    : Nat
  slots   : Nat
  fedOn   : Bool            -- its feed job has issued
  fed     : Nat             -- next vector to feed
  phase   : FeedPhase
  asked   : Bool            -- the reads of the phase have been asked for
  lines   : Nat             -- line reads of the phase not yet arrived
  buf     : SMap Byte       -- bytes read, by pool offset
  voidWs  : List Nat        -- 64-bit words of the phase that met a double-bit error
  initV   : List F20
  csel    : List Byte
  mask    : List Byte       -- mask of the step being fed
  entries : List FeedEntry
  emitted : Nat             -- values emitted so far
  finals  : SMap Byte       -- FINAL bits gathered, by pool offset
  finalsOut : Bool          -- the FINAL bits are on their way to the pool
  deliv   : SMap Nat        -- deliveries of each SEQ entry so far (R426)
  err     : Bool
  deriving DecidableEq, Repr

/-- Outputs of one vector on their way to the drip stage (R307, R308). -/
structure OutVec where
  order : Nat
  part  : Nat
  v     : Nat
  vals  : List Acc
  sib   : List Acc          -- the columns its sibling array adds (R392); none but for SPAN
  codes : List (Option (BitVec 17))  -- decay codes taken at entry, by column group; none is void
  ending : Bool
  deriving DecidableEq, Repr

/-- Words that a pass with EMIT has written, to be emitted once the cc of the write is over (R349). -/
structure EmitJob where
  order  : Nat
  v      : Nat
  word   : Nat
  count  : Nat
  ending : Bool
  deriving DecidableEq, Repr

/-- A stream bound for GATEn (R382, R385). -/
structure Stream where
  order  : Nat
  slot   : Nat
  v      : Nat
  ending : Bool
  drip   : SMap F20         -- pre-activations received, by column
  entry  : Nat              -- SEQ entry being issued
  group  : Nat              -- lane group being issued
  looped : SMap F20         -- looped elements written by the step
  inGate : Bool             -- in flight: GATEn has taken its values out of the emit buffer (R353, R385)
  stAt   : Nat              -- cc of its latest STATE stage; 0 before one (R376)
  deriving DecidableEq, Repr

/-- A CHAIN command in progress (R430). -/
structure ChainRun where
  order : Nat
  prof  : List Word
  items : Nat
  item  : Nat
  entry : Nat
  group : Nat
  deliv : SMap Nat          -- deliveries of each SEQ entry so far (R426)
  drip  : Option (List F20) -- the item's drip values, once taken (IN DRIP)
  started : Bool            -- the item is in flight: its first issue has been made (R417, R455)
  isLocal : Bool            -- NORM_LOCAL mark (R452)
  sum   : Acc
  sq    : Acc
  deriving DecidableEq, Repr

/-- A DRAIN in progress (R349): next word, words left, values emitted. -/
structure DrainRun where
  order : Nat
  word  : Nat
  left  : Nat
  done  : Nat
  prof  : List Word
  deriving DecidableEq, Repr

/-- The state clear that an END step leaves (R376). -/
structure EndClear where
  first : Nat
  count : Nat
  order : Nat
  slot  : Nat
  due   : Nat               -- cc of the clear
  deriving DecidableEq, Repr

/-- A loop slice waiting for the requantiser (R357, R358). -/
structure SliceJob where
  order : Nat
  slot  : Nat
  n     : Nat               -- slice number
  prof  : List Word
  vals  : List F20
  deriving DecidableEq, Repr

/-- A partition of the survey (R216). -/
structure Part where
  first  : Nat
  bands  : Nat
  shapes : BitVec 6
  deflt  : Nat
  deriving DecidableEq, Repr

/-- The survey settings of an array (R215–R217). -/
structure ArrCfg where
  used       : Bool
  arrange    : Bool
  feedDepth  : Nat
  parts      : List Part
  stateElems : Nat
  chainBase  : Nat
  chains     : List (List Byte)
  deriving DecidableEq, Repr

/-- The weight staging buffer (R321). -/
structure Staging where
  order  : Nat
  part   : Nat
  logr   : Nat
  w4     : Bool
  col    : Bool
  logbs  : Nat
  image  : List Byte
  left   : Nat              -- cc of writes left of a swap that has begun (R322)
  parity : Bool             -- that swap has found a parity error (R324)
  deriving DecidableEq, Repr

/-- ARR_ registers and the array proper (R327, R319, R321). -/
structure ArrReg where
  faulted   : Bool
  reload    : Byte
  logr      : BitVec 24
  vecs      : Word
  feedstall : Word
  bpstall   : Word
  parity    : BitVec 16
  swaps     : BitVec 16
  hold      : Bool
  weights   : SMap Byte     -- stationary bytes: 1024 · row + 32 · q + k
  wscale    : SMap Byte     -- scale codes: 2 · byte, and 2 · byte + 1 for the high element of a 4-bit pair
  wwidth    : BitVec 8      -- width last swapped into each partition, 1 for 4-bit
  wloaded   : BitVec 8      -- a WLOAD has written the partition
  staging   : Option Staging
  deriving DecidableEq, Repr

/-- ARR_STATUS.SWAPPING: the partition whose swap has begun (R322, R327). -/
def ArrReg.swapping (r : ArrReg) : Byte :=
  match r.staging with
  | some g => if g.left = 0 then 0 else BitVec.ofNat 8 (2 ^ g.part)
  | none => 0

/-- The accumulator file and its registers (R329–R368). -/
structure AccFile where
  scratch  : SMap A40
  entries  : SMap Entry
  tagErr   : Bool
  clash    : Bool
  gen      : Word
  rollbacks : BitVec 16
  overflows : BitVec 16
  corr     : BitVec 16
  uncorr   : Byte
  eccValid : Bool
  eccCopy  : Bool
  eccWord  : BitVec 16
  upd      : SMap CcWord    -- words updated in the cc in progress
  pend     : List StageWrite
  deriving DecidableEq, Repr

/-- The drip stage, decay and parameter stores (R345–R355). -/
structure Drip where
  flags  : BitVec 6
  decay  : SMap (BitVec 17)
  scale  : SMap F20
  bias   : SMap F20
  feedQ  : List (BitVec 17) -- decay feed queue
  feedVoid : List Nat       -- positions of feedQ whose code is void
  emit   : List F20         -- emit buffer bound for GATEn, for CHAIN commands
  runs   : List (Nat × Nat) -- whose values those are: order of the command, count
  deriving DecidableEq, Repr

/-- The step registers (R398). -/
structure StepReg where
  lat    : Byte
  count  : Word
  primes : BitVec 16
  ends   : BitVec 16
  gidle  : Word
  deriving DecidableEq, Repr

/-- The gate pipe registers (R455). -/
structure GateReg where
  flags   : BitVec 6
  desc    : BitVec 6
  issues  : Word
  loc     : BitVec 16
  voided  : BitVec 16
  notable : BitVec 16
  deriving DecidableEq, Repr

/-- The histogram unit (R290–R297). -/
structure Hist where
  en   : Bool
  pool : Bool
  src  : Bool
  seq  : Word
  sat  : Bool
  ovr  : Bool
  line : BitVec 12
  bins : SMap (BitVec 24)
  snap : SMap (BitVec 24)
  due  : Bool               -- a snapshot waits for its pool write
  deriving DecidableEq, Repr

/-- What an array has done in the cc in progress (R307, R333, R349, R388, R417). -/
structure ArrCc where
  entered  : Byte           -- partitions a vector has entered
  received : Byte           -- partitions whose outputs the drip stage has taken
  drew     : Bool           -- the drip stage has read words for a DRAIN
  into     : Nat            -- words of DMA and peer arrivals applied
  issued   : Bool           -- the gate pipe has made an issue
  deriving DecidableEq, Repr

def ArrCc.none : ArrCc := { entered := 0, received := 0, drew := false, into := 0, issued := false }

/-- ARR_FLT and ARR_FLT_INFO (R701). -/
structure ArrFlt where
  more  : Byte
  cause : Byte
  cls   : BitVec 3
  valid : Bool
  info  : Word
  deriving DecidableEq, Repr

/-- One array with its feeder, drip stage and gate pipe. -/
structure Arr where
  cfg      : ArrCfg
  reg      : ArrReg
  acc      : AccFile
  drip     : Drip
  stepReg  : StepReg
  gate     : GateReg
  hist     : Hist
  flt      : ArrFlt
  profiles : SMap Word      -- word 32 · profile + i
  passes   : List Pass
  outs     : List OutVec
  emits    : List EmitJob
  drains   : List DrainRun
  arrivals : List Arrival
  loopStore : SMap Slice    -- valid slices: 2 · (first entry / 32), plus 1 for S4
  streams  : List Stream
  chainRun : List ChainRun
  links    : SMap F20       -- link registers written: ((owner · 32 + group) · 4 + L) · 32 + lane
  slices   : List SliceJob
  clears   : List EndClear
  cc       : ArrCc
  deriving DecidableEq, Repr

/-! ### Core -/

/-- CORE_FLT and CORE_LOCK (R701). -/
structure CoreFlt where
  more      : Byte
  cause     : Byte
  cls       : BitVec 3
  esc       : Bool
  arr       : Bool
  valid     : Bool
  info      : Word
  cmpbOff   : Bool
  cmpaOff   : Bool
  misses    : Byte
  uncharged : Byte
  charges   : Byte
  testing   : Bool          -- a self-test is in progress (R684)
  deriving DecidableEq, Repr

/-- The architectural registers of a control core (R510). -/
structure CcRegs where
  x     : SMap Word
  a     : SMap Word
  ainc  : SMap Word
  q     : SMap Word
  qpend : SMap Nat          -- summaries still to come, by q register (R474)
  next  : BitVec 4          -- next-list index
  deriving DecidableEq, Repr

/-- A q register whose summary is still to come (R474). -/
def CcRegs.pends (r : CcRegs) (q : Nat) : Bool := r.qpend.any fun e => e.1 == q

/-- A PUSH that has been run and not yet entered its queue (R516, R520, R535). -/
structure PushStall where
  queue  : BitVec 4
  n      : BitVec 4
  guard  : BitVec 5
  subst  : BitVec 13
  words  : List Word
  left   : Nat              -- repeats still to run, this one included
  repidx : BitVec 16
  brk    : Bool             -- stalled at a breakpoint
  deriving DecidableEq, Repr

/-- The control core's registers and replay (R510–R540). -/
structure Cc where
  r        : CcRegs
  saved    : CcRegs         -- as recorded at the last commit (R527)
  p        : SMap Word      -- live parameters
  ps       : SMap Word      -- staged parameters
  psCommit : SMap Word      -- staged values less what PNEXT wrote since the commit
  halt     : Bool
  list     : Bool           -- a replay runs
  unchecked : Bool
  reason   : Byte
  haltAddr : Word
  repIdx   : BitVec 16
  haltTag  : Byte
  haltQ    : BitVec 4
  base     : Word           -- CC_LIST
  len      : Nat
  pos      : Nat            -- word position in the list
  pushes   : Word
  replays  : Word
  trig     : Bool
  tcairn   : BitVec 11
  brkMode  : BitVec 2
  brkAct   : Bool
  brkMask  : Byte
  brkTag   : Byte
  brkCount : Word
  selBase  : SMap Word
  selLen   : SMap (BitVec 15)
  rep      : Option Nat     -- COUNT of a REP whose PUSH is next
  stall    : Option PushStall
  qwait    : Option (BitVec 3)  -- pending q register the next instruction is stalled on (R474)
  psBy     : SMap Nat       -- staged values written in the cc in progress, by DMA 1 or by the host 2 (R523)
  cmp      : Nat            -- cc until the checking core has compared the last instruction retired (R532, R671)
  deriving DecidableEq, Repr

/-- The instruction cache (R528, R529): lines held by granule, least recently used first. -/
structure ICache where
  lines  : List (BitVec 42)
  code   : SMap Word         -- their words, by host physical address / 4
  misses : BitVec 16
  parity : Byte
  wants  : List (BitVec 42)  -- fills wanted and not yet requested
  wait   : Option (BitVec 42)  -- line the next instruction waits on
  deriving DecidableEq, Repr

/-- Where pool read data goes, and what a pool write is for. -/
inductive PoolDest where
  | feed (j : Fin 2) (order : Nat)
  | drip (j : Fin 2) (order vals : Nat)
  | final (j : Fin 2) (order : Nat)
  | dma (desc : Nat) (pos len : Nat)
  | ring (r : Fin 4) (frame beats : Nat)   -- with the beats of the inbound buffer it empties
  | window (slot flits : Nat)              -- with the flits of the inbound buffer it empties
  | load (id : Nat)                        -- an image line of a load, a FRAME or a PSEND
  | laneIn                                 -- a line of an input stream of the LRUN in progress
  | laneOut
  | siphIn                                 -- a line of the sweep at hand, or of the initial states
  | siphOut
  | ccLoad (rd : BitVec 5) (off : Nat)     -- an LW of the control core
  | ccStore
  | host (off : Nat)                       -- the access of the host's debug window
  | hist (j : Fin 2)                       -- a histogram snapshot
  deriving DecidableEq, Repr

/-- A pool access waiting for its wheel slot: a read, or a write of the bytes listed (R484–R488). -/
structure PoolAcc where
  client : BitVec 4
  line   : Nat
  write  : Option (List (Nat × Byte))
  dest   : PoolDest
  deriving DecidableEq, Repr

/-- Read data on its way to its client (R489). -/
structure PoolRd where
  client : BitVec 4
  line   : Nat
  data   : List Byte
  bads   : List Nat         -- its 64-bit words in double error
  due    : Nat              -- cc at whose start it arrives
  dest   : PoolDest
  deriving DecidableEq, Repr

/-- The pool and its registers (R480–R508). -/
structure Pool where
  mem     : SMap Byte
  bad     : List Nat        -- 64-bit words whose check bits show a double-bit error
  corr    : BitVec 16
  uncorr  : Byte
  valid   : Bool
  client  : BitVec 4
  word    : BitVec 16
  sbstall : Word
  acc     : List PoolAcc
  rdq     : List PoolRd
  deriving DecidableEq, Repr

/-- SIPH_ registers and the SIPHON in progress (R400–R415). -/
structure Siph where
  busy    : Bool
  aborted : Bool
  gate    : Bool
  arr     : Bool
  sweep   : BitVec 5
  passes  : Word
  ops     : Word
  run     : Option (Nat × List Word)  -- order and words of the SIPHON in progress
  nextSweep : Nat           -- sweep to run next
  h0      : List F20        -- initial states taken (R405)
  primed  : Bool            -- the initial states have been taken
  left    : Nat             -- lines asked for that have not arrived
  buf     : SMap Byte       -- lines that have
  bads    : List Nat        -- their words in double error
  deriving DecidableEq, Repr

/-- An LRUN in progress (R465–R475). -/
structure LaneRun where
  order  : Nat
  words  : List Word
  round  : Nat
  v      : SMap F20         -- 64 · register + lane
  contrib : List (Nat × F20) -- reduction contributions, by element
  left   : Nat              -- lines of the round asked for that have not arrived
  buf    : SMap Byte        -- lines that have
  bads   : List Nat         -- their words in double error
  done   : Bool             -- the last round has run
  deriving DecidableEq, Repr

/-- LANE_ and TILE_ registers, tiles and lane processors (R456–R479). -/
structure Lane where
  busy   : Bool
  pc     : BitVec 6
  round  : BitVec 10
  flags  : BitVec 4
  rounds : Word
  stall  : Word
  clash  : Bool
  tiles  : SMap F20         -- 1024 · T + 32 · row + column
  upd    : SMap F20         -- elements written in the cc in progress, as they stood before it (R460)
  store  : SMap (BitVec 64)
  run    : Option LaneRun
  sumry  : Option (Fin 8 × Word)  -- summary on its way to its q register
  deriving DecidableEq, Repr

/-- The ends towards LAUNCH and PEER (R569). -/
structure Ends where
  gateL : Duo (List Byte)
  laneL : List Byte
  gateP : Duo (List Byte)
  laneP : List Byte
  deriving DecidableEq, Repr

/-- A peer window of the survey (R214). -/
structure PeerWin where
  id     : Nat
  kind   : Nat
  cairn  : Nat
  offset : Nat
  length : Nat
  deriving DecidableEq, Repr

/-- The survey settings of a core (R211–R214). -/
structure CoreCfg where
  used    : Bool
  qdepth  : List Nat
  connect : BitVec 14
  wheel   : List (List (BitVec 4))  -- 16 banks of 16 slots
  wins    : List PeerWin
  deriving DecidableEq, Repr

/-- A read of a pool image under way: a load's, a FRAME's, or that of one packet of a PSEND (R348, R464, R476, R506,
R558, R615, R646). -/
structure Load where
  id    : Nat
  q     : QId
  cmd   : Cmd
  part  : Nat               -- the packet, by serial
  off   : Nat
  len   : Nat
  left  : Nat               -- lines that have not arrived
  buf   : SMap Byte
  deriving DecidableEq, Repr

/-- One core. -/
structure Core where
  cfg    : CoreCfg
  flt    : CoreFlt
  cc     : Cc
  icache : ICache
  queues : List Queue       -- FEED0, FEED1, ARR0, ARR1, GATE0, GATE1, LANE
  pool   : Pool
  siph   : Siph
  lane   : Lane
  ends   : Ends
  loads  : List Load
  loadNext : Nat
  arrs   : Duo Arr
  deriving DecidableEq, Repr

/-! ### Channel -/

/-- CH_CTRL.STATE (R174). -/
inductive ChState where
  | reset
  | idle
  | armed
  | running
  | halted
  | lost
  | failed
  | gated
  deriving DecidableEq, Repr

/-- Control, clock and tick registers (R149, R174, R486, R625). -/
structure ChCtl where
  state    : ChState
  run      : Bool
  runOff   : Bool           -- a RUN 0 waits for the tick (R177)
  freq     : BitVec 7
  eff      : BitVec 7
  ramp     : Bool
  cc       : Nat            -- cc since the channel left reset
  sfn      : BitVec 10
  slot     : Byte
  tauS     : Nat            -- tick instant that began the slot in progress, ns
  guard    : BitVec 16
  mu       : BitVec 3
  commits  : Word
  overruns : Word
  ovr      : Bool
  gap      : Bool
  slack    : BitVec 24
  inGap    : Bool
  drained  : Option Nat     -- cc at which the channel became drained
  forcedTick : Option Nat   -- next tick instant set by a forced step (R607)
  switched : Option Bool    -- from T_c to its tick: the ending slot has committed under the old image, whose LATE this is (R240)
  deriving DecidableEq, Repr

/-- CH_PORTERR and CH_MPERR (R103–R106). -/
structure PortErr where
  bits   : BitVec 11
  more   : Byte
  valid  : Bool
  status : BitVec 2
  op     : BitVec 2
  addr   : BitVec 42
  deriving DecidableEq, Repr

/-- Fault registers of a channel and orders not yet acted on (R668–R670, R690, R700). -/
structure ChFlt where
  irqEn   : BitVec 9
  more    : Byte
  cause   : Byte
  origin  : BitVec 4
  cls     : BitVec 3
  esc     : Bool
  valid   : Bool
  info    : Word
  tag     : BitVec 16
  quar    : BitVec 2
  unquar  : BitVec 2        -- cores released at the next tick
  qwin    : Word
  swCount : BitVec 13
  dl      : List (Bool × Bool × BitVec 17 × BitVec 24)  -- CH_DLk: VALID, BARRIER, WHAT, COUNT
  rbOrder : Bool            -- a rollback is ordered
  haltOrder : Option (Byte × Option (Fin 2))  -- a halt is ordered: reason, core that caused it
  lostOrder : Bool          -- CH_LOST is ordered
  rbAt    : Option Nat      -- cc of the latest rollback (R670)
  rolled  : Bool            -- rolled back since the last tick (R667)
  deriving DecidableEq, Repr

/-- One cairn (R572–R582). -/
structure Cairn where
  count   : BitVec 24
  err     : Bool
  under   : Bool
  record  : BitVec 24       -- C of R581
  outside : Int             -- E of R581
  sums    : List (BitVec 24)  -- pending sums by class
  applied : Nat             -- increments applied in this cc
  deriving DecidableEq, Repr

/-- The cairns of a channel and their registers (R572, R583). -/
structure Cairns where
  cells  : SMap Cairn
  cfg    : SMap (BitVec 6 × BitVec 17)  -- SOURCES and OWNERS of listed cairns
  more   : Byte
  kind   : BitVec 3
  cls    : BitVec 3
  valid  : Bool
  cairn  : BitVec 11
  deferd : Word
  deriving DecidableEq, Repr

/-- What a memory-port request is for (R79, R528, R587, R589). -/
inductive MpPurpose where
  | code (k : Fin 2) (snooped : Bool)
  | fetch (order burst part : Nat)
  | data (desc pos len : Nat)   -- read bytes pos … of a descriptor
  | store (desc pos len : Nat)  -- write bytes pos … of a descriptor
  | dropped                     -- of a descriptor that R550 discarded (R592)
  deriving DecidableEq, Repr

/-- An outstanding memory-port request (R74, R75). -/
structure MpReq where
  tag     : Byte
  op      : BitVec 2
  granule : BitVec 42
  mask    : BitVec 64
  data    : List Byte
  purpose : MpPurpose
  stale   : Bool            -- issued before the channel's reset (R82)
  deriving DecidableEq, Repr

/-- A descriptor in the DMA engine (R584–R591). -/
structure Desc where
  id     : Nat
  order  : Nat              -- its XFER
  index  : Nat
  tag    : Byte
  host   : BitVec 48        -- its own address
  src    : Nat
  kinds  : Byte
  flags  : Byte
  dst    : Nat
  cairn  : BitVec 16
  len    : Nat
  rows   : Nat
  sstride : Nat
  dstride : Nat
  reqPos : Nat              -- source bytes requested
  got    : SMap Byte        -- source bytes arrived, by position
  putPos : Nat              -- bytes handed to the destination
  donePos : Nat             -- bytes whose effect is applied
  deriving DecidableEq, Repr

/-- An XFER issued and not complete (R587). -/
structure Xfer where
  order  : Nat
  tag    : Byte
  count  : Nat
  addr   : Nat
  ranges : List (BitVec 32)
  burst  : Nat              -- next burst to fetch
  part   : Nat              -- next granule of that burst
  got    : SMap Byte        -- bytes of the burst in fetch, by address
  waiting : Nat             -- granules of the burst in flight
  bad    : Bool             -- a granule of the burst failed
  left   : Nat              -- descriptors not yet completed or failed
  deriving DecidableEq, Repr

/-- The DMA engine and its registers (R593, R597). -/
structure Dma where
  xfers   : List Xfer
  descs   : List Desc
  nextId  : Nat
  rd      : BitVec 5
  wr      : BitVec 5
  rem     : BitVec 5
  frame   : List (Fin 3)
  ptr     : Fin 32
  more    : Byte
  tag     : Byte
  desc    : BitVec 9
  reason  : BitVec 4
  valid   : Bool
  errAddr : BitVec 48
  granRd  : Word
  granWr  : Word
  granRem : Word
  slotLost : Word
  deriving DecidableEq, Repr

/-- The memory port (R74–R88). -/
structure RetiredTag where
  tag   : Byte
  quiet : Bool              -- of a request from before the channel's latest reset: its response sets no bit (R82)
  free  : Bool              -- retired before that reset: the tag may be used again (R80)
  deriving DecidableEq, Repr

/-- A memory port (R74–R89). -/
structure Mp where
  reqs    : List MpReq
  retired : List RetiredTag
  answers : List (Bool × Bool × BitVec 42)  -- MPn_SNO: KIND eviction, HIT, granule
  deriving DecidableEq, Repr

/-- A frame held by the launch station (R615). -/
structure Frame where
  order   : Nat
  domain  : Fin 2
  peer    : Bool
  prov    : Bool            -- PROV (R619)
  src     : BitVec 2
  cen     : Bool
  cairn   : BitVec 11
  ns      : Word
  sec     : BitVec 48
  len     : Nat             -- bytes of the frame
  core    : Fin 2           -- core of its end
  data    : List Byte
  elig    : Bool
  late    : Bool
  sfn     : BitVec 10
  slot    : Byte
  serial  : Nat             -- completion order
  whole   : Bool            -- its FRAME has completed
  deriving DecidableEq, Repr

/-- The launch station (R615–R625). -/
structure Lch where
  frames  : List Frame
  serial  : Nat
  sent    : Word
  lateSent : BitVec 16
  dropped : BitVec 16
  voided  : BitVec 16
  refused : BitVec 16
  slips   : Word
  provRef : BitVec 16
  deriving DecidableEq, Repr

/-- One partner entry (R627, R636, R655). -/
structure Partner where
  node     : Word
  epoch    : BitVec 16
  ver      : Byte
  pstate   : BitVec 3
  state    : BitVec 3
  offset   : Word
  refused  : BitVec 16
  hellos   : BitVec 16
  lastHello : Option Nat    -- τ of the last HELLO, ns
  hisVer   : Byte
  hisFp    : BitVec 64
  hisEpoch : BitVec 16      -- EPOCH of its latest HELLO
  closed   : Bool           -- a CLOSE came since the last HELLO
  measured : Bool           -- an offset measured since AGREE or SKEW was left
  lost     : Bool
  deriving DecidableEq, Repr

/-- A packet in the inbound hold store (R649). -/
structure Held where
  entry : Fin 8
  body  : DataBody
  dead  : Bool              -- its partner has been lost
  deriving DecidableEq, Repr

/-- A data packet that waits to leave (`sent` false) or for its ACK (R644, R646). A collective waits whole until its
payload is popped, then as one packet per participant (R647). -/
structure OutPkt where
  serial : Nat
  entry  : Fin 8
  acc    : Bool             -- ACC_INTO
  body   : DataBody
  len    : Nat
  ends   : Option (Fin 3 × Fin 2)  -- queue end its payload is still to be popped from: GATE0, GATE1, LANE; core
  split  : Bool             -- one participant's packet of a collective
  dma    : Option Nat       -- descriptor that sends it
  psend  : Option Nat       -- PSEND that sends it, by order
  wait   : Bool             -- its payload is still being read from a pool
  sent   : Bool
  deriving DecidableEq, Repr

/-- A control packet (R630, R631): its 20 body bytes. -/
structure CtlPkt where
  type  : Byte
  ver   : Byte
  dest  : Word
  body  : List Byte
  deriving DecidableEq, Repr

/-- An accepted data packet whose bytes or words are being applied (R499, R643); `peer` is its partner entry and the
SEQ and EPOCH its ACK carries, none for the local copy of a collective (R647). -/
structure WinJob where
  slot  : Nat
  core  : Fin 2
  win   : BitVec 4
  cairn : Nat
  tag   : BitVec 16
  first : Nat
  last  : Nat
  peer  : Option (Fin 8 × BitVec 16 × Word)
  deriving DecidableEq, Repr

/-- The peer station and port (R626–R655). -/
structure Peer where
  node    : Word
  halted  : Bool
  strangers : Byte
  coll    : Byte
  dups    : Word
  voided  : BitVec 16
  held    : BitVec 16
  errMore : Byte
  errValid : Bool
  errStatus : BitVec 4
  errSide : Bool
  errEntry : Fin 8
  errWin  : BitVec 5
  staleValid : Bool
  staleEntry : Fin 8
  staleWin : BitVec 5
  staleTag : BitVec 16
  staleLast : BitVec 12
  staleFirst : BitVec 12
  deriving DecidableEq, Repr

/-- A part of an accepted packet that is still in the port's inbound buffer: one pool line, or one run of words of an
array's accumulator (R498, R500). -/
structure InPiece where
  core  : Fin 2
  slot  : Nat               -- its job
  flits : Nat
  acc   : Option PoolAcc
  run   : Option (Fin 2 × Arrival)
  deriving DecidableEq, Repr

/-- The peer protocol's stores (R641–R651). -/
structure PeerSt where
  parts    : List Partner
  lastSeen : SMap Word        -- (entry · 32 + core · 16 + window) → SEQ
  sendSeq  : SMap Word        -- next SEQ less 1, by the same key
  holds    : List Held
  ledger   : List (Nat × BitVec 16 × Nat × Nat × Nat)  -- pair key, tag, count, first and last unit
  out      : List OutPkt
  serial   : Nat
  ctl      : List CtlPkt      -- control packets that wait for an outbound credit
  gone     : List CtlPkt      -- control packets that have left
  winJobs  : List WinJob
  winSlot  : Nat
  sentTo   : BitVec 8         -- partners the slot in progress sent data packets to
  linkUp   : Bool
  ocredit  : Byte
  owed     : Nat              -- flits of the packet that leaves that still wait for a credit (R97, R98)
  inq      : List InPiece     -- parts of accepted packets not yet on their way to the pool or the file
  ifill    : Nat              -- flits of those that are on their way and have not landed (R99, R502)
  deriving DecidableEq, Repr

/-- A receive ring (R660–R662, R665). -/
structure Ring where
  en     : Bool
  type   : BitVec 4
  stream : Byte
  form   : BitVec 2
  logbs  : BitVec 4
  core   : Fin 2
  elines : BitVec 12
  base   : BitVec 12
  nent   : BitVec 4
  cairn  : BitVec 11
  frames : BitVec 16
  next   : BitVec 4
  due    : Nat              -- entries fully written and not yet signalled
  deriving DecidableEq, Repr

/-- A header template (R663, R665). -/
structure Tmpl where
  a : BitVec 24
  b : BitVec 24
  c : Word
  d : Word
  deriving DecidableEq, Repr

/-- The radio port (R90–R97, R656–R665). -/
structure Rp where
  ocredit : Byte
  ifill   : Nat             -- beats of the inbound buffer whose ring writes wait for their slots (R92, R706)
  inq     : List (Fin 2 × PoolAcc)  -- ring writes, with their core, of beats behind those
  serial  : Nat             -- frames taken for a ring: the number of the next
  ix      : Bool
  frames  : Word
  noMatch : Byte
  tooBig  : Byte
  oType   : Byte
  sent    : Word
  rings   : List Ring
  tmpls   : List Tmpl
  lastOut : List Byte       -- the frame that left last
  owed    : Nat             -- its beats that still wait for a credit
  deriving DecidableEq, Repr

/-- A memory window of the survey (R207). -/
structure MemWin where
  base  : Nat
  pages : Nat
  kind  : Nat
  deriving DecidableEq, Repr

/-- A constellation table (R218). -/
structure ConstTab where
  qfrac  : Nat
  points : List Word
  deriving DecidableEq, Repr

/-- A user function slot (R219). -/
structure UFunc where
  nsteps : Nat
  steps  : List (BitVec 64)
  table  : List F20
  deriving DecidableEq, Repr

/-- The survey settings of a channel (R203, R207, R218, R219). -/
structure ChCfg where
  active   : Bool
  cores    : BitVec 2
  mu       : Nat
  freq     : Nat
  guard    : Nat
  rd       : Nat
  wr       : Nat
  rem      : Nat
  late     : Bool
  prov     : Bool
  selftest : Bool
  norm     : Bool
  radioEn  : Bool
  peerEn   : Bool
  cmdTimeout : Nat
  wins     : List MemWin
  consts   : SMap ConstTab
  ufuncs   : SMap UFunc
  deriving DecidableEq, Repr

/-- One channel. -/
structure Chan where
  cfg     : ChCfg
  ctl     : ChCtl
  port    : PortErr
  flt     : ChFlt
  tickPend : List (Nat × Word)  -- tick-access writes held, by channel-relative or histogram address
  crn     : Cairns
  serial  : Nat                 -- push order of the next command
  dmaQ    : Queue
  launchQ : Queue
  peerQ   : Queue
  dma     : Dma
  mp      : Mp
  lch     : Lch
  peer    : Peer
  peers   : PeerSt
  rp      : Rp
  cores   : Duo Core
  deriving DecidableEq, Repr

/-- The state of the block. -/
structure State where
  pending : List Instr
  free    : Nat
  eng     : Eng
  boot    : Boot
  hperr   : HpErr
  tap     : Tap
  clk     : Clk
  pwr     : Pwr
  thm     : Thm
  td      : Duo Td
  tdc     : Tdc
  cal     : Cal
  srv     : Srv
  txn     : Txn
  log     : Log
  recov   : Rec
  flt     : FltEng
  tdSel   : Fin 2           -- ENGINE.TD_SEL of the survey in effect
  tdMax   : Nat             -- ENGINE.TD_SWITCH_MAX
  ch      : Quad Chan
  deriving DecidableEq, Repr

/-! ### Reset values -/

def Queue.empty : Queue := { waiting := [], issued := [] }

def ArrCfg.none : ArrCfg :=
  { used := false, arrange := false, feedDepth := 16, parts := [], stateElems := 0, chainBase := 0, chains := [] }

def ArrReg.reset : ArrReg :=
  { faulted := false, reload := 0, logr := 0, vecs := 0, feedstall := 0, bpstall := 0, parity := 0,
    swaps := 0, hold := false, weights := [], wscale := [], wwidth := 0, wloaded := 0, staging := none }

def AccFile.reset : AccFile :=
  { scratch := [], entries := [], tagErr := false, clash := false, gen := 0, rollbacks := 0, overflows := 0,
    corr := 0, uncorr := 0, eccValid := false, eccCopy := false, eccWord := 0, upd := [], pend := [] }

def Drip.reset : Drip :=
  { flags := 0, decay := [], scale := [], bias := [], feedQ := [], feedVoid := [], emit := [], runs := [] }

def StepReg.reset : StepReg := { lat := 0, count := 0, primes := 0, ends := 0, gidle := 0 }

def GateReg.reset : GateReg := { flags := 0, desc := 0, issues := 0, loc := 0, voided := 0, notable := 0 }

def Hist.reset : Hist :=
  { en := false, pool := false, src := false, seq := 0, sat := false, ovr := false, line := 0, bins := [], snap := [],
    due := false }

def ArrFlt.reset : ArrFlt := { more := 0, cause := 0, cls := 0, valid := false, info := 0 }

def Arr.reset : Arr :=
  { cfg := .none, reg := .reset, acc := .reset, drip := .reset, stepReg := .reset, gate := .reset, hist := .reset,
    flt := .reset, profiles := [], passes := [], outs := [], emits := [], drains := [], arrivals := [], loopStore := [],
    streams := [], chainRun := [], links := [], slices := [], clears := [], cc := .none }

def CoreFlt.reset : CoreFlt :=
  { more := 0, cause := 0, cls := 0, esc := false, arr := false, valid := false, info := 0, cmpbOff := false,
    cmpaOff := false, misses := 0, uncharged := 0, charges := 0, testing := false }

def CcRegs.reset : CcRegs := { x := [], a := [], ainc := [], q := [], qpend := [], next := 0 }

def Cc.reset : Cc :=
  { r := .reset, saved := .reset, p := [], ps := [], psCommit := [], halt := false, list := false, unchecked := false,
    reason := 0, haltAddr := 0, repIdx := 0, haltTag := 0, haltQ := 0, base := 0, len := 0, pos := 0, pushes := 0,
    replays := 0, trig := false, tcairn := 0, brkMode := 0, brkAct := false, brkMask := 0, brkTag := 0, brkCount := 0,
    selBase := [], selLen := [], rep := none, stall := none, qwait := none, psBy := [], cmp := 0 }

def ICache.reset : ICache := { lines := [], code := [], misses := 0, parity := 0, wants := [], wait := none }

def Pool.reset : Pool :=
  { mem := [], bad := [], corr := 0, uncorr := 0, valid := false, client := 0, word := 0, sbstall := 0,
    acc := [], rdq := [] }

def Siph.reset : Siph :=
  { busy := false, aborted := false, gate := false, arr := false, sweep := 0, passes := 0, ops := 0, run := none,
    nextSweep := 0, h0 := [], primed := false, left := 0, buf := [], bads := [] }

def Lane.reset : Lane :=
  { busy := false, pc := 0, round := 0, flags := 0, rounds := 0, stall := 0, clash := false, tiles := [], upd := [], store := [],
    run := none, sumry := none }

def Ends.reset : Ends := { gateL := ⟨[], []⟩, laneL := [], gateP := ⟨[], []⟩, laneP := [] }

def CoreCfg.none : CoreCfg := { used := false, qdepth := [], connect := 0, wheel := [], wins := [] }

def Core.reset : Core :=
  { cfg := .none, flt := .reset, cc := .reset, icache := .reset, queues := List.replicate 7 Queue.empty,
    pool := .reset, siph := .reset, lane := .reset, ends := .reset, loads := [], loadNext := 0, arrs := ⟨.reset, .reset⟩ }

def ChCtl.reset : ChCtl :=
  { state := .reset, run := false, runOff := false, freq := 24, eff := 24, ramp := false, cc := 0, sfn := 0, slot := 0,
    tauS := 0, guard := 0, mu := 0, commits := 0, overruns := 0, ovr := false, gap := false, slack := 0,
    inGap := false, drained := none, forcedTick := none, switched := none }

def PortErr.reset : PortErr := { bits := 0, more := 0, valid := false, status := 0, op := 0, addr := 0 }

def ChFlt.reset : ChFlt :=
  { irqEn := 0x1FF, more := 0, cause := 0, origin := 0, cls := 0, esc := false, valid := false, info := 0, tag := 0,
    quar := 0, unquar := 0, qwin := 0, swCount := 0, dl := List.replicate 19 (false, false, 0, 0), rbOrder := false,
    haltOrder := none, lostOrder := false, rbAt := none, rolled := false }

def Cairn.zero : Cairn :=
  { count := 0, err := false, under := false, record := 0, outside := 0, sums := [0, 0, 0, 0, 0, 0], applied := 0 }

def Cairns.reset : Cairns :=
  { cells := [], cfg := [], more := 0, kind := 0, cls := 0, valid := false, cairn := 0, deferd := 0 }

def Dma.reset : Dma :=
  { xfers := [], descs := [], nextId := 0, rd := 16, wr := 10, rem := 6, frame := [], ptr := 0, more := 0, tag := 0,
    desc := 0, reason := 0, valid := false, errAddr := 0, granRd := 0, granWr := 0, granRem := 0, slotLost := 0 }

def Mp.reset : Mp := { reqs := [], retired := [], answers := [] }

def Lch.reset : Lch :=
  { frames := [], serial := 0, sent := 0, lateSent := 0, dropped := 0, voided := 0, refused := 0, slips := 0,
    provRef := 0 }

def Partner.reset : Partner :=
  { node := 0, epoch := 0, ver := 0, pstate := 0, state := 0, offset := 0, refused := 0, hellos := 0,
    lastHello := none, hisVer := 0, hisFp := 0, hisEpoch := 0, closed := false, measured := false, lost := false }

def Peer.reset : Peer :=
  { node := 0, halted := false, strangers := 0, coll := 0, dups := 0, voided := 0, held := 0, errMore := 0,
    errValid := false, errStatus := 0, errSide := false, errEntry := 0, errWin := 0, staleValid := false,
    staleEntry := 0, staleWin := 0, staleTag := 0, staleLast := 0, staleFirst := 0 }

def PeerSt.reset : PeerSt :=
  { parts := List.replicate 8 Partner.reset, lastSeen := [], sendSeq := [], holds := [], ledger := [], out := [],
    serial := 0, ctl := [], gone := [], winJobs := [], winSlot := 0, sentTo := 0, linkUp := false, ocredit := 0,
    owed := 0, inq := [], ifill := 0 }

def Ring.reset : Ring :=
  { en := false, type := 0, stream := 0, form := 0, logbs := 5, core := 0, elines := 0, base := 0, nent := 0,
    cairn := 0, frames := 0, next := 0, due := 0 }

def Tmpl.reset : Tmpl := { a := 0, b := 0, c := 0, d := 0 }

def Rp.reset : Rp :=
  { ocredit := 0, ifill := 0, inq := [], serial := 0, ix := false, frames := 0, noMatch := 0, tooBig := 0, oType := 0, sent := 0,
    rings := List.replicate 4 Ring.reset, tmpls := List.replicate 3 Tmpl.reset, lastOut := [], owed := 0 }

def ChCfg.none : ChCfg :=
  { active := false, cores := 0, mu := 0, freq := 24, guard := 0, rd := 16, wr := 10, rem := 6, late := false,
    prov := false, selftest := false, norm := false, radioEn := false, peerEn := false, cmdTimeout := 0, wins := [],
    consts := [], ufuncs := [] }

def Chan.reset : Chan :=
  { cfg := .none, ctl := .reset, port := .reset, flt := .reset, tickPend := [], crn := .reset, serial := 0,
    dmaQ := .empty, launchQ := .empty, peerQ := .empty, dma := .reset, mp := .reset, lch := .reset, peer := .reset,
    peers := .reset, rp := .reset, cores := ⟨.reset, .reset⟩ }

def Td.reset : Td :=
  { sec := 0, ns := 0, frac := 0, incInt := 2, incFrac := 0x08D55555, heldFrac := none, incNext := none,
    stepNext := none, latSec := 0, latFrac := 0, adj := 0, setNs := 0, setSec := 0, cap0Ns := 0, cap0Sec := 0,
    cap1Ns := 0, cap1Sec := 0, disc := false }

def Tdc.reset : Tdc :=
  { running := false, held := false, heldTo := 0, forced := false, refused := false, cap0 := false, cap1 := false,
    ticksel := 0, ppsw := 100, phi := 0, ppsOut := false, lastSec := 0 }

def Cal.reset : Cal :=
  { offset := 0, date := 0, time := 0, ns := 0, setDate := 0, setTime := 0, reject := false, reason := 0 }

def Srv.reset : Srv :=
  { state := .idle, done := false, tries := 0, affected := 0, notReady := 0, result := 0, retry := 3, txn := 0,
    applyNs := 0, applySec := 0, instant := 0, addr := 0, len := 0, chkType := 0, chkReason := 0, chkPos := 0 }

def Txn.reset : Txn :=
  { shadow := [], image := none, dirty := [], txnWrote := false, slotLen := 0, ready := none,
    cancelled := 0, logged := 0, logDone := 0, firstSeq := 0, planned := false, committing := false, rbHeld := false,
    applyNs := none }

def Log.reset : Log :=
  { base := 0, size := 0, interval := 0, dropped := 0, compacting := false, half := false, fail := false, run := false,
    fill := 0, next := 0, engQ := [], chQ := ⟨[], [], [], []⟩, lastCh := 3, inflight := [], snapshot := [],
    snapHalf := false, snapFirst := 0, trigger := false, haltReq := false, lastSec := 0, commitPay := [] }

def Rec.reset : Rec := { reading := none, wants := none, got := [], staleR := 0, staleW := 0, lateR := 0, lateW := 0 }

def FltEng.reset : FltEng :=
  { more := 0, cause := 0, fatal := false, supply := false, valid := false, info := 0, irqEn := 0x0FF }

def Sens.reset : Sens := { valid := false, temp := 0, trim := 0, samples := [] }

def Thm.reset : Thm :=
  { avg := 3, hi := 105, lo := 95, crit := 125, critFlag := false, throttles := 0, sens := List.replicate 6 Sens.reset }

def Pwr.reset : Pwr :=
  { pg := 0, maxOp := 3, gated := 0, vack := true, vreq := 0, vreqOld := 0, waitVack := false, thermOp := 4,
    supplyOp := none, pgreq := 0, pgack := 0, gating := 0, ungating := 0, pgHeld := 0 }

def Clk.reset : Clk :=
  { cpllLock := 0, mpllLock := false, tpllLock := false, pllFail := false, refLost := false, refFail := false,
    refOk := false, freqBad := false, xselBad := false, trimOk := false, pllOn := 0, obsDiv := 0, obsSel := 0,
    obsCnt := 0, obsLeft := 0, obsOld := 0 }

def Tap.reset : Tap := { st := .testLogicReset, ir := 0x01, irSh := 0x01, tdr := 0x00004001, mfr := 0 }

def HpErr.reset : HpErr := { more := 0, write := false, code := 0, valid := false, addr := 0 }

def Boot.reset : Boot :=
  { chFail := 0, engFail := false, fuseBad := false, survey := 0, log := 0, stage := 0, bootOn := false, trim := 0x20,
    fuseBusy := false, counting := false }

def Eng.reset : Eng :=
  { porst := false, engrst := true, chrst := 0xF, refsel := false, xsel := 0, mbistEn := false, mbistDone := false,
    mbistPass := false, fuseCk := false, fuseLd := false, fatalN := true, hpUp := false, hostQ := [], hostSt := 0, rValid := false, rData := 0, rCode := 0,
    stepping := 0, grade := 0, arrays := 0 }

/-- The block while PORST_N is low: every register at its Reset value, every store empty (R54, R704; log 1, log 2). -/
def State.reset : State :=
  { pending := [], free := 0, eng := .reset, boot := .reset, hperr := .reset, tap := .reset, clk := .reset,
    pwr := .reset, thm := .reset, td := ⟨.reset, .reset⟩, tdc := .reset, cal := .reset, srv := .reset, txn := .reset,
    log := .reset, recov := .reset, flt := .reset, tdSel := 0, tdMax := 50,
    ch := ⟨.reset, .reset, .reset, .reset⟩ }

end Sys2Proof.Machine
end

