-- ==== Sys2Proof/Machine/Ops.lean ====
section
/-! DEFINITION. Named operations over the state: sparse stores and bytes, access to channels, cores, arrays and
queues, time, log records, error capture and escalation, cairn counts, and pool bytes. -/

namespace Sys2Proof.Machine

/-! ### Sparse stores -/

/-- What a sparse store reads at a key; d is what an unlisted key reads as. -/
def smGet {α : Type} (d : α) : SMap α → Nat → α
  | [], _ => d
  | (k', v) :: t, k => if k' = k then v else if k < k' then d else smGet d t k

/-- A write that keeps the keys rising and lists nothing equal to the default. -/
def smSet {α : Type} [DecidableEq α] (d : α) : SMap α → Nat → α → SMap α
  | [], k, v => if v = d then [] else [(k, v)]
  | (k', v') :: t, k, v =>
    if k' = k then (if v = d then t else (k, v) :: t)
    else if k < k' then (if v = d then (k', v') :: t else (k, v) :: (k', v') :: t)
    else (k', v') :: smSet d t k v

/-- The entry at a key, if listed. -/
def smFind {α : Type} (m : SMap α) (k : Nat) : Option α := (m.find? (·.1 == k)).map (·.2)

/-- Enters a value under a key in a store whose unlisted keys hold nothing. -/
def smPut {α : Type} : SMap α → Nat → α → SMap α
  | [], k, v => [(k, v)]
  | (k', v') :: t, k, v =>
    if k' = k then (k, v) :: t else if k < k' then (k, v) :: (k', v') :: t else (k', v') :: smPut t k v

def smDrop {α : Type} (m : SMap α) (k : Nat) : SMap α := m.filter (·.1 != k)

/-- The canonical form: keys strictly rising from `lo`, no value equal to the default. -/
def smWf {α : Type} [DecidableEq α] (d : α) (lo : Nat) : SMap α → Bool
  | [] => true
  | (k, v) :: t => decide (lo ≤ k) && decide (v ≠ d) && smWf d (k + 1) t

/-- Consecutive values from a key on. -/
def smSetList {α : Type} [DecidableEq α] (d : α) (m : SMap α) (k : Nat) (l : List α) : SMap α :=
  (l.foldl (fun (acc : SMap α × Nat) v => (smSet d acc.1 acc.2 v, acc.2 + 1)) (m, k)).1

def smGetList {α : Type} (d : α) (m : SMap α) (k n : Nat) : List α := (List.range n).map fun i => smGet d m (k + i)

/-! ### Bytes, fields, counters -/

/-- A little-endian number (R9). -/
def leNat : List Byte → Nat
  | [] => 0
  | b :: t => b.toNat + 256 * leNat t

/-- The n little-endian bytes of a number. -/
def natLe : Nat → Nat → List Byte
  | 0, _ => []
  | n + 1, v => BitVec.ofNat 8 v :: natLe n (v / 256)

/-- Bits [lo + n − 1 : lo] of a word. -/
def fld (w : Word) (lo n : Nat) : Nat := w.toNat / 2 ^ lo % 2 ^ n

/-- A counter that saturates. -/
def satAdd {n : Nat} (c : BitVec n) (k : Nat) : BitVec n := BitVec.ofNat n (min (c.toNat + k) (2 ^ n - 1))

/-- A counter that wraps. -/
def wrapAdd {n : Nat} (c : BitVec n) (k : Nat) : BitVec n := BitVec.ofNat n (c.toNat + k)

def bitOf {n : Nat} (v : BitVec n) (i : Nat) : Bool := v.getLsbD i
def setBit {n : Nat} (v : BitVec n) (i : Nat) : BitVec n := v ||| BitVec.ofNat n (2 ^ i)
def clrBit {n : Nat} (v : BitVec n) (i : Nat) : BitVec n := v &&& ~~~(BitVec.ofNat n (2 ^ i))
def putBit {n : Nat} (v : BitVec n) (i : Nat) (b : Bool) : BitVec n := if b then setBit v i else clrBit v i

def ceilDiv (a b : Nat) : Nat := (a + b - 1) / b

/-- ⌈log2 n⌉ for n up to 2^20. -/
def clog2 (n : Nat) : Nat := ((List.range 21).find? (fun k => decide (n ≤ 2 ^ k))).getD 21

def listGet {α : Type} (l : List α) (i : Nat) (d : α) : α := l.getD i d
def listUpd {α : Type} (l : List α) (i : Nat) (f : α → α) : List α := l.modify i f

/-! ### Channels, cores, arrays (R6) -/

def coreChan (c : CoreId) : ChanId := ⟨c.val / 2, by omega⟩
def coreLoc (c : CoreId) : Fin 2 := ⟨c.val % 2, by omega⟩
def arrChan (a : ArrId) : ChanId := ⟨a.val / 4, by omega⟩
def arrCore (a : ArrId) : Fin 2 := ⟨a.val / 2 % 2, by omega⟩
def arrLoc (a : ArrId) : Fin 2 := ⟨a.val % 2, by omega⟩
def mkCore (n : ChanId) (k : Fin 2) : CoreId := ⟨2 * n.val + k.val, by omega⟩
def mkArr (n : ChanId) (k j : Fin 2) : ArrId := ⟨4 * n.val + 2 * k.val + j.val, by omega⟩
def other (j : Fin 2) : Fin 2 := if j = 0 then 1 else 0

def State.chan (s : State) (n : ChanId) : Chan := s.ch.get n
def State.setChan (s : State) (n : ChanId) (c : Chan) : State := { s with ch := s.ch.set n c }
def State.updCh (s : State) (n : ChanId) (f : Chan → Chan) : State := s.setChan n (f (s.chan n))

def Chan.core (c : Chan) (k : Fin 2) : Core := c.cores.get k
def Chan.setCore (c : Chan) (k : Fin 2) (x : Core) : Chan := { c with cores := c.cores.set k x }
def Chan.updCore (c : Chan) (k : Fin 2) (f : Core → Core) : Chan := c.setCore k (f (c.core k))
def duoIx : List (Fin 2) := [0, 1]
def Chan.updCores (c : Chan) (f : Core → Core) : Chan := (c.updCore 0 f).updCore 1 f

def Core.arr (c : Core) (j : Fin 2) : Arr := c.arrs.get j
def Core.setArr (c : Core) (j : Fin 2) (x : Arr) : Core := { c with arrs := c.arrs.set j x }
def Core.updArr (c : Core) (j : Fin 2) (f : Arr → Arr) : Core := c.setArr j (f (c.arr j))
def Core.updArrs (c : Core) (f : Arr → Arr) : Core := (c.updArr 0 f).updArr 1 f

def State.core (s : State) (c : CoreId) : Core := (s.chan (coreChan c)).core (coreLoc c)
def State.updCore (s : State) (c : CoreId) (f : Core → Core) : State :=
  s.updCh (coreChan c) fun x => x.updCore (coreLoc c) f

def State.arr (s : State) (a : ArrId) : Arr := ((s.chan (arrChan a)).core (arrCore a)).arr (arrLoc a)
def State.updArr (s : State) (a : ArrId) (f : Arr → Arr) : State :=
  s.updCh (arrChan a) fun x => x.updCore (arrCore a) fun y => y.updArr (arrLoc a) f

def allChans : List ChanId := [0, 1, 2, 3]
def allCores : List CoreId := [0, 1, 2, 3, 4, 5, 6, 7]
def allArrs : List ArrId := [0, 1, 2, 3, 4, 5, 6, 7, 8, 9, 10, 11, 12, 13, 14, 15]

/-! ### Queues by OWNERS bit (R209) -/

def Chan.queue (c : Chan) (q : QId) : Queue :=
  if q.val < 7 then (c.core 0).queues.getD q.val Queue.empty
  else if q.val < 14 then (c.core 1).queues.getD (q.val - 7) Queue.empty
  else if q.val = 14 then c.dmaQ
  else if q.val = 15 then c.launchQ
  else c.peerQ

def Chan.updQueue (c : Chan) (q : QId) (f : Queue → Queue) : Chan :=
  if q.val < 7 then c.updCore 0 fun k => { k with queues := listUpd k.queues q.val f }
  else if q.val < 14 then c.updCore 1 fun k => { k with queues := listUpd k.queues (q.val - 7) f }
  else if q.val = 14 then { c with dmaQ := f c.dmaQ }
  else if q.val = 15 then { c with launchQ := f c.launchQ }
  else { c with peerQ := f c.peerQ }

def allQ : List QId := [0, 1, 2, 3, 4, 5, 6, 7, 8, 9, 10, 11, 12, 13, 14, 15, 16]

/-- The queue of a core station: 0–6 FEED0, FEED1, ARR0, ARR1, GATE0, GATE1, LANE. -/
def stationQ (k : Fin 2) (i : Fin 7) : QId := ⟨7 * k.val + i.val, by omega⟩
def feedQ (k j : Fin 2) : QId := ⟨7 * k.val + j.val, by omega⟩
def arrQ (k j : Fin 2) : QId := ⟨7 * k.val + 2 + j.val, by omega⟩
def gateQ (k j : Fin 2) : QId := ⟨7 * k.val + 4 + j.val, by omega⟩
def laneQ (k : Fin 2) : QId := ⟨7 * k.val + 6, by omega⟩
def dmaQ : QId := 14
def launchQ : QId := 15
def peerQ : QId := 16

/-- The local core a queue belongs to; channel stations belong to none. -/
def qCore (q : QId) : Option (Fin 2) := if q.val < 7 then some 0 else if q.val < 14 then some 1 else none

/-- Entries held in the feeder queues of a partition (R311). -/
def Arr.held (a : Arr) (part : Nat) : Nat :=
  (a.passes.filter fun p => fld (p.prof.getD 0 0) 4 3 == part).foldl (fun m p => m + p.entries.length) 0

/-- A row's feeder queue is full: FEEDn pops nothing (R311). -/
def Arr.feedFull (a : Arr) : Bool := (List.range a.cfg.parts.length).any fun t => decide (a.cfg.feedDepth ≤ a.held t)

/-- The queue of a feeder that pops nothing. -/
def Chan.feedStopped (c : Chan) (q : QId) : Bool :=
  match qCore q with
  | none => false
  | some k => decide (q.val % 7 < 2) && ((c.core k).arr (if q.val % 7 = 0 then 0 else 1)).feedFull

/-- The stations present under the survey in effect (R46, R198, R199). -/
def Chan.present (c : Chan) (q : QId) : Bool :=
  match qCore q with
  | none => true
  | some k =>
    let x := c.core k
    let i := q.val % 7
    x.cfg.used && (i == 6 || (x.arr (if i % 2 = 0 then 0 else 1)).cfg.used)

/-- The depth of a queue (R211, R541). -/
def Chan.depth (c : Chan) (q : QId) : Nat :=
  match qCore q with
  | none => 32
  | some k => (c.core k).cfg.qdepth.getD (q.val % 7) 16

/-- A staged parameter value written by PNEXT (0), DMA (1) or the host (2); in one cc the highest stands, and only what
PNEXT wrote does a rollback take back (R523, R527). -/
def Cc.stage (c : Cc) (who i : Nat) (v : Word) : Cc :=
  if who < smGet 0 c.psBy i then c
  else
    { c with
      ps := smSet 0 c.ps i v, psCommit := if who = 0 then c.psCommit else smSet 0 c.psCommit i v
      psBy := smSet 0 c.psBy i who }

/-! ### The lines of an instruction cache (R528) -/

/-- The 32-bit words of bytes. -/
def wordsLe (bs : List Byte) : List Word :=
  (List.range (bs.length / 4)).map fun i => BitVec.ofNat 32 (leNat ((bs.drop (4 * i)).take 4))

/-- A line leaves, its words with it. -/
def ICache.drop (i : ICache) (g : BitVec 42) : ICache :=
  { i with lines := i.lines.filter (· != g), code := i.code.filter fun e => e.1 / 16 != g.toNat }

/-- A line enters as the one used last. -/
def ICache.put (i : ICache) (g : BitVec 42) (data : List Byte) : ICache :=
  let j := i.drop g
  { j with lines := j.lines ++ [g], code := smSetList 0 j.code (16 * g.toNat) (wordsLe data) }

/-! ### Channel states (R14, R174) -/

def Chan.ticking (c : Chan) : Bool := c.ctl.state == .running

/-- IDLE, ARMED, RUNNING or HALTED: out of reset (R56, R672). -/
def Chan.live (c : Chan) : Bool :=
  match c.ctl.state with
  | .idle => true
  | .armed => true
  | .running => true
  | .halted => true
  | _ => false

/-- A channel that may have work under way. -/
def Chan.working (c : Chan) : Bool :=
  match c.ctl.state with
  | .idle => true
  | .armed => true
  | .running => true
  | _ => false

/-! ### Time (R598, R603) -/

/-- A domain's time in units of 2⁻³² ns. -/
def tdUnits (t : Td) : Int := ((t.sec.toNat * 1000000000 + t.ns.toNat : Nat) : Int) * 2 ^ 32 + t.frac.toNat

/-- A domain's time in whole nanoseconds. -/
def tdNs (t : Td) : Nat := t.sec.toNat * 1000000000 + t.ns.toNat

/-- Tick time τ in units of 10⁻⁵ · 2⁻³² ns. -/
def tauUnits (s : State) : Int := tdUnits (s.td.get s.tdc.ticksel) * 100000 - s.tdc.phi

/-- Tick time τ in whole nanoseconds. -/
def tauNs (s : State) : Nat := (tauUnits s / (100000 * 2 ^ 32)).toNat

/-- The slot length of numerology μ in ns (R609). -/
def slotNs (mu : Nat) : Nat := 1000000 / 2 ^ mu

/-- The slot tag of a channel (R648). -/
def slotTag (s : State) (n : ChanId) : BitVec 16 :=
  let c := s.chan n
  BitVec.ofNat 16 ((if c.ticking then c.ctl.tauS else tauNs s) / 62500)

/-- CH_SLOT (R625). -/
def slotWord (c : Chan) : Word := c.ctl.sfn.setWidth 32 <<< 16 ||| c.ctl.slot.setWidth 32

/-! ### Log records (R250, R259) -/

/-- Queues a record of a source, with TD0's time; while FAIL is 1 it is dropped and counted (R259). -/
def logRaise (s : State) (src : Option ChanId) (kind : Byte) (payload : List Byte) : State :=
  if s.log.fail then { s with log := { s.log with dropped := satAdd s.log.dropped 1 } }
  else
    let r : LogRec :=
      { kind := kind
        src := match src with
          | some n => BitVec.ofNat 8 n.val
          | none => 0x0F
        sec := (s.td.get 0).sec
        ns := (s.td.get 0).ns
        payload := payload }
    match src with
    | none => { s with log := { s.log with engQ := s.log.engQ ++ [r] } }
    | some n => { s with log := { s.log with chQ := s.log.chQ.set n (s.log.chQ.get n ++ [r]) } }

/-- The FAULT payload (R680). -/
def faultPayload (level cls cause kind unit more : Nat) (info slot : Word) (tag : BitVec 16) (addr : Nat) :
    List Byte :=
  [BitVec.ofNat 8 level, BitVec.ofNat 8 cls, BitVec.ofNat 8 cause, BitVec.ofNat 8 kind, BitVec.ofNat 8 unit, 0] ++
  natLe 2 more ++ natLe 4 info.toNat ++ natLe 4 slot.toNat ++ natLe 2 tag.toNat ++ [0, 0] ++ natLe 8 addr ++
  List.replicate 12 0

/-! ### Discarding the work of a channel (R550, R551, R592, R621) -/

/-- Bytes with undefined contents: free values, drawn in turn (log 11). -/
def freeBytes (draw n : Nat) : List Byte := (List.range n).map fun i => Config.freeByte (draw + i)

/-- An array with everything in flight discarded; arrivals taken from the peer port's buffer stay, and so does a swap
that has begun (R551). -/
def Arr.discard (a : Arr) : Arr :=
  { a with
    passes := [], outs := [], emits := [], drains := [], streams := [], chainRun := [], links := [], slices := [],
    clears := [], arrivals := a.arrivals.filter (·.flits != 0), acc := { a.acc with pend := [] },
    reg := { a.reg with staging := a.reg.staging.filter fun g => g.left != 0 }, drip := { a.drip with feedQ := [], feedVoid := [], emit := [], runs := [] } }

def poolDestKept : PoolDest → Bool
  | .ring _ _ _ => true
  | .window _ _ => true
  | .host _ => true
  | .hist _ => true
  | _ => false

/-- The bytes of a SIPHON's a and b regions (R403): base, length. -/
def siphRegionLen (w0 w1 w4 : Word) : Nat :=
  let l := fld w1 0 16 + 1
  let w := fld w0 7 10 + 1
  let layout := fld w0 1 2
  let run (n : Nat) : Nat := if layout % 2 = 0 then 4 * n else 20 * ceilDiv n 8
  if layout < 2 then (l - 1) * w4.toNat + run w else (w - 1) * w4.toNat + run l

/-- A core with its queues, its stations' work and its ends discarded; a SIPHON in progress is aborted and leaves
its regions undefined (R410, R550). The second component is the number of free bytes drawn. -/
def Core.discard (c : Core) (draw : Nat) : Core × Nat :=
  let c1 : Core :=
    { c with
      queues := c.queues.map fun _ => Queue.empty
      pool := { c.pool with acc := c.pool.acc.filter (fun a => poolDestKept a.dest), rdq := c.pool.rdq.filter fun r => poolDestKept r.dest }
      lane := { c.lane with run := none, busy := false, sumry := none }
      loads := []
      ends := .reset
      arrs := ⟨c.arrs.c0.discard, c.arrs.c1.discard⟩ }
  match c.siph.run with
  | none => (c1, 0)
  | some (_, ws) =>
    let n := siphRegionLen (ws.getD 0 0) (ws.getD 1 0) (ws.getD 4 0)
    let mem := smSetList 0 (smSetList 0 c1.pool.mem (ws.getD 2 0).toNat (freeBytes draw n)) (ws.getD 3 0).toNat
      (freeBytes (draw + n) n)
    ({ c1 with
        pool := { c1.pool with mem := mem }
        siph := { c1.siph with run := none, busy := false, gate := false, aborted := true, h0 := [], nextSweep := 0
                               primed := false, left := 0, buf := [], bads := [] } },
      2 * n)

/-- The memory-port requests of discarded descriptors: answered and dropped (R592). -/
def dropReq (r : MpReq) : MpReq :=
  match r.purpose with
  | .code _ _ => r
  | _ => { r with purpose := .dropped }

/-- Every queue of the channel, its DMA transfers and its stations' work discarded (R550, R551, R592). -/
def Chan.discard (c : Chan) (draw : Nat) : Chan × Nat :=
  let a := (c.core 0).discard draw
  let b := (c.core 1).discard (draw + a.2)
  ({ c with
      dmaQ := .empty, launchQ := .empty, peerQ := .empty
      dma := { c.dma with xfers := [], descs := [] }
      mp := { c.mp with reqs := c.mp.reqs.map dropReq }
      peers := { c.peers with out := c.peers.out.filter (fun p => p.psend.isNone && p.dma.isNone)
                              winJobs := c.peers.winJobs.filter (·.peer.isSome) }
      cores := ⟨a.1, b.1⟩ },
    a.2 + b.2)

def discardChan (s : State) (n : ChanId) : State :=
  let r := (s.chan n).discard s.free
  { s.setChan n r.1 with free := s.free + r.2 }

end Sys2Proof.Machine
end

