-- ==== Sys2Proof/Machine/Recover.lean ====
section
/-! DEFINITION. Errors and recovery (chapter 21): capture and escalation, holding a channel in reset, its
restoration, rollback, halt and CH_LOST. -/

namespace Sys2Proof.Machine

/-! ### Operating points (R139–R141) -/

/-- The largest CH_CLK code of an operating point. -/
def opCode (op : Nat) : Nat :=
  match op with
  | 0 => 24
  | 1 => 40
  | 2 => 52
  | 3 => 64
  | _ => 72

/-- The lowest operating point whose maximum is at least a code. -/
def codeOp (code : Nat) : Nat :=
  if code ≤ 24 then 0 else if code ≤ 40 then 1 else if code ≤ 52 then 2 else if code ≤ 64 then 3 else 4

/-- The ceiling on every channel: MAX_OP, the thermal ceiling and that of a standing supply fault (R140, R148). -/
def ceilingOp (p : Pwr) : Nat :=
  let m := min p.maxOp.toNat p.thermOp.toNat
  match p.supplyOp with
  | some o => min m o.toNat
  | none => m

/-- A channel's target code (R140). -/
def targetEff (p : Pwr) (c : Chan) : Nat := min c.ctl.freq.toNat (opCode (ceilingOp p))

/-- PWR_STATUS.DEMAND (R141). -/
def demandOp (s : State) : Nat :=
  (allChans.filter fun n => !bitOf s.pwr.gated n.val).foldl
    (fun m n => max m (codeOp (targetEff s.pwr (s.chan n)))) 0

/-! ### Frequencies and voltage (R140–R148) -/

/-- The level the supply is known to hold: VACK high at VREQ, else the lower of the two levels of the change (R142). -/
def Pwr.level (p : Pwr) : Nat := if p.waitVack then min p.vreq.toNat p.vreqOld.toNat else p.vreq.toNat

/-- A channel takes its target code, or keeps its own until the voltage is there (R140, R142, R145). -/
def applyEff (s : State) (n : ChanId) : State :=
  let c := s.chan n
  let t := targetEff s.pwr c
  if t < c.ctl.eff.toNat ∨ (c.ctl.eff.toNat < t ∧ codeOp t ≤ s.pwr.level) then
    s.setChan n { c with ctl := { c.ctl with eff := BitVec.ofNat 7 t, ramp := c.ctl.ramp || bitOf s.clk.cpllLock n.val } }
  else s

/-- A channel that generates no ticks changes at once (R144); one whose clock is stopped has no frequency to keep, and
EFF is what R140 says (R152, log 28). -/
def retune (s : State) (n : ChanId) : State :=
  if (s.chan n).ticking then s
  else if bitOf s.pwr.gated n.val then
    s.updCh n fun c => { c with ctl := { c.ctl with eff := BitVec.ofNat 7 (targetEff s.pwr c) } }
  else applyEff s n

def retuneAll (s : State) : State := allChans.foldl retune s

/-- Every clocked channel runs, without a ramp, at or below the maximum of an operating point (R143). -/
def rampedTo (s : State) (op : Nat) : Bool :=
  allChans.all fun n => bitOf s.pwr.gated n.val ||
    (!(s.chan n).ctl.ramp && decide ((s.chan n).ctl.eff.toNat ≤ opCode op))

/-- The sequencer: VREQ changes to DEMAND, up at once, down once the clocks are down (R110, R142, R143, R148, R695).
It is clocked by the time PLL (R132). -/
def supplySeq (s : State) : State :=
  let d := demandOp s
  let p := s.pwr
  if !s.clk.tpllLock || !p.vack || p.waitVack || p.supplyOp.isSome then s
  else if p.vreq.toNat < d ∨ (d < p.vreq.toNat ∧ rampedTo s d = true) then
    { s with pwr := { p with vreqOld := p.vreq, vreq := BitVec.ofNat 3 d, waitVack := true } }
  else s

/-- After a change of a request or of the ceiling. -/
def resupply (s : State) : State := supplySeq (retuneAll s)

/-- After one channel has stopped ticking: a change of its frequency no longer waits for a tick (R42, R144); no other
channel's frequency moves (R41). -/
def settle (s : State) (n : ChanId) : State := supplySeq (retune s n)

/-! ### The slot frame (R593) -/

/-- One step of the frame: the class with the largest accumulator, the lowest on ties, pays 32. -/
def frameStep (sh acc : Int × Int × Int) : Fin 3 × (Int × Int × Int) :=
  let a := (acc.1 + sh.1, acc.2.1 + sh.2.1, acc.2.2 + sh.2.2)
  if a.2.1 ≤ a.1 ∧ a.2.2 ≤ a.1 then (0, (a.1 - 32, a.2.1, a.2.2))
  else if a.2.2 ≤ a.2.1 then (1, (a.1, a.2.1 - 32, a.2.2))
  else (2, (a.1, a.2.1, a.2.2 - 32))

def frameRun (sh : Int × Int × Int) : Nat → Int × Int × Int → List (Fin 3)
  | 0, _ => []
  | k + 1, acc => let r := frameStep sh acc; r.1 :: frameRun sh k r.2

/-- The 32 slot classes of the shares RD, WR, REM. -/
def slotFrame (rd wr rem : Nat) : List (Fin 3) := frameRun (rd, wr, rem) 32 (0, 0, 0)

/-! ### Holding and restoring a channel -/

/-- Every partner DOWN, the port's stores empty; the link level is an input and stays (R626, R636). -/
def PeerSt.down (p : PeerSt) : PeerSt :=
  { p with
    parts := p.parts.map (fun x => { x with state := 0 }), holds := [], out := [], ctl := [], winJobs := [],
    ocredit := 0, owed := 0, inq := [], ifill := 0, sentTo := 0 }

/-- A channel held in reset under a state (R56, R82, R94, R621, R670), its commands already discarded. -/
def Chan.hold (c : Chan) (st : ChState) : Chan :=
  let quiet (k : Core) : Core :=
    { k with
      pool := { k.pool with acc := [], rdq := [] }
      icache := { k.icache with lines := [], code := [], wants := [], wait := none }
      arrs := ⟨{ k.arrs.c0 with arrivals := [] }, { k.arrs.c1 with arrivals := [] }⟩ }
  { c with
    ctl := { c.ctl with state := st, runOff := false, inGap := false, drained := none, forcedTick := none, switched := none }
    flt := { c.flt with rbOrder := false, haltOrder := none, lostOrder := false, rbAt := none, rolled := false,
                        unquar := 0, swCount := 0 }
    tickPend := []
    lch := { c.lch with frames := [] }
    rp := { c.rp with ocredit := 0, ifill := 0, inq := [], owed := 0, rings := c.rp.rings.map fun r => { r with due := 0 } }
    peers := c.peers.down
    mp := { c.mp with reqs := c.mp.reqs.map fun r => { r with stale := true }
                      retired := c.mp.retired.map fun r => { r with quiet := true, free := true } }
    cores := ⟨quiet c.cores.c0, quiet c.cores.c1⟩ }

/-- An event of the channel that cancels a survey switch under way (R240). -/
def txnCancel (s : State) (n : ChanId) : State :=
  { s with txn := { s.txn with cancelled := setBit s.txn.cancelled n.val } }

/-- A channel is held in reset; RAMP shows a ramp of its clock to the end (R149), and EFF follows its target (R144). -/
def holdChan (s : State) (n : ChanId) (st : ChState) : State :=
  settle ((discardChan (txnCancel s n) n).updCh n fun c => c.hold st) n

/-- An array as R180 leaves it: its survey and, unless the supply was off, its weights are kept. -/
def Arr.restore (a : Arr) (cold : Bool) : Arr :=
  let r : Arr := { Arr.reset with cfg := a.cfg }
  if cold then r
  else { r with reg := { ArrReg.reset with weights := a.reg.weights, wscale := a.reg.wscale,
                                           wwidth := a.reg.wwidth, wloaded := a.reg.wloaded } }

def Core.restore (c : Core) (cold : Bool) : Core :=
  { Core.reset with
    cfg := c.cfg
    pool := if cold then .reset else { Pool.reset with mem := c.pool.mem, bad := c.pool.bad }
    arrs := ⟨c.arrs.c0.restore cold, c.arrs.c1.restore cold⟩ }

/-- The channel's registers at reset, its part of the survey in effect applied again (R180, R704, R705). -/
def Chan.restore (c : Chan) (surveyed cold : Bool) : Chan :=
  let freq : BitVec 7 := if surveyed then BitVec.ofNat 7 c.cfg.freq else 24
  { Chan.reset with
      cfg := c.cfg
      ctl := { ChCtl.reset with
               state := .idle, freq := freq
               guard := BitVec.ofNat 16 c.cfg.guard, mu := BitVec.ofNat 3 c.cfg.mu }
      crn := { Cairns.reset with cfg := c.crn.cfg }
      dma := { Dma.reset with rd := BitVec.ofNat 5 c.cfg.rd, wr := BitVec.ofNat 5 c.cfg.wr,
                              rem := BitVec.ofNat 5 c.cfg.rem, frame := slotFrame c.cfg.rd c.cfg.wr c.cfg.rem }
      mp := { Mp.reset with reqs := c.mp.reqs, retired := c.mp.retired }
      peers := { PeerSt.reset with linkUp := c.peers.linkUp }
      cores := ⟨c.cores.c0.restore cold, c.cores.c1.restore cold⟩ }

/-- Whether a core PLL ramps once its channel's EFF is reset to 24 (R145, R149). -/
def rampTo24 (s : State) (n : ChanId) : Bool :=
  (s.chan n).ctl.ramp || (bitOf s.clk.cpllLock n.val && (s.chan n).ctl.eff != 24)

/-- The release of a reset (R180): STATE becomes IDLE. -/
def releaseChan (s : State) (n : ChanId) (cold : Bool) : State :=
  s.updCh n fun c =>
    let d := c.restore s.txn.image.isSome cold
    { d with ctl := { d.ctl with ramp := rampTo24 s n } }

/-! ### Engine-level errors (R39, R672, R678, R694) -/

/-- FATAL_N asserts: every live channel becomes CH_LOST, with one FAULT record of KIND 3 (R672, R679). -/
def fatal (s : State) (cls : Nat) (cause : Nat) (info : Word) : State :=
  let s1 := logRaise s none 0x03 (faultPayload 3 cls cause 3 0xFF s.flt.more.toNat info 0 0 0)
  let s2 : State := { s1 with eng := { s1.eng with fatalN := false }, flt := { s1.flt with fatal := true } }
  allChans.foldl (fun t n => if (t.chan n).live then holdChan t n .lost else t) s2

/-- An engine-level error: captured, or counted while one is pending, when it asserts FATAL_N (R39). -/
def engErr (s : State) (cls cause : Nat) (info : Word) : State :=
  if s.flt.valid then
    let s1 := { s with flt := { s.flt with more := satAdd s.flt.more 1 } }
    if s1.flt.fatal then s1 else fatal s1 cls cause info
  else
    let s1 := { s with flt := { s.flt with valid := true, cause := BitVec.ofNat 8 cause, info := info, more := 0 } }
    logRaise s1 none 0x03 (faultPayload 3 cls cause 0 0xFF 0 info 0 0 0)

/-! ### Errors of a channel (R666–R679) -/

/-- Where an error is raised, by local numbers. -/
inductive Lvl where
  | arr (k j : Fin 2)
  | core (k : Fin 2)
  | chan
  deriving DecidableEq, Repr

/-- An error of R673; `addr` is the ADDR of its FAULT record (R680). -/
structure Err where
  lvl   : Lvl
  cause : Nat
  cls   : Nat
  info  : Word
  addr  : Nat
  deriving DecidableEq, Repr

def Lvl.origin : Lvl → Nat
  | .chan => 0
  | .core k => 2 + k.val
  | .arr k j => 4 + 2 * k.val + j.val

def Lvl.level : Lvl → Nat
  | .arr _ _ => 0
  | .core _ => 1
  | .chan => 2

def Lvl.unit (n : ChanId) : Lvl → Nat
  | .arr k j => (mkArr n k j).val
  | .core k => (mkCore n k).val
  | .chan => 0xFF

/-- The error ESCALATED (R694). -/
def escalated (s : State) (n : ChanId) (e : Err) : State :=
  engErr s e.cls 0x85 (BitVec.ofNat 32 (n.val + 256 * e.cause + 65536 * e.cls))

/-- What a capture did: the state, whether it captured, and MORE of the capture concerned. -/
structure CapRes where
  st   : State
  took : Bool
  more : Nat
  deriving DecidableEq, Repr

/-- Capture at the channel; an ENGINE_HALT never escalates (R676–R678). -/
def capChan (s : State) (n : ChanId) (e : Err) (esc : Bool) : CapRes :=
  let c := s.chan n
  let f := c.flt
  if !f.valid then
    { st := s.setChan n { c with flt := { f with
        valid := true, more := 0, cause := BitVec.ofNat 8 e.cause, cls := BitVec.ofNat 3 e.cls,
        origin := BitVec.ofNat 4 e.lvl.origin, esc := esc, info := e.info, tag := slotTag s n } }
      took := true, more := 0 }
  else if e.cls ≤ f.cls.toNat ∨ e.cause = 0x57 then
    let f1 := { f with more := satAdd f.more 1 }
    { st := s.setChan n { c with flt := f1 }, took := false, more := f1.more.toNat }
  else { st := escalated s n e, took := false, more := f.more.toNat }

/-- Capture at a core, or at the channel when the core's capture holds an error of lower class. -/
def capCore (s : State) (n : ChanId) (k : Fin 2) (e : Err) (arr : Option (Fin 2)) : CapRes :=
  let f := ((s.chan n).core k).flt
  if !f.valid then
    { st := s.updCh n fun c => c.updCore k fun x => { x with flt := { f with
        valid := true, more := 0, cause := BitVec.ofNat 8 e.cause, cls := BitVec.ofNat 3 e.cls,
        esc := arr.isSome, arr := arr == some 1, info := e.info } }
      took := true, more := 0 }
  else if e.cls ≤ f.cls.toNat then
    let f1 := { f with more := satAdd f.more 1 }
    { st := s.updCh n fun c => c.updCore k fun x => { x with flt := f1 }, took := false, more := f1.more.toNat }
  else capChan s n e true

def capArr (s : State) (n : ChanId) (k j : Fin 2) (e : Err) : CapRes :=
  let f := (((s.chan n).core k).arr j).flt
  if !f.valid then
    { st := s.updCh n fun c => c.updCore k fun x => x.updArr j fun a => { a with flt :=
        { valid := true, more := 0, cause := BitVec.ofNat 8 e.cause, cls := BitVec.ofNat 3 e.cls, info := e.info } }
      took := true, more := 0 }
  else if e.cls ≤ f.cls.toNat then
    let f1 := { f with more := satAdd f.more 1 }
    { st := s.updCh n fun c => c.updCore k fun x => x.updArr j fun a => { a with flt := f1 }
      took := false, more := f1.more.toNat }
  else capCore s n k e (some j)

def capture (s : State) (n : ChanId) (e : Err) : CapRes :=
  match e.lvl with
  | .chan => capChan s n e false
  | .core k => capCore s n k e none
  | .arr k j => capArr s n k j e

/-- The rollback interval: the cc of the latest rollback and the 7 cc after it (R670). -/
def inInterval (c : Chan) : Bool :=
  match c.flt.rbAt with
  | some r => decide (c.ctl.cc ≤ r + 7)
  | none => false

/-- Raises an error: capture and escalation, the order its class gives (rollback, halt, or CH_LOST inside the
rollback interval), and one FAULT record (R666–R679, log 19). -/
def raise (s : State) (n : ChanId) (e : Err) : State :=
  let c0 := s.chan n
  let lost := decide (2 ≤ e.cls) && inInterval c0
  let halts := decide (e.cls = 4) && c0.flt.haltOrder.isNone
  let r := capture s n e
  let kind : Option Nat :=
    if lost && !c0.flt.lostOrder then some 2 else if halts then some 1 else if r.took then some 0 else none
  let s1 := match kind with
    | some k => logRaise r.st (some n) 0x03 (faultPayload e.lvl.level e.cls e.cause k (e.lvl.unit n) r.more e.info
        (slotWord c0) (slotTag s n) e.addr)
    | none => r.st
  if (s1.chan n).ctl.state == .lost then s1
  else s1.updCh n fun c => { c with flt := { c.flt with
    lostOrder := c.flt.lostOrder || lost
    rbOrder := c.flt.rbOrder || e.cls == 2 || e.cls == 3
    haltOrder := if halts then some (BitVec.ofNat 8 (if e.cause < 0x35 then e.cause else 0), match e.lvl with
      | .core k => some k
      | _ => none) else c.flt.haltOrder } }

/-- A control core halts (R31, R521, R537): its reason, address and PUSH data, and the error at its core. -/
def coreHalt (s : State) (n : ChanId) (k : Fin 2) (reason : Nat) (addr : Word) (repidx : BitVec 16) (tag : Byte)
    (q : BitVec 4) : State :=
  let cc := ((s.chan n).core k).cc
  if cc.halt then s
  else
    let s1 := s.updCh n fun c => c.updCore k fun x => { x with cc := { x.cc with
      halt := true, reason := BitVec.ofNat 8 reason, haltAddr := addr, repIdx := repidx, haltTag := tag, haltQ := q } }
    raise s1 n { lvl := .core k, cause := reason, cls := 4, info := addr, addr := addr.toNat }

/-! ### Rollback and halt (R341, R527, R550, R581, R650, R667, R669, R537) -/

/-- The state entries at a rollback: where T is 1, CUR switches and T clears (R341). -/
def entryBack (e : Entry) : Entry := if e.tag then { e with cur := !e.cur, tag := false } else e

def Entry.zero : Entry := { copy0 := 0, copy1 := 0, cur := false, tag := false }

/-- A map of entries by a function, kept canonical. -/
def mapEntries (f : Entry → Entry) (m : SMap Entry) : SMap Entry :=
  (m.map fun p => (p.1, f p.2)).filter fun p => p.2 ≠ .zero

/-- The updates of a cc are over: a finite sum that left the range is counted, once a word (R281, R368). -/
def Arr.accClose (a : Arr) : Arr :=
  { a with acc := { a.acc with
    upd := [], overflows := satAdd a.acc.overflows (a.acc.upd.countP fun w => w.2.ovf) } }

/-- An array at a rollback: its entries, its loop store (R380), its counter. -/
def Arr.rollback (a0 : Arr) : Arr :=
  let a := a0.accClose
  { a with
    acc := { a.acc with entries := mapEntries entryBack a.acc.entries, rollbacks := satAdd a.acc.rollbacks 1 }
    loopStore := [] }

/-- A control core at a rollback (R527): recorded values back, q registers not pending; a q register that was
pending at the commit keeps the value it has now; staged values PNEXT wrote are taken back. -/
def Cc.rollback (c : Cc) : Cc :=
  let q := (List.range 8).foldl (fun m i =>
    smSet 0 m i (if c.saved.pends i then smGet 0 c.r.q i else smGet 0 c.saved.q i)) []
  { c with r := { c.saved with q := q, qpend := [] }, ps := c.psCommit, list := false, rep := none, stall := none, qwait := none,
           cmp := 0 }

/-- A core at a rollback; no instruction waits on a line of its cache any more (R530). -/
def Core.rollback (c : Core) : Core :=
  { c with cc := c.cc.rollback, icache := { c.icache with wait := none }, arrs := ⟨c.arrs.c0.rollback, c.arrs.c1.rollback⟩ }

/-- A cairn at a rollback: C + E held in range; the pending sums of the command and DMA classes go (R581). -/
def Cairn.rollback (c : Cairn) : Cairn :=
  { c with
    count := BitVec.ofNat 24 (max 0 (min ((c.record.toNat : Int) + c.outside) (2 ^ 24 - 1))).toNat
    sums := [0, 0] ++ c.sums.drop 2 }

def mapCairns (f : Cairn → Cairn) (m : SMap Cairn) : SMap Cairn :=
  (m.map fun p => (p.1, f p.2)).filter fun p => p.2 ≠ .zero

/-- The frames of the slot in progress: voided and counted; eligible and provisional ones stay (R611, R619, R621). -/
def Lch.voidSlot (l : Lch) : Lch :=
  let keep := l.frames.filter fun f => f.elig
  { l with frames := keep, voided := satAdd l.voided (l.frames.countP fun f => f.whole && !f.elig) }

/-- A control packet leaves, or waits while the port holds no outbound credit (R97, R98). -/
def PeerSt.ctlSend (p : PeerSt) (x : CtlPkt) : PeerSt :=
  if p.ocredit != 0 && p.ctl.isEmpty then { p with ocredit := p.ocredit - 1, gone := p.gone ++ [x] }
  else { p with ctl := p.ctl ++ [x] }

/-- The 20 body bytes of a single-flit packet: the given bytes from 0x0C on, the rest 0 (R631). -/
def pktBody (bs : List Byte) : List Byte := bs ++ List.replicate (20 - bs.length) 0

/-- The version every packet but HELLO carries towards a partner (R630, R637). -/
def Partner.pktVer (p : Partner) : Byte := p.ver

/-- VOID_SLOT to every partner the slot sent a data packet to (R650). -/
def PeerSt.voidSlot (p : PeerSt) (tag : BitVec 16) : PeerSt :=
  let dests := (List.range 8).filter fun i => bitOf p.sentTo i
  let q := dests.foldl (fun (q : PeerSt) i =>
    let x := p.parts.getD i Partner.reset
    q.ctlSend { type := 0x07, ver := x.pktVer, dest := x.node, body := pktBody (natLe 2 tag.toNat) }) p
  { q with sentTo := 0 }

/-- The rollback of R667 and of an overrun (R341, R527, R550, R551, R581), less what only one of them does. -/
def undoSlot (s : State) (n : ChanId) : State :=
  let tag := slotTag s n
  (discardChan (txnCancel s n) n).updCh n fun c =>
    { c with
      cores := ⟨c.cores.c0.rollback, c.cores.c1.rollback⟩
      crn := { c.crn with cells := mapCairns Cairn.rollback c.crn.cells }
      lch := c.lch.voidSlot
      peers := c.peers.voidSlot tag
      flt := { c.flt with rbAt := some c.ctl.cc, rbOrder := false }
      ctl := { c.ctl with drained := none } }

/-- An array fused off or unused holds nothing a rollback could count (R3, R199): its registers stay 0. -/
def Arr.settleUnused (a : Arr) : Arr := if a.cfg.used then a else { a with acc := { a.acc with rollbacks := 0 } }

def undoUsed (s : State) (n : ChanId) : State :=
  (undoSlot s n).updCh n fun c => c.updCores fun k => k.updArrs Arr.settleUnused

/-- A rollback between ticks (R667). -/
def rollbackBetween (s : State) (n : ChanId) : State :=
  (undoUsed s n).updCh n fun c => { c with flt := { c.flt with rolled := true } }

/-- The port can send: identity, PEER_EN, link, no halt, channel out of reset (R56, R626, R653). -/
def Chan.peerUp (c : Chan) : Bool :=
  c.live && c.peers.linkUp && c.cfg.peerEn && c.peer.node != 0 && c.peer.node != 0xFFFFFFFF && !c.peer.halted

/-- An entry in use: it names an identity that no lower entry and not the channel itself has (R627, R628). -/
def Chan.entryUsed (c : Chan) (i : Nat) : Bool :=
  let x := (c.peers.parts.getD i Partner.reset).node
  x != 0 && x != c.peer.node && !((c.peers.parts.take i).any fun p => p.node == x)

/-- CLOSE to one partner (R631). -/
def Chan.sendClose (c : Chan) (i : Nat) (reason : Byte) : Chan :=
  let x := c.peers.parts.getD i Partner.reset
  if c.peerUp && c.entryUsed i then
    { c with peers := c.peers.ctlSend { type := 0x08, ver := x.pktVer, dest := x.node, body := pktBody [reason] } }
  else c

/-- CLOSE with a reason to every partner that is not DOWN, where the port is up (R639). -/
def closeAll (c : Chan) (reason : Byte) : Chan :=
  ((List.range 8).filter fun i => (c.peers.parts.getD i Partner.reset).state != 0).foldl (fun d i => d.sendClose i reason) c

/-- The halt of R537 and R669: rollback first, then the cores stop and the channel generates no more ticks. Writes held
for a tick that does not come are dropped (log 32), and CH_CTRL.RUN stays as it was (log 29). -/
def haltChan (s : State) (n : ChanId) : State :=
  match (s.chan n).flt.haltOrder with
  | none => s
  | some (reason, who) =>
    settle ((undoUsed s n).updCh n fun c =>
      let stop (k : Fin 2) (x : Core) : Core :=
        { x with cc := { x.cc with
          halt := true
          reason := if x.cc.halt then x.cc.reason else if who.isNone || who = some k then reason else 0 } }
      closeAll { c with
        ctl := { c.ctl with state := .halted, runOff := false, inGap := false, forcedTick := none, switched := none }
        flt := { c.flt with haltOrder := none, rolled := false, swCount := 0 }
        tickPend := []
        cores := ⟨stop 0 c.cores.c0, stop 1 c.cores.c1⟩ } 1) n

end Sys2Proof.Machine
end

