-- ==== Sys2Proof/Machine/PoolOps.lean ====
section
/-! DEFINITION. The pool (chapter 14): banks, the wheel, byte access, ECC. -/

namespace Sys2Proof.Machine

def poolBytes : Nat := 524288
def poolLines : Nat := 4096

/-- The bank of a line (R480). -/
def lineBank (line : Nat) : Nat := line % 16

/-- The far banks are 8 to 15 (R481). -/
def lineFar (line : Nat) : Bool := decide (8 ≤ line % 16)

/-- Wheel client codes (R213). -/
def clFeed (j : Fin 2) : BitVec 4 := if j = 0 then 0 else 1
def clDrip (j : Fin 2) : BitVec 4 := if j = 0 then 2 else 3
def clLane : BitVec 4 := 4
def clDma : BitVec 4 := 5
def clNarrow : BitVec 4 := 6
def clPeer : BitVec 4 := 7
def clIdle : BitVec 4 := 15

/-- The owner of a slot of a bank in the wheel in effect (R213). -/
def Core.owner (c : Core) (bank slot : Nat) : BitVec 4 := (c.cfg.wheel.getD bank []).getD slot clIdle

/-- Whether the wheel gives a client a slot on a bank (R706). -/
def Core.hasSlot (c : Core) (client : BitVec 4) (bank : Nat) : Bool :=
  (c.cfg.wheel.getD bank []).any fun x => x == client

/-- Bytes of the pool from an offset on. -/
def Pool.bytes (p : Pool) (off n : Nat) : List Byte := smGetList 0 p.mem off n

/-- The little-endian word at an offset. -/
def Pool.narrow (p : Pool) (off : Nat) : Word := BitVec.ofNat 32 (leNat (p.bytes off 4))

def Pool.writeBytes (p : Pool) (off : Nat) (bs : List Byte) : Pool := { p with mem := smSetList 0 p.mem off bs }

/-- The 64-bit words, by index, that bytes [off, off + len) touch. -/
def words64 (off len : Nat) : List Nat :=
  if len = 0 then [] else (List.range ((off + len - 1) / 8 - off / 8 + 1)).map fun i => off / 8 + i

/-- Marks a word as holding a double-bit error. -/
def Pool.spoil (p : Pool) (w : Nat) : Pool := if p.bad.contains w then p else { p with bad := p.bad ++ [w] }

/-- A full write of a 64-bit word restores valid check bits (R506). -/
def Pool.heal (p : Pool) (w : Nat) : Pool := { p with bad := p.bad.filter (· != w) }

/-- POOL_ECC_ADDR (R508). -/
def poolEccAddr (client : BitVec 4) (w : Nat) : Word :=
  BitVec.ofNat 32 (client.toNat * 2 ^ 28 + (w % 65536) * 8)

/-- A double-bit error: counted, captured while VALID is 0, and, but for a control core's own access, the error
POOL_ECC raised at the core (R506, R673). -/
def poolUncorr (s : State) (n : ChanId) (k : Fin 2) (client : BitVec 4) (w : Nat) (cc : Bool) : State :=
  let s1 := s.updCh n fun c => c.updCore k fun x =>
    let p := x.pool.spoil w
    { x with pool :=
      if p.valid then { p with uncorr := satAdd p.uncorr 1 }
      else { p with uncorr := satAdd p.uncorr 1, valid := true, client := client, word := BitVec.ofNat 16 w } }
  if cc then s1
  else raise s1 n { lvl := .core k, cause := 0x48, cls := 1, info := poolEccAddr client w, addr := 8 * w }

/-- The 64-bit words of a masked write that are written in part (R485, R504). -/
def partWords (bs : List (Nat × Byte)) : List Nat :=
  ((bs.map fun b => b.1 / 8).eraseDups).filter fun w => (bs.filter fun b => b.1 / 8 == w).length < 8

/-- A masked write of one line (R484–R486, R506): the bytes of a partly written word in double error are not written,
and a word written whole has valid check bits again. -/
def Pool.writeLine (p : Pool) (bs : List (Nat × Byte)) (hit : List Nat) : Pool :=
  let parts := partWords bs
  let full := ((bs.map fun b => b.1 / 8).eraseDups).filter fun w => !parts.contains w
  let p1 := full.foldl Pool.heal p
  { p1 with mem := (bs.filter fun b => !hit.contains (b.1 / 8)).foldl (fun m b => smSet 0 m b.1 b.2) p1.mem }

/-! ### Checks (R504–R506) -/

/-- The 64-bit words of a line. -/
def lineWords (line : Nat) : List Nat := (List.range 16).map fun i => 16 * line + i

/-- The words an access checks: those a read returns, and those a masked write writes in part. -/
def PoolAcc.checks (a : PoolAcc) : List Nat :=
  match a.write with
  | some bs => partWords bs
  | none => match a.dest with
    | .ccLoad _ off => [off / 8]
    | .host off => [off / 8]
    | _ => lineWords a.line

/-- A control core's own access: its core halts on a double error, and no other error is raised. -/
def PoolAcc.ofCc (a : PoolAcc) : Bool :=
  match a.dest with
  | .ccLoad _ _ => true
  | .ccStore => true
  | _ => false

/-- What the checks of a bank find, by word of the line: single and double errors. -/
def findsAt (fs : List BankFind) (k : Fin 2) (bank : Nat) : BitVec 16 × BitVec 16 :=
  fs.foldl (fun m f => if f.core = k ∧ f.bank.val = bank then (m.1 ||| f.single, m.2 ||| f.double) else m) (0, 0)

/-- Of the words an access checks, how many are corrected, and which are in double error, from before or found now. -/
def Pool.checked (p : Pool) (ws : List Nat) (f : BitVec 16 × BitVec 16) : Nat × List Nat :=
  let hit := ws.filter fun w => p.bad.contains w || bitOf f.2 (w % 16)
  (ws.countP fun w => !hit.contains w && bitOf f.1 (w % 16), hit)

/-- The counters, the capture and the errors of a check. -/
def poolFound (s : State) (n : ChanId) (k : Fin 2) (client : BitVec 4) (r : Nat × List Nat) (cc : Bool) : State :=
  r.2.foldl (fun t w => poolUncorr t n k client w cc)
    (s.updCh n fun c => c.updCore k fun x => { x with pool := { x.pool with corr := satAdd x.pool.corr r.1 } })

/-- Read data on its way, in the order of arrival: 3 cc after the grant from a near bank, 6 from a far one (R489). -/
def Pool.rdqPut (p : Pool) (r : PoolRd) : Pool :=
  { p with rdq := p.rdq.takeWhile (fun x => decide (x.due ≤ r.due)) ++ r :: p.rdq.dropWhile fun x => decide (x.due ≤ r.due) }

/-- One access performed at its bank, checked: a masked write takes effect, a read's line is on its way (R484–R489).
With it, the words in double error. -/
def poolPerform (s : State) (n : ChanId) (k : Fin 2) (a : PoolAcc) (f : BitVec 16 × BitVec 16) : State × List Nat :=
  let p := ((s.chan n).core k).pool
  let r := p.checked a.checks f
  let due := (s.chan n).ctl.cc + (if lineFar a.line then 6 else 3)
  let s1 := poolFound s n k a.client r a.ofCc
  (s1.updCh n fun c => c.updCore k fun x => { x with pool := match a.write with
    | some bs => x.pool.writeLine bs r.2
    | none => x.pool.rdqPut { client := a.client, line := a.line, data := p.bytes (128 * a.line) 128, bads := r.2, due := due
                              dest := a.dest } }, r.2)

/-! ### Accesses asked for -/

/-- Queues a pool access of a core (R488). -/
def poolPend (s : State) (n : ChanId) (k : Fin 2) (a : PoolAcc) : State :=
  s.updCh n fun c => c.updCore k fun x => { x with pool := { x.pool with acc := x.pool.acc ++ [a] } }

/-- Accesses queued, in order. -/
def Core.pend (x : Core) (as : List PoolAcc) : Core := { x with pool := { x.pool with acc := x.pool.acc ++ as } }

/-- The lines that bytes [off, off + len) touch. -/
def wantLines (off len : Nat) : List Nat :=
  if len = 0 then [] else (List.range ((off + len - 1) / 128 - off / 128 + 1)).map fun i => off / 128 + i

def lineReads (client : BitVec 4) (ls : List Nat) (dest : PoolDest) : List PoolAcc :=
  ls.map fun l => { client := client, line := l, write := none, dest := dest }

/-- The masked writes, one per line, of bytes at any offsets. -/
def maskedWrites (client : BitVec 4) (bs : List (Nat × Byte)) (dest : PoolDest) : List PoolAcc :=
  ((bs.map fun b => b.1 / 128).eraseDups).map fun l =>
    { client := client, line := l, write := some (bs.filter fun b => b.1 / 128 == l), dest := dest }

/-- The masked writes, one per line, that put bytes at an offset. -/
def lineWrites (client : BitVec 4) (off : Nat) (bs : List Byte) (dest : PoolDest) : List PoolAcc :=
  if bs.isEmpty then []
  else
    let ps := bs.zipIdx.map fun b => (off + b.2, b.1)
    (List.range ((off + bs.length - 1) / 128 - off / 128 + 1)).map fun i =>
      { client := client, line := off / 128 + i
        write := some (ps.filter fun b => b.1 / 128 == off / 128 + i), dest := dest }

/-! ### Receive-ring writes (R92, R94, R662, R706) -/

/-- The ring entry a write belongs to, and the beats of the inbound buffer it empties. -/
def PoolAcc.ring (a : PoolAcc) : Option (Fin 4 × Nat × Nat) :=
  match a.dest with
  | .ring r e beats => some (r, e, beats)
  | _ => none

/-- Ring writes move from the tail of the inbound buffer to the wheel while its 128 beats hold them. -/
def ringPump : Nat → Chan → Chan
  | 0, c => c
  | f + 1, c =>
    match c.rp.inq with
    | [] => c
    | (k, a) :: t =>
      let b := match a.ring with
        | some x => x.2.2
        | none => 0
      if c.rp.ifill ≠ 0 ∧ 128 < c.rp.ifill + b then c
      else ringPump f ({ c with rp := { c.rp with inq := t, ifill := c.rp.ifill + b } }.updCore k fun x =>
        { x with pool := { x.pool with acc := x.pool.acc ++ [a] } })

/-- A write of a ring entry is part of entry e of ring r. -/
def inEntry (r : Fin 4) (e : Nat) (a : PoolAcc) : Bool :=
  match a.ring with
  | some x => x.1 == r && x.2.1 == e
  | none => false

/-- A ring write has been performed: its beats leave the buffer, and the last of an entry makes it due (R662). -/
def ringLanded (s : State) (n : ChanId) (r : Fin 4) (e beats : Nat) : State :=
  s.updCh n fun c =>
    let more := duoIx.any (fun k => (c.core k).pool.acc.any (inEntry r e)) || c.rp.inq.any fun x => inEntry r e x.2
    let due (x : Ring) : Ring := if more then x else { x with due := x.due + 1 }
    ringPump c.rp.inq.length
      { c with rp := { c.rp with ifill := c.rp.ifill - beats, rings := listUpd c.rp.rings r.val due } }

/-- Inbound credits the host holds: a beat of the buffer's 128 is not given again until it has left (R92). -/
def Rp.credits (p : Rp) : Nat :=
  128 - (p.ifill + (p.inq.map fun x => match x.2.ring with
    | some y => y.2.2
    | none => 0).sum)

/-- RPn_EN falls: credits go, and the entry of a frame that has not arrived whole is abandoned (R94). -/
def Chan.radioOff (c : Chan) : Chan :=
  let partly (a : PoolAcc) : Bool := match a.ring with
    | some x => c.rp.inq.any fun y => inEntry x.1 x.2.1 y.2
    | none => false
  let d := c.updCores fun x => { x with pool := { x.pool with acc := x.pool.acc.filter fun a => !partly a } }
  let beats (x : Core) : Nat := (x.pool.acc.map fun a => match a.ring with
    | some y => y.2.2
    | none => 0).sum
  { d with rp := { d.rp with ocredit := 0, owed := 0, inq := [], ifill := beats (d.core 0) + beats (d.core 1) } }

end Sys2Proof.Machine
end

