-- ==== Sys2Proof/Machine/HostOps.lean ====
section
/-! DEFINITION. Host-port target accesses (chapters 02 and 22): the address map, the codes of R62, their capture, and
a write to a defined register as one operation. -/

namespace Sys2Proof.Machine

/-- Base addresses of a channel's, a core's and an array's block (chapter 22). -/
def chBase (n : ChanId) : Nat := 0x100000 + n.val * 0x100000
def coreBase (c : CoreId) : Nat := chBase (coreChan c) + 0x80000 + (coreLoc c).val * 0x40000
def arrBase (a : ArrId) : Nat := chBase (arrChan a) + 0x80000 + (arrCore a).val * 0x40000 + 0x2000 + (arrLoc a).val * 0x100
def histBase (a : ArrId) : Nat := 0x8000 + 0x400 * a.val

/-- Where an address lies. -/
inductive Loc where
  | eng (off : Nat)
  | hist (a : ArrId) (off : Nat)
  | ch (n : ChanId) (off : Nat)
  | core (c : CoreId) (off : Nat)
  | arr (a : ArrId) (off : Nat)
  | pool (c : CoreId) (off : Nat)
  | none
  deriving DecidableEq, Repr

/-- An offset in [lo, hi], a multiple of 4 counted from lo. -/
def rng (off lo hi : Nat) : Bool := decide (lo ≤ off ∧ off ≤ hi) && (off - lo) % 4 == 0

/-- The registers of the engine block (R702). -/
def engReg (o : Nat) : Bool :=
  rng o 0x0 0x8 || rng o 0x40 0x44 || rng o 0x1000 0x1004 || rng o 0x2000 0x2004 || rng o 0x3000 0x3008 ||
  rng o 0x3010 0x3024 || rng o 0x4000 0x4038 || rng o 0x4040 0x4078 || rng o 0x4080 0x408C || rng o 0x40C0 0x40DC ||
  rng o 0x5000 0x5030 || rng o 0x5040 0x5044 || rng o 0x6000 0x6014 || rng o 0x7000 0x7004 || rng o 0x7010 0x7014

def histReg (o : Nat) : Bool := rng o 0 0xC || rng o 0x100 0x30C

def chReg (o : Nat) : Bool :=
  o == 0 || rng o 0x40 0x48 || o == 0x50 || rng o 0x60 0x70 || rng o 0x80 0x84 || rng o 0x90 0xA8 || rng o 0x100 0x194 ||
  rng o 0x10000 0x13FFC || rng o 0x18000 0x18004 || rng o 0x20000 0x20024 || rng o 0x30000 0x30018 ||
  rng o 0x40000 0x4001C || rng o 0x40040 0x400BC || rng o 0x50000 0x50014 || rng o 0x50040 0x5007C ||
  rng o 0x50080 0x500AC

def coreReg (o : Nat) : Bool :=
  rng o 0 8 || rng o 0x1000 0x1024 || rng o 0x1080 0x12FC || rng o 0x1300 0x131C || rng o 0x3000 0x300C ||
  rng o 0x4000 0x4014 || rng o 0x5000 0x5014

def arrReg (o : Nat) : Bool :=
  rng o 0 0x18 || rng o 0x40 0x58 || rng o 0x80 0x90 || rng o 0xC0 0xD4 || rng o 0xE0 0xE4

/-- The register or pool word at an address, if there is one (R62, R702). -/
def locate (a : Nat) : Loc :=
  if a % 4 ≠ 0 then .none
  else if a < 0x8000 then (if engReg a then .eng a else .none)
  else if a < 0xC000 then
    (if histReg (a % 0x400) then .hist (Fin.ofNat 16 ((a - 0x8000) / 0x400)) (a % 0x400) else .none)
  else if a < 0x100000 then .none
  else if a < 0x500000 then
    let n : ChanId := Fin.ofNat 4 ((a - 0x100000) / 0x100000)
    let o := a % 0x100000
    if o < 0x80000 then (if chReg o then .ch n o else .none)
    else
      let k : Fin 2 := Fin.ofNat 2 ((o - 0x80000) / 0x40000)
      let q := o % 0x40000
      if 0x2000 ≤ q ∧ q < 0x2200 then
        (if arrReg (q % 0x100) then .arr (mkArr n k (Fin.ofNat 2 ((q - 0x2000) / 0x100))) (q % 0x100) else .none)
      else if coreReg q then .core (mkCore n k) q else .none
  else if 0x800000 ≤ a ∧ a < 0xC00000 then .pool (Fin.ofNat 8 ((a - 0x800000) / 0x80000)) (a % 0x80000)
  else .none

/-- HP_R_CODE (R59, R62). -/
def hpDecode : BitVec 2 := 1
def hpData : BitVec 2 := 2
def hpOffline : BitVec 2 := 3

/-- A channel in reset or power-gated (R62, R672): every state but IDLE, ARMED, RUNNING and HALTED. -/
def State.offline (s : State) (n : ChanId) : Bool := !(s.chan n).live

/-- The code an access to a location meets before its data is read; none when OK (R62). -/
def hostCode (s : State) : Loc → Option (BitVec 2)
  | .none => some hpDecode
  | .eng _ => none
  | .hist _ _ => none
  | .ch n o => if 0x10000 ≤ o ∧ s.offline n then some hpOffline else none
  | .core c _ => if s.offline (coreChan c) then some hpOffline else none
  | .arr a _ => if s.offline (arrChan a) then some hpOffline else none
  | .pool c o =>
    if s.offline (coreChan c) then some hpOffline
    else if (s.core c).hasSlot clNarrow (lineBank (o / 128)) then none else some hpDecode

/-- A non-OK access: captured, or counted while a capture is held (R65). -/
def hostErr (s : State) (addr : Nat) (write : Bool) (code : BitVec 2) : State :=
  let e := s.hperr
  { s with hperr :=
    if e.valid then { e with more := satAdd e.more 1 }
    else { more := 0, write := write, code := code, valid := true, addr := BitVec.ofNat 24 addr } }

/-- The rows that are reads of the target side. -/
def hostIsRead : Instr → Bool
  | .hostPoolRead _ _ => true
  | .tdNsRead _ => true
  | .calDateRead => true
  | .srvDataRead => true
  | _ => false

/-- An access that finds an earlier one under way waits its turn, unless 16 of its kind do (R58–R60); nothing is taken
before the target side serves accesses (R162). -/
def hostLater (s : State) (i : Instr) : State :=
  if !s.eng.hpUp || decide (16 ≤ s.eng.hostQ.countP fun x => hostIsRead x == hostIsRead i) then s
  else { s with eng := { s.eng with hostQ := s.eng.hostQ ++ [i] } }

/-- A host write to a register, the row `i`: the errors of R62 drop it and are captured; else its effect. -/
def hostWr (s : State) (i : Instr) (addr : Nat) (eff : State → State) : State :=
  if !s.eng.hpReady then hostLater s i
  else
    match hostCode s (locate addr) with
    | some code => hostErr s addr true code
    | none => eff s

/-- A host read's response (R59, R63). -/
def hostAnswer (s : State) (code : BitVec 2) (data : Word) : State :=
  { s with eng := { s.eng with rValid := true, rData := if code = 0 then data else 0, rCode := code } }

/-- A host read, the row `i`: its response, and its capture when the code is not OK. -/
def hostRd (s : State) (i : Instr) (addr : Nat) (eff : State → State × Word) : State :=
  if !s.eng.hpReady then hostLater s i
  else
    match hostCode s (locate addr) with
    | some code => hostAnswer (hostErr s addr false code) code 0
    | none => let r := eff s; hostAnswer r.1 0 r.2

abbrev Out := Host.Outcome State Fault Refusal

end Sys2Proof.Machine
end

