-- ==== Sys2Proof/Machine/Supply.lean ====
section
/-! DEFINITION. The shared supply, its operating points and power gating (chapters 02 and 03). -/

namespace Sys2Proof.Machine

/-! ### Supply faults (R112, R148) -/

/-- A supply fault (R112, R148, R694). The ceiling of a fault not yet cleared stands beside that of a further one: the
lower of the two holds. -/
def supplyFault (s : State) (old new : BitVec 3) (fell : Bool) : State :=
  let low := if old.toNat ≤ new.toNat then old else new
  let s1 : State :=
    { s with
      pwr := { s.pwr with supplyOp := some (match s.pwr.supplyOp with
        | some o => if o.toNat ≤ low.toNat then o else low
        | none => low) }
      flt := { s.flt with supply := true } }
  resupply (engErr s1 0 0x80 (BitVec.ofNat 32 (old.toNat + 16 * new.toNat + 256 * fell.toNat)))

/-! ### Leaving reset (R160, R179, R180, R188) -/

/-- A channel's reset is lifted: it becomes IDLE, or stays as bring-up, its failure, its power gate or CHRST_N hold
it; while FATAL_N is asserted no channel leaves reset (R672, log 50). `cold` says that its supply was off or its
memories were cleared. -/
def liftReset (s : State) (n : ChanId) (cold : Bool) : State :=
  let s1 := if cold then s.updCh n fun c =>
    { c with cores := ⟨{ c.cores.c0 with pool := .reset, arrs := ⟨c.cores.c0.arrs.c0.restore true, c.cores.c0.arrs.c1.restore true⟩ },
                       { c.cores.c1 with pool := .reset, arrs := ⟨c.cores.c1.arrs.c0.restore true, c.cores.c1.arrs.c1.restore true⟩ }⟩ }
    else s
  if bitOf s.boot.chFail n.val then s1.updCh n fun c => { c with ctl := { c.ctl with state := .failed } }
  else if s.flt.fatal = true ∨ s.boot.stage ≠ 9 ∨ bitOf s.eng.chrst n.val = false ∨ bitOf s.pwr.gated n.val ∨ bitOf s.pwr.gating n.val ∨
      bitOf s.pwr.ungating n.val then s1
  else resupply (releaseChan s1 n cold)

/-! ### Power gates (R82, R113, R152–R154) -/

/-- PGREQ changes as the handshake under way asks, on the time clock (R132): it rises once no tag of the port is
outstanding (R82, R113) and falls as ungating begins (R153). -/
def gateReady (s : State) (n : ChanId) : State :=
  if !s.clk.tpllLock then s
  else if bitOf s.pwr.ungating n.val then { s with pwr := { s.pwr with pgreq := clrBit s.pwr.pgreq n.val } }
  else if bitOf s.pwr.gating n.val && !bitOf s.pwr.pgreq n.val && (s.chan n).mp.reqs.isEmpty then
    { s with pwr := { s.pwr with pgreq := setBit s.pwr.pgreq n.val } }
  else s

/-- The state a channel is held in: FAILED lasts until the next PORST_N (R170). -/
def heldState (s : State) (n : ChanId) : ChState := if bitOf s.boot.chFail n.val then .failed else .reset

/-- Gating begins: the channel is isolated and held in reset. -/
def gateStart (s : State) (n : ChanId) : State :=
  let s1 := holdChan s n (heldState s n)
  gateReady { s1 with pwr := { s1.pwr with
    pg := setBit s1.pwr.pg n.val, gating := setBit s1.pwr.gating n.val, pgHeld := clrBit s1.pwr.pgHeld n.val } } n

/-- Ungating begins: PGREQ falls, core PLL n starts at code EFF, which R140 gives while the channel is gated. -/
def ungateStart (s : State) (n : ChanId) : State :=
  gateReady { s with
    pwr := { s.pwr with
      pg := clrBit s.pwr.pg n.val, ungating := setBit s.pwr.ungating n.val, pgHeld := clrBit s.pwr.pgHeld n.val }
    clk := { s.clk with pllOn := setBit s.clk.pllOn n.val } } n

/-! ### The PLLs of bring-up (R133, R152, R160) -/

/-- The PLLs that run: a gated channel's core PLL is stopped (R152). -/
def pllRun (p : Pwr) : BitVec 6 := 0x3F &&& ~~~((p.gated &&& ~~~p.ungating).setWidth 6)

/-- Every PLL that has been started has locked; a gated channel's is not waited for (log 51). -/
def allLocked (c : Clk) : Bool := (c.pllOn.setWidth 4 &&& ~~~c.cpllLock) == 0 && c.mpllLock && c.tpllLock

/-- Step 6 begins once they have (R160). -/
def stepSix (s : State) : State :=
  if s.boot.stage = 4 ∧ allLocked s.clk = true then { s with boot := { s.boot with stage := 5 } } else s

/-! ### The rows -/

/-- VACK_RISE: the level of a change is reached (R110, R142). -/
def execVackRise (s : State) : Out :=
  .next (
    if s.pwr.vack && !s.pwr.waitVack then s
    else resupply { s with pwr := { s.pwr with vack := true, waitVack := false } })

/-- VACK_FALL: during a change nothing more; else a supply fault (R111, R112). -/
def execVackFall (s : State) : Out :=
  .next (
    if !s.pwr.vack then s
    else
      let s1 := { s with pwr := { s.pwr with vack := false } }
      if s.pwr.waitVack then s1 else supplyFault s1 s.pwr.vreq s.pwr.vreq true)

/-- VACK_TIMEOUT (R112). -/
def execVackTimeout (s : State) : Out :=
  .next (if s.pwr.waitVack && s.pwr.supplyOp.isNone then supplyFault s s.pwr.vreqOld s.pwr.vreq false else s)

/-- PGACK_RISE (R152, R179). -/
def execPgackRise (n : ChanId) (s : State) : Out :=
  .next (
    let s1 := { s with pwr := { s.pwr with pgack := setBit s.pwr.pgack n.val } }
    if bitOf s.pwr.gating n.val && bitOf s.pwr.pgreq n.val then
      let s2 : State :=
        { s1 with
          pwr := { s1.pwr with gated := setBit s1.pwr.gated n.val, gating := clrBit s1.pwr.gating n.val }
          clk := { s1.clk with cpllLock := clrBit s1.clk.cpllLock n.val, pllOn := clrBit s1.clk.pllOn n.val } }
      let s3 := stepSix (resupply (s2.updCh n fun c => { c with ctl := { c.ctl with state := .gated, ramp := false } }))
      if bitOf s3.pwr.pgHeld n.val then ungateStart s3 n else s3
    else s1)

/-- PGACK_FALL: the channel is powered again and held in reset (R113, R153). -/
def execPgackFall (n : ChanId) (s : State) : Out :=
  .next (
    let s1 := { s with pwr := { s.pwr with pgack := clrBit s.pwr.pgack n.val } }
    if bitOf s.pwr.ungating n.val && bitOf s.pwr.gated n.val then
      let s2 := { s1 with pwr := { s1.pwr with gated := clrBit s1.pwr.gated n.val } }
      resupply (s2.updCh n fun c => { c with ctl := { c.ctl with state := heldState s n } })
    else s1)

/-- PGACK_TIMEOUT (R113, R694). -/
def execPgackTimeout (n : ChanId) (s : State) : Out :=
  .next (
    let want := bitOf s.pwr.pgreq n.val
    if want == bitOf s.pwr.pgack n.val then s
    else engErr s 0 0x81 (BitVec.ofNat 32 (n.val + 16 * want.toNat)))

/-- UNGATE_RESET_RELEASE: core PLL n has locked and 64 tc have passed since PGACK fell (R153, R179). -/
def execUngateResetRelease (n : ChanId) (s : State) : Out :=
  .next (
    let p := s.pwr
    if bitOf p.ungating n.val && !bitOf p.gated n.val && !bitOf p.pgreq n.val && !bitOf p.pgack n.val &&
        bitOf s.clk.cpllLock n.val then
      let s1 := liftReset { s with pwr := { p with ungating := clrBit p.ungating n.val } } n true
      if bitOf s1.pwr.pgHeld n.val then gateStart s1 n else s1
    else s)

/-- RAMP_END (R143, R145). -/
def execRampEnd (n : ChanId) (s : State) : Out :=
  .next (
    if (s.chan n).ctl.ramp then
      supplySeq (s.updCh n fun c => { c with ctl := { c.ctl with ramp := false } })
    else s)

/-- MAX_OP_WRITE: the power cap; 5–7 leave it (R147). -/
def execMaxOpWrite (v : BitVec 3) (s : State) : Out :=
  .next (hostWr s (.maxOpWrite v) 0x2000 fun t =>
    if 4 < v.toNat then t else resupply { t with pwr := { t.pwr with maxOp := v } })

/-- POWER_GATE: a write of 1 to PG[n]; one that reverses an ungating waits for it (R152, R154). -/
def execPowerGate (n : ChanId) (s : State) : Out :=
  .next (hostWr s (.powerGate n) 0x2000 fun t =>
    if bitOf t.pwr.pg n.val then { t with pwr := { t.pwr with pgHeld := clrBit t.pwr.pgHeld n.val } }
    else if bitOf t.pwr.ungating n.val then { t with pwr := { t.pwr with pgHeld := setBit t.pwr.pgHeld n.val } }
    else gateStart t n)

/-- UNGATE: a write of 0 to PG[n]; one that reverses a gating waits for it (R153, R154). -/
def execUngate (n : ChanId) (s : State) : Out :=
  .next (hostWr s (.ungate n) 0x2000 fun t =>
    if !bitOf t.pwr.pg n.val then { t with pwr := { t.pwr with pgHeld := clrBit t.pwr.pgHeld n.val } }
    else if bitOf t.pwr.gating n.val then { t with pwr := { t.pwr with pgHeld := setBit t.pwr.pgHeld n.val } }
    else ungateStart t n)

/-- SUPPLY_CLEAR: a write of 1 to FLT_ENG.SUPPLY (R695). -/
def execSupplyClear (s : State) : Out :=
  .next (hostWr s .supplyClear 0x7000 fun t =>
    resupply { t with
      flt := { t.flt with supply := false }
      pwr := { t.pwr with supplyOp := none, waitVack := t.pwr.waitVack && !t.pwr.vack } })

end Sys2Proof.Machine
end

