-- ==== Sys2Proof/Machine/Clocks.lean ====
section
/-! DEFINITION. Clock observation and the thermal sensors (chapter 03). -/

namespace Sys2Proof.Machine

/-- The clock CLK_OBS selects runs (R135, R136). The reference does not under XSEL 0b11 (R123), and counts as stopped
from its missing edge until REF_LOST is cleared (log 52). -/
def obsRuns (s : State) (sel : Nat) : Bool :=
  if sel = 1 then s.eng.porst && s.eng.xsel != 3 && !s.clk.refLost
  else if sel = 2 then s.boot.bootOn
  else if sel = 3 then s.clk.tpllLock
  else if 4 ≤ sel ∧ sel ≤ 7 then bitOf s.clk.cpllLock (sel - 4)
  else if 8 ≤ sel ∧ sel ≤ 11 then s.clk.mpllLock
  else sel == 12

/-- CKOBS: with divisor D high for the first ⌈D/2⌉ cycles of the selected clock, low for the rest, low while that clock
is stopped and to the end of the old period after a write (R136). -/
def State.ckobs (s : State) : Bool :=
  s.clk.obsLeft == 0 && obsRuns s s.clk.obsSel.toNat && decide (2 * s.clk.obsCnt < s.clk.obsDiv.toNat + 1)

/-- One cycle of the clocks `f` names: the period of CKOBS moves on, or what is left of the old one after a write; a
stopped clock leaves it at its high phase (R136, log 52). -/
def obsCycle (f : Nat → Bool) (s : State) : State :=
  let c := s.clk
  let sel := if 0 < c.obsLeft then c.obsOld.toNat else c.obsSel.toNat
  if !obsRuns s sel then { s with clk := { c with obsLeft := 0, obsCnt := 0 } }
  else if !f sel then s
  else if 0 < c.obsLeft then { s with clk := { c with obsLeft := c.obsLeft - 1 } }
  else { s with clk := { c with obsCnt := (c.obsCnt + 1) % (c.obsDiv.toNat + 1) } }

/-- A write of CLK_OBS: CKOBS is low through the end of its period and restarts from its high phase under the new
selection (R136). -/
def Clk.obsWrite (c : Clk) (runs : Bool) (data : Word) : Clk :=
  { c with
    obsDiv := data.extractLsb' 4 12, obsSel := data.extractLsb' 0 4, obsCnt := 0
    obsLeft := if 0 < c.obsLeft then c.obsLeft else if runs then c.obsDiv.toNat + 1 - c.obsCnt else 0
    obsOld := if 0 < c.obsLeft then c.obsOld else c.obsSel }

/-- CLK_OBS_WRITE (R135, R136). -/
def execClkObsWrite (data : Word) (s : State) : Out :=
  .next (hostWr s (.clkObsWrite data) 0x1004 fun t => { t with clk := t.clk.obsWrite (obsRuns t t.clk.obsSel.toNat) data })

/-- THERMAL_SAMPLE: the raw reading plus the signed trim; at most the last 128 are kept (R155, R156). -/
def execThermalSample (k : Fin 6) (raw : BitVec 11) (s : State) : Out :=
  .next (
    if !s.boot.bootOn then s
    else
      { s with thm := { s.thm with
        sens := listUpd s.thm.sens k.val fun x => { x with samples := (raw.toInt + x.trim.toInt) :: x.samples.take 127 } } })

/-- TEMP of a mean: truncated towards zero (log 31); a mean outside the field's range has no stated value, so a free
one stands (log 53). -/
def tempOf (sum : Int) (n draw : Nat) : BitVec 11 :=
  let m := sum.tdiv n
  if -1024 ≤ m ∧ m ≤ 1023 then BitVec.ofInt 11 m else (Config.freeF20 draw).setWidth 11

/-- TEMP of a sensor at the end of a period of n samples: their mean (R156, R159). It is renewed at a period's end
only (log 31). -/
def Sens.periodEnd (x : Sens) (n draw : Nat) : Sens :=
  if x.samples.length < n then x
  else { x with valid := true, temp := tempOf (x.samples.take n).sum n draw }

/-- The sensor with the highest TEMP, the lowest of equals (R156, R694). -/
def hottest (l : List Sens) : Nat × Int :=
  (l.zipIdx.foldl (fun (m : Option (Nat × Int)) p =>
    match m with
    | some b => if b.2 < p.1.temp.toInt then some (p.2, p.1.temp.toInt) else m
    | none => some (p.2, p.1.temp.toInt)) none).getD (0, 0)

/-- AVERAGING_PERIOD_END: TEMP of every sensor, and the thermal ceiling (R156). -/
def execAveragingPeriodEnd (s : State) : Out :=
  .next (
    if !s.boot.bootOn then s
    else
      let sens := s.thm.sens.zipIdx.map fun x => x.1.periodEnd (2 ^ s.thm.avg.toNat) (s.free + x.2)
      let s1 := { s with free := s.free + s.thm.sens.length, thm := { s.thm with sens := sens } }
      let t := hottest sens
      let hi : Int := 4 * s.thm.hi.toNat
      let lo : Int := 4 * s.thm.lo.toNat
      let crit : Int := 4 * s.thm.crit.toNat
      if crit ≤ t.2 then
        let s2 : State := { s1 with thm := { s1.thm with critFlag := true }, pwr := { s1.pwr with thermOp := 0 } }
        resupply (engErr s2 0 0x84 (BitVec.ofNat 32 (t.1 + (BitVec.ofInt 11 t.2).toNat * 65536)))
      else if hi ≤ t.2 then
        if s.pwr.thermOp = 0 then s1
        else resupply { s1 with
          thm := { s1.thm with throttles := satAdd s1.thm.throttles 1 }, pwr := { s1.pwr with thermOp := s1.pwr.thermOp - 1 } }
      else if t.2 < min lo (hi - 4) ∧ s.pwr.thermOp.toNat < 4 then
        resupply { s1 with pwr := { s1.pwr with thermOp := s1.pwr.thermOp + 1 } }
      else s1)

end Sys2Proof.Machine
end

