-- ==== Sys2Proof/Machine/Flags.lean ====
section
/-! DEFINITION. The number formats of chapter 07: exact values, the one rounding, F20 arithmetic and its flags,
A40 sums and decay, the conversions of R285 and the block rule of R286. -/

namespace Sys2Proof.Machine

/-- The flags of R274: OF, UF, IX, IV from bit 3 down to bit 0, as GATE_FLAGS[3:0] shows them. -/
abbrev Fl := BitVec 4

def flOF : Fl := 8
def flUF : Fl := 4
def flIX : Fl := 2
def flIV : Fl := 1

/-- The value an F20 code stands for: m · 2^e exactly, an infinity, or void (R270). -/
inductive Num where
  | fin (m e : Int)
  | inf (neg : Bool)
  | void
  deriving DecidableEq, Repr

/-! ### Integers and rationals -/

/-- 2^e as a fraction: numerator and denominator. -/
def pow2Num (e : Int) : Nat := if e < 0 then 1 else 2 ^ e.toNat
def pow2Den (e : Int) : Nat := if e < 0 then 2 ^ (-e).toNat else 1

/-- n / d rounded to the nearest integer, ties to the even integer (RNE of R269). -/
def rneDiv (n : Int) (d : Nat) : Int :=
  let q := n / (d : Int)
  let r := n % (d : Int)
  if 2 * r < d then q
  else if (d : Int) < 2 * r then q + 1
  else if q % 2 = 0 then q else q + 1

/-- RNE(n · 2^e). -/
def rneScale (n e : Int) : Int := rneDiv (n * pow2Num e) (pow2Den e)

/-- ⌊log2 (p / q)⌋ of a positive fraction. -/
def floorLog2 (p q : Nat) : Int :=
  let k : Int := (Nat.log2 p : Int) - Nat.log2 q
  if q * pow2Num k ≤ p * pow2Den k then k else k - 1

/-! ### F20 codes (R270–R273) -/

def f20Sign (c : F20) : Bool := c.getLsbD 19
def f20Exp (c : F20) : Nat := (c.extractLsb' 12 7).toNat
def f20Frac (c : F20) : Nat := (c.extractLsb' 0 12).toNat

def f20Void : F20 := 0x7F800
def f20One : F20 := 0x3F000
def f20Max : F20 := 0x7EFFF
def f20Inf (neg : Bool) : F20 := if neg then 0xFF000 else 0x7F000

/-- The value of an F20 code; 0x8_0000 acts as +0 and every code with E = 127 and M ≠ 0 as void (R273). -/
def f20Dec (c : F20) : Num :=
  let s : Int := if f20Sign c then -1 else 1
  if f20Exp c = 127 then (if f20Frac c = 0 then .inf (f20Sign c) else .void)
  else if f20Exp c = 0 then .fin (s * f20Frac c) (-74)
  else .fin (s * (4096 + f20Frac c : Nat)) ((f20Exp c : Int) - 75)

/-- The fraction n / d rounded to F20 with its flags (R272–R274): magnitude code, then sign. d is positive. -/
def roundFrac (n : Int) (d : Nat) : F20 × Fl :=
  if n = 0 then (0, 0)
  else
    let p := n.natAbs
    let k := floorLog2 p d
    let q := max k (-62) - 12
    let m := (rneDiv ((p : Int) * pow2Den q) (d * pow2Num q)).toNat
    let code := (max k (-62) + 62).toNat * 4096 + m
    if 0x7F000 ≤ code then (f20Inf (decide (n < 0)), flOF ||| flIX)
    else
      let exact := decide (m * (d * pow2Num q) = p * pow2Den q)
      let fl : Fl := if exact then 0 else if k < -62 then flUF ||| flIX else flIX
      (if m = 0 then 0 else BitVec.ofNat 20 (if n < 0 then 0x80000 + code else code), fl)

/-- m · 2^e rounded to F20. -/
def roundDy (m e : Int) : F20 × Fl := roundFrac (m * pow2Num e) (pow2Den e)

/-- The F20 code of an exact value that may be infinite or void; no flag on the latter two. -/
def roundNum : Num → F20 × Fl
  | .fin m e => roundDy m e
  | .inf s => (f20Inf s, 0)
  | .void => (f20Void, 0)

/-- The code with which a value already held in F20 is delivered (R273). -/
def f20Canon (c : F20) : F20 :=
  match f20Dec c with
  | .void => f20Void
  | .fin m _ => if m = 0 then 0 else c
  | .inf _ => c

/-- A negated operand (R423): zero stays +0 and void stays void. -/
def f20Neg (c : F20) : F20 :=
  match f20Dec c with
  | .void => f20Void
  | .fin m _ => if m = 0 then 0 else c ^^^ 0x80000
  | .inf _ => c ^^^ 0x80000

def numNeg : Num → Num
  | .fin m e => .fin (-m) e
  | .inf s => .inf (!s)
  | .void => .void

/-- The exact sum of two finite values. -/
def dyAdd (m₁ e₁ m₂ e₂ : Int) : Int × Int :=
  let e := min e₁ e₂
  (m₁ * 2 ^ (e₁ - e).toNat + m₂ * 2 ^ (e₂ - e).toNat, e)

/-- ADD (R272–R274). -/
def numAdd : Num → Num → F20 × Fl
  | .void, _ => (f20Void, 0)
  | _, .void => (f20Void, 0)
  | .inf s, .inf t => if s = t then (f20Inf s, 0) else (f20Void, flIV)
  | .inf s, .fin _ _ => (f20Inf s, 0)
  | .fin _ _, .inf t => (f20Inf t, 0)
  | .fin m₁ e₁, .fin m₂ e₂ => roundDy (dyAdd m₁ e₁ m₂ e₂).1 (dyAdd m₁ e₁ m₂ e₂).2

/-- The exact product, and whether it is 0 × ∞. -/
def numProd : Num → Num → Num × Bool
  | .void, _ => (.void, false)
  | _, .void => (.void, false)
  | .inf s, .inf t => (.inf (s != t), false)
  | .inf s, .fin m _ => if m = 0 then (.void, true) else (.inf (s != decide (m < 0)), false)
  | .fin m _, .inf t => if m = 0 then (.void, true) else (.inf (t != decide (m < 0)), false)
  | .fin m₁ e₁, .fin m₂ e₂ => (.fin (m₁ * m₂) (e₁ + e₂), false)

/-- MUL. -/
def numMul (a b : Num) : F20 × Fl :=
  let p := numProd a b
  if p.2 then (f20Void, flIV) else roundNum p.1

/-- FMA: one rounding; a product of 0 × ∞ raises IV even beside a void C (R274). -/
def numFma (a b c : Num) : F20 × Fl :=
  let p := numProd a b
  if p.2 then (f20Void, flIV) else numAdd p.1 c

def f20Add (a b : F20) : F20 × Fl := numAdd (f20Dec a) (f20Dec b)
def f20Sub (a b : F20) : F20 × Fl := numAdd (f20Dec a) (numNeg (f20Dec b))
def f20Mul (a b : F20) : F20 × Fl := numMul (f20Dec a) (f20Dec b)
def f20Fma (a b c : F20) : F20 × Fl := numFma (f20Dec a) (f20Dec b) (f20Dec c)

/-- The order of two values; none when either is void (R276). -/
def numCmp : Num → Num → Option Ordering
  | .void, _ => none
  | _, .void => none
  | .inf s, .inf t => some (compare t.toNat s.toNat)
  | .inf s, .fin _ _ => some (if s then .lt else .gt)
  | .fin _ _, .inf t => some (if t then .gt else .lt)
  | .fin m₁ e₁, .fin m₂ e₂ => some (compare (dyAdd m₁ e₁ (-m₂) e₂).1 0)

def f20Cmp (a b : F20) : Option Ordering := numCmp (f20Dec a) (f20Dec b)

/-- MIN and MAX: void when either operand is void (R276). -/
def f20Min (a b : F20) : F20 :=
  match f20Cmp a b with
  | none => f20Void
  | some .gt => f20Canon b
  | some _ => f20Canon a

def f20MaxOf (a b : F20) : F20 :=
  match f20Cmp a b with
  | none => f20Void
  | some .lt => f20Canon b
  | some _ => f20Canon a

/-- CLAMP: MIN(MAX(A, B), C) (R424). -/
def f20Clamp (a b c : F20) : F20 := f20Min (f20MaxOf a b) c

/-- The condition of SEL on C (R424): codes 0 to 7. -/
def selCond (code : Nat) (c : F20) : Bool :=
  let o := f20Cmp c 0
  match code with
  | 0 => o == some .gt
  | 1 => o == some .gt || o == some .eq
  | 2 => o == some .eq
  | 3 => o != some .eq
  | 4 => o == some .lt
  | 5 => o == some .lt || o == some .eq
  | 6 => o == none
  | _ => match f20Dec c with
         | .fin _ _ => true
         | _ => false

/-- The exponent histogram's bin of a value (R291). -/
def histBin (c : F20) : Nat :=
  if f20Exp c = 127 then (if f20Frac c = 0 then 130 else 131)
  else if f20Exp c = 0 then (if f20Frac c = 0 then 128 else 129)
  else f20Exp c

/-! ### A40 (R280–R284) -/

def accLimit : Int := 2 ^ 39 - 2

/-- An exact integer put into range: beyond 2^39 − 2 the infinity of its sign. -/
def accClamp (v : Int) : Acc :=
  if accLimit < v then .pinf else if v < -accLimit then .ninf else .fin v

def a40Dec (a : A40) : Acc :=
  if a = 0x7FFFFFFFFF then .pinf
  else if a = 0x8000000001 then .ninf
  else if a = 0x8000000000 then .void
  else .fin a.toInt

def a40Enc : Acc → A40
  | .fin v => if accLimit < v then 0x7FFFFFFFFF else if v < -accLimit then 0x8000000001 else BitVec.ofInt 40 v
  | .pinf => 0x7FFFFFFFFF
  | .ninf => 0x8000000001
  | .void => 0x8000000000

/-- Two summands before the range check (R281, R299). -/
def accAdd : Acc → Acc → Acc
  | .void, _ => .void
  | _, .void => .void
  | .pinf, .ninf => .void
  | .ninf, .pinf => .void
  | .pinf, _ => .pinf
  | _, .pinf => .pinf
  | .ninf, _ => .ninf
  | _, .ninf => .ninf
  | .fin a, .fin b => .fin (a + b)

/-- The exact sum of the inputs of one cc (R281). -/
def accSum (l : List Acc) : Acc := l.foldl accAdd (.fin 0)

/-- The result of R281: the exact sum, checked once. -/
def accTotal (l : List Acc) : Acc :=
  match accSum l with
  | .fin v => accClamp v
  | x => x

/-- The decayed value of R282; d is a Q1.16 code, codes above 0x1_0000 acting as 0x1_0000 (R283). -/
def accDecay (a : Acc) (d : BitVec 17) : Acc :=
  let f : Nat := min d.toNat 0x10000
  match a with
  | .fin v => .fin (rneDiv (v * f) 65536)
  | .void => .void
  | x => if f = 0 then .void else x

def accIsInf : Acc → Bool
  | .pinf => true
  | .ninf => true
  | _ => false

/-- The contribution of a product p under the shift s = e_w + e_x − X (R269, R285). -/
def prodContrib (p s : Int) : Acc := accClamp (rneScale p s)

/-- An A40 word with X to F20 (R285). -/
def accToF20 (a : Acc) (x : Int) : F20 × Fl :=
  match a with
  | .fin v => roundDy v x
  | .pinf => (f20Inf false, 0)
  | .ninf => (f20Inf true, 0)
  | .void => (f20Void, 0)

/-- F20 to an A40 word with X (R285). -/
def f20ToAcc (c : F20) (x : Int) : Acc × Fl :=
  match f20Dec c with
  | .void => (.void, 0)
  | .inf s => (if s then .ninf else .pinf, 0)
  | .fin m e =>
    let v := rneScale m (e - x)
    if accLimit < v ∨ v < -accLimit then (accClamp v, flOF ||| flIX)
    else (.fin v, if v * pow2Den (e - x) = m * pow2Num (e - x) then 0 else flIX)

/-- F20 to a Q1.16 decay code (R285); none for a void operand, which voids the decayed word. -/
def f20ToDecay (c : F20) : Option (BitVec 17) × Fl :=
  match f20Dec c with
  | .void => (none, 0)
  | .inf s => (some (if s then 0 else 0x10000), flIV)
  | .fin m e =>
    let v := rneScale m (e + 16)
    let w := max 0 (min v 0x10000)
    (some (BitVec.ofInt 17 w), if w * pow2Den (e + 16) = m * pow2Num (e + 16) then 0 else flIX)

/-- F20 to Q16 with F fraction bits (R285). -/
def f20ToQ16 (c : F20) (f : Nat) : BitVec 16 × Fl :=
  match f20Dec c with
  | .void => (0, flIV)
  | .inf s => (if s then 0x8000 else 0x7FFF, flIV)
  | .fin m e =>
    let v := rneScale m (e + f)
    if 32767 < v then (0x7FFF, flOF ||| flIX)
    else if v < -32768 then (0x8000, flOF ||| flIX)
    else (BitVec.ofInt 16 v, if v * pow2Den (e + f) = m * pow2Num (e + f) then 0 else flIX)

/-- Q16 with F fraction bits to F20: IX at most (R285). -/
def q16ToF20 (q : BitVec 16) (f : Nat) : F20 × Fl := roundDy q.toInt (-(f : Int))

/-! ### Block formats (R262–R268, R286, R287) -/

/-- The multiplied formats. -/
inductive Fmt where
  | s8
  | u8
  | s4
  | u4
  deriving DecidableEq, Repr

def Fmt.signed : Fmt → Bool
  | .s8 => true
  | .s4 => true
  | _ => false

def Fmt.is4 : Fmt → Bool
  | .s4 => true
  | .u4 => true
  | _ => false

/-- Qmax of R286 is 2^width − 1. -/
def Fmt.magBits : Fmt → Nat
  | .s8 => 7
  | .u8 => 8
  | .s4 => 3
  | .u4 => 4

def Fmt.qmax (f : Fmt) : Int := 2 ^ f.magBits - 1
def Fmt.qmin (f : Fmt) : Int := if f.signed then -f.qmax else 0

/-- The integer an element code stands for. -/
def Fmt.value (f : Fmt) (b : Byte) : Int :=
  match f with
  | .s8 => b.toInt
  | .u8 => b.toNat
  | .s4 => (b.extractLsb' 0 4).toInt
  | .u4 => (b.extractLsb' 0 4).toNat

/-- The code of a quotient: a byte, or a nibble in a byte. -/
def Fmt.code (f : Fmt) (q : Int) : Byte :=
  if f.is4 then (BitVec.ofInt 4 q).setWidth 8 else BitVec.ofInt 8 q

/-- The magnitude of R286: |v|, or max(v, 0) for an unsigned format, as a fraction. -/
def blockMag (f : Fmt) (m e : Int) : Nat × Nat :=
  ((if f.signed then m.natAbs else m.toNat) * pow2Num e, pow2Den e)

/-- The larger of two fractions. -/
def fracMax (a b : Nat × Nat) : Nat × Nat := if a.1 * b.2 < b.1 * a.2 then b else a

/-- The scale of R286 for the largest magnitude p / q: the smallest e with RNE(M · 2^−e) ≤ Qmax. With
k = ⌊log2 M⌋, a scale below k − bits + 1 leaves M · 2^−e at or above 2^bits; that scale itself fits unless the
rounding reaches 2^bits. -/
def blockScale (f : Fmt) (mag : Nat × Nat) : Int :=
  if mag.1 = 0 then -127
  else
    let e := floorLog2 mag.1 mag.2 - f.magBits + 1
    let fits := decide (rneDiv ((mag.1 * pow2Den e : Nat) : Int) (mag.2 * pow2Num e) ≤ f.qmax)
    max (-127) (if fits then e else e + 1)

/-- A converted block: E8 code, element codes, flags. -/
structure Block where
  scale : Byte
  codes : List Byte
  flags : Fl
  deriving DecidableEq, Repr

def e8Void : Byte := 0x80

def numIsFin : Num → Bool
  | .fin _ _ => true
  | _ => false

def numIsInf : Num → Bool
  | .inf _ => true
  | _ => false

def numMant : Num → Int
  | .fin m _ => m
  | _ => 0

def numExp : Num → Int
  | .fin _ e => e
  | _ => 0

/-- One element of a block under scale e: q = min(max(RNE(v · 2^−e), Qmin), Qmax) and whether q · 2^e is v. -/
def blockElem (f : Fmt) (e : Int) (v : Num) : Int × Bool :=
  let q := min (max (rneScale (numMant v) (numExp v - e)) f.qmin) f.qmax
  (q, decide (q * pow2Den (numExp v - e) = numMant v * pow2Num (numExp v - e)))

/-- The block rule (R286, R287). -/
def blockOf (f : Fmt) (vs : List Num) : Block :=
  if vs.all numIsFin then
    let mag := vs.foldl (fun m v => fracMax m (blockMag f (numMant v) (numExp v))) (0, 1)
    let e := blockScale f mag
    let qs := vs.map (blockElem f e)
    { scale := BitVec.ofInt 8 e
      codes := qs.map (fun q => f.code q.1)
      flags := if qs.all (·.2) then 0 else flIX }
  else
    { scale := e8Void
      codes := vs.map (fun _ => 0)
      flags := if vs.any numIsInf then flIV else 0 }

/-- The block rule on F20 values. -/
def blockF20 (f : Fmt) (vs : List F20) : Block := blockOf f (vs.map f20Dec)

/-- The block rule on Q16 values with F fraction bits; none of them is void (R285). -/
def blockQ16 (f : Fmt) (frac : Nat) (vs : List (BitVec 16)) : Block :=
  blockOf f (vs.map fun q => .fin q.toInt (-(frac : Int)))

/-- An element with its block's E8 code to F20 (R285). -/
def elemToF20 (f : Fmt) (b : Byte) (scale : Byte) : F20 × Fl :=
  if scale = e8Void then (f20Void, 0) else roundDy (f.value b) scale.toInt

end Sys2Proof.Machine
end

