-- ==== Sys2Proof/Machine/AccOps.lean ====
section
/-! DEFINITION. The accumulator file (chapter 09): logical words, the two copies of a state entry, writes and
contributions, clashes, ECC and tag parity. -/

namespace Sys2Proof.Machine

/-- S, the words of the scratch region (R329). -/
def Arr.accS (a : Arr) : Nat := 65536 - 2 * a.cfg.stateElems

/-- S + N_S: the logical words (R330). -/
def Arr.accTop (a : Arr) : Nat := a.accS + a.cfg.stateElems

def Entry.current (e : Entry) : A40 := if e.cur then e.copy1 else e.copy0

/-- A write of a state entry: with T 0 the other copy is stored and becomes current (R339). -/
def Entry.write (e : Entry) (v : A40) : Entry :=
  let c := if e.tag then e.cur else !e.cur
  if c then { e with copy1 := v, cur := c, tag := true } else { e with copy0 := v, cur := c, tag := true }

def Arr.entry (a : Arr) (e : Nat) : Entry := smGet Entry.zero a.acc.entries e

/-- A logical word as the file holds it (R330, R338). -/
def Arr.accRaw (a : Arr) (w : Nat) : A40 :=
  if w < a.accS then smGet 0 a.acc.scratch w else (a.entry (w - a.accS)).current

/-- A value stored in a logical word (R330, R339). -/
def Arr.accPut (a : Arr) (w : Nat) (v : A40) : Arr :=
  if w < a.accS then { a with acc := { a.acc with scratch := smSet 0 a.acc.scratch w v } }
  else
    let e := w - a.accS
    { a with acc := { a.acc with entries := smSet Entry.zero a.acc.entries e ((a.entry e).write v) } }

/-- The copy that holds a logical word: 0 for a scratch word (R368). -/
def Arr.accCur (a : Arr) (w : Nat) : Bool := if w < a.accS then false else (a.entry (w - a.accS)).cur

/-! ### The updates of one cc (R281, R332–R336) -/

/-- A word and its updates of the cc in progress. -/
def Arr.ccWord (a : Arr) (w : Nat) : CcWord :=
  (smFind a.acc.upd w).getD { prior := a.accRaw w, copy := a.accCur w, base := none, into := .fin 0, ovf := false }

/-- A logical word as read: as it stood before every update of the cc in progress (R332). -/
def Arr.accGet (a : Arr) (w : Nat) : Acc := a40Dec (a.ccWord w).prior

/-- The copy a read of a logical word reads. -/
def Arr.accCopy (a : Arr) (w : Nat) : Bool := (a.ccWord w).copy

/-- The exact sum of a word's base and contributions of the cc. -/
def CcWord.total (c : CcWord) : Acc := accAdd (c.base.getD (a40Dec c.prior)) c.into

/-- The updates of a word, which takes their result: the range is checked on it alone (R281, R336). -/
def Arr.ccPut (a : Arr) (w : Nat) (c : CcWord) : Arr :=
  let ovf := match c.total with
    | .fin v => accIsInf (accClamp v)
    | _ => false
  let b := a.accPut w (a40Enc (accTotal [c.total]))
  { b with acc := { b.acc with upd := smPut b.acc.upd w { c with ovf := ovf } } }

/-- A write of a pass, a STATE stage or a clear, as its base and contribution: a second one in the cc voids the word
(R334, R335). -/
def Arr.accWrite (a : Arr) (w : Nat) (l : List Acc) : Arr :=
  let c := a.ccWord w
  match c.base with
  | none => a.ccPut w { c with base := some (accSum l) }
  | some _ =>
    let b := a.ccPut w { c with base := some .void }
    { b with acc := { b.acc with clash := true } }

/-- An accumulate-into contribution, added to whatever base the cc has (R335, R362). -/
def Arr.accInto (a : Arr) (w : Nat) (v : Acc) : Arr :=
  let c := a.ccWord w
  a.ccPut w { c with into := accAdd c.into v }

def Arr.accIntoRun (a : Arr) (w : Nat) (vs : List Acc) : Arr :=
  (vs.foldl (fun (p : Arr × Nat) v => (p.1.accInto p.2 v, p.2 + 1)) (a, w)).1

/-- Bytes that hold undefined data in a word (R592). -/
def Arr.accFree (a : Arr) (w : Nat) (v : A40) : Arr :=
  let b := a.accPut w v
  { b with acc := { b.acc with upd := smDrop b.acc.upd w } }

/-! ### Protection (R366, R367) -/

def arrLvl (a : ArrId) : Lvl := .arr (arrCore a) (arrLoc a)

/-- ACC_ECC_ADDR (R368). -/
def accEccAddr (copy : Bool) (w : Nat) : Word := BitVec.ofNat 32 (copy.toNat * 65536 + w % 65536)

/-- A word found in double error: what a read returns, and the copy it read, are void (R366). -/
def Arr.accVoid (a : Arr) (w : Nat) : Arr :=
  let v : A40 := a40Enc .void
  let c := a.ccWord w
  if (smFind a.acc.upd w).isSome then a.ccPut w { c with prior := v }
  else if w < a.accS then { a with acc := { a.acc with scratch := smSet 0 a.acc.scratch w v } }
  else
    let e := a.entry (w - a.accS)
    let e1 : Entry := if e.cur then { e with copy1 := v } else { e with copy0 := v }
    { a with acc := { a.acc with entries := smSet Entry.zero a.acc.entries (w - a.accS) e1 } }

/-- A read of a word that finds an error: a single-bit one is corrected and counted; a double-bit one voids the word,
is captured and raises ACC_ECC (R366, R673). -/
def accFound (s : State) (a : ArrId) (w : Nat) (double : Bool) : State :=
  if double then
    let copy := (s.arr a).accCopy w
    let s1 := s.updArr a fun x =>
      let f := { x.acc with uncorr := satAdd x.acc.uncorr 1 }
      let f := if f.eccValid then f else { f with eccValid := true, eccCopy := copy, eccWord := BitVec.ofNat 16 w }
      ({ x with acc := f } : Arr).accVoid w
    raise s1 (arrChan a) { lvl := arrLvl a, cause := 0x43, cls := 1, info := accEccAddr copy w, addr := w }
  else s.updArr a fun x => { x with acc := { x.acc with corr := satAdd x.acc.corr 1 } }

/-- The words that a row reads, checked (R366). -/
def accReads (s : State) (a : ArrId) (ws : List Nat) (see : AccSee) : State :=
  (see.finds.filter fun f => ws.contains f.word).foldl (fun t f => accFound t a f.word f.double) s

/-- The array is marked faulted: FAULTED freezes every partition, and no column on its way to the sibling is delivered
(R325, R326). -/
def markFaulted (s : State) (a : ArrId) : State :=
  s.updCh (arrChan a) fun c => c.updCore (arrCore a) fun x =>
    (x.updArr (arrLoc a) fun y => { y with reg := { y.reg with faulted := true } }).updArr (other (arrLoc a)) fun y =>
      { y with outs := y.outs.map fun o => { o with sib := [] } }

/-- A tag-parity error in a 32-entry group (R367, R673). -/
def tagParity (s : State) (a : ArrId) (group : Nat) : State :=
  let s1 := (markFaulted s a).updArr a fun x => { x with acc := { x.acc with tagErr := true } }
  raise s1 (arrChan a) { lvl := arrLvl a, cause := 0x41, cls := 3, info := BitVec.ofNat 32 group, addr := group }

/-- The tag parity of every group that a row reads or writes an entry of, checked (R367). -/
def accTags (s : State) (a : ArrId) (ws : List Nat) (see : AccSee) : State :=
  let base := (s.arr a).accS
  (see.par.filter fun g => ws.any fun w => decide (base ≤ w) && (w - base) / 32 == g.toNat).foldl
    (fun t g => tagParity t a g.toNat) s

/-- The checks of a row that reads some words of an accumulator file and writes others. -/
def accSeen (s : State) (a : ArrId) (reads writes : List Nat) (see : AccSee) : State :=
  accTags (accReads s a reads see) a (reads ++ writes) see

/-- What the checks of one array of a channel find in a row. -/
def seeAt (sees : List ArrSee) (k j : Fin 2) : AccSee :=
  let mine := sees.filter fun e => e.core == k && e.arr == j
  { finds := mine.flatMap (·.see.finds), par := mine.flatMap (·.see.par) }

/-! ### Ticks (R340, R341) -/

def entryCommit (e : Entry) : Entry := { e with tag := false }

/-- The commit of an array: every T clears, GEN counts but at the first tick (R340). -/
def Arr.commit (a0 : Arr) (first : Bool) : Arr :=
  let a := a0.accClose
  { a with acc := { a.acc with
    entries := mapEntries entryCommit a.acc.entries
    gen := if first then a.acc.gen else wrapAdd a.acc.gen 1 } }

end Sys2Proof.Machine
end

