-- ==== Sys2Proof/Machine/ControlCore.lean ====
section
/-! DEFINITION. The control core's replay (chapter 15): fetch, retirement, pushes, and the meaning of each of its
instructions. A row acts where the words the core holds at its position are its encoding (log 6). -/

namespace Sys2Proof.Machine

/-! ### Fetch (R526, R528–R530) -/

/-- Base and size in bytes of the code window: entry 0 of MEMWIN (R208). -/
def Chan.codeWin (c : Chan) : Nat × Nat :=
  match c.cfg.wins with
  | w :: _ => if w.kind = 0 then (w.base, w.pages * 4096) else (0, 0)
  | [] => (0, 0)

/-- The code-window byte offset of word `i` of the running list. -/
def Cc.offset (c : Cc) (i : Nat) : Nat := c.base.toNat + 4 * i

/-- The line that holds code-window offset `off`. -/
def Chan.codeLine (c : Chan) (off : Nat) : BitVec 42 := BitVec.ofNat 42 ((c.codeWin.1 + off) / 64)

/-- A narrow access of the control core is under way: it waits for its slot or for its data (R514). -/
def Core.ccBusy (x : Core) : Bool :=
  x.pool.acc.any (·.ofCc) || x.pool.rdq.any fun r => match r.dest with
    | .ccLoad _ _ => true
    | _ => false

/-- A control core that may retire an instruction (R514, R515, R522, R535, R537). -/
def ccLive (s : State) (c : CoreId) : Bool :=
  let x := (s.core c).cc
  (s.chan (coreChan c)).working && x.list && !x.halt && x.stall.isNone && !(s.core c).ccBusy

/-- A fill of the line is outstanding or wanted for the core (R528). -/
def fillUnderWay (s : State) (c : CoreId) (g : BitVec 42) : Bool :=
  (s.core c).icache.wants.contains g ||
  (s.chan (coreChan c)).mp.reqs.any fun r => r.granule == g && !r.stale &&
    (match r.purpose with
     | .code k _ => k == coreLoc c
     | _ => false)

/-- A miss: counted, its line and the next two lines of the running list wanted where they lie within the list and the
code window and are neither held nor requested (R74, R528). A line already on its way is waited for. -/
def ccMiss (s : State) (c : CoreId) (off : Nat) : State :=
  let ch := s.chan (coreChan c)
  let g := ch.codeLine off
  let x := (s.core c).cc
  let last := ch.codeWin.1 + min (x.offset x.len) ch.codeWin.2
  let ahead := [off / 64 * 64 + 64, off / 64 * 64 + 128].filter fun o =>
    decide ((ch.codeWin.1 + off) / 64 * 64 + (o - off / 64 * 64) < last)
  if fillUnderWay s c g then
    s.updCore c fun y => { y with icache := { y.icache with wait := some g } }
  else
    let more := (ahead.map fun o => BitVec.ofNat 42 ((ch.codeWin.1 + off) / 64 + (o - off / 64 * 64) / 64)).filter
      fun l => !(s.core c).icache.lines.contains l && !fillUnderWay s c l
    s.updCore c fun y => { y with icache := { y.icache with
      misses := satAdd y.icache.misses 1, wants := y.icache.wants ++ g :: more, wait := some g } }

/-- A line used last (R528). -/
def ICache.touch (i : ICache) (g : BitVec 42) : ICache :=
  { i with lines := i.lines.filter (· != g) ++ [g], wait := none }

/-- A word that fails its parity check: its line is invalidated, counted and announced, and the word will be fetched
again (R529). -/
def ccParity (s : State) (c : CoreId) (g : BitVec 42) : State :=
  (s.updCh (coreChan c) fun ch => { ch with mp := { ch.mp with answers := ch.mp.answers ++ [(true, false, g)] } }).updCore c
    fun y => { y with icache := { y.icache.drop g with parity := satAdd y.icache.parity 1 } }

/-- Halts the core at the current instruction. -/
def ccHalt (s : State) (c : CoreId) (reason : Nat) : State :=
  let x := (s.core c).cc
  coreHalt s (coreChan c) (coreLoc c) reason (BitVec.ofNat 32 (x.offset x.pos)) 0 0 0

/-- Fetches `count` words at the position: the state after it and whether the instruction may run. -/
def ccFetch (s : State) (f : Fetch) (count : Nat) : State × Bool :=
  let c := f.core
  let ch := s.chan (coreChan c)
  let x := (s.core c).cc
  let offs := (List.range count).map fun i => x.offset (x.pos + i)
  if !ccLive s c then (s, false)
  else if x.len < x.pos + count then (ccHalt s c 0x04, false)
  else if offs.any fun o => decide (ch.codeWin.2 < o + 4) then (ccHalt s c 0x06, false)
  else
    match offs.find? fun o => !(s.core c).icache.lines.contains (ch.codeLine o) with
    | some o => (ccMiss s c o, false)
    | none =>
      match f.bad.bind fun i => offs[i.val]? with
      | some o => (ccParity s c (ch.codeLine o), false)
      | none => (s.updCore c fun y => { y with icache := offs.foldl (fun ic o => ic.touch (ch.codeLine o)) y.icache }, true)

/-- The next `count` words of the running list, as the core's cache holds them. -/
def ccWords (s : State) (c : CoreId) (count : Nat) : List Word :=
  let ch := s.chan (coreChan c)
  let x := (s.core c).cc
  (List.range count).map fun i => smGet 0 (s.core c).icache.code ((ch.codeWin.1 + x.offset (x.pos + i)) / 4)

/-- An instruction that is not a PUSH (R520, R522), of encoding `w`: where the word fetched is that one, it retires with
its effect, or, under a REP, halts the core. -/
def ccInstr (s : State) (f : Fetch) (w : Word) (eff : State → State) : State :=
  let r := ccFetch s f 1
  if !r.2 then r.1
  else if ccWords s f.core 1 ≠ [w] then s
  else if (r.1.core f.core).cc.rep.isSome then ccHalt r.1 f.core 0x01
  else eff r.1

def updCc (s : State) (c : CoreId) (g : Cc → Cc) : State := s.updCore c fun y => { y with cc := g y.cc }

/-- The position after `k` words; the checking core compares what has retired 2 cc later (R532, R671). -/
def Cc.advance (c : Cc) (k : Nat) : Cc := { c with pos := c.pos + k, qwait := none, cmp := 2 }

/-- The next instruction stalls on a pending q register (R474). -/
def Cc.awaitQ (c : Cc) (i : Nat) : Cc := { c with qwait := some (BitVec.ofNat 3 i) }

/-! ### Registers (R510) -/

/-- x0 reads 0. -/
def Cc.xr (c : Cc) (i : BitVec 5) : Word := if i = 0 then 0 else smGet 0 c.r.x i.toNat

/-- x0 ignores writes. -/
def Cc.xw (c : Cc) (i : BitVec 5) (v : Word) : Cc :=
  if i = 0 then c else { c with r := { c.r with x := smSet 0 c.r.x i.toNat v } }

def Cc.ar (c : Cc) (i : Nat) : Word := smGet 0 c.r.a i
def Cc.aw (c : Cc) (i : Nat) (v : Word) : Cc := { c with r := { c.r with a := smSet 0 c.r.a i v } }
def Cc.qr (c : Cc) (i : Nat) : Word := smGet 0 c.r.q i
def Cc.qw (c : Cc) (i : Nat) (v : Word) : Cc := { c with r := { c.r with q := smSet 0 c.r.q i v } }
def Cc.pr (c : Cc) (i : Nat) : Word := smGet 0 c.p i

/-! ### Instruction formats (R512) -/

def encR (op : BitVec 6) (rd rs1 rs2 : BitVec 5) : Word := (0 : BitVec 11) ++ rs2 ++ rs1 ++ rd ++ op
def encI (op : BitVec 6) (rd rs1 : BitVec 5) (imm : BitVec 16) : Word := imm ++ rs1 ++ rd ++ op
def encU (op : BitVec 6) (rd : BitVec 5) (imm20 : BitVec 20) : Word := imm20 ++ (0 : BitVec 1) ++ rd ++ op
def encP (queue n : BitVec 4) (guard : BitVec 5) (subst : BitVec 13) : Word := subst ++ guard ++ n ++ queue ++ (0x30 : BitVec 6)
def encS (op : BitVec 6) (qi : BitVec 3) (immf : Bool) (index : BitVec 4) : Word :=
  (0 : BitVec 18) ++ index ++ BitVec.ofBool immf ++ qi ++ op

/-! ### Instructions on the registers (R513) -/

/-- A register-register instruction: RD ← f RS1 RS2 (R513). -/
def ccAlu (code : BitVec 6) (op : Word → Word → Word) (f : Fetch) (rd rs1 rs2 : BitVec 5) (s : State) : State :=
  ccInstr s f (encR code rd rs1 rs2) fun t => updCc t f.core fun c => (c.xw rd (op (c.xr rs1) (c.xr rs2))).advance 1

/-- An immediate instruction with IMM sign-extended. -/
def ccAluI (code : BitVec 6) (op : Word → Word → Word) (f : Fetch) (rd rs1 : BitVec 5) (imm : BitVec 16) (s : State) :
    State :=
  ccInstr s f (encI code rd rs1 imm) fun t => updCc t f.core fun c => (c.xw rd (op (c.xr rs1) (imm.signExtend 32))).advance 1

def opSll (a b : Word) : Word := a <<< (b.toNat % 32)
def opSrl (a b : Word) : Word := a >>> (b.toNat % 32)
def opSra (a b : Word) : Word := a.sshiftRight (b.toNat % 32)
def opMin (a b : Word) : Word := if a.slt b then a else b
def opMax (a b : Word) : Word := if a.slt b then b else a
def opMinu (a b : Word) : Word := if a.ult b then a else b
def opMaxu (a b : Word) : Word := if a.ult b then b else a
def opSlt (a b : Word) : Word := if a.slt b then 1 else 0
def opSltu (a b : Word) : Word := if a.ult b then 1 else 0

/-- The two signed 16-bit halves apart, modulo 2¹⁶. -/
def halves (op : BitVec 16 → BitVec 16 → BitVec 16) (a b : Word) : Word :=
  op (a.extractLsb' 16 16) (b.extractLsb' 16 16) ++ op (a.extractLsb' 0 16) (b.extractLsb' 0 16)

def hMin (a b : BitVec 16) : BitVec 16 := if a.slt b then a else b
def hMax (a b : BitVec 16) : BitVec 16 := if a.slt b then b else a

/-! ### Narrow accesses (R514) -/

def narrowBad (addr : Word) : Bool := addr.toNat % 4 != 0 || decide (poolBytes ≤ addr.toNat)

/-- An LW or SW at a good address asks for its access and stands until the access ends (R514, R706). -/
def ccNarrow (code : BitVec 6) (f : Fetch) (rd rs1 : BitVec 5) (imm : BitVec 16) (acc : Core → Nat → PoolAcc) (s : State) :
    State :=
  ccInstr s f (encI code rd rs1 imm) fun t =>
    let addr := (t.core f.core).cc.xr rs1 + imm.signExtend 32
    if narrowBad addr then ccHalt t f.core 0x07
    else t.updCore f.core fun x => x.pend [acc x addr.toNat]

def ccLoad (f : Fetch) (rd rs1 : BitVec 5) (imm : BitVec 16) (s : State) : State :=
  ccNarrow 0x19 f rd rs1 imm (fun _ o => { client := clNarrow, line := o / 128, write := none, dest := .ccLoad rd o }) s

/-- The bytes of a narrow write (R485). -/
def narrowBytes (off : Nat) (v : Word) : List (Nat × Byte) := (natLe 4 v.toNat).zipIdx.map fun b => (off + b.2, b.1)

def ccStore (f : Fetch) (rd rs1 : BitVec 5) (imm : BitVec 16) (s : State) : State :=
  ccNarrow 0x1A f rd rs1 imm (fun x o =>
    { client := clNarrow, line := o / 128, write := some (narrowBytes o (x.cc.xr rd)), dest := .ccStore }) s

/-- The data of an LW arrives: it retires, or halts its core on a double error (R506, R514). -/
def ccLoaded (s : State) (c : CoreId) (rd : BitVec 5) (off : Nat) (data : List Byte) (bads : List Nat) : State :=
  if bads.contains (off / 8) then ccHalt s c 0x08
  else updCc s c fun x => (x.xw rd (BitVec.ofNat 32 (leNat ((data.drop (off % 128)).take 4)))).advance 1

/-- An SW is granted: it retires, or halts its core. -/
def ccStored (s : State) (c : CoreId) (bads : List Nat) : State :=
  if bads.isEmpty then updCc s c fun x => x.advance 1 else ccHalt s c 0x08

/-! ### Pushes (R516–R521, R535) -/

/-- The queue a QUEUE code names (R516). -/
def pushQueue (k : Fin 2) (code : BitVec 4) : Option QId :=
  if h : code.toNat < 7 then some (stationQ k ⟨code.toNat, h⟩)
  else if code = 7 then some dmaQ
  else if code = 8 then some launchQ
  else if code = 9 then some peerQ
  else none

/-- A selector's form (R518). -/
def selOk (w : Word) : Bool :=
  let cls := fld w 6 2
  let pi := fld w 5 1
  !(cls == 3 || (pi == 1 && cls != 1) || (cls == 1 && decide (15 < fld w 0 5)))

/-- The value a selector stands for (R518). -/
def selValue (c : Cc) (w : Word) : Word :=
  let i := fld w 0 5
  let r : Word := match fld w 6 2 with
    | 0 => c.xr (BitVec.ofNat 5 i)
    | 1 => c.ar i
    | _ => c.pr i
  r + (w.extractLsb' 8 24).signExtend 32

/-- The words of one repeat; none when a selector breaks R518. -/
def pushWords (c : Cc) (subst : BitVec 13) (ws : List Word) : Option (List Word) :=
  if ws.zipIdx.all fun p => !bitOf subst p.2 || selOk p.1 then
    some (ws.zipIdx.map fun p => if bitOf subst p.2 then selValue c p.1 else p.1)
  else none

/-- The PI advances of one repeat: each named a register once (R518). -/
def pushAdvance (c : Cc) (subst : BitVec 13) (ws : List Word) : Cc :=
  let named := ((ws.zipIdx.filter fun p => bitOf subst p.2 && fld p.1 5 1 == 1).map fun p => fld p.1 0 5).eraseDups
  named.foldl (fun d i => d.aw i (c.ar i + smGet 0 c.r.ainc i)) c

/-- A SIPHON that also occupies GATEn names that queue (R402). -/
def siphonGate (k : Fin 2) (q : QId) (w0 : Word) : Option QId :=
  if q = laneQ k ∧ fld w0 20 4 = 0xA ∧ (fld w0 6 1 = 1 ∨ fld w0 3 2 = 1 ∨ fld w0 5 1 = 1) then
    some (gateQ k (if fld w0 0 1 = 0 then 0 else 1))
  else none

/-- Local core 0 stands stalled on a push to a queue: the next free entry is its own (R548). -/
def Chan.pushAhead (c : Chan) (k : Fin 2) (q : QId) : Bool :=
  k == 1 && (match (c.core 0).cc.stall with
    | some st => !st.brk && pushQueue 0 st.queue == some q
    | none => false)

/-- Room for a push in its queue, or in both of a SIPHON's (R48, R402, R548). -/
def pushRoom (c : Chan) (k : Fin 2) (q : QId) (w0 : Word) : Bool :=
  let room (q : QId) : Bool := decide ((c.queue q).waiting.length + (c.pushAhead k q).toNat < c.depth q)
  room q && (match (siphonGate k q w0).filter c.present with
    | some g => room g
    | none => true)

/-- The breakpoint condition of R535 for the push that would be number `num`. -/
def brkMeets (c : Cc) (tag : Byte) (num : Nat) : Bool :=
  match c.brkMode with
  | 1 => decide (num = c.brkCount.toNat)
  | 2 => (tag ^^^ c.brkTag) &&& c.brkMask == 0
  | _ => false

/-- The command enters its queue (R516), counted, its q register pending when it is an LRUN with QEN (R474). -/
def pushEnter (s : State) (c : CoreId) (q : QId) (ws : List Word) (st : PushStall) : State :=
  let n := coreChan c
  let k := coreLoc c
  let x := (s.core c).cc
  let cmd : Cmd :=
    { words := ws, pusher := k, addr := BitVec.ofNat 32 (x.offset x.pos), repidx := st.repidx
      order := (s.chan n).serial, feed := none }
  let add (h : Chan) (q : QId) : Chan := h.updQueue q fun y => { y with waiting := y.waiting ++ [cmd] }
  let w0 := ws.getD 0 0
  let w1 := ws.getD 1 0
  let s1 := s.updCh n fun h =>
    let h1 := { add h q with serial := h.serial + 1 }
    match (siphonGate k q w0).filter h.present with
    | some g => add h1 g
    | none => h1
  updCc s1 c fun x =>
    let y := pushAdvance { x with pushes := wrapAdd x.pushes 1 } st.subst st.words
    if q = laneQ k ∧ fld w0 20 4 = 8 ∧ fld w1 23 1 = 1 then
      { y with r := { y.r with qpend := smSet 0 y.r.qpend (fld w1 20 3) (smGet 0 y.r.qpend (fld w1 20 3) + 1) } }
    else y

/-- Repeats of a push, `fuel` of them at most. `made` is its guard's answer, `tested` that the breakpoint has been
tested for the repeat at hand. -/
def pushRun (c : CoreId) (made : Bool) : Nat → Bool → State → PushStall → State
  | 0, _, s, st => updCc s c fun x => { x with stall := none, rep := none }.advance (st.words.length + 1)
  | r + 1, tested, s, st =>
    let n := coreChan c
    let k := coreLoc c
    let x := (s.core c).cc
    let tag (ws : List Word) : Byte := BitVec.ofNat 8 (fld (ws.getD 0 0) 24 8)
    let halt (reason : Nat) (t : Byte) : State :=
      coreHalt (updCc s c fun x => { x with stall := none, rep := none }) n k reason
        (BitVec.ofNat 32 (x.offset x.pos)) st.repidx t st.queue
    let next (t : State) : State :=
      pushRun c made r false t { st with left := r, repidx := wrapAdd st.repidx 1, brk := false }
    match pushWords x st.subst st.words, pushQueue k st.queue with
    | some ws, some q =>
      if !made then next (updCc s c fun x => pushAdvance x st.subst st.words)
      else if !(s.chan n).present q then halt 0x03 (tag ws)
      else if !tested && brkMeets x (tag ws) (x.pushes.toNat + 1) then
        if x.brkAct then updCc s c fun x => { x with stall := some { st with left := r + 1, brk := true } }
        else halt 0x20 (tag ws)
      else if !pushRoom (s.chan n) k q (ws.getD 0 0) then
        updCc s c fun x => { x with stall := some { st with left := r + 1, brk := false } }
      else next (pushEnter s c q ws st)
    | _, _ => halt 0x02 0

/-- Whether a PUSH breaks R516 or R518 before its words are read: N, QUEUE and SUBST. -/
def pushFormBad (queue n : BitVec 4) (subst : BitVec 13) : Bool :=
  n == 0 || decide (13 < n.toNat) || decide (9 < queue.toNat) || decide (2 ^ n.toNat ≤ subst.toNat)

/-- PUSH (R516–R520). A guard that reads a pending q register stalls (R474); a count of 0 runs it no times. -/
def ccPush (f : Fetch) (queue n : BitVec 4) (guard : BitVec 5) (subst : BitVec 13) (words : List Word) (s : State) :
    State :=
  let c := f.core
  let k := if pushFormBad queue n subst then 0 else n.toNat
  let r0 := ccFetch s f 1
  if !r0.2 then r0.1
  else if ccWords s c 1 ≠ [encP queue n guard subst] then s
  else
  let r := ccFetch s f (k + 1)
  if !r.2 then r.1
  else if (ccWords s c (k + 1)).tail ≠ words.take k then s
  else
    let t := r.1
    let x := (t.core c).cc
    let on := bitOf guard 4
    let qi := guard.toNat % 8
    if !on && guard != 0 then ccHalt t c 0x01
    else if pushFormBad queue n subst then
      coreHalt t (coreChan c) (coreLoc c) 0x02 (BitVec.ofNat 32 (x.offset x.pos)) 0 0 queue
    else if on && x.r.pends qi && x.rep != some 0 then updCc t c fun y => y.awaitQ qi
    else
      let made := !on || ((x.qr qi != 0) != bitOf guard 3)
      let count := x.rep.getD 1
      pushRun c made count false t
        { queue := queue, n := n, guard := guard, subst := subst, words := words, left := count, repidx := 0, brk := false }

/-- A stalled push goes on: after CONT (R535), or when its queue has room (R516). -/
def pushResume (s : State) (c : CoreId) (cont : Bool) : State :=
  let x := (s.core c).cc
  match x.stall with
  | none => s
  | some st =>
    if !(s.chan (coreChan c)).working || x.halt || st.brk != cont then s
    else pushRun c true st.left true s st

/-! ### The next list, replays (R522–R526) -/

/-- The replay ends (R526). -/
def Cc.endReplay (c : Cc) : Cc := { c with list := false, rep := none, qwait := none }

/-- A replay starts (R522, R523, R540): staged values go live, the table entry of the next-list index is read. -/
def Cc.start (c : Cc) : Cc :=
  let k := c.r.next.toNat
  let len := (smGet 0 c.selLen k).toNat
  { c with
    p := c.ps, base := smGet 0 c.selBase k, len := len, pos := 0, list := len != 0, pushes := 0
    replays := wrapAdd c.replays 1, rep := none, stall := none, qwait := none }

/-- The replay of a core starts, unless the survey leaves the core unused or it is quarantined (R540, R687). -/
def startReplay (s : State) (c : CoreId) : State :=
  if (s.core c).cfg.used && !(s.core c).cc.halt && !bitOf (s.chan (coreChan c)).flt.quar (coreLoc c).val then
    (updCc s c Cc.start).updCore c fun x => { x with icache := { x.icache with wait := none } }
  else s

/-! ### Legal words (R512, R513, R538) -/

/-- The R-format limits: highest RD, RS1, RS2 of an opcode. -/
def rLimits (op : Nat) : Option (Nat × Nat × Nat) :=
  if (1 ≤ op ∧ op ≤ 0x0F) ∨ (0x1C ≤ op ∧ op ≤ 0x1F) then some (31, 31, 31)
  else match op with
    | 0x20 => some (15, 31, 0)
    | 0x21 => some (15, 31, 0)
    | 0x22 => some (31, 15, 0)
    | 0x23 => some (31, 31, 0)
    | 0x24 => some (31, 31, 0)
    | 0x25 => some (31, 7, 0)
    | 0x26 => some (7, 31, 0)
    | 0x2F => some (0, 0, 0)
    | _ => none

/-- Whether a word is an instruction of R513 with its reserved and unused fields 0. -/
def ccLegal (w : Word) : Bool :=
  let op := fld w 0 6
  match rLimits op with
  | some (a, b, c) => fld w 21 11 == 0 && decide (fld w 6 5 ≤ a) && decide (fld w 11 5 ≤ b) && decide (fld w 16 5 ≤ c)
  | none =>
    if (0x10 ≤ op ∧ op ≤ 0x17) ∨ op = 0x19 ∨ op = 0x1A then true
    else match op with
      | 0x18 => fld w 11 1 == 0
      | 0x28 => fld w 6 5 == 0 && (fld w 16 16 == 0 || fld w 11 5 == 0)
      | 0x30 => fld w 18 1 == 1 || fld w 14 4 == 0
      | 0x38 => fld w 6 26 == 0
      | 0x39 => fld w 14 18 == 0 && (if fld w 9 1 = 1 then fld w 6 3 == 0 else fld w 10 4 == 0)
      | _ => false

/-! ### The instructions -/

/-- ADD (R513). -/
def execAdd (f : Fetch) (rd rs1 rs2 : BitVec 5) (s : State) : Out := .next (ccAlu 0x01 (· + ·) f rd rs1 rs2 s)
/-- SUB. -/
def execSub (f : Fetch) (rd rs1 rs2 : BitVec 5) (s : State) : Out := .next (ccAlu 0x02 (· - ·) f rd rs1 rs2 s)
/-- AND. -/
def execAnd (f : Fetch) (rd rs1 rs2 : BitVec 5) (s : State) : Out := .next (ccAlu 0x03 (· &&& ·) f rd rs1 rs2 s)
/-- OR. -/
def execOr (f : Fetch) (rd rs1 rs2 : BitVec 5) (s : State) : Out := .next (ccAlu 0x04 (· ||| ·) f rd rs1 rs2 s)
/-- XOR. -/
def execXor (f : Fetch) (rd rs1 rs2 : BitVec 5) (s : State) : Out := .next (ccAlu 0x05 (· ^^^ ·) f rd rs1 rs2 s)
/-- SLL: the low 5 bits of the amount. -/
def execSll (f : Fetch) (rd rs1 rs2 : BitVec 5) (s : State) : Out := .next (ccAlu 0x06 opSll f rd rs1 rs2 s)
/-- SRL. -/
def execSrl (f : Fetch) (rd rs1 rs2 : BitVec 5) (s : State) : Out := .next (ccAlu 0x07 opSrl f rd rs1 rs2 s)
/-- SRA. -/
def execSra (f : Fetch) (rd rs1 rs2 : BitVec 5) (s : State) : Out := .next (ccAlu 0x08 opSra f rd rs1 rs2 s)
/-- MUL: the low 32 bits. -/
def execMul (f : Fetch) (rd rs1 rs2 : BitVec 5) (s : State) : Out := .next (ccAlu 0x09 (· * ·) f rd rs1 rs2 s)
/-- MIN, signed. -/
def execMin (f : Fetch) (rd rs1 rs2 : BitVec 5) (s : State) : Out := .next (ccAlu 0x0A opMin f rd rs1 rs2 s)
/-- MAX, signed. -/
def execMax (f : Fetch) (rd rs1 rs2 : BitVec 5) (s : State) : Out := .next (ccAlu 0x0B opMax f rd rs1 rs2 s)
/-- MINU. -/
def execMinu (f : Fetch) (rd rs1 rs2 : BitVec 5) (s : State) : Out := .next (ccAlu 0x0C opMinu f rd rs1 rs2 s)
/-- MAXU. -/
def execMaxu (f : Fetch) (rd rs1 rs2 : BitVec 5) (s : State) : Out := .next (ccAlu 0x0D opMaxu f rd rs1 rs2 s)
/-- SLT, signed. -/
def execSlt (f : Fetch) (rd rs1 rs2 : BitVec 5) (s : State) : Out := .next (ccAlu 0x0E opSlt f rd rs1 rs2 s)
/-- SLTU. -/
def execSltu (f : Fetch) (rd rs1 rs2 : BitVec 5) (s : State) : Out := .next (ccAlu 0x0F opSltu f rd rs1 rs2 s)
/-- ADDI. -/
def execAddi (f : Fetch) (rd rs1 : BitVec 5) (imm : BitVec 16) (s : State) : Out := .next (ccAluI 0x10 (· + ·) f rd rs1 imm s)
/-- ANDI. -/
def execAndi (f : Fetch) (rd rs1 : BitVec 5) (imm : BitVec 16) (s : State) : Out := .next (ccAluI 0x11 (· &&& ·) f rd rs1 imm s)
/-- ORI. -/
def execOri (f : Fetch) (rd rs1 : BitVec 5) (imm : BitVec 16) (s : State) : Out := .next (ccAluI 0x12 (· ||| ·) f rd rs1 imm s)
/-- XORI. -/
def execXori (f : Fetch) (rd rs1 : BitVec 5) (imm : BitVec 16) (s : State) : Out := .next (ccAluI 0x13 (· ^^^ ·) f rd rs1 imm s)
/-- SLLI: IMM[4:0]. -/
def execSlli (f : Fetch) (rd rs1 : BitVec 5) (imm : BitVec 16) (s : State) : Out := .next (ccAluI 0x14 opSll f rd rs1 imm s)
/-- SRLI. -/
def execSrli (f : Fetch) (rd rs1 : BitVec 5) (imm : BitVec 16) (s : State) : Out := .next (ccAluI 0x15 opSrl f rd rs1 imm s)
/-- SRAI. -/
def execSrai (f : Fetch) (rd rs1 : BitVec 5) (imm : BitVec 16) (s : State) : Out := .next (ccAluI 0x16 opSra f rd rs1 imm s)
/-- SLTI, signed. -/
def execSlti (f : Fetch) (rd rs1 : BitVec 5) (imm : BitVec 16) (s : State) : Out := .next (ccAluI 0x17 opSlt f rd rs1 imm s)

/-- LUI: RD ← IMM20 · 2¹². -/
def execLui (f : Fetch) (rd : BitVec 5) (imm20 : BitVec 20) (s : State) : Out :=
  .next (ccInstr s f (encU 0x18 rd imm20) fun t => updCc t f.core fun c => (c.xw rd (imm20 ++ (0 : BitVec 12))).advance 1)

/-- LW (R514). -/
def execLw (f : Fetch) (rd rs1 : BitVec 5) (imm : BitVec 16) (_ : Unit) (s : State) : Out :=
  .next (ccLoad f rd rs1 imm s)

/-- SW (R514). -/
def execSw (f : Fetch) (rd rs1 : BitVec 5) (imm : BitVec 16) (_ : Unit) (s : State) : Out :=
  .next (ccStore f rd rs1 imm s)

/-- VADD.H. -/
def execVaddH (f : Fetch) (rd rs1 rs2 : BitVec 5) (s : State) : Out := .next (ccAlu 0x1C (halves (· + ·)) f rd rs1 rs2 s)
/-- VSUB.H. -/
def execVsubH (f : Fetch) (rd rs1 rs2 : BitVec 5) (s : State) : Out := .next (ccAlu 0x1D (halves (· - ·)) f rd rs1 rs2 s)
/-- VMIN.H. -/
def execVminH (f : Fetch) (rd rs1 rs2 : BitVec 5) (s : State) : Out := .next (ccAlu 0x1E (halves hMin) f rd rs1 rs2 s)
/-- VMAX.H. -/
def execVmaxH (f : Fetch) (rd rs1 rs2 : BitVec 5) (s : State) : Out := .next (ccAlu 0x1F (halves hMax) f rd rs1 rs2 s)

/-- MOVA. -/
def execMova (f : Fetch) (ad : BitVec 4) (rs1 : BitVec 5) (s : State) : Out :=
  .next (ccInstr s f (encR 0x20 (ad.setWidth 5) rs1 0) fun t => updCc t f.core fun c => (c.aw ad.toNat (c.xr rs1)).advance 1)

/-- SETINC. -/
def execSetinc (f : Fetch) (ad : BitVec 4) (rs1 : BitVec 5) (s : State) : Out :=
  .next (ccInstr s f (encR 0x21 (ad.setWidth 5) rs1 0) fun t => updCc t f.core fun c =>
    { c with r := { c.r with ainc := smSet 0 c.r.ainc ad.toNat (c.xr rs1) } }.advance 1)

/-- RDA. -/
def execRda (f : Fetch) (rd : BitVec 5) (as : BitVec 4) (s : State) : Out :=
  .next (ccInstr s f (encR 0x22 rd (as.setWidth 5) 0) fun t => updCc t f.core fun c => (c.xw rd (c.ar as.toNat)).advance 1)

/-- RDP: the live value. -/
def execRdp (f : Fetch) (rd ps : BitVec 5) (s : State) : Out :=
  .next (ccInstr s f (encR 0x23 rd ps 0) fun t => updCc t f.core fun c => (c.xw rd (c.pr ps.toNat)).advance 1)

/-- PNEXT: the staged value (R523). -/
def execPnext (f : Fetch) (pd rs1 : BitVec 5) (s : State) : Out :=
  .next (ccInstr s f (encR 0x24 pd rs1 0) fun t => updCc t f.core fun c =>
    (c.stage 0 pd.toNat (c.xr rs1)).advance 1)

/-- RDQ: stalls while the register is pending (R474). -/
def execRdq (f : Fetch) (rd : BitVec 5) (qs : BitVec 3) (s : State) : Out :=
  .next (ccInstr s f (encR 0x25 rd (qs.setWidth 5) 0) fun t => updCc t f.core fun c =>
    if c.r.pends qs.toNat then c.awaitQ qs.toNat else (c.xw rd (c.qr qs.toNat)).advance 1)

/-- QSET: stalls while the register is pending (R474). -/
def execQset (f : Fetch) (qd : BitVec 3) (rs1 : BitVec 5) (s : State) : Out :=
  .next (ccInstr s f (encR 0x26 (qd.setWidth 5) rs1 0) fun t => updCc t f.core fun c =>
    if c.r.pends qd.toNat then c.awaitQ qd.toNat else (c.qw qd.toNat (c.xr rs1)).advance 1)

/-- REP (R520): the count for the PUSH that follows. -/
def execRep (f : Fetch) (rs1 : BitVec 5) (imm : BitVec 16) (s : State) : Out :=
  .next (ccInstr s f (encI 0x28 0 rs1 imm) fun t =>
    let v := (t.core f.core).cc.xr rs1
    if imm != 0 && rs1 != 0 then ccHalt t f.core 0x01
    else if imm = 0 ∧ 65535 < v.toNat then ccHalt t f.core 0x02
    else updCc t f.core fun c => { c with rep := some (if imm = 0 then v.toNat else imm.toNat) }.advance 1)

/-- NOP. -/
def execNop (f : Fetch) (s : State) : Out :=
  .next (ccInstr s f (encR 0x2F 0 0 0) fun t => updCc t f.core fun c => c.advance 1)

/-- A word that is no instruction: the core halts with ILLEGAL (R538). A legal word has a row of its own. -/
def execIllegal (f : Fetch) (word : Word) (s : State) : Out :=
  .next (ccInstr s f word fun t => if ccLegal word then s else ccHalt t f.core 0x01)

/-- PUSH (R516). -/
def execPush (f : Fetch) (queue n : BitVec 4) (guard : BitVec 5) (subst : BitVec 13) (words : List Word) (s : State) :
    Out :=
  if words.length = n.toNat then .next (ccPush f queue n guard subst words s) else .fault .illFormed

/-- END (R525). -/
def execEndList (f : Fetch) (s : State) : Out :=
  .next (ccInstr s f (encS 0x38 0 false 0) fun t => updCc t f.core fun c => (c.advance 1).endReplay)

/-- SELECT (R525): with IMMF 0 the index is q(QI), at most 15, and a pending register stalls. -/
def execSelect (f : Fetch) (immf : Bool) (qi : BitVec 3) (index : BitVec 4) (s : State) : Out :=
  .next (ccInstr s f (encS 0x39 qi immf index) fun t =>
    if (if immf then qi != 0 else index != 0) then ccHalt t f.core 0x01
    else updCc t f.core fun c =>
      let v := c.qr qi.toNat
      let idx : BitVec 4 := if immf then index else if v.toNat < 16 then BitVec.ofNat 4 v.toNat else 15
      if !immf && c.r.pends qi.toNat then c.awaitQ qi.toNat
      else ({ c with r := { c.r with next := idx } }.advance 1).endReplay)

/-- CONT: a write of 1 to CC_CTRL.CONT ends a breakpoint stall (R535). -/
def execCont (c : CoreId) (s : State) : Out :=
  .next (hostWr s (.cont c) (coreBase c + 0x1018) fun t => pushResume t c true)

/-- STAGED_PARAMETER_WRITE: a host write to CC_PSi (R523). A rollback keeps it (R527). -/
def execStagedParameterWrite (c : CoreId) (i : BitVec 5) (v : Word) (s : State) : Out :=
  .next (hostWr s (.stagedParameterWrite c i v) (coreBase c + 0x1180 + 4 * i.toNat) fun t => updCc t c fun x => x.stage 2 i.toNat v)

end Sys2Proof.Machine
end

