-- ==== Sys2Proof/Machine/Cairns.lean ====
section
/-! DEFINITION. Cairns (chapter 17): increments, pending sums, withdrawals, waits, the doorbell. -/

namespace Sys2Proof.Machine

/-- The classes of R573, by SOURCES bit. -/
def clsCmd : Nat := 0
def clsDma : Nat := 1
def clsPeer : Nat := 2
def clsTick : Nat := 3
def clsLaunch : Nat := 4
def clsDoor : Nat := 5

/-- OWNERS of an unlisted cairn: every queue of a station present (R210). -/
def Chan.allOwners (c : Chan) : BitVec 17 := (allQ.filter c.present).foldl (fun m q => setBit m q.val) 0

/-- SOURCES and OWNERS of a cairn (R209, R210). -/
def Chan.crnCfg (c : Chan) (i : Nat) : BitVec 6 × BitVec 17 := (smFind c.crn.cfg i).getD (1, c.allOwners)

def Chan.cairn (c : Chan) (i : Nat) : Cairn := smGet Cairn.zero c.crn.cells i

def Chan.setCairn (c : Chan) (i : Nat) (x : Cairn) : Chan :=
  { c with crn := { c.crn with cells := smSet Cairn.zero c.crn.cells i x } }

/-- CRN_STATUS (R583). -/
def Cairns.status (c : Cairns) : Word :=
  BitVec.ofNat 32 (c.more.toNat * 2 ^ 24 + c.kind.toNat * 2 ^ 16 + c.cls.toNat * 2 ^ 13 + c.valid.toNat * 2 ^ 11 + c.cairn.toNat)

def kindSat : BitVec 3 := 1
def kindOff : BitVec 3 := 2
def kindUnder : BitVec 3 := 3

/-- A captured event of R574, R576 or R577 and its error CAIRN (R583, R673). -/
def crnEvent (s : State) (n : ChanId) (kind : BitVec 3) (cls i : Nat) : State :=
  let c := s.chan n
  let r := c.crn
  let r1 : Cairns :=
    if r.valid then { r with more := satAdd r.more 1 }
    else { r with more := 0, kind := kind, cls := BitVec.ofNat 3 cls, valid := true, cairn := BitVec.ofNat 11 i }
  raise (s.setChan n { c with crn := r1 }) n { lvl := .chan, cause := 0x51, cls := 1, info := r1.status, addr := i }

def crnMax : Nat := 2 ^ 24 - 1

/-- An increment applied to the count (R575, R576); peer, tick, launch and doorbell amounts count as outside events
(R581). -/
def crnApply (s : State) (n : ChanId) (i cls amount : Nat) : State :=
  let c := s.chan n
  let x := c.cairn i
  let v := x.count.toNat + amount
  let y : Cairn :=
    { x with
      count := BitVec.ofNat 24 (min v crnMax), applied := x.applied + 1
      err := x.err || decide (crnMax < v)
      outside := if 2 ≤ cls then x.outside + amount else x.outside }
  let s1 := s.setChan n (c.setCairn i y)
  if crnMax < v then crnEvent s1 n kindSat cls i else s1

/-- An increment beyond the fourth of its cc joins its class's pending sum (R575, R576). -/
def crnDefer (s : State) (n : ChanId) (i cls amount : Nat) : State :=
  let c := s.chan n
  let x := c.cairn i
  let y : Cairn := { x with sums := x.sums.modify cls fun v => BitVec.ofNat 24 (min (v.toNat + amount) crnMax) }
  s.setChan n { c.setCairn i y with crn := { (c.setCairn i y).crn with deferd := satAdd c.crn.deferd 1 } }

/-- An event that raises a cairn: of the four increments of a cc, the sums still pending take theirs first
(R573–R576). -/
def crnInc (s : State) (n : ChanId) (i cls amount : Nat) : State :=
  let c := s.chan n
  if !bitOf (c.crnCfg i).1 cls then crnEvent s n kindOff cls i
  else if (c.cairn i).applied + (c.cairn i).sums.countP (· != 0) < 4 then crnApply s n i cls amount
  else crnDefer s n i cls amount

/-- A withdrawal of w (R577, R581). -/
def crnWithdraw (s : State) (n : ChanId) (i w : Nat) : State :=
  let c := s.chan n
  let x := c.cairn i
  let y : Cairn :=
    { x with
      count := BitVec.ofNat 24 (x.count.toNat - w), under := x.under || decide (x.count.toNat < w)
      outside := x.outside - w }
  let s1 := s.setChan n (c.setCairn i y)
  if x.count.toNat < w then crnEvent s1 n kindUnder clsPeer i else s1

/-- The pending sums of a later cc: the first non-zero classes are applied, four increments in the cc at most (R575). -/
def crnPending (s : State) (n : ChanId) (i : Nat) : State :=
  let x := (s.chan n).cairn i
  let due := ((List.range 6).filter fun k => x.sums.getD k 0 != 0).take (4 - x.applied)
  let s1 := s.updCh n fun c => c.setCairn i { x with
    sums := x.sums.zipIdx.map fun p => if due.contains p.2 then 0 else p.1 }
  due.foldl (fun t k => crnApply t n i k (x.sums.getD k 0).toNat) s1

/-! ### Waits (R553, R578) -/

/-- A command word is a WAIT (R542). -/
def isWait (c : Cmd) : Bool := fld (c.words.getD 0 0) 20 4 == 1

/-- The layout of a WAIT holds: two words, reserved fields 0, COUNT at least 1 (R543, R544). -/
def waitForm (c : Cmd) : Bool :=
  c.words.length == 2 && fld (c.words.getD 0 0) 11 9 == 0 && fld (c.words.getD 1 0) 24 8 == 0 &&
  fld (c.words.getD 1 0) 0 24 != 0

def waitCairn (c : Cmd) : Nat := fld (c.words.getD 0 0) 0 11
def waitCount (c : Cmd) : Nat := fld (c.words.getD 1 0) 0 24

/-- The WAIT at the head of a queue, if it stands there with a valid form and the queue owns its cairn. -/
def Chan.headWait (c : Chan) (q : QId) : Option Cmd :=
  match (c.queue q).waiting with
  | h :: _ => if h.feed.isNone && isWait h && waitForm h && !c.feedStopped q && bitOf (c.crnCfg (waitCairn h)).2 q.val then some h else none
  | [] => none

/-- The WAIT at the head of a queue is evaluated: it subtracts its COUNT and completes, or stands (R553, R578). -/
def waitEval (s : State) (n : ChanId) (q : QId) : State :=
  let c := s.chan n
  match c.headWait q with
  | none => s
  | some h =>
    let x := c.cairn (waitCairn h)
    if x.count.toNat < waitCount h then s
    else
      s.setChan n ((c.setCairn (waitCairn h) { x with count := BitVec.ofNat 24 (x.count.toNat - waitCount h) }).updQueue q
        fun y => { y with waiting := y.waiting.tail })

/-- A replay start under TRIG 1 stands on its cairn (R524, R612, R667). -/
def startStands (s : State) (c : CoreId) : Bool :=
  let ch := s.chan (coreChan c)
  let x := (s.core c).cc
  ch.ticking && !ch.flt.rolled && !ch.ctl.inGap && x.trig && !x.list && !x.halt && (s.core c).cfg.used &&
    !bitOf ch.flt.quar (coreLoc c).val

/-- A standing replay start is evaluated: it takes 1 and its replay begins. -/
def startEval (s : State) (c : CoreId) : State :=
  let n := coreChan c
  let i := (s.core c).cc.tcairn.toNat
  let x := (s.chan n).cairn i
  if startStands s c && x.count != 0 then
    startReplay (s.updCh n fun h => h.setCairn i { x with count := x.count - 1 }) c
  else s

/-- The waits of one cairn in the order of R578, once its increments have been applied. -/
def crnWaits (s : State) (n : ChanId) (i : Nat) : State :=
  let start (t : State) (k : Fin 2) : State :=
    if (t.core (mkCore n k)).cc.tcairn.toNat = i then startEval t (mkCore n k) else t
  let one (t : State) (q : QId) : State :=
    match (t.chan n).headWait q with
    | some h => if waitCairn h = i then waitEval t n q else t
    | none => t
  let a := (allQ.filter fun q => decide (q.val < 7)).foldl one (start s 0)
  let b := (allQ.filter fun q => decide (7 ≤ q.val ∧ q.val < 14)).foldl one (start a 1)
  (allQ.filter fun q => decide (14 ≤ q.val)).foldl one b

/-! ### The rows -/

/-- REPLAY_START (R524): the start of a replay under TRIG 1. -/
def execReplayStart (c : CoreId) (s : State) : Out := .next (startEval s c)

/-- DOORBELL: a host write of CRN_CTLc.DOOR; 0 rings nothing (R573, R582). -/
def execDoorbell (n : ChanId) (cairn : BitVec 11) (amount : Byte) (s : State) : Out :=
  .next (hostWr s (.doorbell n cairn amount) (chBase n + 0x10000 + 8 * cairn.toNat + 4) fun t =>
    if amount = 0 then t else crnInc t n cairn.toNat clsDoor amount.toNat)

/-- PENDING_SUM_APPLY: a cc of the cairn begins with its pending sums (R575). -/
def execPendingSumApply (n : ChanId) (cairn : BitVec 11) (s : State) : Out :=
  .next (if (s.chan n).live then crnPending s n cairn.toNat else s)

/-- CAIRN_WAIT_EVALUATION: the waits that stand on the cairn are evaluated (R578). -/
def execCairnWaitEvaluation (n : ChanId) (cairn : BitVec 11) (s : State) : Out :=
  .next (if (s.chan n).live then crnWaits s n cairn.toNat else s)

end Sys2Proof.Machine
end

