-- ==== Sys2Proof/Machine/DmaOps.lean ====
section
/-! DEFINITION. Descriptors of the DMA engine (chapter 17): addresses and classes, the checks of R586, moving arrived
bytes to their destination, failing and completing. -/

namespace Sys2Proof.Machine

/-! ### A descriptor's fields (R584, R585) -/

def Desc.skind (d : Desc) : Nat := d.kinds.toNat % 16
def Desc.dkind (d : Desc) : Nat := d.kinds.toNat / 16
def Desc.fence (d : Desc) : Bool := bitOf d.flags 0
def Desc.cen (d : Desc) : Bool := bitOf d.flags 1
def Desc.total (d : Desc) : Nat := d.len * d.rows
def Desc.srcAt (d : Desc) (p : Nat) : Nat := d.src + p / d.len * d.sstride + p % d.len

/-- The destination address of byte p, in bytes of its space; for the accumulator, 8 bytes a word. -/
def Desc.dstAt (d : Desc) (p : Nat) : Nat :=
  if 3 ≤ d.dkind ∧ d.dkind ≤ 6 then (d.dst + p / d.len * d.dstride) * 8 + p % d.len
  else if 10 ≤ d.dkind then d.dst / 256 + p / d.len * d.dstride + p % d.len
  else d.dst + p / d.len * d.dstride + p % d.len

/-- The traffic class: 0 read, 1 write, 2 remote; none for pool to the inside (R585). -/
def Desc.cls (d : Desc) : Option (Fin 3) :=
  if d.skind = 0 then (if 10 ≤ d.dkind then some 2 else some 0)
  else if d.dkind = 0 then some 1 else none

/-- The array of an accumulator destination. -/
def dkindArr (dk : Nat) : Fin 2 × Fin 2 := (Fin.ofNat 2 ((dk - 3) / 2), Fin.ofNat 2 ((dk - 3) % 2))

/-- A remote destination: window, local core, partner entry (R645). -/
def Desc.remote (d : Desc) : BitVec 4 × Fin 2 × Fin 8 :=
  (BitVec.ofNat 4 d.dst, Fin.ofNat 2 (d.dst / 16), Fin.ofNat 8 (d.dst / 32))

/-- A descriptor's 32 bytes (R584). -/
def descOf (id order index : Nat) (tag : Byte) (host : BitVec 48) (b : List Byte) : Desc :=
  let f (o n : Nat) : Nat := leNat ((b.drop o).take n)
  { id := id, order := order, index := index, tag := tag, host := host, src := f 0 6, kinds := BitVec.ofNat 8 (f 6 1)
    flags := BitVec.ofNat 8 (f 7 1), dst := f 8 6, cairn := BitVec.ofNat 16 (f 14 2), len := f 16 4, rows := f 20 4 % 65536 + 1
    sstride := f 24 4, dstride := f 28 4, reqPos := 0, got := [], putPos := 0, donePos := 0 }

/-! ### The checks of R586 -/

/-- Bytes [a, a + n) lie wholly inside one data window, of KIND 2 for a write (R207, R208). -/
def Chan.inWindow (c : Chan) (write : Bool) (a n : Nat) : Bool :=
  c.cfg.wins.any fun w =>
    (w.kind == 2 || (w.kind == 1 && !write)) && decide (w.base ≤ a) && decide (a + n ≤ w.base + w.pages * 4096)

/-- An XFER range word covers the lines of bytes [a, a + n) of a pool (R552). -/
def rangeCovers (r : BitVec 32) (core : Nat) (write : Bool) (a n : Nat) : Bool :=
  fld r 31 1 == 1 && fld r 24 1 == core && (!write || fld r 25 1 == 1) &&
  decide (fld r 0 12 ≤ a / 128) && decide ((a + n - 1) / 128 ≤ fld r 0 12 + fld r 12 12)

/-- A property of every row's first byte. -/
def Desc.everyRow (d : Desc) (at_ : Nat → Nat) (f : Nat → Bool) : Bool :=
  (List.range d.rows).all fun i => f (at_ (i * d.len))

def pairOk (sk dk : Nat) : Bool :=
  (sk == 0 && decide (1 ≤ dk ∧ dk ≤ 11)) || ((sk == 1 || sk == 2) && decide (dk ≤ 9))

/-- The first check that fails, by its REASON; none when the descriptor passes (R586). `kindRows` is the ROWS word. -/
def Chan.descCheck (c : Chan) (ranges : List (BitVec 32)) (d : Desc) (rowsWord : Nat) : Option Nat :=
  let sk := d.skind
  let dk := d.dkind
  let peer := decide (10 ≤ dk)
  let accD := decide (3 ≤ dk ∧ dk ≤ 6)
  let reserved := decide (4 ≤ d.flags.toNat) || decide (2048 ≤ d.cairn.toNat) || decide (65536 ≤ rowsWord) ||
    (peer && decide (2 ^ 32 ≤ d.dst))
  let arrOk := !accD || ((c.core (dkindArr dk).1).arr (dkindArr dk).2).cfg.used
  if !pairOk sk dk || reserved || !arrOk || (peer && (!c.cfg.peerEn || c.dma.rem == 0)) then some 1
  else
    let hostS := sk == 0
    let hostD := dk == 0
    let poolS := !hostS
    let poolD := dk == 1 || dk == 2
    let lenOk := decide (4 ≤ d.len ∧ d.len ≤ 16777216)
    if (hostS && !d.everyRow d.srcAt fun a => c.inWindow false a d.len) ||
        (hostD && !d.everyRow d.dstAt fun a => c.inWindow true a d.len) then some 2
    else if !lenOk ||
        (poolS && !d.everyRow d.srcAt fun a =>
          decide (a + d.len ≤ poolBytes) && ranges.any fun r => rangeCovers r (sk - 1) false a d.len) ||
        (poolD && !d.everyRow d.dstAt fun a =>
          decide (a + d.len ≤ poolBytes) && ranges.any fun r => rangeCovers r (dk - 1) true a d.len) ||
        (accD && !d.everyRow d.dstAt fun a =>
          decide (a + d.len ≤ 8 * ((c.core (dkindArr dk).1).arr (dkindArr dk).2).accTop)) ||
        ((dk == 7 || dk == 8) && !d.everyRow d.dstAt fun a => decide (a + d.len ≤ 128)) then some 3
    else
      let wide := accD || dk == 11
      let by4 (x : Nat) : Bool := x % 4 == 0
      let by8 (x : Nat) : Bool := x % 8 == 0
      let dOk := if accD then true
        else if dk == 11 then by8 (d.dst / 256) && by8 d.dstride
        else if dk == 10 then by4 (d.dst / 256) && by4 d.dstride
        else by4 d.dst && by4 d.dstride
      if !by4 d.len || !by4 d.src || !by4 d.sstride || !dOk || (wide && (!by8 d.len || !by8 d.src || !by8 d.sstride)) then some 4
      else none

/-! ### Failure and completion (R590, R591) -/

/-- DMA_ERR (R597). -/
def Dma.errWord (d : Dma) : Word :=
  BitVec.ofNat 32 (d.more.toNat * 2 ^ 24 + d.tag.toNat * 2 ^ 16 + d.desc.toNat * 128 + d.reason.toNat * 2 + d.valid.toNat)

/-- A failing descriptor's capture and its error DMA_FAIL (R591, R597, R673, R674). -/
def dmaErr (s : State) (n : ChanId) (tag : Byte) (index : Nat) (host : BitVec 48) (reason : Nat) : State :=
  let c := s.chan n
  let m := c.dma
  let m1 : Dma :=
    if m.valid then { m with more := satAdd m.more 1 }
    else { m with more := 0, valid := true, tag := tag, desc := BitVec.ofNat 9 index, reason := BitVec.ofNat 4 reason, errAddr := host }
  raise (s.setChan n { c with dma := m1 }) n
    { lvl := .chan, cause := 0x50, cls := 1, info := m1.errWord, addr := host.toNat }

/-- One descriptor fewer to complete or fail in its XFER. -/
def Dma.countDown (m : Dma) (order : Nat) : Dma :=
  { m with xfers := m.xfers.map fun x => if x.order = order then { x with left := x.left - 1 } else x }

def poolAccOf (id : Nat) (a : PoolAcc) : Bool :=
  match a.dest with
  | .dma i _ _ => i == id
  | _ => false

/-- The destination bytes a failed descriptor has not yet written become undefined: free values in the pool, the
accumulator file and the parameter registers (R591, log 11). -/
def descUndefine (s : State) (n : ChanId) (d : Desc) : State :=
  let c := s.chan n
  let dk := d.dkind
  if dk = 1 ∨ dk = 2 then
    let k : Fin 2 := if dk = 1 then 0 else 1
    let queued := (((c.core k).pool.acc.filter (poolAccOf d.id)).flatMap fun a => (a.write.getD []).map (·.1))
    let rest := (List.range (d.total - d.putPos)).map fun i => d.dstAt (d.putPos + i)
    let all := queued ++ rest
    let s1 := s.updCh n fun c => c.updCore k fun x => { x with pool := { x.pool with
      mem := all.zipIdx.foldl (fun m a => smSet 0 m a.1 (Config.freeByte (s.free + a.2))) x.pool.mem } }
    { s1 with free := s.free + all.length }
  else if 3 ≤ dk ∧ dk ≤ 6 then
    let k := (dkindArr dk).1
    let j := (dkindArr dk).2
    let queued := (((c.core k).arr j).arrivals.filter fun a => a.src == some d.id).flatMap fun a =>
      (List.range a.vals.length).map fun i => a.word + i
    let rest := ((List.range (d.total - d.putPos)).filter fun i => (d.putPos + i) % 8 == 0).map fun i => d.dstAt (d.putPos + i) / 8
    let all := queued ++ rest
    let s1 := s.updCh n fun c => c.updCore k fun x => x.updArr j fun a =>
      all.zipIdx.foldl (fun b w => b.accFree w.1 (BitVec.ofNat 40 (leNat (freeBytes (s.free + 5 * w.2) 5)))) a
    { s1 with free := s.free + 5 * all.length }
  else if dk = 7 ∨ dk = 8 then
    let k : Fin 2 := if dk = 7 then 0 else 1
    let rest := ((List.range (d.total - d.putPos)).filter fun i => (d.putPos + i) % 4 == 0).map fun i => d.dstAt (d.putPos + i) / 4
    let v (i : Nat) : Word := BitVec.ofNat 32 (leNat (freeBytes (s.free + 4 * i) 4))
    let s1 := s.updCh n fun c => c.updCore k fun x => { x with cc := { x.cc with
      ps := rest.zipIdx.foldl (fun m w => smSet 0 m w.1 (v w.2)) x.cc.ps
      psCommit := rest.zipIdx.foldl (fun m w => smSet 0 m w.1 (v w.2)) x.cc.psCommit } }
    { s1 with free := s.free + 4 * rest.length }
  else s

/-- Everything a descriptor still has under way is dropped; its requests' answers will be discarded. -/
def Chan.descDrop (c : Chan) (id : Nat) : Chan :=
  let quiet (x : Core) : Core :=
    let a (r : Arr) : Arr := { r with arrivals := r.arrivals.filter fun v => v.src != some id }
    { x with
      pool := { x.pool with acc := x.pool.acc.filter (fun a => !poolAccOf id a)
                            rdq := x.pool.rdq.filter fun r => match r.dest with
                              | .dma i _ _ => i != id
                              | _ => true }
      arrs := ⟨a x.arrs.c0, a x.arrs.c1⟩ }
  { c with
    dma := { c.dma with descs := c.dma.descs.filter fun d => d.id != id }
    mp := { c.mp with reqs := c.mp.reqs.map fun r => match r.purpose with
      | .data i _ _ => if i = id then { r with purpose := .dropped } else r
      | .store i _ _ => if i = id then { r with purpose := .dropped } else r
      | _ => r }
    peers := { c.peers with out := c.peers.out.filter fun p => p.dma != some id }
    cores := ⟨quiet c.cores.c0, quiet c.cores.c1⟩ }

/-- A descriptor fails while it runs (R591). -/
def descFail (s : State) (n : ChanId) (id reason : Nat) : State :=
  match (s.chan n).dma.descs.find? fun d => d.id == id with
  | none => s
  | some d =>
    let s1 := (descUndefine s n d).updCh n fun c =>
      let c1 := c.descDrop id
      { c1 with dma := c1.dma.countDown d.order }
    dmaErr s1 n d.tag d.index d.host reason

/-- `k` more bytes of a descriptor's effect have been applied. -/
def descDone (s : State) (n : ChanId) (id k : Nat) : State :=
  s.updCh n fun c => { c with dma := { c.dma with
    descs := c.dma.descs.map fun d => if d.id = id then { d with donePos := d.donePos + k } else d } }

/-- Bytes stored in the shadow, and SRV_LEN (R228–R230). -/
def shadowWrite (s : State) (off : Nat) (bs : List Byte) : State :=
  { s with
    txn := { s.txn with shadow := smSetList 0 s.txn.shadow off bs }
    srv := { s.srv with len := BitVec.ofNat 23 (max s.srv.len.toNat (off + bs.length)) } }

/-! ### Handing bytes on (R584, R590) -/

/-- How many bytes from `putPos` on have arrived without a gap. -/
def gotRun : SMap Byte → Nat → Nat
  | [], _ => 0
  | (k, _) :: t, p => if k = p then gotRun t (p + 1) + 1 else 0

/-- The bytes of one destination piece: to the end of its row, at most `unit` bytes up to an alignment of the
destination; 0 when they have not all arrived. -/
def Desc.piece (d : Desc) (unit : Nat) : Nat :=
  let p := d.putPos
  let n := min (d.len - p % d.len) (unit - d.dstAt p % unit)
  if d.putPos < d.total ∧ n ≤ gotRun d.got p then n else 0

/-- The next piece handed to its destination; false when none is whole yet. Host memory and peer windows are fed by
the memory port and the peer port. -/
def descPut1 (s : State) (n : ChanId) (id : Nat) : State × Bool :=
  match (s.chan n).dma.descs.find? fun d => d.id == id with
  | none => (s, false)
  | some d =>
    let dk := d.dkind
    let unit := if dk = 1 ∨ dk = 2 then 128 else if 3 ≤ dk ∧ dk ≤ 6 then 256 else if dk = 9 then 64 else 4
    let k := d.piece unit
    let p := d.putPos
    if k = 0 ∨ dk = 0 ∨ 10 ≤ dk then (s, false)
    else
      let bs := d.got.take k |>.map (·.2)
      let s1 := s.updCh n fun c => { c with dma := { c.dma with descs := c.dma.descs.map fun e =>
        if e.id = id then { e with got := e.got.drop k, putPos := p + k } else e } }
      let a := d.dstAt p
      if dk = 1 ∨ dk = 2 then
        ((lineWrites clDma a bs (.dma id p k)).foldl (fun t w => poolPend t n (if dk = 1 then 0 else 1) w) s1, true)
      else if 3 ≤ dk ∧ dk ≤ 6 then
        let vals := (List.range (k / 8)).map fun i => a40Dec (BitVec.ofNat 40 (leNat ((bs.drop (8 * i)).take 5)))
        (s1.updCh n fun c => c.updCore (dkindArr dk).1 fun x => x.updArr (dkindArr dk).2 fun r =>
          { r with arrivals := r.arrivals ++ [{ word := a / 8, vals := vals, src := some id, peer := none, flits := 0, own := none }] }, true)
      else if dk = 7 ∨ dk = 8 then
        (descDone (s1.updCh n fun c => c.updCore (if dk = 7 then 0 else 1) fun x =>
          { x with cc := x.cc.stage 1 (a / 4) (BitVec.ofNat 32 (leNat bs)) }) n id k, true)
      else if s.srv.state == .open ∧ a + k ≤ 0x400000 then (descDone (shadowWrite s1 a bs) n id k, true)
      else (descFail s1 n id 7, false)

/-- Pieces handed on while whole ones remain; at most `fuel`. -/
def descPut (n : ChanId) (id : Nat) : Nat → State → State
  | 0, s => s
  | f + 1, s =>
    let r := descPut1 s n id
    if r.2 then descPut n id f r.1 else r.1

/-- Source bytes arrive at a descriptor, and what is whole goes on to the destination. -/
def descGot (s : State) (n : ChanId) (id pos : Nat) (bs : List Byte) : State :=
  let s1 := s.updCh n fun c => { c with dma := { c.dma with descs := c.dma.descs.map fun d =>
    if d.id = id then { d with got := bs.zipIdx.foldl (fun m b => smPut m (pos + b.2) b.1) d.got } else d } }
  let left := match (s1.chan n).dma.descs.find? fun d => d.id == id with
    | some d => gotRun d.got d.putPos
    | none => 0
  descPut n id (left + 1) s1

/-- DESCRIPTOR_COMPLETION: the first descriptor whose last effect has been applied completes; with CEN its cairn is
raised (R590). -/
def execDescriptorCompletion (n : ChanId) (s : State) : Out :=
  .next (
    match (s.chan n).dma.descs.find? fun d => decide (d.total ≤ d.donePos) with
    | none => s
    | some d =>
      let s1 := s.updCh n fun c => { c with dma :=
        ({ c.dma with descs := c.dma.descs.filter fun e => e.id != d.id } : Dma).countDown d.order }
      if d.cen then crnInc s1 n d.cairn.toNat clsDma 1 else s1)

/-- DMA_CLEAR: DMA_CTRL.CLEAR (R597). -/
def execDmaClear (n : ChanId) (s : State) : Out :=
  .next (hostWr s (.dmaClear n) (chBase n + 0x20024) fun t => t.updCh n fun c =>
    { c with dma := { c.dma with granRd := 0, granWr := 0, granRem := 0, slotLost := 0 } })

end Sys2Proof.Machine
end

