-- ==== Sys2Proof/Machine/Peers.lean ====
section
/-! DEFINITION. Peers, windows and collectives (chapter 19): partner states, packets in and out, held contributions,
the ledger, loss of a partner. -/

namespace Sys2Proof.Machine

/-! ### Partners (R626–R641) -/

def Chan.part (c : Chan) (i : Nat) : Partner := c.peers.parts.getD i Partner.reset

def Chan.updPart (c : Chan) (i : Nat) (f : Partner → Partner) : Chan :=
  { c with peers := { c.peers with parts := listUpd c.peers.parts i f } }

def updPart (s : State) (n : ChanId) (i : Nat) (f : Partner → Partner) : State := s.updCh n fun c => c.updPart i f

/-- The fingerprint of the survey in effect: FPRINT of its header (R195). -/
def surveyFp (s : State) : BitVec 64 :=
  match s.txn.image with
  | some im => BitVec.ofNat 64 (leNat ((im.drop 16).take 8))
  | none => 0

/-- A state in which windows are open: AGREE or SKEW (R641). -/
def pOpen (st : BitVec 3) : Bool := st == 2 || st == 3

/-- A usable partner (R640). -/
def Chan.usable (c : Chan) (i : Nat) : Bool := pOpen (c.part i).state && pOpen (c.part i).pstate && c.entryUsed i

/-- PEER_STATUS.TIMED (R640). -/
def Chan.timed (c : Chan) (i : Nat) : Bool := c.usable i && (c.part i).state == 2

/-- The state R636 gives a partner now. -/
def partState (s : State) (n : ChanId) (i : Nat) : BitVec 3 :=
  let c := s.chan n
  let p := c.part i
  let silent := match p.lastHello with
    | some t => decide (t + 3000000 < tauNs s)
    | none => true
  if !c.peerUp || !c.entryUsed i || p.closed then 0
  else if silent then 6
  else if p.hisVer.toNat < 2 then 5
  else if p.hisFp ≠ surveyFp s then 4
  else if !p.measured then 1
  else if 100 < p.offset.toInt.natAbs then 3 else 2

/-- PEER_ERR: a refusal or failure captured, or counted (R642, R644, R655). -/
def peerErr (s : State) (n : ChanId) (status : BitVec 4) (side : Bool) (entry : Fin 8) (win : BitVec 5) : State :=
  s.updCh n fun c =>
    let p := c.peer
    { c with peer :=
      if p.errValid then { p with errMore := satAdd p.errMore 1 }
      else { p with errMore := 0, errValid := true, errStatus := status, errSide := side, errEntry := entry, errWin := win } }

/-- The WIN byte's window and core bits (R632). -/
def winByte (win : BitVec 4) (core : Fin 2) : BitVec 5 := BitVec.ofNat 5 (win.toNat + 16 * core.val)

/-- Marks an issued command of a queue: it fails, or its work has ended (R546). -/
def markIssued (c : Chan) (q : QId) (order : Nat) (failed ended : Bool) : Chan :=
  c.updQueue q fun y => { y with issued := y.issued.map fun i =>
    if i.cmd.order = order then { i with failed := i.failed || failed, ended := i.ended || ended } else i }

/-- A PSEND has ended when no packet of it is left (R568). -/
def psendEnd (s : State) (n : ChanId) (order : Option Nat) : State :=
  match order with
  | none => s
  | some o =>
    if (s.chan n).peers.out.any fun p => p.psend == some o then s
    else s.updCh n fun c => markIssued c peerQ o false true

def dropOut (s : State) (n : ChanId) (serial : Nat) : State :=
  s.updCh n fun c => { c with peers := { c.peers with out := c.peers.out.filter fun p => p.serial != serial } }

/-- A packet completes (R644). -/
def pktDone (s : State) (n : ChanId) (p : OutPkt) : State :=
  let s1 := dropOut s n p.serial
  match p.dma with
  | some id => descDone s1 n id p.len
  | none => psendEnd s1 n p.psend

/-- A packet fails: its PSEND completes with an error, its descriptor fails with PEER, PEER_ERR captures it (R644). -/
def pktFail (s : State) (n : ChanId) (p : OutPkt) (status : BitVec 4) : State :=
  let s1 := peerErr (dropOut s n p.serial) n status false p.entry (winByte p.body.win p.body.core)
  match p.dma, p.psend with
  | some id, _ => descFail s1 n id 8
  | none, some o => psendEnd (s1.updCh n fun c => markIssued c peerQ o true false) n (some o)
  | none, none => s1

/-- The STATUS captured for a failure that no ACK brought: the spec gives none, a free value (log 22). -/
def freeStatus (s : State) : BitVec 4 := BitVec.ofNat 4 (Config.freeByte s.free).toNat

/-- Packets that await the ACK of a partner that is no longer usable fail (R644). -/
def failUnusable (s : State) (n : ChanId) (i : Fin 8) : State :=
  let c := s.chan n
  if c.usable i.val then s
  else
    let hit := c.peers.out.filter fun p => p.sent && p.entry == i
    if hit.isEmpty then s
    else
      let s1 := hit.foldl (fun t p => pktFail t n p (freeStatus s)) s
      { s1 with free := s1.free + 1 }

/-- A partner's state changes: epoch and windows (R641), the measured offset (R636), CLOSE (R639), failing packets. -/
def setPState (s : State) (n : ChanId) (i : Fin 8) (st : BitVec 3) : State :=
  let p := (s.chan n).part i.val
  let enter := pOpen st && !pOpen p.state
  let leave := pOpen p.state && !pOpen st
  let s1 := s.updCh n fun c =>
    let c1 := c.updPart i.val fun p => { p with
      state := st, epoch := if enter then wrapAdd p.epoch 1 else p.epoch, measured := p.measured && !leave }
    let c2 := if enter then { c1 with peers := { c1.peers with lastSeen := c1.peers.lastSeen.filter fun e => e.1 / 32 != i.val } } else c1
    let c3 := if st = 6 then { c2 with peers := { c2.peers with holds := c2.peers.holds.map fun h => if h.entry = i then { h with dead := true } else h } } else c2
    if st = 4 ∧ p.state ≠ 4 then c3.sendClose i.val 3
    else if st = 5 ∧ p.state ≠ 5 then c3.sendClose i.val 4 else c3
  failUnusable s1 n i

/-- R636 re-evaluated for one partner, or for all. -/
def evalPart (s : State) (n : ChanId) (i : Fin 8) : State := setPState s n i (partState s n i.val)

def allParts : List (Fin 8) := [0, 1, 2, 3, 4, 5, 6, 7]

def evalParts (s : State) (n : ChanId) : State := allParts.foldl (fun t i => evalPart t n i) s

/-- Every partner becomes DOWN (R626, R653, R670). -/
def allDown (s : State) (n : ChanId) : State := allParts.foldl (fun t i => setPState t n i 0) s

/-- The entry an identity belongs to (R628, R629). -/
def Chan.entryOf (c : Chan) (node : Word) : Option (Fin 8) :=
  allParts.find? fun i => c.entryUsed i.val && (c.part i.val).node == node

/-- CH_PORTERR: sets a bit, or counts when it is set (R103). -/
def portErr (s : State) (n : ChanId) (bit : Nat) : State :=
  s.updCh n fun c =>
    { c with port := if bitOf c.port.bits bit then { c.port with more := satAdd c.port.more 1 }
                     else { c.port with bits := setBit c.port.bits bit } }

/-! ### The inbound buffer (R98–R101, R498–R502) -/

/-- Inbound credits the link layer holds: a flit of the buffer's 64 is not given again until it has left (R99). -/
def PeerSt.credits (p : PeerSt) : Nat := 64 - (p.ifill + (p.inq.map (·.flits)).sum)

/-- A part of an accepted packet of another job is on its way: arrivals take effect in the order of their packets
(R500). -/
def Chan.inBusy (c : Chan) (slot : Nat) : Bool :=
  duoIx.any fun k =>
    ((c.core k).pool.acc.any fun a => match a.dest with
      | .window s _ => s != slot
      | _ => false) ||
    duoIx.any fun j => ((c.core k).arr j).arrivals.any fun v => v.flits != 0 && v.peer != some slot

/-- A part of a packet sets out for the pool or the file. -/
def Chan.inStart (c : Chan) (x : InPiece) : Chan :=
  { c with peers := { c.peers with ifill := c.peers.ifill + x.flits } }.updCore x.core fun y =>
    let y1 := match x.acc with
      | some a => { y with pool := { y.pool with acc := y.pool.acc ++ [a] } }
      | none => y
    match x.run with
    | some (j, v) => y1.updArr j fun a => { a with arrivals := a.arrivals ++ [v] }
    | none => y1

/-- The parts of the oldest packet that the buffer's 64 flits hold set out. -/
def inPump : Nat → Chan → Chan
  | 0, c => c
  | f + 1, c =>
    match c.peers.inq with
    | [] => c
    | x :: t =>
      if c.inBusy x.slot || (c.peers.ifill != 0 && decide (64 < c.peers.ifill + x.flits)) then c
      else inPump f ({ c with peers := { c.peers with inq := t } }.inStart x)

/-- Jobs whose packets have not arrived whole: those that reach beyond the buffer. -/
def PeerSt.partly (p : PeerSt) : List Nat :=
  (p.inq.foldl (fun (m : Nat × List Nat) x =>
    (m.1 + x.flits, if 64 < m.1 + x.flits then m.2 ++ [x.slot] else m.2)) (p.ifill, [])).2

/-- The partly arrived packets are discarded as the link falls (R94, R101). -/
def Chan.dropPartly (c : Chan) : Chan :=
  let gone (slot : Nat) : Bool := c.peers.partly.contains slot
  let ofWin (a : PoolAcc) : Bool := match a.dest with
    | .window s _ => gone s
    | _ => false
  let d := c.updCores fun x =>
    { (x.updArrs fun a => { a with arrivals := a.arrivals.filter fun v => !(v.peer.any gone) }) with
      pool := { x.pool with acc := x.pool.acc.filter fun a => !ofWin a } }
  let held (x : Core) : Nat := (x.pool.acc.map fun a => match a.dest with
    | .window _ f => f
    | _ => 0).sum + ((x.arr 0).arrivals.map (·.flits)).sum + ((x.arr 1).arrivals.map (·.flits)).sum
  { d with peers := { d.peers with
    inq := d.peers.inq.filter fun x => !gone x.slot
    winJobs := d.peers.winJobs.filter fun j => !gone j.slot
    ifill := held (d.core 0) + held (d.core 1) } }

/-- A packet taken from the port: nothing while the port is down; without a credit it is an overrun (R96, R98); a
stranger's is counted, another version's is malformed (R629, R633). -/
def pktIn (s : State) (n : ChanId) (h : PktHdr) (hello : Bool) (f : Fin 8 → State) : State :=
  let c := s.chan n
  if !c.peerUp || h.dnode ≠ c.peer.node then s
  else if c.peers.credits = 0 then portErr s n 6
  else
    match c.entryOf h.snode with
    | none => s.updCh n fun c => { c with peer := { c.peer with strangers := satAdd c.peer.strangers 1 } }
    | some i => if !hello && h.ver ≠ (c.part i.val).pktVer then portErr s n 5 else f i

/-- A control packet to an entry (R630, R631). -/
def sendCtl (s : State) (n : ChanId) (i : Nat) (type ver : Byte) (body : List Byte) : State :=
  s.updCh n fun c =>
    if c.peerUp && c.entryUsed i then
      { c with peers := c.peers.ctlSend { type := type, ver := ver, dest := (c.part i).node, body := pktBody body } }
    else c

/-- ENG_ID (R50): BLOCK 0x0004, STEP, PEER_VER 3. -/
def engId (s : State) : Word := BitVec.ofNat 32 (0x00040003 + s.eng.stepping.toNat * 256)

/-- HELLO to an entry (R631, R634). -/
def sendHello (s : State) (n : ChanId) (i : Nat) : State :=
  let c := s.chan n
  let td := s.td.get s.tdc.ticksel
  let stat : Nat := s.tdc.ticksel.val + 2 * (s.tdc.phi != 0).toNat + 4 * s.tdc.held.toNat + 8 * td.disc.toNat
  sendCtl s n i 0x01 3 (natLe 4 (engId s).toNat ++ natLe 8 (surveyFp s).toNat ++ [(c.part i).state.setWidth 8] ++
    natLe 1 stat ++ natLe 2 (c.part i).epoch.toNat ++ natLe 1 c.ctl.mu.toNat)

/-- FPRINT to every partner and a re-evaluation, at a switch (R638). -/
def peersSwitch (s : State) (n : ChanId) : State :=
  let s1 := allParts.foldl (fun t i => sendCtl t n i.val 0x02 ((s.chan n).part i.val).pktVer (natLe 8 (surveyFp s).toNat)) s
  evalParts s1 n

/-! ### Arriving data (R642–R651) -/

def pairKey (i : Nat) (core : Fin 2) (win : BitVec 4) : Nat := i * 32 + core.val * 16 + win.toNat

def Chan.window (c : Chan) (core : Fin 2) (win : BitVec 4) : Option PeerWin :=
  if (c.core core).cfg.used then (c.core core).cfg.wins.find? fun w => w.id == win.toNat else none

def winArr (w : PeerWin) : Fin 2 := Fin.ofNat 2 (w.kind - 1)

/-- The last byte of the window a packet touches: pairs of a collective stand 24 bytes apart (R632). -/
def pktLast (b : DataBody) : Nat :=
  if b.coll then b.offset.toNat + 24 * (b.payload.length / 16 - 1) + 15 else b.offset.toNat + b.payload.length - 1

/-- The words and values a packet carries: window word offsets with values (R284, R632). -/
def pktWords (b : DataBody) : List (Nat × Acc) :=
  (List.range (b.payload.length / 8)).map fun i =>
    let v := a40Dec (BitVec.ofNat 40 (leNat ((b.payload.drop (8 * i)).take 5)))
    let w := b.offset.toNat / 8 + (if b.coll then 3 * (i / 2) + i % 2 else i)
    (w, v)

/-- SEQ newer than H (R643). -/
def seqNewer (seq h : Word) : Bool := let d := (seq - h).toNat; decide (1 ≤ d ∧ d < 2 ^ 31)

/-- The decision of R642: an ACK STATUS, and whether the packet is held. -/
def decidePkt (s : State) (n : ChanId) (i : Fin 8) (b : DataBody) (acc : Bool) : Nat × Bool :=
  let c := s.chan n
  let p := c.part i.val
  let key := pairKey i.val b.core b.win
  match c.window b.core b.win with
  | none => (2, false)
  | some w =>
    if !pOpen p.state || bitOf c.flt.qwin (16 * b.core.val + b.win.toNat) then (2, false)
    else if 3 ≤ p.ver.toNat ∧ b.epoch ≠ p.epoch then (4, false)
    else if !seqNewer b.seq (smGet 0 c.peers.lastSeen key) then (1, false)
    else if (if acc then w.kind == 0 else w.kind != 0) ||
        decide ((if w.kind = 0 then w.length else 8 * w.length) ≤ (pktLast b)) ||
        (w.kind != 0 && decide (((c.core b.core).arr (winArr w)).accTop ≤ w.offset + (pktLast b) / 8)) then (3, false)
    else if (b.coll || b.timed) && p.state == 3 then (5, false)
    else if b.coll && b.tag ≠ slotTag s n then (0, true)
    else (0, false)

/-- ACK (R631, R643). -/
def sendAck (s : State) (n : ChanId) (i : Fin 8) (core : Fin 2) (win : BitVec 4) (status : Nat) (epoch : BitVec 16)
    (seq : Word) : State :=
  sendCtl s n i.val 0x06 ((s.chan n).part i.val).pktVer
    ([BitVec.ofNat 8 (win.toNat + 16 * core.val), BitVec.ofNat 8 status] ++ natLe 2 epoch.toNat ++ natLe 4 seq.toNat)

/-- The ledger of a pair keeps its two most recent tags: counts and spans (R651). -/
def ledgerAdd (l : List (Nat × BitVec 16 × Nat × Nat × Nat)) (key : Nat) (tag : BitVec 16) (first last : Nat) :
    List (Nat × BitVec 16 × Nat × Nat × Nat) :=
  if l.any fun e => e.1 == key && e.2.1 == tag then
    l.map fun e => if e.1 = key ∧ e.2.1 = tag then (key, tag, e.2.2.1 + 1, min e.2.2.2.1 first, max e.2.2.2.2 last) else e
  else
    let mine := l.filter fun e => e.1 == key
    let l1 := if mine.length < 2 then l else match mine with
      | o :: _ => l.erase o
      | [] => l
    l1 ++ [(key, tag, 1, first, last)]

/-- Every byte and word of a job has taken effect: its cairn rises once, the ledger counts it, its ACK leaves
(R499, R643, R651). -/
def jobDone (s : State) (n : ChanId) (slot : Nat) : State :=
  let c := s.chan n
  let pool := duoIx.any fun k => (c.core k).pool.acc.any fun a => match a.dest with
    | .window x _ => x == slot
    | _ => false
  let words := duoIx.any fun k => duoIx.any fun j => ((c.core k).arr j).arrivals.any fun r => r.peer == some slot
  match c.peers.winJobs.find? fun j => j.slot == slot with
  | none => s
  | some j =>
    if pool || words || c.peers.inq.any fun x => x.slot == slot then s
    else
      let s1 := s.updCh n fun c => { c with peers := { c.peers with
        winJobs := c.peers.winJobs.filter fun x => x.slot != slot
        ledger := match j.peer with
          | some p => ledgerAdd c.peers.ledger (pairKey p.1.val j.core j.win) j.tag j.first j.last
          | none => c.peers.ledger } }
      let s2 := crnInc s1 n j.cairn clsPeer 1
      match j.peer with
      | some p => sendAck s2 n p.1 j.core j.win 0 p.2.1 p.2.2
      | none => s2

/-- A job entered; its number. -/
def jobNew (s : State) (n : ChanId) (b : DataBody) (w : PeerWin) (peer : Option (Fin 8 × BitVec 16 × Word)) : State × Nat :=
  let slot := (s.chan n).peers.winSlot
  (s.updCh n fun c => { c with peers := { c.peers with
    winSlot := slot + 1
    winJobs := c.peers.winJobs ++ [{ slot := slot, core := b.core, win := b.win, cairn := w.cairn, tag := b.tag
                                     first := b.offset.toNat / 128, last := (pktLast b) / 128, peer := peer }] } }, slot)

/-- Runs of consecutive words, at most 32 to a run (R333). -/
def wordRuns : List (Nat × Acc) → List (Nat × List Acc)
  | [] => []
  | (w, v) :: t =>
    match wordRuns t with
    | (w', vs) :: r => if w + 1 = w' ∧ vs.length < 32 then (w, v :: vs) :: r else (w, [v]) :: (w', vs) :: r
    | [] => [(w, [v])]

/-- A part of a job has taken effect: its flits leave the buffer, and what waited behind them sets out. -/
def pieceLanded (s : State) (n : ChanId) (slot flits : Nat) : State :=
  let s1 := s.updCh n fun c => { c with peers := { c.peers with ifill := c.peers.ifill - flits } }
  (jobDone s1 n slot).updCh n fun c => inPump c.peers.inq.length c

/-- Items of a packet with the flits each empties: the header's with the first, the payload's as its bytes are used. -/
def flitShares {α : Type} (size : α → Nat) : Nat → Nat → List α → List (α × Nat)
  | _, _, [] => []
  | at_, extra, x :: t =>
    (x, extra + (ceilDiv (at_ + size x) 32 - ceilDiv at_ 32)) :: flitShares size (at_ + size x) 0 t

/-- The parts of a packet: pool lines for a window of KIND 0, runs of words for an accumulator window (R362, R498). -/
def pktPieces (b : DataBody) (w : PeerWin) (slot : Nat) : List InPiece :=
  if w.kind = 0 then
    (flitShares (fun a => (a.write.getD []).length) 0 1
      (lineWrites clPeer (w.offset + b.offset.toNat) b.payload (.window slot 0))).map fun x =>
        { core := b.core, slot := slot, flits := x.2, acc := some { x.1 with dest := .window slot x.2 }, run := none }
  else
    (flitShares (fun u => 8 * u.2.length) 0 1 (wordRuns (pktWords b))).map fun x =>
      { core := b.core, slot := slot, flits := max 1 x.2, acc := none
        run := some (winArr w, { word := w.offset + x.1.1, vals := x.1.2, src := none, peer := some slot, flits := max 1 x.2
                                 own := none }) }

/-- An accepted packet stands in the inbound buffer until the pool or the file has taken it. -/
def applyPkt (s : State) (n : ChanId) (b : DataBody) (w : PeerWin) (peer : Fin 8 × BitVec 16 × Word) : State :=
  let r := jobNew s n b w (some peer)
  r.1.updCh n fun c =>
    let inq := c.peers.inq ++ pktPieces b w r.2
    inPump inq.length { c with peers := { c.peers with inq := inq } }

/-- The sender's own copy of a collective: an arrival that passes no port (R647). -/
def applyOwn (s : State) (n : ChanId) (b : DataBody) (w : PeerWin) : State :=
  let r := jobNew s n b w none
  r.1.updCh n fun c => c.updCore b.core fun x => x.updArr (winArr w) fun a =>
    { a with arrivals := a.arrivals ++ (wordRuns (pktWords b)).map fun u =>
      { word := w.offset + u.1, vals := u.2, src := none, peer := some r.2, flits := 0, own := none } }

/-- Void contributions to every word a packet covers, at once (R647, R649). -/
def voidPkt (s : State) (n : ChanId) (b : DataBody) (w : PeerWin) : State :=
  if w.kind = 0 then s
  else
    s.updCh n fun c => c.updCore b.core fun x => x.updArr (winArr w) fun a =>
      (pktWords b).foldl (fun r u => r.accInto (w.offset + u.1) .void) a

def heldVoided (s : State) (n : ChanId) : State :=
  s.updCh n fun c => { c with peer := { c.peer with voided := satAdd c.peer.voided 1 } }

/-- A held contribution voided: void words, VOIDED, its cairn once unless a VOID_SLOT took it, its ACK (R649, R651). -/
def heldVoid (s : State) (n : ChanId) (h : Held) (cairn : Bool) : State :=
  match (s.chan n).window h.body.core h.body.win with
  | none => heldVoided s n
  | some w =>
    let s1 := heldVoided (voidPkt s n h.body w) n
    let s2 := if cairn then crnInc s1 n w.cairn clsPeer 1 else s1
    sendAck s2 n h.entry h.body.core h.body.win 0 h.body.epoch h.body.seq

/-- Held contributions at the receiver's tick, in arrival order: applied when their TAG is the new one (R649), the words
they are added to checked (R366). -/
def heldTick (s : State) (n : ChanId) (sees : List ArrSee) : State :=
  let hs := (s.chan n).peers.holds
  let s0 := s.updCh n fun c => { c with peers := { c.peers with holds := [] } }
  hs.foldl (fun t h =>
    match (t.chan n).window h.body.core h.body.win with
    | some w =>
      if h.dead || h.body.tag ≠ slotTag t n then heldVoid t n h true
      else
        let ws := (pktWords h.body).map fun u => w.offset + u.1
        let t0 := accReads t (mkArr n h.body.core (winArr w)) ws (seeAt sees h.body.core (winArr w))
        let t1 := t0.updCh n fun c => c.updCore h.body.core fun x => x.updArr (winArr w) fun a =>
          (pktWords h.body).foldl (fun r u => r.accInto (w.offset + u.1) u.2) a
        let r := jobNew t1 n h.body w (some (h.entry, h.body.epoch, h.body.seq))
        jobDone r.1 n r.2
    | none => heldVoid t n h true) s0

/-- A data packet from a partner (R642, R643). -/
def dataIn (s : State) (n : ChanId) (h : PktHdr) (b : DataBody) (acc : Bool) : State :=
  pktIn s n h false fun i =>
    let d := decidePkt s n i b acc
    let seen (t : State) : State := t.updCh n fun c => { c with peers := { c.peers with
      lastSeen := smSet 0 c.peers.lastSeen (pairKey i.val b.core b.win) b.seq } }
    let ack (t : State) : State := sendAck t n i b.core b.win d.1 b.epoch b.seq
    if d.1 = 1 then ack (s.updCh n fun c => { c with peer := { c.peer with dups := satAdd c.peer.dups 1 } })
    else if d.1 ≠ 0 then
      let s1 := if d.1 = 3 ∨ d.1 = 5 then seen s else s
      let s2 := updPart s1 n i.val fun p => { p with refused := satAdd p.refused 1 }
      ack (peerErr s2 n (BitVec.ofNat 4 d.1) true i (winByte b.win b.core))
    else if d.2 then
      let hp : Held := { entry := i, body := b, dead := false }
      let s1 := seen s
      if 16 ≤ (s.chan n).peers.holds.length then heldVoid s1 n hp true
      else s1.updCh n fun c => { c with
        peers := { c.peers with holds := c.peers.holds ++ [hp] }
        peer := { c.peer with held := satAdd c.peer.held 1 } }
    else
      match (s.chan n).window b.core b.win with
      | some w => applyPkt (seen s) n b w (i, b.epoch, b.seq)
      | none => s

/-- One ledger entry taken back (R577, R651, R688). -/
def ledgerVoid (s : State) (n : ChanId) (i : Fin 8) (e : Nat × BitVec 16 × Nat × Nat × Nat) : State :=
  let core : Fin 2 := Fin.ofNat 2 (e.1 / 16)
  let win : BitVec 4 := BitVec.ofNat 4 e.1
  match (s.chan n).window core win with
  | none => s
  | some w =>
    let under := decide (((s.chan n).cairn w.cairn).count.toNat < e.2.2.1)
    let s1 := crnWithdraw s n w.cairn e.2.2.1
    let s2 := if under then
        raise (s1.updCh n fun c => { c with flt := { c.flt with qwin := setBit c.flt.qwin (16 * core.val + win.toNat) } }) n
          { lvl := .chan, cause := 0x54, cls := 3, info := BitVec.ofNat 32 (win.toNat + 16 * core.val + 32 * i.val), addr := 0 }
      else s1
    let s3 := if w.kind = 0 then s2
      else s2.updCh n fun c => c.updCore core fun x => x.updArr (winArr w) fun a =>
        ((List.range (16 * (e.2.2.2.2 + 1 - e.2.2.2.1))).filter fun k => decide (16 * e.2.2.2.1 + k < w.length)).foldl
          (fun r k => r.accInto (w.offset + 16 * e.2.2.2.1 + k) .void) a
    s3.updCh n fun c =>
      let p := c.peer
      { c with peer := if p.staleValid then p else
        { p with staleValid := true, staleEntry := i, staleWin := winByte win core, staleTag := e.2.1
                 staleLast := BitVec.ofNat 12 e.2.2.2.2, staleFirst := BitVec.ofNat 12 e.2.2.2.1 } }

/-! ### Leaving data (R644–R647) -/

/-- The payload of a packet of a PSEND has been read from the pool. -/
def pktFilled (s : State) (n : ChanId) (serial : Nat) (bs : List Byte) : State :=
  s.updCh n fun c => { c with peers := { c.peers with out := c.peers.out.map fun p =>
    if p.serial = serial then { p with wait := false, body := { p.body with payload := bs } } else p } }

/-- A packet whose payload met a double error is not sent, and its PSEND completes with an error (R506). -/
def pktLost (s : State) (n : ChanId) (serial order : Nat) : State :=
  psendEnd ((dropOut s n serial).updCh n fun c => markIssued c peerQ order true false) n (some order)

/-- Bytes in a queue end towards PEER (R569). -/
def Core.endP (c : Core) (e : Fin 3) : List Byte :=
  match e with
  | 0 => c.ends.gateP.c0
  | 1 => c.ends.gateP.c1
  | 2 => c.ends.laneP

def Core.setEndP (c : Core) (e : Fin 3) (b : List Byte) : Core :=
  { c with ends := match e with
    | 0 => { c.ends with gateP := { c.ends.gateP with c0 := b } }
    | 1 => { c.ends with gateP := { c.ends.gateP with c1 := b } }
    | 2 => { c.ends with laneP := b } }

/-- Replaces a packet of the out list by others, in place. -/
def replOut (s : State) (n : ChanId) (serial : Nat) (l : List OutPkt) : State :=
  s.updCh n fun c => { c with peers := { c.peers with out := c.peers.out.flatMap fun p => if p.serial = serial then l else [p] } }

/-- A packet's payload popped from its queue end; false while the end holds too little (R570). -/
def popPayload (s : State) (n : ChanId) (p : OutPkt) : Option (State × OutPkt) :=
  match p.ends with
  | none => some (s, p)
  | some (e, k) =>
    let bs := ((s.chan n).core k).endP e
    if bs.length < p.len then none
    else
      let q := { p with ends := none, body := { p.body with payload := bs.take p.len } }
      some (replOut (s.updCh n fun c => c.updCore k fun x => x.setEndP e (bs.drop p.len)) n p.serial [q], q)

/-- A collective as it begins to leave: the local copy is applied, and one packet per masked participant stands in its
place (R628, R647). -/
def collSplit (s : State) (n : ChanId) (p : OutPkt) : State :=
  let c := s.chan n
  let b := { p.body with tag := slotTag s n }
  let dests := allParts.filter fun i => bitOf c.peer.coll i.val && c.entryUsed i.val
  let base := c.peers.serial
  let parts := dests.zipIdx.map fun x => { p with entry := x.1, split := true, serial := base + x.2, body := b }
  let s1 := (replOut s n p.serial parts).updCh n fun c => { c with peers := { c.peers with serial := base + parts.length } }
  let s2 := match (s1.chan n).window b.core b.win with
    | some w => if w.kind = 0 then s1 else applyOwn s1 n b w
    | none => s1
  psendEnd s2 n p.psend

/-- The outbound path is free: a credit is held, nothing is still leaving and no control packet waits (R97, R98). -/
def PeerSt.pathFree (p : PeerSt) : Bool := p.ocredit != 0 && p.owed == 0 && p.ctl.isEmpty

/-- One packet leaves (R642, R646, R648): numbered, stamped, awaiting its ACK; its flits spend the credits held, and the
rest wait for theirs (R90, R97). -/
def pktLeave (s : State) (n : ChanId) (p : OutPkt) : State :=
  let c := s.chan n
  let d := c.part p.entry.val
  let flits := 1 + ceilDiv p.len 32
  let k := min flits c.peers.ocredit.toNat
  let key := pairKey p.entry.val p.body.core p.body.win
  let seq := smGet 0 c.peers.sendSeq key + 1
  let body := { p.body with epoch := if 3 ≤ d.ver.toNat then d.hisEpoch else 0, seq := seq, tag := slotTag s n }
  (replOut s n p.serial [{ p with sent := true, body := body }]).updCh n fun c =>
    { c with peers := { c.peers with
      sendSeq := smSet 0 c.peers.sendSeq key seq, ocredit := c.peers.ocredit - BitVec.ofNat 8 k, owed := flits - k
      sentTo := setBit c.peers.sentTo p.entry.val } }

/-- A packet has to wait: the path is not free, or 64 packets await their ACK (R97, R644). With the port down nothing
waits: packets fail (R646). -/
def Chan.pktWaits (c : Chan) : Bool :=
  c.peerUp && (!c.peers.pathFree || decide (64 ≤ (c.peers.out.filter (·.sent)).length))

/-- The next packet of PSENDs and timed frames, or of remote descriptors, leaves, fails or is voided. -/
def pktSend (s : State) (n : ChanId) (dma : Bool) : State :=
  match (s.chan n).peers.out.find? fun p => !p.sent && p.dma.isSome == dma with
  | none => s
  | some p0 =>
    if (s.chan n).pktWaits || p0.wait then s else
    match popPayload s n p0 with
    | none => s
    | some (t, p) =>
      if p.body.coll && !p.split then collSplit t n p
      else if p.split then
        if (t.chan n).timed p.entry.val then pktLeave t n p
        else
          let t1 := match (t.chan n).window p.body.core p.body.win with
            | some w => voidPkt t n p.body w
            | none => t
          psendEnd (dropOut (heldVoided t1 n) n p.serial) n p.psend
      else if !(t.chan n).usable p.entry.val then
        { pktFail t n p (freeStatus s) with free := s.free + 1 }
      else pktLeave t n p

/-- Packets of a remote descriptor whose payload has arrived join the out list (R646). -/
def descPackets (n : ChanId) (id : Nat) : Nat → State → State
  | 0, s => s
  | f + 1, s =>
    match (s.chan n).dma.descs.find? fun d => d.id == id with
    | none => s
    | some d =>
      let p := d.putPos
      let k := min 4096 (d.len - p % d.len)
      if d.dkind < 10 ∨ d.total ≤ p ∨ gotRun d.got p < k then s
      else
        let r := d.remote
        let body : DataBody :=
          { win := r.1, core := r.2.1, coll := false, timed := false, late := false, epoch := 0, seq := 0
            offset := BitVec.ofNat 32 (d.dstAt p), tag := 0, payload := (d.got.take k).map (·.2) }
        descPackets n id f (s.updCh n fun c => { c with
          dma := { c.dma with descs := c.dma.descs.map fun e =>
            if e.id = id then { e with got := e.got.drop k, putPos := p + k } else e }
          peers := { c.peers with
            serial := c.peers.serial + 1
            out := c.peers.out ++ [{ serial := c.peers.serial, entry := r.2.2, acc := d.dkind == 11, body := body, len := k
                                     ends := none, split := false, dma := some id, psend := none, wait := false, sent := false }] } })

/-! ### The rows -/

/-- PEER_HELLO_TIMER: at a 1 ms multiple of τ, a HELLO and then a TIME request to every partner (R634). -/
def execPeerHelloTimer (n : ChanId) (s : State) : Out :=
  .next (
    let s1 := allParts.foldl (fun t i => sendHello t n i.val) s
    allParts.foldl (fun t i => sendCtl t n i.val 0x03 ((t.chan n).part i.val).pktVer
      ([0, 0, 0, 0] ++ natLe 8 (tauNs t))) s1)

/-- PARTNER_LOST: no HELLO in the last 3 ms (R636). -/
def execPartnerLost (n : ChanId) (i : Fin 8) (s : State) : Out :=
  .next (
    let c := s.chan n
    if c.peerUp && c.entryUsed i.val && (c.part i.val).state != 0 then setPState s n i 6 else s)

/-- HELLO (R636, R637, R641, R642). -/
def execHello (n : ChanId) (h : PktHdr) (_engId : Word) (fprint : BitVec 64) (pstate : Byte) (epoch : BitVec 16)
    (s : State) : Out :=
  .next (pktIn s n h true fun i =>
    let now := tauNs s
    let fresh := epoch ≠ ((s.chan n).part i.val).hisEpoch
    let s1 := s.updCh n fun c =>
      let c1 := c.updPart i.val fun p => { p with
        hisVer := h.ver, ver := if h.ver.toNat < 3 then h.ver else 3, hellos := wrapAdd p.hellos 1
        pstate := pstate.setWidth 3, lastHello := some now, hisFp := fprint, hisEpoch := epoch, closed := false }
      if fresh then { c1 with peers := { c1.peers with sendSeq := c1.peers.sendSeq.filter fun e => e.1 / 32 != i.val } } else c1
    evalPart s1 n i)

/-- FPRINT (R636). -/
def execFprint (n : ChanId) (h : PktHdr) (fprint : BitVec 64) (s : State) : Out :=
  .next (pktIn s n h false fun i => evalPart (updPart s n i.val fun p => { p with hisFp := fprint }) n i)

/-- TIME request: the reply carries T1, the arrival's low word and RES (R631, R634). -/
def execTimeRequest (n : ChanId) (h : PktHdr) (t1 : BitVec 64) (res : BitVec 24) (s : State) : Out :=
  .next (pktIn s n h false fun i =>
    sendCtl s n i.val 0x03 ((s.chan n).part i.val).pktVer
      ([1] ++ natLe 3 res.toNat ++ natLe 8 t1.toNat ++ natLe 4 (tauNs s)))

/-- The offset of R635 in half nanoseconds: (T2 − T1) − (T4 − T2 − RES), T2 extended nearest T1. -/
def timeOffset2 (res : BitVec 24) (t1 : BitVec 64) (t2 : Word) (t4 : BitVec 64) : Int :=
  let a := (t2 - t1.setWidth 32).toInt
  let d := (t4 - t1).toInt
  a - (d - a - res.toNat)

/-- Saturation to a signed 32-bit value. -/
def sat32 (v : Int) : Word := BitVec.ofInt 32 (max (-(2 ^ 31)) (min v (2 ^ 31 - 1)))

/-- TIME reply (R635, R636): an odd number of half nanoseconds is rounded either way, freely (log 21). -/
def execTimeReply (n : ChanId) (h : PktHdr) (res : BitVec 24) (t1 : BitVec 64) (t2 : Word) (t4 : BitVec 64) (s : State) :
    Out :=
  .next (pktIn s n h false fun i =>
    let v := timeOffset2 res t1 t2 t4
    let up : Int := if v % 2 = 0 then 0 else (Config.freeByte s.free).toNat % 2
    let s1 := updPart s n i.val fun p => { p with offset := sat32 (v / 2 + up), measured := true }
    evalPart { s1 with free := s1.free + 1 } n i)

/-- WRITE_WIN (R642). -/
def execWriteWin (n : ChanId) (h : PktHdr) (b : DataBody) (s : State) : Out :=
  if b.payload.length % 4 = 0 ∧ 4 ≤ b.payload.length ∧ b.payload.length ≤ 4096 then .next (dataIn s n h b false)
  else .fault .illFormed

/-- ACC_INTO (R642). -/
def execAccInto (n : ChanId) (h : PktHdr) (b : DataBody) (s : State) : Out :=
  if b.payload.length % 8 = 0 ∧ 8 ≤ b.payload.length ∧ b.payload.length ≤ 4096 then .next (dataIn s n h b true)
  else .fault .illFormed

/-- ACK: OK and DUP complete the packet, any other status fails it; one that matches nothing is discarded (R644). -/
def execAck (n : ChanId) (h : PktHdr) (win : Byte) (status : Byte) (epoch : BitVec 16) (seq : Word) (s : State) : Out :=
  .next (pktIn s n h false fun i =>
    match (s.chan n).peers.out.find? fun p => p.sent && p.entry == i && (winByte p.body.win p.body.core).toNat == win.toNat &&
        p.body.epoch == epoch && p.body.seq == seq with
    | none => s
    | some p => if status = 0 ∨ status = 1 then pktDone s n p else pktFail s n p (status.setWidth 4))

/-- VOID_SLOT (R651). -/
def execVoidSlot (n : ChanId) (h : PktHdr) (tag : BitVec 16) (s : State) : Out :=
  .next (pktIn s n h false fun i =>
    let c := s.chan n
    let hs := c.peers.holds.filter fun x => x.entry == i && x.body.tag == tag
    let es := c.peers.ledger.filter fun e => e.1 / 32 == i.val && e.2.1 == tag
    let s1 := s.updCh n fun c => { c with peers := { c.peers with
      holds := c.peers.holds.filter fun x => !(x.entry == i && x.body.tag == tag)
      ledger := c.peers.ledger.filter fun e => !(e.1 / 32 == i.val && e.2.1 == tag) } }
    let s2 := hs.foldl (fun t x => heldVoid t n x false) s1
    es.foldl (fun t e => ledgerVoid t n i e) s2)

/-- CLOSE: the sender is DOWN until its next HELLO (R636). -/
def execClose (n : ChanId) (h : PktHdr) (_reason : Byte) (s : State) : Out :=
  .next (pktIn s n h false fun i => setPState (updPart s n i.val fun p => { p with closed := true }) n i 0)

/-- PEER_PACKET_SEND: the next data packet leaves the port (R646). -/
def execPeerPacketSend (n : ChanId) (dma : Bool) (s : State) : Out :=
  .next (if (s.chan n).live then pktSend s n dma else s)

/-- A host write of PEER_NODE or PEER_Pi_NODE: a change sends CLOSE to the partners it affects and sets them DOWN
(R626, R627). A new identity's entry starts without a HELLO. -/
def execPeerNodeWrite (n : ChanId) (entry : Option (Fin 8)) (v : Word) (s : State) : Out :=
  .next (match entry with
    | none => hostWr s (.peerNodeWrite n entry v) (chBase n + 0x40000) fun t =>
      if (t.chan n).peer.node = v then t
      else
        let t1 := allParts.foldl (fun t i => t.updCh n fun c => c.sendClose i.val 2) t
        allDown (t1.updCh n fun c => { c with peer := { c.peer with node := v } }) n
    | some i => hostWr s (.peerNodeWrite n entry v) (chBase n + 0x40040 + 16 * i.val) fun t =>
      let old := (t.chan n).part i.val
      if old.node = v then t
      else
        let t1 := setPState (t.updCh n fun c => c.sendClose i.val 2) n i 0
        t1.updCh n fun c =>
          let c1 := c.updPart i.val fun p =>
            { Partner.reset with node := v, epoch := p.epoch, refused := p.refused, hellos := p.hellos }
          { c1 with peers := { c1.peers with sendSeq := c1.peers.sendSeq.filter fun e => e.1 / 32 != i.val } })

/-- PEER_PORT_HALT: an arrival has no PEER slot on a bank it needs (R502, R653). -/
def execPeerPortHalt (n : ChanId) (s : State) : Out :=
  .next (
    let c := s.chan n
    let stuck (k : Fin 2) : Bool := (c.core k).pool.acc.any fun a =>
      a.client == clPeer && (match a.dest with
        | .window _ _ => true
        | _ => false) && !(c.core k).hasSlot clPeer (lineBank a.line)
    if c.live && (stuck 0 || stuck 1) && !c.peer.halted then
      raise (allDown (s.updCh n fun c => { c with peer := { c.peer with halted := true } }) n) n
        { lvl := .chan, cause := 0x53, cls := 3, info := 0, addr := 0 }
    else s)

/-- A peer port's credit, while its link is up: the packet that leaves spends it, or a waiting control packet (R91, R93,
R97, R98). -/
def execPeerOutboundCredit (n : ChanId) (s : State) : Out :=
  .next (s.updCh n fun c =>
    if !c.live || !c.peers.linkUp then c
    else if c.peers.owed ≠ 0 then { c with peers := { c.peers with owed := c.peers.owed - 1 } }
    else match c.peers.ctl with
      | x :: t => { c with peers := { c.peers with ctl := t, gone := c.peers.gone ++ [x] } }
      | [] => { c with peers := { c.peers with ocredit := satAdd c.peers.ocredit 1 } })

/-- PEER_LINK_UP: no outbound credit is held, and the credits of the inbound buffer go out (R93, R98, R99). -/
def execPeerLinkUp (n : ChanId) (s : State) : Out :=
  .next (s.updCh n fun c => if c.peers.linkUp then c
    else { c with peers := { c.peers with linkUp := true, ocredit := 0, owed := 0 } })

/-- PEER_LINK_DOWN: PP_LINKDOWN is set, credits go to 0, packets that have not passed whole are ended in both
directions, control packets that wait for a credit go (log 34), every partner is DOWN (R94, R101, R626). -/
def execPeerLinkDown (n : ChanId) (s : State) : Out :=
  .next (
    if !(s.chan n).peers.linkUp then s
    else
      let s1 := s.updCh n fun c =>
        let d := c.dropPartly
        { d with peers := { d.peers with linkUp := false, ocredit := 0, owed := 0, ctl := [] } }
      if (s.chan n).live then allDown (portErr s1 n 8) n else s1)

/-- MALFORMED_PEER_PACKET: discarded, PP_MALFORM (R95, R98, R633). -/
def execMalformedPeerPacket (n : ChanId) (s : State) : Out :=
  .next (if (s.chan n).live && (s.chan n).peers.linkUp then portErr s n 5 else s)

/-- PEER_INBOUND_OVERRUN: PP_OVERRUN (R96, R98). -/
def execPeerInboundOverrun (n : ChanId) (s : State) : Out :=
  .next (if (s.chan n).live && (s.chan n).peers.linkUp then portErr s n 6 else s)

/-- PEER_RX_ERR: PP_RXERR (R100). -/
def execPeerRxErr (n : ChanId) (s : State) : Out :=
  .next (if (s.chan n).live && (s.chan n).peers.linkUp then portErr s n 7 else s)

end Sys2Proof.Machine
end

