-- ==== Sys2Proof/Machine/MemPort.lean ====
section
/-! DEFINITION. The memory port (chapters 02, 15, 17): requests by the slot frame, responses and timeouts, instruction
cache fills, descriptor fetches, snoops. -/

namespace Sys2Proof.Machine

def opRd : BitVec 2 := 0
def opCodeRd : BitVec 2 := 1
def opWr : BitVec 2 := 2

/-! ### Descriptor bursts (R587, R588) -/

def Xfer.bursts (x : Xfer) : Nat := ceilDiv x.count 8
def Xfer.burstLen (x : Xfer) : Nat := min 8 (x.count - 8 * x.burst)
def Xfer.burstAddr (x : Xfer) : Nat := x.addr + 256 * x.burst

/-- The granules that hold the burst's descriptors. -/
def Xfer.parts (x : Xfer) : Nat := (x.burstAddr + 32 * x.burstLen - 1) / 64 - x.burstAddr / 64 + 1

def updXfer (s : State) (n : ChanId) (order : Nat) (f : Xfer → Xfer) : State :=
  s.updCh n fun c => { c with dma := { c.dma with xfers := c.dma.xfers.map fun x => if x.order = order then f x else x } }

/-- Descriptors of a channel outstanding (R588, R597). -/
def Chan.outstanding (c : Chan) : Nat :=
  c.dma.descs.length + (c.dma.xfers.map fun x => if 0 < x.part then x.burstLen else 0).sum

/-- A descriptor that fails before it moves anything: captured, and one fewer in its XFER (R586). -/
def descRefuse (s : State) (n : ChanId) (x : Xfer) (index reason : Nat) : State :=
  dmaErr (s.updCh n fun c => { c with dma := c.dma.countDown x.order }) n x.tag index
    (BitVec.ofNat 48 (x.addr + 32 * index)) reason

/-- A burst that failed: every descriptor in it fails with FETCH (R587). -/
def burstFail (s : State) (n : ChanId) (x : Xfer) : State :=
  let s1 := (List.range x.burstLen).foldl (fun t i => descRefuse t n x (8 * x.burst + i) 9) s
  updXfer s1 n x.order fun y => { y with burst := y.burst + 1, part := 0, got := [], waiting := 0, bad := false }

/-- A burst whose granules have all arrived: each descriptor is checked and enters, or fails (R586). -/
def burstDone (s : State) (n : ChanId) (x : Xfer) : State :=
  let one (t : State) (i : Nat) : State :=
    let index := 8 * x.burst + i
    let at_ := x.addr + 32 * index
    let b := smGetList 0 x.got at_ 32
    let d := descOf (t.chan n).dma.nextId x.order index x.tag (BitVec.ofNat 48 at_) b
    match (t.chan n).descCheck x.ranges d (leNat ((b.drop 20).take 4)) with
    | some r => descRefuse t n x index r
    | none => t.updCh n fun c => { c with dma := { c.dma with nextId := c.dma.nextId + 1, descs := c.dma.descs ++ [d] } }
  let s1 := (List.range x.burstLen).foldl one s
  updXfer s1 n x.order fun y => { y with burst := y.burst + 1, part := 0, got := [], waiting := 0, bad := false }

/-- The XFER that fetches: the first with bursts left (R588). -/
def Chan.fetching (c : Chan) : Option Xfer := c.dma.xfers.find? fun x => decide (x.burst < x.bursts)

/-- Bursts outside every data window fail without a request (R586, R587). -/
def burstSkip (n : ChanId) : Nat → State → State
  | 0, s => s
  | f + 1, s =>
    match (s.chan n).fetching with
    | none => s
    | some x =>
      if x.part = 0 && !(s.chan n).inWindow false x.burstAddr (32 * x.burstLen) then burstSkip n f (burstFail s n x) else s

/-- A granule of a burst arrives or fails. -/
def fetchPart (s : State) (n : ChanId) (order part : Nat) (data : Option (List Byte)) : State :=
  match (s.chan n).dma.xfers.find? fun x => x.order == order with
  | none => s
  | some x0 =>
    let base := (x0.burstAddr / 64 + part) * 64
    let x : Xfer := match data with
      | some d => { x0 with waiting := x0.waiting - 1, got := smSetList 0 x0.got base d }
      | none => { x0 with waiting := x0.waiting - 1, bad := true }
    let s1 := updXfer s n order fun _ => x
    if x.waiting = 0 ∧ x.part = x.parts then
      burstSkip n 4096 (if x.bad then burstFail s1 n x else burstDone s1 n x)
    else s1

/-! ### Requests (R74–R78, R589, R594) -/

/-- A request on its way to be made: op, granule, mask, data, purpose, and what its acceptance changes. -/
structure Cand where
  op      : BitVec 2
  granule : Nat
  mask    : BitVec 64
  data    : List Byte
  purpose : MpPurpose
  eff     : Chan → Chan

/-- Two requests to one granule, one a WR, are never outstanding together (R78). -/
def Chan.granuleFree (c : Chan) (op : BitVec 2) (g : Nat) : Bool :=
  !(c.mp.reqs.any fun r => r.granule.toNat == g && (op == opWr || r.op == opWr))

/-- FENCE: every earlier descriptor of the XFER has completed or failed (R590). -/
def Chan.fenceOk (c : Chan) (d : Desc) : Bool :=
  !d.fence || !(c.dma.descs.any fun e => e.order == d.order && decide (e.index < d.index))

def updDesc (c : Chan) (id : Nat) (f : Desc → Desc) : Chan :=
  { c with dma := { c.dma with descs := c.dma.descs.map fun d => if d.id = id then f d else d } }

/-- The next source granule of a descriptor that reads host memory. -/
def dataCand (d : Desc) : Cand :=
  let p := d.reqPos
  let a := d.srcAt p
  let k := min (d.len - p % d.len) (64 - a % 64)
  { op := opRd, granule := a / 64, mask := 0, data := [], purpose := .data d.id p k
    eff := fun c => updDesc c d.id fun e => { e with reqPos := p + k } }

/-- RD_CODE fills go ahead of descriptor fetches, and these ahead of data reads (R594). -/
def readCand (c : Chan) : Option Cand :=
  let code (k : Fin 2) : Option Cand :=
    match (c.core k).icache.wants with
    | g :: _ => some { op := opCodeRd, granule := g.toNat, mask := 0, data := [], purpose := .code k false
                       eff := fun c => c.updCore k fun x => { x with icache := { x.icache with wants := x.icache.wants.tail } } }
    | [] => none
  let fetch : Option Cand :=
    match c.fetching with
    | none => none
    | some x =>
      if x.part < x.parts ∧ (0 < x.part ∨ c.outstanding + x.burstLen ≤ 512) then
        some { op := opRd, granule := x.burstAddr / 64 + x.part, mask := 0, data := [], purpose := .fetch x.order x.burst x.part
               eff := fun c => { c with dma := { c.dma with xfers := c.dma.xfers.map fun y =>
                 if y.order = x.order then { y with part := y.part + 1, waiting := y.waiting + 1 } else y } } }
      else none
  let data : Option Cand :=
    match c.dma.descs.find? fun d => d.cls == some 0 && decide (d.reqPos < d.total) with
    | some d => if c.fenceOk d then some (dataCand d) else none
    | none => none
  let free (x : Option Cand) : Option Cand := x.bind fun y => if c.granuleFree y.op y.granule then some y else none
  match free (code 0) with
  | some x => some x
  | none => match free (code 1) with
    | some x => some x
    | none => match free fetch with
      | some x => some x
      | none => free data

/-- The next WR of the write class: the bytes of one granule of one row. -/
def writeCand (c : Chan) : Option Cand :=
  match c.dma.descs.find? fun d => d.cls == some 1 && decide (d.putPos < d.total) with
  | none => none
  | some d =>
    let k := d.piece 64
    let p := d.putPos
    let a := d.dstAt p
    if k = 0 || !c.fenceOk d || !c.granuleFree opWr (a / 64) then none
    else
      let bs := (d.got.take k).map (·.2)
      some { op := opWr, granule := a / 64, mask := BitVec.ofNat 64 ((2 ^ k - 1) * 2 ^ (a % 64))
             data := List.replicate (a % 64) 0 ++ bs ++ List.replicate (64 - a % 64 - k) 0, purpose := .store d.id p k
             eff := fun c => updDesc c d.id fun e => { e with got := e.got.drop k, putPos := p + k } }

/-- The remote descriptor that issues next. -/
def Chan.remoteDesc (c : Chan) : Option Desc :=
  c.dma.descs.find? fun d => d.cls == some 2 && decide (d.reqPos < d.total)

def remoteCand (c : Chan) : Option Cand :=
  match c.remoteDesc with
  | none => none
  | some d =>
    let x := dataCand d
    -- a granule never runs past its packet: packets are 4,096 bytes of a row (R646)
    let p := d.reqPos
    let room := 4096 - p % d.len % 4096
    let k := min (min (d.len - p % d.len) (64 - d.srcAt p % 64)) room
    if c.fenceOk d && c.granuleFree opRd x.granule then
      some { x with purpose := .data d.id p k, eff := fun c => updDesc c d.id fun e => { e with reqPos := p + k } }
    else none

/-- A remote descriptor checks its destination before the reads of each packet's payload (R645, R646). -/
def remoteCheck (s : State) (n : ChanId) : State :=
  match (s.chan n).remoteDesc with
  | none => s
  | some d =>
    if (s.chan n).fenceOk d && d.reqPos % d.len % 4096 == 0 && !(s.chan n).usable d.remote.2.2.val then
      descFail (peerErr { s with free := s.free + 1 } n (freeStatus s) false d.remote.2.2 (winByte d.remote.1 d.remote.2.1)) n d.id 8
    else s

/-- A tag the engine may give a request (R75). -/
def Mp.tagFree (m : Mp) (tag : Byte) : Bool :=
  !(m.reqs.any fun r => r.tag == tag) && !(m.retired.any fun r => r.tag == tag && !r.free)

def Dma.nextPtr (m : Dma) : Dma := { m with ptr := m.ptr + 1 }

/-- One mc of a memory port (R33, R34, R594). -/
def mpSlot (s0 : State) (n : ChanId) (ready : Bool) (tag : Byte) : State :=
  let s := remoteCheck (burstSkip n 4096 s0) n
  let c := s.chan n
  match c.dma.frame[c.dma.ptr.val]? with
  | none => s
  | some cls =>
    let cand : Option Cand :=
      if (c.mp.reqs.any fun r => r.stale) || decide (256 ≤ c.mp.reqs.length) then none
      else if cls = 0 then readCand c
      else if cls = 1 then writeCand c
      else remoteCand c
    match cand with
    | none => s.setChan n { c with dma := { c.dma.nextPtr with slotLost := satAdd c.dma.slotLost 1 } }
    | some x =>
      if !ready || !c.mp.tagFree tag then s
      else
        let d := x.eff c
        let m := d.dma.nextPtr
        let m1 : Dma :=
          if cls = 0 then { m with granRd := wrapAdd m.granRd 1 }
          else if cls = 1 then { m with granWr := wrapAdd m.granWr 1 }
          else { m with granRem := wrapAdd m.granRem 1 }
        s.setChan n { d with
          dma := m1
          mp := { d.mp with
            retired := d.mp.retired.filter fun r => r.tag != tag
            reqs := d.mp.reqs ++ [{ tag := tag, op := x.op, granule := BitVec.ofNat 42 x.granule, mask := x.mask
                                    data := x.data, purpose := x.purpose, stale := false }] } }

/-! ### Instruction cache fills (R79, R84–R88, R528, R530) -/

/-- A line enters its set, the least recently used of four leaving with a notice (R87, R528). -/
def icacheFill (s : State) (n : ChanId) (k : Fin 2) (g : BitVec 42) (data : List Byte) : State :=
  let i := ((s.chan n).core k).icache
  let set := i.lines.filter fun l => l.toNat % 256 == g.toNat % 256
  let out : Option (BitVec 42) := if 4 ≤ set.length then set.head? else none
  let s1 := s.updCh n fun c => c.updCore k fun x =>
    let ic := ((out.map fun l => x.icache.drop l).getD x.icache).put g data
    { x with icache := { ic with wait := if x.icache.wait = some g then none else x.icache.wait } }
  match out with
  | some l => s1.updCh n fun c => { c with mp := { c.mp with answers := c.mp.answers ++ [(true, false, l)] } }
  | none => s1

/-- A fill that failed: the core halts when its instruction waits on the line (R530). -/
def fillFail (s : State) (n : ChanId) (k : Fin 2) (g : BitVec 42) : State :=
  let x := (s.chan n).core k
  if x.icache.wait = some g then
    let s1 := s.updCh n fun c => c.updCore k fun y => { y with icache := { y.icache with wait := none } }
    if ccLive s (mkCore n k) then ccHalt s1 (mkCore n k) 0x05 else s1
  else s

/-- A snooped fill returns: its data is discarded and the line is wanted again if an instruction waits on it (R85). -/
def fillSnooped (s : State) (n : ChanId) (k : Fin 2) (g : BitVec 42) : State :=
  s.updCh n fun c => c.updCore k fun y =>
    if y.icache.wait = some g && !y.icache.wants.contains g then
      { y with icache := { y.icache with wants := y.icache.wants ++ [g] } }
    else y

/-! ### Responses (R79–R82, R103–R106) -/

/-- CH_MPERR_ADDR: the first error with its status, op and granule (R104). -/
def mpCapture (s : State) (n : ChanId) (r : MpReq) (status : BitVec 2) : State :=
  s.updCh n fun c =>
    { c with port := if c.port.valid then c.port
                     else { c.port with valid := true, status := status, op := r.op, addr := r.granule } }

/-- What a failed request does to its requester (R79); a fill that was snooped meanwhile fails like any other. -/
def reqFail (s : State) (n : ChanId) (r : MpReq) : State :=
  match r.purpose with
  | .code k _ => fillFail s n k r.granule
  | .fetch order _ part => fetchPart s n order part none
  | .data id _ _ => descFail s n id 5
  | .store id _ _ => descFail s n id 5
  | .dropped => s

/-- What a good response does. -/
def reqOk (s : State) (n : ChanId) (r : MpReq) (data : List Byte) : State :=
  match r.purpose with
  | .code k snooped => if snooped then fillSnooped s n k r.granule else icacheFill s n k r.granule data
  | .fetch order _ part => fetchPart s n order part (some data)
  | .data id pos len =>
    match (s.chan n).dma.descs.find? fun d => d.id == id with
    | none => s
    | some d =>
      let s1 := descGot s n id pos ((data.drop (d.srcAt pos % 64)).take len)
      descPackets n id (d.rows * (d.len / 4096 + 1)) s1
  | .store id _ len => descDone s n id len
  | .dropped => s

def takeReq (s : State) (n : ChanId) (tag : Byte) : State :=
  s.updCh n fun c => { c with mp := { c.mp with reqs := c.mp.reqs.filter fun r => r.tag != tag } }

def isDropped (r : MpReq) : Bool :=
  match r.purpose with
  | .dropped => true
  | _ => false

/-- A memory-port response (R79–R82). -/
def mpRespond (s : State) (n : ChanId) (tag : Byte) (status : BitVec 2) (data : List Byte) : State :=
  let c := s.chan n
  match c.mp.reqs.find? fun r => r.tag == tag with
  | none =>
    match c.mp.retired.find? fun r => r.tag == tag with
    | some r => if r.quiet || !c.live then s else portErr s n 4
    | none => if c.live then portErr s n 3 else s
  | some r =>
    let s1 := takeReq s n tag
    if r.stale || isDropped r then s1
    else if status = 0 then reqOk s1 n r data
    else
      let s2 := mpCapture (portErr s1 n (if status = 2 then 1 else 0)) n r (if status = 2 then 2 else 1)
      reqFail s2 n r

/-- A request with no response after 65,536 mc: R79 as for DECODE, its tag retired (R80, R82). -/
def mpExpire (s : State) (n : ChanId) (tag : Byte) : State :=
  match (s.chan n).mp.reqs.find? fun r => r.tag == tag with
  | none => s
  | some r =>
    let quiet := r.stale || isDropped r
    let s1 := (takeReq s n tag).updCh n fun c => { c with mp := { c.mp with
      retired := c.mp.retired.filter (fun x => x.tag != tag) ++ [{ tag := tag, quiet := r.stale, free := false }] } }
    if quiet then s1 else reqFail (mpCapture (portErr s1 n 2) n r 3) n r

/-- A snoop (R83–R88). Where one core's notice for the line has gone out and the other core's cache holds it or waits
for it, the answer is HIT: R84's condition stands beside R88's, and the model's choice is R84 (log 33). -/
def mpSnoop (s : State) (n : ChanId) (g : BitVec 42) : State :=
  s.updCh n fun c =>
    let held (k : Fin 2) : Bool := (c.core k).icache.lines.contains g
    let fill := c.mp.reqs.any fun r => r.granule == g && !r.stale && (match r.purpose with
      | .code _ _ => true
      | _ => false)
    let c1 := c.updCores fun x => { x with icache := x.icache.drop g }
    { c1 with mp := { c1.mp with
      reqs := c1.mp.reqs.map fun r => if r.granule = g then (match r.purpose with
        | .code k _ => { r with purpose := .code k true }
        | _ => r) else r
      answers := c1.mp.answers ++ [(false, held 0 || held 1 || fill, g)] } }

/-! ### The rows -/

/-- MP_RESPONSE (R79). -/
def execMpResponse (n : ChanId) (tag : Byte) (status : BitVec 2) (data : List Byte) (s : State) : Out :=
  if data.length = 64 ∨ data.length = 0 then .next (gateReady (mpRespond s n tag status data) n) else .fault .illFormed

/-- MP_TIMEOUT (R80). -/
def execMpTimeout (n : ChanId) (tag : Byte) (s : State) : Out := .next (gateReady (mpExpire s n tag) n)

/-- SNOOP (R84). -/
def execSnoop (n : ChanId) (granule : BitVec 42) (s : State) : Out :=
  .next (if (s.chan n).live then mpSnoop s n granule else s)

/-- MEMORY_PORT_SLOT: one mc (R594). -/
def execMemoryPortSlot (n : ChanId) (ready : Bool) (tag : Byte) (s : State) : Out :=
  .next (if (s.chan n).live && s.clk.mpllLock then mpSlot s n ready tag else s)

end Sys2Proof.Machine
end

