-- ==== Sys2Proof/Machine/Time.lean ====
section
/-! DEFINITION. The time unit (chapter 18): the two domains, steps, tick time and its phase, pulses, the calendar. -/

namespace Sys2Proof.Machine

/-! ### Domains (R598–R601) -/

/-- A domain at a time in units of 2⁻³² ns; seconds wrap modulo 2⁴⁸. -/
def Td.at (t : Td) (u : Int) : Td :=
  let v := (u % ((2 : Int) ^ 48 * 1000000000 * 2 ^ 32)).toNat
  { t with
    sec := BitVec.ofNat 48 (v / (1000000000 * 2 ^ 32)), ns := BitVec.ofNat 32 (v / 2 ^ 32 % 1000000000)
    frac := BitVec.ofNat 32 v }

/-- The increment of a tc in units of 2⁻³² ns. -/
def Td.inc (t : Td) : Nat := t.incInt.toNat * 2 ^ 32 + t.incFrac.toNat

/-- One tc of a domain: a new increment takes effect, then the increment is added and a step falls (R598, R599, R601).
-/
def Td.tc (t : Td) : Td :=
  let t1 : Td := match t.incNext with
    | some (i, f) => { t with incInt := i, incFrac := f, incNext := none }
    | none => t
  let u := tdUnits t1 + t1.inc
  match t1.stepNext with
  | none => t1.at u
  | some (.load sec ns) => { t1 with sec := sec, ns := ns, frac := 0, stepNext := none }
  | some (.add a) => { t1 with stepNext := none }.at (u + a * 2 ^ 32)

/-- φ moves towards 0 by 10⁻⁵ of the increment and stops there (R608). -/
def slew (phi : Int) (inc : Nat) : Int :=
  if 0 ≤ phi then max 0 (phi - inc) else min 0 (phi + inc)

def anyTicking (s : State) : Bool := allChans.any fun n => (s.chan n).ticking

/-- One unit of φ is 10⁻⁵ · 2⁻³² ns. -/
def phiNs : Int := 100000 * 2 ^ 32

def withinSwitch (s : State) (d : Int) : Bool := decide (-(s.tdMax * phiNs) ≤ d ∧ d ≤ s.tdMax * phiNs)

/-- τ rounded up to whole nanoseconds. -/
def tauCeil (s : State) : Nat := ((tauUnits s + phiNs - 1) / phiNs).toNat

/-- The first multiple of a length at or after an instant. -/
def multAt (len t : Nat) : Nat := ceilDiv t len * len

/-- After a forced switch or step, every ticking channel's next tick is the first tick instant of the new τ at least
half its slot length away (R607). -/
def forceTicks (s : State) : State :=
  allChans.foldl (fun t n =>
    let c := t.chan n
    if c.ticking then
      let len := slotNs c.ctl.mu.toNat
      t.setChan n { c with ctl := { c.ctl with forcedTick := some (multAt len (tauCeil s + len / 2)) } }
    else t) s

/-! ### Steps and switches (R601, R604–R607) -/

/-- A requested step; the second component says that it was refused (R606). -/
def tdStep (s : State) (d : Fin 2) (x : TdStep) (force : Bool) : State × Bool :=
  let t := s.td.get d
  if d = s.tdc.ticksel ∧ anyTicking s = true then
    let t1 : Td := match x with
      | .load sec ns => { t with sec := sec, ns := ns, frac := 0 }
      | .add a => t.at (tdUnits t + a * 2 ^ 32)
    let by_ := match x with
      | .load _ _ => tdUnits t1 - tdUnits t
      | .add a => a * 2 ^ 32
    let phi := s.tdc.phi + by_ * 100000
    if withinSwitch s phi then
      ({ s with td := s.td.set d t1, tdc := { s.tdc with phi := phi } }, false)
    else if force then
      (forceTicks { s with td := s.td.set d t1, tdc := { s.tdc with phi := 0 } }, false)
    else ({ s with tdc := { s.tdc with refused := true } }, true)
  else ({ s with td := s.td.set d { t with stepNext := some x } }, false)

/-- Δ = t_N − τ. -/
def tdDelta (s : State) (n : Fin 2) : Int := tdUnits (s.td.get n) * 100000 - tauUnits s

/-- A switch to a domain, when it fits or no channel ticks (R604). -/
def tdSwitchNow (s : State) (n : Fin 2) : Option State :=
  if !anyTicking s then some { s with tdc := { s.tdc with ticksel := n, phi := 0, held := false, forced := false } }
  else if withinSwitch s (tdDelta s n) then
    some { s with tdc := { s.tdc with ticksel := n, phi := tdDelta s n, held := false, forced := false } }
  else none

/-- The domain a survey taking effect names (R604, R605). -/
def tdSelect (s : State) (n : Fin 2) : State :=
  if n = s.tdc.ticksel then { s with tdc := { s.tdc with held := false, forced := false } }
  else
    match tdSwitchNow s n with
    | some t => t
    | none => { s with tdc := { s.tdc with held := true, heldTo := n, forced := false } }

/-! ### Calendar (R622, R623) -/

def leap (y : Nat) : Bool := (y % 4 == 0 && y % 100 != 0) || y % 400 == 0

def monthDays (y m : Nat) : Nat :=
  if m = 2 then (if leap y then 29 else 28) else if m = 4 ∨ m = 6 ∨ m = 9 ∨ m = 11 then 30 else 31

/-- days() of R623. -/
def calDays (y m d : Nat) : Nat :=
  let y := if m ≤ 2 then y - 1 else y
  let era := y / 400
  let yoe := y % 400
  let doy := (153 * (if 2 < m then m - 3 else m + 9) + 2) / 5 + d - 1
  era * 146097 + (yoe * 365 + yoe / 4 - yoe / 100 + doy) - 719468

/-- The month and day of a day of a year counted from 0. -/
def calMonth (y : Nat) : Nat → Nat → Nat → Nat × Nat
  | 0, m, d => (m, d + 1)
  | f + 1, m, d => if d < monthDays y m then (m, d + 1) else calMonth y f (m + 1) (d - monthDays y m)

/-- The date of a count of days from 1970-01-01: the year with the latest 1 January not after it. -/
def calDate (n : Nat) : Nat × Nat × Nat :=
  let g := 1970 + n / 366
  let y := ((List.range (n / 60000 + 3)).foldl (fun (b : Nat) i => if calDays (g + i) 1 1 ≤ n then g + i else b) g)
  let md := calMonth y 11 1 (n - calDays y 1 1)
  (y, md.1, md.2)

def calMax : Int := 253402300799

/-- UTC of R622, if its year lies in 1970–9999. -/
def calUtc (s : State) : Option Nat :=
  let u : Int := ((s.td.get 0).sec.toNat : Int) + s.cal.offset.toInt
  if 0 ≤ u ∧ u ≤ calMax then some u.toNat else none

/-- CAL_DATE and CAL_TIME now. -/
def calWords (s : State) : Word × Word :=
  match calUtc s with
  | none => (0, 0)
  | some u =>
    let d := calDate (u / 86400)
    let t := u % 86400
    (BitVec.ofNat 32 (d.1 * 65536 + d.2.1 * 256 + d.2.2), BitVec.ofNat 32 (t / 3600 * 65536 + t / 60 % 60 * 256 + t % 60))

/-- The seconds a CAL_SET asks for, when the date and time are valid. -/
def calAsked (date time : Word) : Option Nat :=
  let y := fld date 16 16
  let m := fld date 8 8
  let d := fld date 0 8
  let h := fld time 16 8
  let mi := fld time 8 8
  let sec := fld time 0 8
  if 1970 ≤ y ∧ y ≤ 9999 ∧ 1 ≤ m ∧ m ≤ 12 ∧ 1 ≤ d ∧ d ≤ monthDays y m ∧ h ≤ 23 ∧ mi ≤ 59 ∧ sec ≤ 59 then
    some (calDays y m d * 86400 + h * 3600 + mi * 60 + sec)
  else none

def calReject (s : State) (reason : BitVec 3) : State := { s with cal := { s.cal with reject := true, reason := reason } }

/-! ### The rows -/

/-- The time unit counts from the time PLL's lock in step 5 (R185), on the time clock. -/
def tdRuns (s : State) : Bool := s.tdc.running && s.clk.tpllLock

/-- TC_INCREMENT: one tc (R598, R602, R608). -/
def execTcIncrement (s : State) : Out :=
  .next (
    if !tdRuns s then s
    else
      let td : Duo Td := ⟨s.td.c0.tc, s.td.c1.tc⟩
      let f := td.get s.tdc.ticksel
      obsCycle (fun k => k == 3) { s with
        td := td
        tdc := { s.tdc with
          phi := slew s.tdc.phi f.inc, lastSec := f.sec
          ppsOut := s.tdc.ppsw != 0 && (s.tdc.ppsOut || f.sec != s.tdc.lastSec) } })

/-- PPS_CAPTURE: a rising edge of PPSk_IN (R602). -/
def execPpsCapture (k : Fin 2) (s : State) : Out :=
  .next (
    if !tdRuns s then s
    else
      let cap (t : Td) : Td :=
        if k = 0 then { t with cap0Ns := t.ns, cap0Sec := t.sec.setWidth 32 }
        else { t with cap1Ns := t.ns, cap1Sec := t.sec.setWidth 32 }
      { s with
        td := ⟨cap s.td.c0, cap s.td.c1⟩
        tdc := if k = 0 then { s.tdc with cap0 := true } else { s.tdc with cap1 := true } })

/-- PPS_OUT_WIDTH_END (R602). -/
def execPpsOutWidthEnd (s : State) : Out := .next { s with tdc := { s.tdc with ppsOut := false } }

def tdBase (d : Fin 2) : Nat := 0x4000 + 0x40 * d.val

/-- TD_SET: TDd_CTRL.SET (R601, R606). -/
def execTdSet (d : Fin 2) (force : Bool) (s : State) : Out :=
  .next (hostWr s (.tdSet d force) (tdBase d + 0x38) fun t =>
    let x := t.td.get d
    if !t.tdc.running || decide (1000000000 ≤ x.setNs.toNat) then t else (tdStep t d (.load x.setSec x.setNs) force).1)

/-- TD_ADJ: TDd_CTRL.ADJ (R601, R606). -/
def execTdAdj (d : Fin 2) (force : Bool) (s : State) : Out :=
  .next (hostWr s (.tdAdj d force) (tdBase d + 0x38) fun t =>
    if !t.tdc.running then t else (tdStep t d (.add (t.td.get d).adj.toInt) force).1)

/-- TD_INC_FRAC_WRITE (R599). -/
def execTdIncFracWrite (d : Fin 2) (v : Word) (s : State) : Out :=
  .next (hostWr s (.tdIncFracWrite d v) (tdBase d + 0x10) fun t => { t with td := t.td.set d { t.td.get d with heldFrac := some v } })

/-- TD_INC_INT_WRITE: with INT 0 ignored, the held fraction dropped (R599). -/
def execTdIncIntWrite (d : Fin 2) (v : Word) (s : State) : Out :=
  .next (hostWr s (.tdIncIntWrite d v) (tdBase d + 0x14) fun t =>
    let x := t.td.get d
    let i : BitVec 2 := v.setWidth 2
    let y : Td :=
      if i = 0 then { x with heldFrac := none }
      else { x with heldFrac := none, incNext := some (i, x.heldFrac.getD x.incFrac) }
    { t with td := t.td.set d y })

/-- TD_NS_READ: latches seconds and fraction (R600). -/
def execTdNsRead (d : Fin 2) (s : State) : Out :=
  .next (hostRd s (.tdNsRead d) (tdBase d) fun t =>
    let x := t.td.get d
    ({ t with td := t.td.set d { x with latSec := x.sec, latFrac := x.frac } }, x.ns))

/-- FORCE: TD_CTRL.FORCE during a hold (R605). -/
def execForce (s : State) : Out :=
  .next (hostWr s .force 0x4084 fun t => if t.tdc.held then { t with tdc := { t.tdc with forced := true } } else t)

/-- SWITCH_RECHECK: a 10 ms multiple of τ during a hold (R605, R607). -/
def execSwitchRecheck (s : State) : Out :=
  .next (
    if !s.tdc.held || !tdRuns s then s
    else
      match tdSwitchNow s s.tdc.heldTo with
      | some t => t
      | none =>
        if s.tdc.forced then
          forceTicks { s with tdc := { s.tdc with ticksel := s.tdc.heldTo, phi := 0, held := false, forced := false } }
        else s)

/-- CAL_SET: CAL_CTRL.SET (R623). -/
def execCalSet (force : Bool) (s : State) : Out :=
  .next (hostWr s (.calSet force) 0x40D8 fun t =>
    if !t.tdc.running then t
    else
      match calAsked t.cal.setDate t.cal.setTime with
      | none => calReject t 1
      | some u =>
        let v : Int := u - t.cal.offset.toInt
        if t.td.c0.disc then calReject t 2
        else if v < 0 ∨ (2 : Int) ^ 48 ≤ v then calReject t 3
        else
          let r := tdStep t 0 (.load (BitVec.ofNat 48 v.toNat) 0) force
          if r.2 then calReject r.1 4 else r.1)

/-- CAL_DATE_READ: latches CAL_TIME and CAL_NS (R622). -/
def execCalDateRead (s : State) : Out :=
  .next (hostRd s .calDateRead 0x40C4 fun t =>
    let w := calWords t
    ({ t with cal := { t.cal with date := w.1, time := w.2, ns := t.td.c0.ns } }, w.1))

end Sys2Proof.Machine
end

