-- ==== Sys2Proof/Machine/Image.lean ====
section
/-! DEFINITION. The survey image (chapter 05): CRC and fingerprint, its sections, the checks of R221, and its taking
effect (R223). -/

namespace Sys2Proof.Machine

/-! ### CRC-32 and FNV-1a (R194, R195) -/

def crcBit : Nat → Word → Word
  | 0, c => c
  | k + 1, c => crcBit k (if c.getLsbD 0 then (c >>> 1) ^^^ 0xEDB88320 else c >>> 1)

def crcByte (c : Word) (b : Byte) : Word := crcBit 8 (c ^^^ b.setWidth 32)

def crc32 (bs : List Byte) : Word := ~~~(bs.foldl crcByte 0xFFFFFFFF)

def fnvByte (h : BitVec 64) (b : Byte) : BitVec 64 := (h ^^^ b.setWidth 64) * 0x100000001B3

def fnv (bs : List Byte) : BitVec 64 := bs.foldl fnvByte 0xCBF29CE484222325

/-! ### Sections (R190–R192) -/

/-- The n-byte little-endian field at an offset. -/
def le (b : List Byte) (off n : Nat) : Nat := leNat ((b.drop off).take n)

def b8 (b : List Byte) (off : Nat) : Nat := (b.getD off 0).toNat

def zeros (b : List Byte) (off n : Nat) : Bool := ((b.drop off).take n).all (· == 0)

/-- The consecutive pieces of n bytes; at most `k` of them. -/
def pieces (n : Nat) : Nat → List Byte → List (List Byte)
  | 0, _ => []
  | k + 1, b => if b.isEmpty then [] else b.take n :: pieces n k (b.drop n)

def chunks (n : Nat) (b : List Byte) : List (List Byte) := pieces n (ceilDiv b.length n) b

/-- A section: its offset, its header's first 8 bytes, SCRC and body. -/
structure Sec where
  off  : Nat
  head : List Byte
  scrc : Word
  body : List Byte
  deriving DecidableEq, Repr

def Sec.type (x : Sec) : Nat := le x.head 0 2
def Sec.scope (x : Sec) : Nat := le x.head 2 2
def Sec.blen (x : Sec) : Nat := le x.head 4 4
def Sec.key (x : Sec) : Nat := x.type * 65536 + x.scope
def Sec.level (x : Sec) : Nat := x.scope / 4096
def Sec.sub (x : Sec) : Nat := x.scope / 256 % 16
def Sec.index (x : Sec) : Nat := x.scope % 256

def imgLength (img : List Byte) : Nat := le img 8 4

/-- The sections from an offset on, and where a section runs past the image, with its TYPE; `k` bounds their count. -/
def secWalk : Nat → Nat → List Byte → List Sec × Option (Nat × Nat)
  | 0, _, _ => ([], none)
  | k + 1, off, b =>
    if b.isEmpty then ([], none)
    else if b.length < 12 ∨ b.length < 12 + le b 4 4 then ([], some (off, if 2 ≤ b.length then le b 0 2 else 0))
    else
      let n := le b 4 4
      let r := secWalk k (off + 12 + n) (b.drop (12 + n))
      ({ off := off, head := b.take 8, scrc := BitVec.ofNat 32 (le b 8 4), body := (b.drop 12).take n } :: r.1, r.2)

def imgSecs (img : List Byte) : List Sec × Option (Nat × Nat) := secWalk (img.length / 12 + 1) 64 (img.drop 64)

/-- FPRINT as computed (R195). -/
def imgFnv (secs : List Sec) : BitVec 64 := fnv (secs.flatMap fun x => x.head ++ x.body)

/-- IMAGE_CRC as computed (R194). -/
def imgCrc (img : List Byte) : Word := crc32 (img.take 0x3C ++ img.drop 0x40)

def tEngine : Nat := 0x01
def tChannel : Nat := 0x10
def tMemwin : Nat := 0x11
def tCairns : Nat := 0x12
def tConst : Nat := 0x13
def tUfunc : Nat := 0x14
def tCore : Nat := 0x20
def tPeerwin : Nat := 0x21
def tArray : Nat := 0x30
def tChains : Nat := 0x31

def secFind (secs : List Sec) (type index : Nat) : Option Sec := secs.find? fun x => x.type == type && x.index == index

/-! ### The settings of an image (R198–R219) -/

/-- The parsed image. -/
structure Img where
  used  : BitVec 16          -- ARRAYS_USED
  secs  : List Sec
  deriving DecidableEq, Repr

def imgOf (img : List Byte) : Img := { used := BitVec.ofNat 16 (le img 0x0E 2), secs := (imgSecs img).1 }

def Img.body (m : Img) (type index : Nat) : List Byte :=
  match secFind m.secs type index with
  | some x => x.body
  | none => []

def Img.has (m : Img) (type index : Nat) : Bool := (secFind m.secs type index).isSome

def Img.active (m : Img) (n : Nat) : Bool := b8 (m.body tChannel n) 0 == 1

def Img.coreUsed (m : Img) (c : Nat) : Bool := m.active (c / 2) && decide (b8 (m.body tChannel (c / 2)) 1 / 2 ^ (c % 2) % 2 = 1)

def Img.arrUsed (m : Img) (a : Nat) : Bool := bitOf m.used a

/-- The queues of a channel whose stations are present, as OWNERS bits (R209, R210). -/
def Img.owners (m : Img) (n : Nat) : Nat :=
  ((List.range 17).filter fun q =>
    if 14 ≤ q then true
    else
      let c := 2 * n + q / 7
      m.coreUsed c && (q % 7 == 6 || m.arrUsed (2 * c + q % 7 % 2))).foldl (fun s q => s + 2 ^ q) 0

/-- The edges of a core whose stations are present (R212). -/
def Img.edges (m : Img) (c : Nat) : Nat :=
  let a := m.arrUsed (2 * c)
  let b := m.arrUsed (2 * c + 1)
  0xC00 + (if a then 0x153 else 0) + (if b then 0x2AC else 0) + (if a && b then 0x3000 else 0)

/-- Whether a wheel client of a core is present (R199, R213). -/
def Img.client (m : Img) (c code : Nat) : Bool :=
  if code = 0 ∨ code = 2 then m.arrUsed (2 * c) else if code = 1 ∨ code = 3 then m.arrUsed (2 * c + 1) else decide (code < 8)

/-- The client code of a slot as the WHEEL field gives it, or the default (R213). -/
def Img.slot (m : Img) (c bank s : Nat) : Nat :=
  if m.has tCore c then b8 (m.body tCore c) (0x10 + 8 * bank + s / 2) / 16 ^ (s % 2) % 16
  else if m.client c (s % 8) then s % 8 else 15

def Img.cairns (m : Img) (n : Nat) : List (Nat × Nat × Nat) :=
  (chunks 8 (m.body tCairns n)).map fun e => (le e 0 4 % 2048, le e 0 4 / 65536 % 64, le e 4 4 % 131072)

def Img.stateElems (m : Img) (a : Nat) : Nat := if m.has tArray a then le (m.body tArray a) 4 2 else 16384

def memWin (e : List Byte) : MemWin := { base := le e 0 8, pages := le e 8 4, kind := b8 e 12 }

def peerWin (e : List Byte) : PeerWin :=
  { id := b8 e 0, kind := b8 e 1, cairn := le e 2 2, offset := le e 4 4, length := le e 8 4 }

def partOf (e : List Byte) : Part :=
  { first := b8 e 0, bands := b8 e 1, shapes := BitVec.ofNat 6 (b8 e 2), deflt := b8 e 3 }

def Img.parts (m : Img) (a : Nat) : List Part :=
  if m.has tArray a then ((chunks 4 ((m.body tArray a).drop 8)).take (b8 (m.body tArray a) 2)).map partOf
  else [{ first := 0, bands := 8, shapes := 0x3F, deflt := 5 }]

/-- The settings of an array; an array not used has none (R199, R215, R217). -/
def Img.arrCfg (m : Img) (a : Nat) : ArrCfg :=
  if m.arrUsed a then
    let b := m.body tArray a
    let x := m.body tChains a
    { used := true
      arrange := m.has tArray a && b8 b 0 == 1
      feedDepth := if m.has tArray a then b8 b 1 else 16
      parts := m.parts a, stateElems := m.stateElems a
      chainBase := le x 0 2, chains := chunks 32 (x.drop 4) }
  else .none

def Img.coreCfg (m : Img) (c : Nat) : CoreCfg :=
  if m.coreUsed c then
    let b := m.body tCore c
    let dflt (i : Nat) : Nat := if i = 6 ∨ m.arrUsed (2 * c + i % 2) then 16 else 0
    { used := true
      qdepth := (List.range 7).map fun i => if m.has tCore c then b8 b i else dflt i
      connect := BitVec.ofNat 14 (if m.has tCore c then le b 8 4 else m.edges c)
      wheel := (List.range 16).map fun bank => (List.range 16).map fun s =>
        let v := m.slot c bank s
        if m.client c v then BitVec.ofNat 4 v else clIdle
      wins := (chunks 16 (m.body tPeerwin c)).map peerWin }
  else .none

def constOf (b : List Byte) : ConstTab :=
  { qfrac := b8 b 2, points := (chunks 4 (b.drop 4)).map fun e => BitVec.ofNat 32 (leNat e) }

def ufuncOf (b : List Byte) : UFunc :=
  { nsteps := b8 b 0
    steps := (chunks 8 ((b.drop 8).take 128)).map fun e => BitVec.ofNat 64 (leNat e)
    table := (chunks 4 (b.drop 136)).map fun e => BitVec.ofNat 20 (leNat e) }

/-- The tables of a section type of a channel, by SUB. -/
def Img.tables {α : Type} (m : Img) (type n : Nat) (f : List Byte → α) : SMap α :=
  (m.secs.filter fun x => x.type == type && x.index == n).map fun x => (x.sub, f x.body)

def Img.chCfg (m : Img) (n : Nat) : ChCfg :=
  let b := m.body tChannel n
  if m.active n then
    { active := true, cores := BitVec.ofNat 2 (b8 b 1), mu := b8 b 2, freq := b8 b 3, guard := le b 4 2
      rd := b8 b 6, wr := b8 b 7, rem := b8 b 8, late := b8 b 9 == 1, prov := b8 b 10 == 1, selftest := b8 b 11 == 1
      norm := b8 b 12 == 1, radioEn := b8 b 13 == 1, peerEn := b8 b 14 == 1, cmdTimeout := le b 16 4
      wins := (chunks 16 (m.body tMemwin n)).map memWin
      consts := m.tables tConst n constOf, ufuncs := m.tables tUfunc n ufuncOf }
  else .none

/-! ### The checks (R220, R221) -/

/-- What a validation finds: REASON, TYPE and OFFSET of SRV_CHECK and SRV_CHECK_POS; all 0 when the image passes. -/
abbrev Verdict := Nat × Nat × Nat

/-- What the checks read outside the image (R221). -/
structure ImgEnv where
  stepping : Nat
  arrays   : BitVec 16
  logBase  : Nat
  logSize  : Nat
  xsel     : Nat
  deriving DecidableEq, Repr

def orElse (a : Option Verdict) (b : Unit → Option Verdict) : Option Verdict :=
  match a with
  | some v => some v
  | none => b ()

def failIf (c : Bool) (v : Verdict) : Option Verdict := if c then some v else none

/-- The first section that fails a check. -/
def secFail (secs : List Sec) (reason : Nat) (ok : Sec → Bool) : Option Verdict :=
  (secs.find? fun x => !ok x).map fun x => (reason, x.type, x.off)

/-- The first section whose key does not exceed the key before it (R193). -/
def orderFail : Option Nat → List Sec → Option Verdict
  | _, [] => none
  | prev, x :: t =>
    if prev.all fun p => decide (p < x.key) then orderFail (some x.key) t else some (6, x.type, x.off)

/-- The scope level and the highest index of a defined TYPE (R197). -/
def typeScope (type : Nat) : Option (Nat × Nat) :=
  if type = tEngine then some (0, 0)
  else if 0x10 ≤ type ∧ type ≤ 0x14 then some (1, 3)
  else if type = tCore ∨ type = tPeerwin then some (2, 7)
  else if type = tArray ∨ type = tChains then some (3, 15)
  else none

def secScopeOk (x : Sec) : Bool :=
  match typeScope x.type with
  | none => decide (0x8000 ≤ x.type)
  | some (lv, top) => x.level == lv && decide (x.index ≤ top) && (x.type == tConst || x.type == tUfunc || x.sub == 0)

def secLenOk (x : Sec) : Bool :=
  let n := x.blen
  let t := x.type
  n % 4 == 0 &&
  (if t = tEngine ∨ t = tChannel then n == 64
   else if t = tMemwin then n % 16 == 0 && decide (16 ≤ n ∧ n ≤ 144)
   else if t = tCairns then n % 8 == 0 && decide (8 ≤ n ∧ n ≤ 16384)
   else if t = tConst then decide (4 ≤ n) && n == 4 + 4 * le x.body 0 2
   else if t = tUfunc then n == 1160
   else if t = tCore then n == 144
   else if t = tPeerwin then n % 16 == 0 && decide (16 ≤ n ∧ n ≤ 256)
   else if t = tArray then n == 40
   else if t = tChains then decide (4 ≤ n) && n == 4 + 32 * le x.body 2 2
   else true)

/-- The first required section that is missing: where it would stand (R222). -/
def missing (m : Img) (len : Nat) : Option Verdict :=
  let req := [(tEngine, 0, 0)] ++ (List.range 4).map (fun n => (tChannel, 1, n)) ++
    ((List.range 4).filter m.active).map (fun n => (tMemwin, 1, n))
  (req.find? fun r => !m.has r.1 r.2.2).map fun r =>
    let key := r.1 * 65536 + r.2.1 * 4096 + r.2.2
    (0x0B, 0, match m.secs.find? fun x => decide (key < x.key) with
      | some x => x.off
      | none => len)

/-- A section that R197 forbids. -/
def forbidden (m : Img) (x : Sec) : Bool :=
  (x.type == tMemwin && !m.active x.index) || ((x.type == tCore || x.type == tPeerwin) && !m.coreUsed x.index)

def isPow2 (n : Nat) : Bool := (List.range 32).any fun k => n == 2 ^ k

def within (v lo hi : Nat) : Bool := decide (lo ≤ v ∧ v ≤ hi)

/-- A user-function step word is one R441 and R443 define. -/
def stepWordOk (w : Nat) : Bool :=
  let kind := w % 16
  let op (k : Nat) : Nat := w / 2 ^ (4 + 3 * k) % 8
  let neg := w / 8192 % 8
  let dst := w / 65536 % 4
  let k1 := w / 2 ^ 18 % 2 ^ 20
  let k2 := w / 2 ^ 38 % 2 ^ 20
  let mode := w / 2 ^ 58
  let nops := if kind = 1 ∨ kind = 2 ∨ kind = 4 then 1 else if kind = 5 then 3 else 0
  let opsOk := ((List.range 3).all fun k => decide (k < nops) || op k == 0) && decide (neg < 2 ^ nops)
  let uses (c : Nat) : Bool := (List.range nops).any fun k => op k == c
  let kOk := (uses 6 || k1 == 0) && (uses 7 || k2 == 0)
  if kind = 1 then opsOk && decide (mode ≤ 2) && (decide (mode < 2) || kOk)
  else if kind = 2 then
    let base := k1 % 256
    let imax := k1 / 256 % 256
    let wd := k1 / 65536 % 4
    opsOk && mode == 0 && dst == 0 && decide (k1 < 2 ^ 18) && decide (k2 < 2 ^ 13) && decide (0 < wd) &&
      decide (base + wd * imax + wd - 1 ≤ 255)
  else if kind = 3 then opsOk && mode == 0 && kOk
  else if kind = 4 then opsOk && decide (mode ≤ 1) && kOk
  else if kind = 5 then opsOk && mode == 0 && kOk
  else false

/-- Operands used and the ARG codes of a stage OP (R424, R453). -/
def stageUse (op arg : Nat) : Option (Nat × Bool) :=
  if op = 1 ∨ op = 2 then some (2, true)
  else if op = 3 ∨ op = 5 then some (3, true)
  else if op = 4 then some (1, decide (arg ≤ 8 ∨ 16 ≤ arg))
  else if op = 6 then some (3, decide (arg ≤ 7))
  else if op = 7 then some (1, decide (arg ≤ 1))
  else if op = 8 then some (if arg % 8 = 0 then 1 else 0, decide (arg ≤ 4))
  else if op = 9 then some (1, true)
  else if op = 10 then some (1, decide (arg ≤ 4))
  else none

/-- The encodings of a chain descriptor lie within R421–R424 (R425). -/
def descEncOk (d : List Byte) : Bool :=
  let h := le d 0 4
  let n := h % 8
  h / 2 ^ 15 % 2 == 0 && h / 2 ^ 31 == 0 && decide (h / 8 % 8 ≤ 4) &&
  (List.range 8).all fun k =>
    let w := le d (4 + 3 * k) 3
    if n < k then w == 0
    else match stageUse (w % 16) (w / 2 ^ 19) with
      | none => false
      | some (nops, argOk) =>
        argOk && (List.range 3).all fun i =>
          let src := w / 2 ^ (4 + 4 * i) % 16
          if i < nops then decide (src ≤ 12) && !(k == 0 && src == 0)
          else src == 0 && w / 2 ^ (16 + i) % 2 == 0

/-- Check 0x0D of one section: every field within its range, reserved fields 0. -/
def rangeOk (m : Img) (x : Sec) : Bool :=
  let b := x.body
  let t := x.type
  if t = tEngine then
    within (b8 b 0) 0 1 && (decide (b8 b 1 ≤ 2) || b8 b 1 == 255) && within (le b 2 2) 1 10000 &&
    within (b8 b 4) 0 150 && within (b8 b 5) 0 150 && within (b8 b 6) 0 150 && within (b8 b 7) 0 7 &&
    le b 8 8 % 4096 == 0 && decide (le b 8 8 < 2 ^ 48) &&
    (le b 16 4 == 0 || (isPow2 (le b 16 4) && within (le b 16 4) 262144 16777216)) && zeros b 0x14 44
  else if t = tChannel then
    within (b8 b 0) 0 1 && (within (b8 b 1) 1 3 || (b8 b 0 == 0 && b8 b 1 == 0)) && within (b8 b 2) 0 4 &&
    within (b8 b 3) 8 72 && within (le b 4 2) 64 65535 && within (b8 b 6) 1 30 && within (b8 b 7) 1 30 &&
    within (b8 b 8) 0 30 && ((List.range 6).all fun i => decide (b8 b (9 + i) ≤ 1)) && b8 b 15 == 0 &&
    (le b 16 4 == 0 || decide (1024 ≤ le b 16 4)) && zeros b 0x14 44
  else if t = tMemwin then
    (chunks 16 b).all fun e =>
      le e 0 8 % 4096 == 0 && decide (le e 0 8 < 2 ^ 48) && decide (1 ≤ le e 8 4) &&
      decide (le e 0 8 + le e 8 4 * 4096 ≤ 2 ^ 48) && decide (b8 e 12 ≤ 2) && zeros e 13 3
  else if t = tCairns then
    (chunks 8 b).all fun e => le e 0 4 / 2 ^ 22 == 0 && le e 0 4 / 2 ^ 11 % 32 == 0 && le e 4 4 / 2 ^ 17 == 0
  else if t = tConst then
    isPow2 (le b 0 2) && within (le b 0 2) 4 1024 && decide (b8 b 2 ≤ 15) && b8 b 3 == 0
  else if t = tUfunc then
    within (b8 b 0) 1 16 && zeros b 1 7 &&
    ((chunks 8 ((b.drop 8).take 128)).zipIdx.all fun p =>
      if p.2 < b8 b 0 then stepWordOk (leNat p.1) else leNat p.1 == 0) &&
    (chunks 4 (b.drop 136)).all fun e => decide (leNat e < 2 ^ 20)
  else if t = tCore then
    let c := x.index
    ((List.range 7).all fun i =>
      if i = 6 ∨ m.arrUsed (2 * c + i % 2) then within (b8 b i) 1 32 else b8 b i == 0) && b8 b 7 == 0 && zeros b 12 4
  else if t = tPeerwin then
    (chunks 16 b).all fun e =>
      let unit := if b8 e 1 = 0 then 128 else 32
      decide (b8 e 0 ≤ 15) && decide (b8 e 1 ≤ 2) && decide (le e 2 2 ≤ 2047) && zeros e 12 4 &&
      le e 4 4 % unit == 0 && le e 8 4 % unit == 0 && decide (unit ≤ le e 8 4)
  else if t = tArray then
    within (b8 b 0) 0 1 && within (b8 b 1) 4 16 && within (b8 b 2) 1 8 && b8 b 3 == 0 && decide (le b 4 2 ≤ 32768) &&
    le b 4 2 % 1024 == 0 && zeros b 6 2 &&
    ((chunks 4 (b.drop 8)).zipIdx.all fun p =>
      if p.2 < b8 b 2 then
        decide (b8 p.1 0 ≤ 7) && within (b8 p.1 1) 1 8 && decide (b8 p.1 2 ≤ 0x3F) && decide (b8 p.1 3 ≤ 5)
      else leNat p.1 == 0)
  else if t = tChains then (chunks 32 (b.drop 4)).all descEncOk
  else true

def spansMeet (a b : Nat × Nat) : Bool := decide (a.1 < b.2 ∧ b.1 < a.2)

/-- Strictly rising numbers. -/
def rising : List Nat → Bool
  | a :: b :: t => decide (a < b) && rising (b :: t)
  | _ => true

/-- Partitions ascend without overlap within bands 0–7 (R216). -/
def partsOk : Nat → List Part → Bool
  | _, [] => true
  | lo, p :: t =>
    decide (lo ≤ p.first) && decide (p.first + p.bands ≤ 8) &&
    ((List.range 6).all fun k => !bitOf p.shapes k || (4 * p.bands) % 2 ^ k == 0) && bitOf p.shapes p.deflt &&
    partsOk (p.first + p.bands) t

/-- SOURCES of a cairn under an image (R210). -/
def Img.sources (m : Img) (n i : Nat) : Nat :=
  match (m.cairns n).find? fun e => e.1 == i with
  | some e => e.2.1
  | none => 1

/-- Check 0x0E of one section. -/
def consistOk (m : Img) (x : Sec) : Bool :=
  let b := x.body
  let t := x.type
  if t = tEngine then decide (b8 b 4 < b8 b 6) && decide (b8 b 5 ≤ b8 b 4)
  else if t = tChannel then
    b8 b 6 + b8 b 7 + b8 b 8 == 32 && (b8 b 14 == 1 || b8 b 8 == 0) && decide (le b 4 2 * 8 * 2 ^ b8 b 2 ≤ 25000 * b8 b 3)
  else if t = tMemwin then
    let ws := (chunks 16 b).map memWin
    let span (w : MemWin) : Nat × Nat := (w.base, w.base + w.pages * 4096)
    let e := m.body tEngine 0
    let log := (le e 8 8, le e 8 8 + le e 16 4)
    match ws with
    | [] => false
    | w0 :: rest =>
      w0.kind == 0 && (rest.all fun w => w.kind != 0 && !(w.kind == 2 && spansMeet (span w) (span w0))) &&
      ws.all fun w => le e 16 4 == 0 || !spansMeet (span w) log
  else if t = tCairns then
    let cs := m.cairns x.index
    rising (cs.map (·.1)) && cs.all fun e => (BitVec.ofNat 17 e.2.2 &&& ~~~(BitVec.ofNat 17 (m.owners x.index))) == 0
  else if t = tCore then
    (BitVec.ofNat 32 (le b 8 4) &&& ~~~(BitVec.ofNat 32 (m.edges x.index))) == 0 &&
    (List.range 256).all fun i => decide (m.slot x.index (i / 16) (i % 16) < 8) || m.slot x.index (i / 16) (i % 16) == 15
  else if t = tPeerwin then
    let ws := (chunks 16 b).map peerWin
    rising (ws.map (·.id)) && ws.all fun w =>
      m.sources (x.index / 2) w.cairn / 4 % 2 == 1 &&
      (if w.kind = 0 then decide (w.offset + w.length ≤ poolBytes)
       else
         let a := 2 * x.index + w.kind - 1
         m.arrUsed a && decide (w.offset + w.length ≤ 65536 - m.stateElems a))
  else if t = tArray then partsOk 0 (m.parts x.index)
  else if t = tChains then decide (1 ≤ le b 2 2) && decide (le b 0 2 + le b 2 2 ≤ 64)
  else true

/-- R198: every used core has a used array, every used array a used core. -/
def usedOk (m : Img) : Bool :=
  ((List.range 8).all fun c => !m.coreUsed c || m.arrUsed (2 * c) || m.arrUsed (2 * c + 1)) &&
  (List.range 16).all fun a => !m.arrUsed a || m.coreUsed (a / 2)

/-- Checks 0x01 to 0x0B of the bytes supplied. -/
def framingFail (img : List Byte) (stepping : Nat) : Option Verdict :=
  orElse (failIf (le img 0 4 != 0x56535856) (1, 0, 0)) fun _ =>
  orElse (failIf (le img 4 2 != 1) (1, 0, 4)) fun _ =>
  orElse (failIf (le img 6 2 != 64) (1, 0, 6)) fun _ =>
  orElse (failIf (!zeros img 0x1D 31) (1, 0, 0x1D)) fun _ =>
  orElse (failIf (decide (img.length < 64) || imgLength img % 4 != 0 || decide (0x400000 < imgLength img) ||
    imgLength img != img.length) (2, 0, 8)) fun _ =>
  orElse (failIf (imgCrc img != BitVec.ofNat 32 (le img 0x3C 4)) (3, 0, 0x3C)) fun _ =>
  let r := imgSecs img
  orElse (r.2.map fun p => (4, p.2, p.1)) fun _ =>
  orElse (failIf (r.1.length != le img 0x0C 2) (4, 0, 0x0C)) fun _ =>
  orElse (secFail r.1 5 fun x => crc32 (x.head ++ x.body) == x.scrc) fun _ =>
  orElse (orderFail none r.1) fun _ =>
  orElse (secFail r.1 7 secScopeOk) fun _ =>
  orElse (secFail r.1 8 secLenOk) fun _ =>
  orElse (failIf (imgFnv r.1 != BitVec.ofNat 64 (le img 0x10 8)) (9, 0, 0x10)) fun _ =>
  orElse (failIf (decide (stepping < b8 img 0x1C)) (10, 0, 0x1C)) fun _ =>
  let m := imgOf img
  orElse (missing m img.length) fun _ => secFail m.secs 11 fun x => !forbidden m x

/-- The first check of R221 that fails; of one REASON the header's findings come first, then the sections' in order
(log 62). -/
def imgFail (img : List Byte) (e : ImgEnv) : Option Verdict :=
  orElse (framingFail img e.stepping) fun _ =>
  let m := imgOf img
  orElse (failIf (m.used &&& ~~~e.arrays != 0) (12, 0, 0x0E)) fun _ =>
  orElse (secFail m.secs 12 fun x => !(x.type == tArray || x.type == tChains) || m.arrUsed x.index) fun _ =>
  orElse (failIf (!within (le img 0x0C 2) 5 8192) (13, 0, 0x0C)) fun _ =>
  orElse (secFail m.secs 13 (rangeOk m)) fun _ =>
  orElse (failIf (!usedOk m) (14, 0, 0x0E)) fun _ =>
  orElse (secFail m.secs 14 (consistOk m)) fun _ =>
  let b := m.body tEngine 0
  failIf (le b 8 8 != e.logBase || le b 16 4 != e.logSize || !(b8 b 1 == 255 || b8 b 1 == e.xsel))
    (15, tEngine, match secFind m.secs tEngine 0 with
      | some x => x.off
      | none => 0)

/-- What the checks read in a state. -/
def imgEnv (s : State) : ImgEnv :=
  { stepping := s.eng.stepping.toNat, arrays := s.eng.arrays, logBase := s.log.base.toNat, logSize := s.log.size.toNat
    xsel := s.eng.xsel.toNat }

/-- Validation: SRV_CHECK is rewritten; whether the image passed (R220, R222). -/
def validate (s : State) (img : List Byte) : State × Bool :=
  match imgFail img (imgEnv s) with
  | none => ({ s with srv := { s.srv with chkType := 0, chkReason := 0, chkPos := 0 } }, true)
  | some v => ({ s with srv := { s.srv with
      chkType := BitVec.ofNat 16 v.2.1, chkReason := BitVec.ofNat 8 v.1, chkPos := BitVec.ofNat 22 v.2.2 } }, false)

/-! ### Taking effect (R223, R242, R344, R380, R594) -/

/-- An array takes its settings; a change of STATE_ELEMS clears its file and its loop store, GEN staying. -/
def Arr.apply (a : Arr) (cfg : ArrCfg) : Arr :=
  if a.cfg.stateElems = cfg.stateElems then { a with cfg := cfg }
  else
    { a with
      cfg := cfg
      acc := { a.accClose.acc with scratch := [], entries := [], pend := [] }
      loopStore := [] }

def Core.apply (c : Core) (m : Img) (g : Nat) : Core :=
  { c with
    cfg := m.coreCfg g
    arrs := ⟨c.arrs.c0.apply (m.arrCfg (2 * g)), c.arrs.c1.apply (m.arrCfg (2 * g + 1))⟩ }


/-- An affected channel, and one that is not, take their settings; FREQ reaches a ticking channel that is not affected
as a write held for its tick (R12). -/
def Chan.apply (c : Chan) (m : Img) (n : Nat) (affected : Bool) : Chan :=
  let cfg := m.chCfg n
  let freqAt := 0x50
  let held := c.tickPend.filter fun p => p.1 != chBase (Fin.ofNat 4 n) + freqAt
  let sharesNew := c.dma.rd.toNat != cfg.rd || c.dma.wr.toNat != cfg.wr || c.dma.rem.toNat != cfg.rem || c.dma.frame.isEmpty
  let stop := !cfg.active
  let r := if cfg.radioEn then c else c.radioOff
  { c with
    cfg := cfg
    ctl := { c.ctl with
      guard := BitVec.ofNat 16 cfg.guard, mu := BitVec.ofNat 3 cfg.mu
      freq := if cfg.active && (affected || !c.ticking) then BitVec.ofNat 7 cfg.freq else c.ctl.freq
      state := if stop && c.ctl.state == .armed then .idle else c.ctl.state
      run := c.ctl.run && !stop
      runOff := c.ctl.runOff || (stop && c.ticking) }
    tickPend := if cfg.active && c.ticking && !affected then held ++ [(chBase (Fin.ofNat 4 n) + freqAt, BitVec.ofNat 32 cfg.freq)]
      else held
    crn := { c.crn with cfg := (m.cairns n).map fun e => (e.1, BitVec.ofNat 6 e.2.1, BitVec.ofNat 17 e.2.2) }
    dma := if cfg.active && sharesNew then
        { c.dma with rd := BitVec.ofNat 5 cfg.rd, wr := BitVec.ofNat 5 cfg.wr, rem := BitVec.ofNat 5 cfg.rem
                     frame := slotFrame cfg.rd cfg.wr cfg.rem, ptr := 0 }
      else c.dma
    rp := r.rp
    cores := ⟨r.cores.c0.apply m (2 * n), r.cores.c1.apply m (2 * n + 1)⟩ }

/-- An image takes effect. -/
def applyImage (s : State) (img : List Byte) (affected : BitVec 4) : State :=
  let m := imgOf img
  let e := m.body tEngine 0
  let s1 : State :=
    { s with
      txn := { s.txn with image := some img }
      thm := { s.thm with hi := BitVec.ofNat 8 (b8 e 4), lo := BitVec.ofNat 8 (b8 e 5), crit := BitVec.ofNat 8 (b8 e 6),
                          avg := BitVec.ofNat 3 (b8 e 7) }
      tdSel := Fin.ofNat 2 (b8 e 0), tdMax := le e 2 2 }
  let s2 := allChans.foldl (fun t n => t.updCh n fun c => c.apply m n.val (bitOf affected n.val)) s1
  let s3 := tdSelect (resupply s2) (Fin.ofNat 2 (b8 e 0))
  allChans.foldl peersSwitch s3

/-! ### Affected channels and sealing (R232, R235) -/

/-- The channels a section's scope touches. -/
def scopeChans (x : Sec) : BitVec 4 :=
  match x.level with
  | 1 => BitVec.ofNat 4 (2 ^ x.index)
  | 2 => BitVec.ofNat 4 (2 ^ (x.index / 2))
  | 3 => BitVec.ofNat 4 (2 ^ (x.index / 4))
  | _ => if x.type = tEngine then 0xF else 0

/-- Sections of `a` that `b` lacks or has otherwise. -/
def secsDiffer (a b : List Sec) : List Sec :=
  a.filter fun x => !(b.any fun y => y.head == x.head && y.body == x.body)

def affectedBy (old new : List Byte) : BitVec 4 :=
  let o := (imgSecs old).1
  let n := (imgSecs new).1
  (secsDiffer o n ++ secsDiffer n o).foldl (fun m x => m ||| scopeChans x) 0

/-- Bytes put into a list at an offset. -/
def putAt (b : List Byte) (off : Nat) (v : List Byte) : List Byte := b.take off ++ v ++ b.drop (off + v.length)

/-- SCRC of the named sections, then FPRINT, then IMAGE_CRC (R232). -/
def reseal (img : List Byte) (dirty : List (Nat × Nat)) : List Byte :=
  let secs := (imgSecs img).1
  let a := (secs.filter fun x => dirty.contains (x.type, x.scope)).foldl
    (fun b x => putAt b (x.off + 8) (natLe 4 (crc32 (x.head ++ x.body)).toNat)) img
  let b := putAt a 0x10 (natLe 8 (imgFnv secs).toNat)
  putAt b 0x3C (natLe 4 (imgCrc b).toNat)

end Sys2Proof.Machine
end

