-- ==== Sys2Proof/Machine/Logbook.lean ====
section
/-! DEFINITION. The logbook (chapter 06): records, the writer, snapshots and compaction, recovery. -/

namespace Sys2Proof.Machine

/-! ### Records (R250, R251) -/

def recSection : Byte := 0x01
def recCommit : Byte := 0x02
def recFault : Byte := 0x03
def recTrim : Byte := 0x04
def recCounters : Byte := 0x05
def recMarker : Byte := 0x06

/-- The 64 bytes of a record. -/
def recBytes (seq : Word) (r : LogRec) : List Byte :=
  let b := natLe 4 seq.toNat ++ [r.kind, r.src, BitVec.ofNat 8 r.payload.length, 0] ++ natLe 6 r.sec.toNat ++ [0, 0] ++
    natLe 4 r.ns.toNat ++ r.payload ++ List.replicate (40 - r.payload.length) 0
  b ++ natLe 4 (crc32 b).toNat

def recSeq (b : List Byte) : Word := BitVec.ofNat 32 (le b 0 4)
def recType (b : List Byte) : Byte := b.getD 4 0
def recPay (b : List Byte) : List Byte := (b.drop 0x14).take 40
def recCrcOk (b : List Byte) : Bool := crc32 (b.take 60) == BitVec.ofNat 32 (le b 60 4)

/-- A record raised by the engine now. -/
def engRec (s : State) (kind : Byte) (payload : List Byte) : LogRec :=
  { kind := kind, src := 0x0F, sec := (s.td.get 0).sec, ns := (s.td.get 0).ns, payload := payload }

def imgNrec (img : List Byte) : Nat := ceilDiv img.length 40

def imageBytes (s : State) : List Byte := s.txn.image.getD []

/-- The COMMIT payload; `pay` with another FIRST_SEQ is the copy a snapshot holds (R255). -/
def commitPayload (txn : Word) (img : List Byte) (first : Word) (instant : Nat) (affected : BitVec 4) (td1 : Bool) :
    List Byte :=
  natLe 4 txn.toNat ++ natLe 4 img.length ++ natLe 8 (le img 0x10 8) ++ natLe 4 (imgNrec img) ++ natLe 4 first.toNat ++
  natLe 6 (instant / 1000000000) ++ [BitVec.ofNat 8 (affected.toNat + 16 * td1.toNat), 0] ++
  natLe 4 (instant % 1000000000) ++ List.replicate 4 0

def trimPayload (s : State) : List Byte :=
  natLe 8 (s.td.get 0).inc ++ natLe 8 (s.td.get 1).inc ++ natLe 4 s.cal.offset.toNat ++ List.replicate 20 0

def countersPayload (s : State) : List Byte :=
  natLe 4 s.thm.throttles.toNat ++ (allChans.flatMap fun n => natLe 4 (s.chan n).ctl.overruns.toNat) ++
  (allChans.flatMap fun n => natLe 4 (s.chan n).peer.dups.toNat) ++ List.replicate 4 0

def sectionRec (s : State) (img : List Byte) (i : Nat) : LogRec := engRec s recSection ((img.drop (40 * i)).take 40)

/-! ### The window (R248) -/

def Log.halfRecs (l : Log) : Nat := l.size.toNat / 128

/-- The granule of record i of a half. -/
def Log.granule (l : Log) (half : Bool) (i : Nat) : BitVec 42 :=
  BitVec.ofNat 42 ((l.base.toNat + half.toNat * (l.size.toNat / 2)) / 64 + i)

/-- Issues a record with the next SEQ as a 64-byte initiator write (R252). -/
def logIssue (s : State) (dest : LogDest) (half : Bool) (i : Nat) (r : LogRec) : State :=
  let l := s.log
  { s with log := { l with
      inflight := l.inflight ++ [(dest, l.granule half i, recBytes l.next r)], next := l.next + 1 } }

/-! ### Compaction (R255–R257) -/

/-- The records 1 to K of a snapshot that begins with the next SEQ. -/
def snapshotRecs (s : State) : List LogRec :=
  let img := imageBytes s
  let pay := if img.isEmpty then List.replicate 40 0 else putAt s.log.commitPay 0x14 (natLe 4 s.log.next.toNat)
  (List.range (imgNrec img)).map (sectionRec s img) ++
  [engRec s recCommit pay, engRec s recTrim (trimPayload s), engRec s recCounters (countersPayload s)]

/-- A snapshot into a half begins. -/
def compactStart (s : State) (half : Bool) : State :=
  { s with log := { s.log with
      compacting := true, trigger := false, snapHalf := half, snapshot := snapshotRecs s, snapFirst := s.log.next
      lastSec := (s.td.get 0).sec } }

/-- A transaction is LOGGING or PENDING. -/
def srvBusy (s : State) : Bool := s.srv.state == .logging || s.srv.state == .pending

/-- A compaction that waits starts when nothing stands against it. -/
def logKick (s : State) : State :=
  if s.log.trigger && s.log.run && !s.log.compacting && !srvBusy s && s.log.size != 0 then compactStart s (!s.log.half)
  else s

/-- Three quarters of the half are used (R256). -/
def Log.nearFull (l : Log) : Bool := decide (3 * l.halfRecs ≤ 4 * l.fill.toNat)

/-! ### The writer (R38, R252, R253, R672) -/

/-- The FATAL record waits for every other record. -/
def isFatalRec (r : LogRec) : Bool := r.kind == recFault && r.payload.getD 3 0 == 3

/-- The channel served next: the first with a record, from the one after the last served. -/
def Log.nextChan (l : Log) : Option (Fin 4) :=
  ((List.range 4).map fun i => (Fin.ofNat 4 (l.lastCh.val + 1 + i) : Fin 4)).find? fun n => !(l.chQ.get n).isEmpty

/-- The transaction of a COMMIT record (R251). -/
def recTxn (r : LogRec) : Word := BitVec.ofNat 32 (le r.payload 0 4)

/-- The record the writer serves next, and the writer without it. -/
def Log.serve (l : Log) : Option (LogRec × Log) :=
  match l.engQ.find? fun r => !isFatalRec r with
  | some r => some (r, { l with engQ := l.engQ.erase r })
  | none =>
    match l.nextChan with
    | some n =>
      match l.chQ.get n with
      | r :: t => some (r, { l with chQ := l.chQ.set n t, lastCh := n })
      | [] => none
    | none =>
      match l.engQ with
      | r :: t => some (r, { l with engQ := t })
      | [] => none

/-- The shadow as the bytes of an image. -/
def shadowImage (s : State) : List Byte := smGetList 0 s.txn.shadow 0 s.srv.len.toNat

/-- The read of a record is issued, or waits for the requests from before ENGRST_N (R183). -/
def recIssue (s : State) (i : Nat) : State :=
  let r := s.recov
  if r.staleR = 0 ∧ r.staleW = 0 then { s with recov := { r with reading := some i, wants := none } }
  else { s with recov := { r with wants := some i } }

/-- Another of those requests has ended: a read that waited for the last of them is issued (R183). -/
def recResume (s : State) : State :=
  match s.recov.wants with
  | some i => recIssue s i
  | none => s

/-- The writer may issue: RUN, fewer than four writes out, no read, nothing from before ENGRST_N outstanding (R69,
R183). -/
def logReady (s : State) : Bool :=
  s.log.run && s.log.size != 0 && !s.log.haltReq && decide (s.log.inflight.length < 4) && s.recov.reading.isNone &&
  s.recov.staleR == 0 && s.recov.staleW == 0

/-- A record of the half in use is issued and counted; at three quarters a compaction is triggered. -/
def logPut (s : State) (dest : LogDest) (r : LogRec) : State :=
  let s1 := logIssue s dest s.log.half s.log.fill.toNat r
  let l := { s1.log with fill := s1.log.fill + 1 }
  logKick { s1 with log := { l with trigger := l.trigger || l.nearFull } }

/-- One record issued. -/
def logWrite (s : State) : State :=
  if !logReady s then s
  else
    let l := s.log
    if l.compacting then
      match l.snapshot with
      | r :: t =>
        let k := (l.next - l.snapFirst).toNat + 1
        logIssue { s with log := { l with snapshot := t } } .snapshot l.snapHalf k r
      | [] =>
        if l.inflight.isEmpty then
          let k := (l.next - l.snapFirst).toNat
          logIssue s .marker l.snapHalf 0 (engRec s recMarker (natLe 4 k ++ List.replicate 36 0))
        else s
    else if l.halfRecs ≤ l.fill.toNat then s
    else if s.srv.state = .logging then
      let img := shadowImage s
      if s.txn.logged < imgNrec img then
        let t := if s.txn.logged = 0 then { s.txn with firstSeq := l.next, logged := 1 } else { s.txn with logged := s.txn.logged + 1 }
        logPut { s with txn := t } (.srvSection s.srv.txn) (sectionRec s img s.txn.logged)
      else s
    else
      match l.serve with
      | some (r, l1) => logPut { s with log := l1 } (if r.kind = recCommit then .commit (recTxn r) else .plain) r
      | none => s

/-- Nothing is left to write. -/
def Log.idle (l : Log) : Bool :=
  l.inflight.isEmpty && l.engQ.isEmpty && ([0, 1, 2, 3] : List (Fin 4)).all fun n => (l.chQ.get n).isEmpty

/-- HALT and the end of the FATAL record clear RUN once nothing is in flight (R261, R672). -/
def logRest (s : State) : State :=
  let l := s.log
  if l.haltReq && l.inflight.isEmpty then
    { s with
      log := { l with run := false, haltReq := false, compacting := false, snapshot := [] }
      txn := if s.srv.state = .logging then { s.txn with logged := 0, logDone := 0 } else s.txn }
  else if s.flt.fatal && l.run && l.idle && !l.compacting then { s with log := { l with run := false } }
  else s

/-! ### Recovery (R258) -/

/-- What recovery knows: records per half and the records read, by half · n + index. -/
structure RecView where
  n   : Nat
  got : SMap (List Byte)
  deriving DecidableEq, Repr

def RecView.item (v : RecView) (h i : Nat) : Option (List Byte) := smFind v.got (h * v.n + i)

/-- The first record of a range not yet read. -/
def RecView.unread (v : RecView) (h lo k : Nat) : Option Nat :=
  ((List.range k).find? fun i => (v.item h (lo + i)).isNone).map fun i => h * v.n + lo + i

/-- A half begins with a valid MARKER. -/
def RecView.marker (v : RecView) (h : Nat) : Option (Word × Nat) :=
  match v.item h 0 with
  | some b => if recCrcOk b && recType b == recMarker then some (recSeq b, le (recPay b) 0 4) else none
  | none => none

/-- The halves with a MARKER, the newest first (R252). -/
def RecView.halves (v : RecView) : List Nat :=
  match v.marker 0, v.marker 1 with
  | some a, some b => if (a.1 - b.1).toInt < 0 then [1, 0] else [0, 1]
  | some _, none => [0]
  | none, some _ => [1]
  | none, none => []

/-- The bytes of NREC SECTION records in order from a position on, others skipped. -/
def rebuildFrom (v : RecView) (h : Nat) : Nat → Nat → Nat → List Byte
  | 0, _, _ => []
  | _, 0, _ => []
  | f + 1, k + 1, i =>
    match v.item h i with
    | some b =>
      if recType b = recSection then (recPay b).take (b.getD 6 0).toNat ++ rebuildFrom v h f k (i + 1)
      else rebuildFrom v h f (k + 1) (i + 1)
    | none => []

/-- rebuild() of a COMMIT record: its FIRST_SEQ names the position. -/
def RecView.rebuild (v : RecView) (h : Nat) (commit : List Byte) : List Byte :=
  match v.marker h with
  | none => []
  | some (seq, k) =>
    let first : Word := BitVec.ofNat 32 (le commit 0x14 4)
    let d := (first - seq).toInt
    let pos := if d < 0 then (k + 1 + d).toNat else k + d.toNat
    (rebuildFrom v h v.n (le commit 0x10 4) pos).take (le commit 4 4)

def imgFprintIs (img commit : List Byte) : Bool := img.isEmpty && le commit 4 4 == 0 || le img 0x10 8 == le commit 8 8

/-- snapshot_ok(h), once records 1 to K are read. -/
def RecView.snapshotOk (v : RecView) (h : Nat) : Bool :=
  match v.marker h with
  | none => false
  | some (seq, k) =>
    decide (3 ≤ k ∧ k < v.n) &&
    ((List.range k).all fun i =>
      match v.item h (i + 1) with
      | some b =>
        recCrcOk b && recSeq b == seq - BitVec.ofNat 32 (k - i) &&
        recType b == (if i + 3 < k then recSection else if i + 3 = k then recCommit else if i + 2 = k then recTrim else recCounters)
      | none => false) &&
    match v.item h (k - 2) with
    | some b => imgFprintIs (v.rebuild h (recPay b)) (recPay b)
    | none => false

/-- The result of the scan of the live log. -/
structure Scan where
  live   : Bool
  expect : Word
  top    : Word
  last   : Nat               -- position of the last valid record
  img    : List Byte
  commit : List Byte
  trim   : List Byte
  deriving DecidableEq, Repr

/-- One record of the scan. -/
def RecView.scan1 (v : RecView) (h : Nat) (c : Scan) (i : Nat) : Scan :=
  match v.item h i with
  | none => c
  | some r =>
    let ok := recCrcOk r
    let c1 := if ok && decide ((recSeq r - c.top).toInt > 0) then { c with top := recSeq r } else c
    if !c1.live then c1
    else if !ok || recSeq r != c1.expect then { c1 with live := false }
    else
      let c2 := { c1 with expect := c1.expect + 1, last := i }
      if recType r = recTrim then { c2 with trim := recPay r }
      else if recType r = recCommit then
        let t := v.rebuild h (recPay r)
        if le t 0x10 8 != le (recPay r) 8 8 || imgCrc t != BitVec.ofNat 32 (le t 0x3C 4) then { c2 with live := false }
        else { c2 with img := t, commit := recPay r }
      else c2

/-- What recovery does next. -/
inductive RecNext where
  | read (i : Nat)
  | empty
  | found (half : Nat) (scan : Scan)
  deriving DecidableEq, Repr

/-- The best half, given the candidates in order: its snapshot read and checked, then the whole half read. -/
def RecView.pick (v : RecView) : List Nat → RecNext
  | [] => .empty
  | h :: t =>
    match v.marker h with
    | none => v.pick t
    | some (seq, k) =>
      match (if k < v.n then v.unread h 1 k else none) with
      | some i => .read i
      | none =>
        if !v.snapshotOk h then v.pick t
        else
          match v.unread h (k + 1) (v.n - 1 - k) with
          | some i => .read i
          | none =>
            let pay (i : Nat) : List Byte := match v.item h i with
              | some b => recPay b
              | none => []
            let c0 : Scan :=
              { live := true, expect := seq + 1, top := seq, last := k, img := v.rebuild h (pay (k - 2))
                commit := pay (k - 2), trim := pay (k - 1) }
            .found h ((List.range (v.n - 1 - k)).foldl (fun c i => v.scan1 h c (k + 1 + i)) c0)

/-- Record 0 of both halves first. -/
def RecView.next (v : RecView) : RecNext :=
  match v.item 0 0, v.item 1 0 with
  | none, _ => .read 0
  | some _, none => .read v.n
  | some _, some _ => v.pick v.halves

/-- load(trim): increments and UTC offset. -/
def loadTrim (s : State) (p : List Byte) : State :=
  let one (t : Td) (o : Nat) : Td := { t with incInt := BitVec.ofNat 2 (le p (o + 4) 4), incFrac := BitVec.ofNat 32 (le p o 4) }
  { s with td := ⟨one s.td.c0 0, one s.td.c1 8⟩, cal := { s.cal with offset := BitVec.ofNat 32 (le p 16 4) } }

end Sys2Proof.Machine
end

