-- ==== Sys2Proof/Machine/Survey.lean ====
section
/-! DEFINITION. Survey transactions (chapter 06): from BEGIN to the common instant, and the logbook's commands. -/

namespace Sys2Proof.Machine

/-! ### Readiness (R239, R526, R540, R611, R687) -/

/-- Every replay has ended; a core unused or quarantined counts as ended. -/
def Chan.ended (c : Chan) : Bool :=
  ([0, 1] : List (Fin 2)).all fun k => !(c.core k).cfg.used || bitOf c.flt.quar k.val || !(c.core k).cc.list

def Queue.isIdle (q : Queue) : Bool := q.waiting.isEmpty && q.issued.isEmpty

/-- The channel is drained (R611). -/
def Chan.isDrained (c : Chan) : Bool :=
  c.ended && (allQ.all fun q => (c.queue q).isIdle) && duoIx.all fun k => (c.core k).cc.cmp == 0

/-- Ready at the barrier (R239). -/
def Chan.ready (c : Chan) : Bool := !c.ticking || c.isDrained

/-- The slot in progress can commit at its tick (R240, R611, R667, R668). -/
def Chan.canCommit (c : Chan) : Bool :=
  c.isDrained && !c.flt.rolled && !c.flt.rbOrder && !c.flt.lostOrder && c.flt.haltOrder.isNone

/-! ### Results (R225, R246, R247) -/

def resCommitted : BitVec 4 := 1
def resRolledBack : BitVec 4 := 2
def resRejected : BitVec 4 := 3
def resTooBig : BitVec 4 := 4
def resNotReady : BitVec 4 := 5
def resLogFail : BitVec 4 := 6

def Srv.to (v : Srv) (st : SrvState) (result : BitVec 4) : Srv := { v with state := st, result := result, done := true }

/-- The transaction ends: IDLE with a RESULT, nothing kept; a compaction that waited may start (R257). -/
def txnEnd (s : State) (result : BitVec 4) : State :=
  logKick { s with
    srv := s.srv.to .idle result
    txn := { Txn.reset with image := s.txn.image } }

/-- The logbook writer fails (R259). The COMMIT record of a transaction that aborts so is not written (log 23). -/
def logFail (s : State) : State :=
  let s1 : State := { s with log := { s.log with run := false, fail := true, compacting := false, snapshot := [], haltReq := false } }
  if srvBusy s1 then
    txnEnd { s1 with log := { s1.log with engQ := s1.log.engQ.filter fun r => r.kind != recCommit } } resLogFail
  else s1

/-! ### The common instant (R236–R242) -/

def affectedChans (s : State) : List ChanId := allChans.filter fun n => bitOf s.srv.affected n.val

def affectedTicking (s : State) : List ChanId := (affectedChans s).filter fun n => (s.chan n).ticking

/-- L: the longest slot of the affected ticking channels under old and new MU; 0 when none ticks (R237). -/
def commonLen (s : State) : Nat :=
  let m := imgOf (shadowImage s)
  (affectedTicking s).foldl (fun l n =>
    max l (max (slotNs (s.chan n).ctl.mu.toNat) (slotNs (b8 (m.body tChannel n.val) 2)))) 0

/-- An instant shown in SRV_INSTANT_. -/
def planAt (s : State) (len at_ : Nat) : State :=
  { s with
    srv := { s.srv with instant := at_ }
    txn := { s.txn with planned := true, slotLen := len, ready := none, cancelled := 0 } }

/-- Logging is over: E, 2 µs later, and the instant are fixed (R237, R238). -/
def planTxn (s : State) : State :=
  let from_ := max (tauCeil s + 2000) (s.txn.applyNs.getD 0)
  let len := commonLen s
  planAt { s with srv := { s.srv with state := .pending } } len (if len = 0 then from_ else multAt len from_)

/-- The arrays of a channel commit its ending slot under the settings it ran by; the rest of the commit waits for the
tick (R240, R610). -/
def Chan.commitOld (c : Chan) : Chan :=
  let core (x : Core) : Core := x.updArrs fun a => if a.cfg.used then a.commit false else a
  { c with ctl := { c.ctl with switched := some c.cfg.late }, cores := ⟨core c.cores.c0, core c.cores.c1⟩ }

/-- Every ticking affected channel commits its ending slot under the old image. -/
def commitAllOld (s : State) : State := (affectedTicking s).foldl (fun t n => t.updCh n Chan.commitOld) s

/-- The new image takes effect; its COMMIT record is queued, or without a logbook the transaction ends (R223, R240,
R242). -/
def switchIn (s : State) : State :=
  let img := shadowImage s
  let pay := commitPayload s.srv.txn img s.txn.firstSeq s.srv.instant s.srv.affected (s.tdSel == 1)
  let s0 := commitAllOld { s with srv := { s.srv with tries := satAdd s.srv.tries 1 }, log := { s.log with commitPay := pay } }
  let s1 := applyImage s0 img s.srv.affected
  if s.log.size = 0 then txnEnd s1 resCommitted
  else
    let s2 := logRaise s1 none recCommit pay
    { s2 with txn := { s2.txn with committing := true, planned := false, ready := none } }

/-- The affected channels that stop the attempt (R240). -/
def notReadyAt (s : State) (ready : BitVec 4) : BitVec 4 :=
  (affectedChans s).foldl (fun m n =>
    let c := s.chan n
    if !bitOf ready n.val || bitOf s.txn.cancelled n.val || (c.ticking && !c.canCommit) then setBit m n.val else m) 0

/-- A failed attempt: rolled back where that waited, aborted, or set again (R241, R244). -/
def attemptFail (s : State) (bad : BitVec 4) : State :=
  let s1 : State := { s with srv := { s.srv with tries := satAdd s.srv.tries 1, notReady := bad } }
  if s.txn.rbHeld then txnEnd s1 resRolledBack
  else if s1.srv.tries.toNat = s1.srv.retry.toNat + 1 then txnEnd s1 resNotReady
  else
    let len := commonLen s1
    if len = 0 then switchIn s1 else planAt s1 len (multAt len (s.srv.instant + 1))

/-! ### The rows of a transaction -/

/-- BEGIN (R227). -/
def execBegin (empty : Bool) (s : State) : Out :=
  .next (hostWr s (.begin empty) 0x5000 fun t =>
    if t.srv.state ≠ .idle then t
    else
      let img := if empty then [] else imageBytes t
      { t with
        srv := { t.srv with state := .open, txn := t.srv.txn + 1, result := 0, notReady := 0, affected := 0, tries := 0
                            len := BitVec.ofNat 23 img.length }
        txn := { Txn.reset with image := t.txn.image, shadow := smSetList 0 [] 0 img } })

/-- COMMIT (R232, R237, R247, R259). -/
def execCommit (now : Bool) (s : State) : Out :=
  .next (hostWr s (.commit now) 0x5000 fun t =>
    if t.srv.state ≠ .open ∨ 1000000000 ≤ t.srv.applyNs.toNat then t
    else if t.log.fail then txnEnd t resLogFail
    else
      let img := shadowImage t
      let shadow := if t.txn.txnWrote then smSetList 0 [] 0 (reseal img t.txn.dirty) else t.txn.shadow
      { t with
        srv := { t.srv with state := .validating }
        txn := { t.txn with
          shadow := shadow
          applyNs := if now then none else some (t.srv.applySec.toNat * 1000000000 + t.srv.applyNs.toNat) } })

/-- ROLLBACK (R244). -/
def execRollback (s : State) : Out :=
  .next (hostWr s .rollback 0x5000 fun t =>
    if t.srv.state = .idle ∨ t.txn.committing = true then t
    else if t.txn.ready.isSome then { t with txn := { t.txn with rbHeld := true } }
    else txnEnd t resRolledBack)

def Srv.bump (v : Srv) : Srv := { v with addr := v.addr + 1 }

/-- SRV_DATA_WRITE (R228). -/
def execSrvDataWrite (data : Word) (s : State) : Out :=
  .next (hostWr s (.srvDataWrite data) 0x502C fun t =>
    if t.srv.state = .open then
      let u := shadowWrite t (4 * t.srv.addr.toNat) (natLe 4 data.toNat)
      { u with srv := u.srv.bump }
    else t)

/-- SRV_DATA_READ (R228). -/
def execSrvDataRead (s : State) : Out :=
  .next (hostRd s .srvDataRead 0x502C fun t =>
    let off := 4 * t.srv.addr.toNat
    let v := if t.srv.state = .open then leNat (smGetList 0 t.txn.shadow off 4) else le (imageBytes t) off 4
    ({ t with srv := t.srv.bump }, BitVec.ofNat 32 v))

/-- TXN_WRITE: a txn-access field's mirror in a section of the shadow (R15, R16, R231). -/
def execTxnWrite (type scope : BitVec 16) (offset : Nat) (bytes : List Byte) (s : State) : Out :=
  if bytes.isEmpty then .fault .illFormed
  else
    .next (
      if s.srv.state ≠ .open then s
      else
        match (imgSecs (shadowImage s)).1.find? fun x => x.type == type.toNat && x.scope == scope.toNat with
        | none => s
        | some x =>
          if x.blen < offset + bytes.length ∨ (x.body.drop offset).take bytes.length = bytes then s
          else
            { s with txn := { s.txn with
              shadow := smSetList 0 s.txn.shadow (x.off + 12 + offset) bytes, txnWrote := true
              dirty := if s.txn.dirty.contains (x.type, x.scope) then s.txn.dirty else s.txn.dirty ++ [(x.type, x.scope)] } })

/-- The image passed: the size check, then LOGGING, with a compaction first where the half is too full (R234, R256). -/
def enterLogging (s : State) (img : List Byte) : State :=
  let l := s.log
  if l.size ≠ 0 ∧ 3 * l.halfRecs < 8 * (imgNrec img + 4) then { s with srv := s.srv.to .open resTooBig }
  else
    let s1 : State := { s with srv := { s.srv with state := .logging, affected := affectedBy (imageBytes s) img } }
    if l.size = 0 then planTxn s1
    else if l.halfRecs < l.fill.toNat + imgNrec img + 1 ∧ l.run = true ∧ l.compacting = false then compactStart s1 (!l.half)
    else s1

/-- VALIDATION_END (R233, R234). -/
def execValidationEnd (s : State) : Out :=
  .next (
    if s.srv.state ≠ .validating then s
    else
      let img := shadowImage s
      let r := validate s img
      if r.2 then (if s.log.fail then txnEnd r.1 resLogFail else enterLogging r.1 img)
      else { r.1 with srv := r.1.srv.to .open resRejected })

/-- A planned attempt of a PENDING transaction. -/
def txnPlanned (s : State) : Bool := s.srv.state == .pending && s.txn.planned

/-- SURVEY_BARRIER_SAMPLE (R239). -/
def execSurveyBarrierSample (s : State) : Out :=
  .next (
    if txnPlanned s && s.txn.slotLen != 0 && s.txn.ready.isNone then
      { s with txn := { s.txn with
        ready := some ((affectedChans s).foldl (fun m n => if (s.chan n).ready then setBit m n.val else m) 0)
        cancelled := 0 } }
    else s)

/-- COMMON_INSTANT (R240, R241). -/
def execCommonInstant (s : State) : Out :=
  .next (
    if !txnPlanned s then s
    else
      match s.txn.ready with
      | none => s
      | some r =>
        let bad := notReadyAt s r
        if bad = 0 then switchIn s else attemptFail s bad)

/-- APPLY_TIME_REACHED (R238); an affected channel that has begun to tick meanwhile gets a barrier. -/
def execApplyTimeReached (s : State) : Out :=
  .next (
    if txnPlanned s && s.txn.slotLen == 0 then
      let len := commonLen s
      if len = 0 then switchIn s else planAt s len (multAt len (max s.srv.instant (tauCeil s)))
    else s)

/-! ### The logbook's rows -/

/-- LOG_RECORD_WRITE (R252). -/
def execLogRecordWrite (s : State) : Out := .next (logRest (logWrite (logKick s)))

/-- COMPACTION_INTERVAL: INTERVAL seconds of TD0 since the last compaction (R256). -/
def execCompactionInterval (s : State) : Out :=
  .next (if s.log.interval = 0 then s else logKick { s with log := { s.log with trigger := s.log.trigger || s.log.run } })

/-- COMPACT (R256). -/
def execCompact (s : State) : Out :=
  .next (hostWr s .compact 0x600C fun t => logKick { t with log := { t.log with trigger := t.log.trigger || t.log.run } })

/-- RESTART (R260): FAIL clears; the writer runs, with a snapshot into half 0, but for the time before the end of
bring-up and without a window, where RUN is 0 (R249). -/
def execRestart (s : State) : Out :=
  .next (hostWr s .restart 0x600C fun t =>
    let u : State := { t with log := { t.log with fail := false } }
    if t.boot.stage ≠ 9 ∨ t.log.size = 0 then u
    else compactStart { u with log := { u.log with run := true, haltReq := false } } false)

/-- CHECKPOINT (R254). -/
def execCheckpoint (s : State) : Out :=
  .next (hostWr s .checkpoint 0x600C fun t => logRaise t none recCounters (countersPayload t))

/-- TRIM (R254). -/
def execTrim (s : State) : Out :=
  .next (hostWr s .trim 0x600C fun t => logRaise t none recTrim (trimPayload t))

/-- LOG_HALT (R249, R261). -/
def execLogHalt (s : State) : Out :=
  .next (hostWr s .logHalt 0x600C fun t => if t.log.run then logRest { t with log := { t.log with haltReq := true } } else t)

/-! ### Completions of record writes -/

/-- What a completed write brings about. -/
def writeDone (s : State) (d : LogDest) : State :=
  match d with
  | .plain => s
  | .snapshot => s
  | .srvSection k =>
    if s.srv.state = .logging ∧ k = s.srv.txn then
      let s1 := { s with txn := { s.txn with logDone := s.txn.logDone + 1 } }
      if s1.txn.logDone = imgNrec (shadowImage s) then planTxn s1 else s1
    else s
  | .commit k => if s.txn.committing = true ∧ k = s.srv.txn then txnEnd s resCommitted else s
  | .marker =>
    if s.log.compacting then
      logKick { s with log := { s.log with
        compacting := false, half := s.log.snapHalf
        fill := BitVec.ofNat 17 (s.log.next - s.log.snapFirst).toNat } }
    else s

/-- The oldest write in flight completes, or fails (R69, R71). -/
def writeEnd (s : State) (ok : Bool) : State :=
  match s.log.inflight with
  | [] => s
  | (d, _, _) :: t =>
    let s1 := { s with log := { s.log with inflight := t } }
    logRest (if ok then writeDone s1 d else logFail s1)

/-- INITIATOR_WRITE_COMPLETION (R70, R71, R183). -/
def execInitiatorWriteCompletion (ok : Bool) (s : State) : Out :=
  .next (
    if 0 < s.recov.lateW then { s with recov := { s.recov with lateW := s.recov.lateW - 1 } }
    else if 0 < s.recov.staleW then recResume { s with recov := { s.recov with staleW := s.recov.staleW - 1 } }
    else writeEnd s ok)

end Sys2Proof.Machine
end

