-- ==== Sys2Proof/Machine/Bringup.lean ====
section
/-! DEFINITION. Resets, the test access port, bring-up, PLLs and logbook recovery (chapters 02, 03, 04, 06). -/

namespace Sys2Proof.Machine

/-! ### Bring-up (R160–R173) -/

def stageStop : BitVec 4 := 0xF

def Boot.stop (b : Boot) : Boot := { b with stage := stageStop, counting := false }

/-- The fuse read is over: step 3 has ended (R162). -/
def fuseDone (s : State) : Bool := s.clk.trimOk || s.boot.fuseBad

/-- Step 5: the PLLs start; with all of them locked step 6 begins (R133, R160, R181). -/
def startPlls (s : State) : State :=
  let clk := { s.clk with pllOn := pllRun s.pwr }
  { s with clk := clk, boot := { s.boot with counting := false, stage := if allLocked clk then 5 else 4 } }

/-- Step 4: the stability count (R128, R130). -/
def startCount (s : State) : State := { s with boot := { s.boot with stage := 3, counting := true } }

/-- Steps 9 and 10: a recovered image is validated and takes effect; every channel leaves reset (R173). -/
def finishBoot (s : State) (log : BitVec 2) (img : Option (List Byte)) : State :=
  let s0 : State :=
    { s with recov := { s.recov with reading := none, wants := none, got := [] }, boot := { s.boot with log := log, stage := 8 } }
  let s1 := match img with
    | none => { s0 with boot := { s0.boot with survey := 0 } }
    | some b =>
      let r := validate s0 b
      if r.2 then
        let t := applyImage r.1 b 0xF
        { t with boot := { t.boot with survey := 1 } }
      else { r.1 with boot := { r.1.boot with survey := 2 } }
  allChans.foldl (fun t n => liftReset t n true) { s1 with boot := { s1.boot with stage := 9 } }

/-- One step of recovery (R258): the next record is read, or the outcome is known (R172, R256). -/
def recStep (s : State) : State :=
  let v : RecView := { n := s.log.halfRecs, got := s.recov.got }
  match v.next with
  | .read i => recIssue s i
  | .empty => compactStart (finishBoot s 2 none) false
  | .found h c =>
    let l : Log := { s.log with
      half := h == 1, fill := BitVec.ofNat 17 (c.last + 1), next := c.top + 1, commitPay := c.commit }
    let t := finishBoot (loadTrim { s with log := l } c.trim) 1 (if c.img.isEmpty then none else some c.img)
    logKick { t with log := { t.log with trigger := t.log.trigger || t.log.nearFull } }

/-- A recovery read fails (R172, R259). -/
def recFail (s : State) : State :=
  finishBoot { s with log := { s.log with run := false, fail := true } } 3 none

/-! ### Resets (R56, R180–R188) -/

/-- A channel as the reset of the engine leaves it: its port still awaits its earlier tags, its inputs stand. -/
def Chan.engReset (c : Chan) (gated failed ramp : Bool) : Chan :=
  { Chan.reset with
    ctl := { ChCtl.reset with state := if gated then .gated else if failed then .failed else .reset, ramp := ramp }
    mp := { Mp.reset with
      reqs := c.mp.reqs.map fun r => { dropReq r with stale := true }, retired := c.mp.retired.map fun r => { r with quiet := true, free := true } }
    peers := { PeerSt.reset with linkUp := c.peers.linkUp } }

/-- PWR_CTRL returns to reset; gated channels ungate; VREQ stands until the sequencer lowers it (R181, R186). -/
def Pwr.engReset (p : Pwr) : Pwr :=
  { Pwr.reset with
    gated := p.gated, vack := p.vack, vreq := p.vreq, vreqOld := p.vreqOld, waitVack := p.waitVack, pgack := p.pgack
    ungating := p.pgreq ||| p.ungating }

/-- The fall of ENGRST_N: what R181 keeps stands, everything else returns to reset. REF_FAIL is kept in a stop, so that
RETRY still leaves it (R161, log 54). -/
def engReset (s : State) : State :=
  let keep := fuseDone s
  let stopped := s.boot.stage == stageStop
  let reset (n : ChanId) : Chan := (s.chan n).engReset (bitOf s.pwr.gated n.val) (bitOf s.boot.chFail n.val) (rampTo24 s n)
  { State.reset with
    pending := s.pending, free := s.free, tap := s.tap
    eng := { Eng.reset with
      porst := s.eng.porst, engrst := false, chrst := s.eng.chrst, refsel := s.eng.refsel, xsel := s.eng.xsel
      mbistEn := s.eng.mbistEn, stepping := s.eng.stepping, grade := s.eng.grade, arrays := s.eng.arrays
      fuseLd := false }
    boot := { Boot.reset with
      chFail := s.boot.chFail, engFail := s.boot.engFail, fuseBad := s.boot.fuseBad, bootOn := s.boot.bootOn
      trim := s.boot.trim, fuseBusy := s.boot.fuseBusy && !keep
      stage := if stopped then stageStop else if keep then 0 else s.boot.stage }
    clk := { Clk.reset with
      cpllLock := s.clk.cpllLock, mpllLock := s.clk.mpllLock, tpllLock := s.clk.tpllLock, pllOn := s.clk.pllOn
      refOk := s.clk.refOk, trimOk := s.clk.trimOk, refFail := s.clk.refFail && stopped }
    pwr := s.pwr.engReset
    thm := { Thm.reset with sens := s.thm.sens.map fun x => { Sens.reset with trim := x.trim } }
    recov := { Rec.reset with
      staleR := s.recov.staleR + s.recov.reading.isSome.toNat, staleW := s.recov.staleW + s.log.inflight.length
      lateR := s.recov.lateR, lateW := s.recov.lateW }
    ch := ⟨reset 0, reset 1, reset 2, reset 3⟩ }

/-! ### The test access port's controller (R115, R116) -/

/-- The 32-bit IDCODE (R116). -/
def idcode (s : State) : Word :=
  BitVec.ofNat 32 (s.eng.stepping.toNat % 16 * 2 ^ 28 + 4 * 2 ^ 12 + s.tap.mfr.toNat * 2 + 1)

/-- The next state of the IEEE 1149.1 controller under a level of TMS. -/
def TapState.next (tms : Bool) : TapState → TapState
  | .testLogicReset => if tms then .testLogicReset else .runTestIdle
  | .runTestIdle => if tms then .selectDr else .runTestIdle
  | .selectDr => if tms then .selectIr else .captureDr
  | .captureDr => if tms then .exit1Dr else .shiftDr
  | .shiftDr => if tms then .exit1Dr else .shiftDr
  | .exit1Dr => if tms then .updateDr else .pauseDr
  | .pauseDr => if tms then .exit2Dr else .pauseDr
  | .exit2Dr => if tms then .updateDr else .shiftDr
  | .updateDr => if tms then .selectDr else .runTestIdle
  | .selectIr => if tms then .testLogicReset else .captureIr
  | .captureIr => if tms then .exit1Ir else .shiftIr
  | .shiftIr => if tms then .exit1Ir else .shiftIr
  | .exit1Ir => if tms then .updateIr else .pauseIr
  | .pauseIr => if tms then .exit2Ir else .pauseIr
  | .exit2Ir => if tms then .updateIr else .shiftIr
  | .updateIr => if tms then .selectDr else .runTestIdle

/-- What a rising edge of TCK does in the controller's state: the instruction register captures 0b01 in its two lowest
bits (the others: log 55) and shifts towards bit 0; the selected data register captures the IDCODE, or the BYPASS bit
0, and shifts TDI in at its top. -/
def tapShift (tdi : Bool) (s : State) : Tap :=
  let t := s.tap
  match t.st with
  | .captureIr => { t with irSh := 0x01 }
  | .shiftIr => { t with irSh := t.irSh >>> 1 ||| (BitVec.ofBool tdi).setWidth 8 <<< 7 }
  | .captureDr => { t with tdr := if t.ir = 0x01 then idcode s else 0 }
  | .shiftDr => { t with tdr := if t.ir = 0x01 then t.tdr >>> 1 ||| (BitVec.ofBool tdi).setWidth 32 <<< 31 else (BitVec.ofBool tdi).setWidth 32 }
  | _ => t

/-- One cycle of TCK: the controller moves; entering Update-IR the shifted instruction takes effect, entering
Test-Logic-Reset IDCODE is selected (R115). -/
def tapClock (tms tdi : Bool) (s : State) : State :=
  let t := tapShift tdi s
  let st := t.st.next tms
  { s with tap := { t with
    st := st
    ir := match st with
      | .updateIr => t.irSh
      | .testLogicReset => 0x01
      | _ => t.ir } }

/-- TDO: the lowest bit of the register that shifts, high impedance in every other state. -/
def State.tdo (s : State) : Option Bool :=
  match s.tap.st with
  | .shiftIr => some (bitOf s.tap.irSh 0)
  | .shiftDr => some (bitOf s.tap.tdr 0)
  | _ => none

/-- TMS from any state through Test-Logic-Reset to Shift-IR. -/
def tapToShiftIr : List Bool := [true, true, true, true, true, false, true, true, false, false]

/-- The cycles that load an instruction and bring its data register to Shift-DR: (TMS, TDI). -/
def tapLoad (code : Byte) : List (Bool × Bool) :=
  tapToShiftIr.map (fun m => (m, false)) ++ (List.range 8).map (fun i => (i == 7, bitOf code i)) ++
    [(true, false), (true, false), (false, false), (false, false)]

/-- An instruction scanned in through the controller. -/
def tapScan (code : Byte) (s : State) : State := (tapLoad code).foldl (fun t p => tapClock p.1 p.2 t) s

/-- The port's reset: Test-Logic-Reset, with IDCODE selected. -/
def selectIdcode (s : State) : State :=
  { s with tap := { s.tap with st := .testLogicReset, ir := 0x01, irSh := 0x01, tdr := idcode s } }

/-- A channel while PORST_N is low. -/
def Chan.porReset (c : Chan) : Chan := { Chan.reset with peers := { PeerSt.reset with linkUp := c.peers.linkUp } }

/-- PORST_N_FALL (R54, R184): everything is abandoned; only inputs stand. -/
def execPorstNFall (s : State) : Out :=
  .next (selectIdcode
    { State.reset with
      pending := s.pending, free := s.free
      eng := { Eng.reset with engrst := s.eng.engrst, chrst := s.eng.chrst, stepping := s.eng.stepping }
      tap := { Tap.reset with mfr := s.tap.mfr }
      pwr := { Pwr.reset with vack := s.pwr.vack, pgack := s.pwr.pgack }
      ch := ⟨s.ch.c0.porReset, s.ch.c1.porReset, s.ch.c2.porReset, s.ch.c3.porReset⟩ })

/-- PORST_N_RISE: the straps are sampled, bring-up begins (R122, R123, R160). -/
def execPorstNRise (refsel : Bool) (xsel : BitVec 2) (mbistEn : Bool) (s : State) : Out :=
  .next (
    if s.eng.porst then s
    else
      { s with
        eng := { s.eng with porst := true, refsel := refsel, xsel := xsel, mbistEn := mbistEn }
        boot := { s.boot with stage := 1 }
        clk := { s.clk with xselBad := xsel == 3 } })

/-- ENGRST_N_FALL (R73, R181, R182, R245). VREQ is lowered during the hold, as the clocks' ramps let it (R143, R186). -/
def execEngrstNFall (s : State) : Out := .next (if s.eng.engrst then supplySeq (engReset s) else s)

/-- ENGRST_N_RISE: bring-up resumes at step 5, or at step 4 without REF_OK; a stop stays; steps 1 to 3 go on (R181,
R182). The domains count again from here where the time PLL has stayed locked, in a stop too (R185, log 56). -/
def execEngrstNRise (s : State) : Out :=
  .next (
    if s.eng.engrst then s
    else
      let s1 := { s with eng := { s.eng with engrst := true, fuseCk := s.boot.fuseBusy } }
      if !s.eng.porst || !fuseDone s then s1
      else
        let s2 : State :=
          { s1 with eng := { s1.eng with hpUp := true }, tdc := { s1.tdc with running := s1.clk.tpllLock } }
        if s2.boot.stage = stageStop then s2
        else if s2.clk.refOk then resupply (startPlls s2)
        else startCount s2)

/-- A channel held by CHRST_N: its clock ramps to code 24 (R143, R145, R149, R186). -/
def chrstHold (s : State) (n : ChanId) : State :=
  (holdChan s n .reset).updCh n fun c => { c with ctl := { c.ctl with freq := 24, eff := 24, ramp := rampTo24 s n } }

/-- CHRST_N_FALL: the channel goes into reset (R41, R56, R186, R188). -/
def execChrstNFall (n : ChanId) (s : State) : Out :=
  .next (
    let s1 := { s with eng := { s.eng with chrst := clrBit s.eng.chrst n.val } }
    match (s.chan n).ctl.state with
    | .reset => s1
    | .failed => s1
    | .gated => s1
    | .lost => if s.flt.fatal then s1 else settle (chrstHold s1 n) n
    | _ => settle (chrstHold s1 n) n)

/-- CHRST_N_RISE (R180, R188). -/
def execChrstNRise (n : ChanId) (s : State) : Out :=
  .next (
    let s1 := { s with eng := { s.eng with chrst := setBit s.eng.chrst n.val } }
    if (s.chan n).ctl.state = .reset then liftReset s1 n false else s1)

/-! ### Test access port (R115, R116, R187) -/

/-- TAP_RESET. -/
def execTapReset (s : State) : Out := .next (selectIdcode s)

/-- IDCODE: the instruction is scanned in; its 32 bits stand ready to shift out, bit 0 at TDO. -/
def execIdcode (s : State) : Out := .next (tapScan 0x01 s)

/-- BYPASS: every code but IDCODE's selects the one-bit path. -/
def execBypass (code : Byte) (s : State) : Out := .next (tapScan code s)

/-! ### Fuses and the reference (R117, R125–R131, R164–R166) -/

/-- BOOTSTRAP_START (R125). -/
def execBootstrapStart (s : State) : Out :=
  .next (if s.eng.porst && s.boot.stage == 1 && !s.boot.bootOn then { s with boot := { s.boot with bootOn := true, trim := 0x20 } } else s)

/-- FUSE_READ: step 3 begins with FUSE_LD (R117). -/
def execFuseRead (s : State) : Out :=
  .next (
    if s.boot.bootOn && s.boot.stage == 1 then
      { s with boot := { s.boot with stage := 2, fuseBusy := true }, eng := { s.eng with fuseCk := true, fuseLd := true } }
    else s)

/-- The channels of the arrays a mask leaves out. -/
def fusedOff (mask : BitVec 16) : List Nat := ((List.range 16).filter fun a => !bitOf mask a).map (· / 4)

/-- The acceptance of a fuse word: check byte, grade, placement (R1, R117, R164). -/
def fuseOk (w : BitVec 128) : Bool :=
  let bytes := natLe 16 w.toNat
  let sum := ((bytes.take 15).map (·.toNat)).sum % 256
  let off := fusedOff (w.extractLsb' 0 16)
  (bytes.getD 15 0).toNat == 255 - sum &&
  match (w.extractLsb' 16 2).toNat with
  | 0 => off == []
  | 1 => off.length == 2 && off.getD 0 0 != off.getD 1 0
  | 2 => off == [0, 1, 2, 3]
  | _ => false

/-- FUSE_READ_END (R123, R162, R164–R166). A word of a good check byte and a bad grade or placement loads no trim
(R166, log 57). -/
def execFuseReadEnd (word : BitVec 128) (s : State) : Out :=
  .next (
    if !s.boot.fuseBusy then s
    else
      let s0 : State :=
        { s with
          eng := { s.eng with fuseCk := false, fuseLd := false, hpUp := s.eng.engrst }, boot := { s.boot with fuseBusy := false } }
      if fuseOk word then
        let s1 : State :=
          { s0 with
            eng := { s0.eng with arrays := word.extractLsb' 0 16, grade := word.extractLsb' 16 2 }
            boot := { s0.boot with trim := word.extractLsb' 18 6 }
            clk := { s0.clk with trimOk := true }
            thm := { s0.thm with sens := s0.thm.sens.zipIdx.map fun p => { p.1 with trim := word.extractLsb' (8 * p.2 + 24) 8 } } }
        if s1.eng.xsel = 3 then { s1 with boot := s1.boot.stop }
        else if s1.eng.engrst then startCount s1
        else { s1 with boot := { s1.boot with stage := 0 } }
      else
        { s0 with
          eng := { s0.eng with arrays := 0, grade := 3 }
          boot := { s0.boot.stop with fuseBad := true } })

/-- MISSING_EDGE: the count restarts from 0, or the reference is lost (R128, R131). -/
def execMissingEdge (s : State) : Out :=
  .next (if s.clk.refOk then engErr { s with clk := { s.clk with refLost := true } } 0 0x82 0 else s)

/-- The bootstrap cycles 65,536 edges should take (R129). -/
def refExpected (xsel : BitVec 2) : Nat := if xsel = 0 then 102400 else if xsel = 1 then 81920 else 51200

/-- The window of R129. -/
def refInWindow (xsel : BitVec 2) (trimOk : Bool) (cycles : Nat) : Bool :=
  let e := refExpected xsel
  let w := if trimOk then 3 else 18
  decide ((100 - w) * e ≤ 100 * cycles ∧ 100 * cycles ≤ (100 + w) * e)

/-- STABILITY_COUNT_END (R129, R133). -/
def execStabilityCountEnd (cycles : Nat) (s : State) : Out :=
  .next (
    if !s.boot.counting then s
    else if refInWindow s.eng.xsel s.clk.trimOk cycles then startPlls { s with clk := { s.clk with refOk := true } }
    else { s with clk := { s.clk with freqBad := true } })

/-- REF_FAIL (R130). -/
def execRefFail (s : State) : Out :=
  .next (if s.boot.counting then { s with clk := { s.clk with refFail := true }, boot := s.boot.stop } else s)

/-- RETRY: CLK_STATUS.RETRY (R130, R161). -/
def execRetry (s : State) : Out :=
  .next (hostWr s .retry 0x1000 fun t =>
    if t.clk.refFail then startCount { t with clk := { t.clk with refFail := false } } else t)

/-! ### PLLs (R132–R134) -/

def pllBit : Pll → Nat
  | .core n => n.val
  | .mem => 4
  | .time => 5

def Clk.locked (c : Clk) : Pll → Bool
  | .core n => bitOf c.cpllLock n.val
  | .mem => c.mpllLock
  | .time => c.tpllLock

def Clk.setLock (c : Clk) (p : Pll) (v : Bool) : Clk :=
  match p with
  | .core n => { c with cpllLock := putBit c.cpllLock n.val v }
  | .mem => { c with mpllLock := v }
  | .time => { c with tpllLock := v }

/-- INFO of the PLL cause (R694). -/
def pllInfo (p : Pll) (boot : Bool) : Word :=
  BitVec.ofNat 32 ((match p with
    | .time => 1
    | .mem => 2
    | .core _ => 0) + 4 * boot.toNat)

/-- PLL_LOCK: the domains start with the time PLL; with all six step 6 begins (R133, R160, R185). -/
def execPllLock (p : Pll) (s : State) : Out :=
  .next (
    if !bitOf s.clk.pllOn (pllBit p) || s.clk.locked p then s
    else
      let s1 : State :=
        { s with
          clk := s.clk.setLock p true
          tdc := { s.tdc with running := s.tdc.running || p == .time } }
      allChans.foldl gateReady (resupply (stepSix s1)))

/-- ENGINE_HALT in each ARMED or RUNNING channel (R694). -/
def engineHalt (s : State) (cause : Nat) : State :=
  allChans.foldl (fun t n =>
    let st := (t.chan n).ctl.state
    if st = .armed ∨ st = .running then
      raise t n { lvl := .chan, cause := 0x57, cls := 4, info := BitVec.ofNat 32 cause, addr := 0 }
    else t) s

/-- PLL_LOCK_TIMEOUT (R133, R694): until step 10 bring-up stops; a PLL that starts later is one of an ungated channel.
-/
def execPllLockTimeout (p : Pll) (s : State) : Out :=
  .next (
    if !s.eng.engrst || !bitOf s.clk.pllOn (pllBit p) || s.clk.locked p then s
    else
      let s1 := { s with clk := { s.clk with pllFail := true } }
      if s.boot.stage = 9 then engineHalt (engErr s1 0 0x83 (pllInfo p false)) 0x83
      else engErr { s1 with boot := s1.boot.stop } 0 0x83 (pllInfo p true))

/-- PLL_LOSS_OF_LOCK (R134): an engine fault, or the halt of one channel. In bring-up steps 6 to 9, of which the rule
does not speak, it acts as after bring-up; in step 5 the lock is awaited again (log 58). -/
def execPllLossOfLock (p : Pll) (s : State) : Out :=
  .next (
    if !s.clk.locked p then s
    else
      let s1 := { s with clk := s.clk.setLock p false }
      if s.boot.stage.toNat < 5 ∨ s.boot.stage = stageStop then s1
      else
        match p with
        | .core n =>
          if (s1.chan n).live then raise s1 n { lvl := .chan, cause := 0x55, cls := 4, info := 0, addr := 0 } else s1
        | q => engineHalt (engErr s1 0 0x83 (pllInfo q false)) 0x83)

/-! ### Memory test, GO, recovery (R168–R173, R258) -/

/-- An array whose memories hold zero (R168). -/
def Arr.clearMem (a : Arr) : Arr :=
  { a with
    reg := { a.reg with weights := [], wscale := [], staging := none }
    acc := { a.acc with scratch := [], entries := [] }
    drip := { a.drip with decay := [], scale := [], bias := [], feedQ := [], feedVoid := [] }
    profiles := [], loopStore := [] }

/-- A channel whose memories hold zero (R168). -/
def Chan.clearMem (c : Chan) : Chan :=
  let core (k : Core) : Core :=
    { k with
      pool := { k.pool with mem := [], bad := [] }, lane := { k.lane with tiles := [], store := [] }
      icache := { k.icache with lines := [], code := [] }, arrs := ⟨k.arrs.c0.clearMem, k.arrs.c1.clearMem⟩ }
  { c with crn := { c.crn with cells := [] }, cores := ⟨core c.cores.c0, core c.cores.c1⟩ }

/-- Step 6 leaves every memory of the engine and the channels at zero (R168, R169): the survey shadow store and the
records that wait in the logbook writer's buffers among them. -/
def clearMemories (s : State) : State :=
  { s with
    txn := { s.txn with shadow := [] }
    log := { s.log with engQ := [], chQ := ⟨[], [], [], []⟩ }
    ch := ⟨s.ch.c0.clearMem, s.ch.c1.clearMem, s.ch.c2.clearMem, s.ch.c3.clearMem⟩ }

/-- MEMORY_TEST_END (R168, R170). -/
def execMemoryTestEnd (chFail : BitVec 4) (engFail : Bool) (s : State) : Out :=
  .next (
    if s.boot.stage ≠ 5 ∨ s.eng.mbistEn = false then s
    else
      let s1 : State :=
        clearMemories { s with
          eng := { s.eng with mbistDone := true, mbistPass := chFail == 0 && !engFail }
          boot := { s.boot with chFail := s.boot.chFail ||| chFail, engFail := s.boot.engFail || engFail } }
      let s2 := allChans.foldl (fun t n =>
        if bitOf chFail n.val then t.updCh n fun c => { c with ctl := { c.ctl with state := .failed } } else t) s1
      if engFail then { s2 with boot := s2.boot.stop } else { s2 with boot := { s2.boot with stage := 6 } })

/-- CLEAR_PASS_END (R169). -/
def execClearPassEnd (s : State) : Out :=
  .next (
    if s.boot.stage = 5 ∧ s.eng.mbistEn = false then clearMemories { s with boot := { s.boot with stage := 6 } } else s)

/-- GO: ENG_BOOT.GO in step 7 (R171, R172). -/
def execGo (s : State) : Out :=
  .next (hostWr s .go 0x8 fun t =>
    if t.boot.stage ≠ 6 then t
    else
      let t1 := { t with boot := { t.boot with stage := 7 } }
      if t.log.size = 0 then finishBoot t1 0 none
      else recStep { t1 with log := { t1.log with run := true } })

/-- The outstanding recovery read ends (R69, R71, R258). -/
def readEnd (s : State) (data : Option (List Byte)) : State :=
  match s.recov.reading, data with
  | none, _ => s
  | some i, some d => recStep { s with recov := { s.recov with got := smPut s.recov.got i d, reading := none } }
  | some _, none => recFail s

/-- INITIATOR_READ_COMPLETION (R68, R71, R183). -/
def execInitiatorReadCompletion (ok : Bool) (data : List Byte) (s : State) : Out :=
  if data.length ≠ 64 then .fault .illFormed
  else
    .next (
      if 0 < s.recov.lateR then { s with recov := { s.recov with lateR := s.recov.lateR - 1 } }
      else if 0 < s.recov.staleR then recResume { s with recov := { s.recov with staleR := s.recov.staleR - 1 } }
      else readEnd s (if ok then some data else none))

/-- INITIATOR_TIMEOUT (R71): the oldest request of its kind fails; its completion, should it come, is discarded. -/
def execInitiatorTimeout (write : Bool) (s : State) : Out :=
  .next (
    let r := s.recov
    if write then
      if 0 < r.staleW then recResume { s with recov := { r with staleW := r.staleW - 1, lateW := r.lateW + 1 } }
      else if s.log.inflight.isEmpty then s
      else writeEnd { s with recov := { r with lateW := r.lateW + 1 } } false
    else
      if 0 < r.staleR then recResume { s with recov := { r with staleR := r.staleR - 1, lateR := r.lateR + 1 } }
      else if r.reading.isNone then s
      else readEnd { s with recov := { r with lateR := r.lateR + 1 } } none)

end Sys2Proof.Machine
end

