-- ==== Sys2Proof/Machine/Launch.lean ====
section
/-! DEFINITION. Timed launch (chapter 18): frames that become eligible, late frames, leaving by the radio or the peer
port. -/

namespace Sys2Proof.Machine

/-- A launch time in nanoseconds of its domain. -/
def Frame.time (f : Frame) : Nat := f.sec.toNat * 1000000000 + f.ns.toNat

/-- The named domain's time has passed the launch time (R616). -/
def frameLate (s : State) (f : Frame) : Bool := decide ((f.time : Int) * 2 ^ 32 < tdUnits (s.td.get f.domain))

/-- The named domain's time has reached the launch time (R617). -/
def frameDue (s : State) (f : Frame) : Bool := decide ((f.time : Int) * 2 ^ 32 ≤ tdUnits (s.td.get f.domain))

def dropFrame (s : State) (n : ChanId) (serial : Nat) : State :=
  s.updCh n fun c => { c with lch := { c.lch with frames := c.lch.frames.filter fun f => !(f.whole && f.serial == serial) } }

/-- The launch class's increment of a FRAME with CEN 1 (R557, R573). -/
def frameCairn (s : State) (n : ChanId) (f : Frame) : State :=
  if f.cen then crnInc s n f.cairn.toNat clsLaunch 1 else s

/-- A held frame becomes eligible and is judged late or not, under a value of CHANNEL.LATE (R615, R616, R619). -/
def frameElig (s : State) (n : ChanId) (f : Frame) (keep : Bool) : State :=
  if frameLate s f && !keep then
    frameCairn ((dropFrame s n f.serial).updCh n fun c =>
      { c with lch := { c.lch with dropped := satAdd c.lch.dropped 1 } }) n f
  else
    let late := frameLate s f
    s.updCh n fun c => { c with lch := { c.lch with
      frames := c.lch.frames.map fun g => if g.whole && g.serial == f.serial then { g with elig := true, late := late } else g } }

/-- The frames of a slot that commits (R615). -/
def commitFrames (s : State) (n : ChanId) (keep : Bool) : State :=
  ((s.chan n).lch.frames.filter fun f => f.whole && !f.elig).foldl (fun t f => frameElig t n f keep) s

/-! ### Leaving (R617–R620, R652, R663) -/

/-- The header beat of a frame whose data comes from an end, from template `t` (R657, R663). -/
def Tmpl.header (t : Tmpl) (beats : Nat) : List Byte :=
  [t.a.extractLsb' 0 8, t.a.extractLsb' 8 8, t.a.extractLsb' 16 8, 0] ++ natLe 2 beats ++ [0, 0, 0] ++
  [t.b.extractLsb' 0 8, t.b.extractLsb' 8 8, t.b.extractLsb' 16 8] ++ natLe 4 t.c.toNat ++ natLe 4 t.d.toNat ++
  List.replicate 12 0

/-- Bytes put over a list from a position on. -/
def overlay (l : List Byte) (at_ : Nat) (bs : List Byte) : List Byte := l.take at_ ++ bs ++ l.drop (at_ + bs.length)

/-- The radio frame as it leaves: BEATS, the late flag, TIME, SFN and SLOT written by the station (R663). -/
def radioBytes (c : Chan) (f : Frame) : List Byte :=
  let whole := if f.src = 3 then f.data
    else (c.rp.tmpls.getD f.src.toNat Tmpl.reset).header (f.data.length / 32) ++ f.data
  let flags : Byte := if f.late then whole.getD 3 0 ||| 0x80 else whole.getD 3 0
  let a := overlay (overlay whole 3 [flags]) 4 (natLe 2 (whole.length / 32 - 1))
  overlay (overlay a 6 (natLe 2 f.sfn.toNat ++ [f.slot])) 0x14 (natLe 8 f.time)

/-- The WRITE_WIN packets of a timed frame (R646, R652). -/
def framePackets (c : Chan) (f : Frame) : List OutPkt :=
  let w := f.data.getD 0 0
  let body := f.data.drop 32
  let off := leNat ((f.data.drop 4).take 4)
  (List.range (ceilDiv body.length 4096)).map fun i =>
    let pay := (body.drop (4096 * i)).take 4096
    { serial := c.peers.serial + i, entry := Fin.ofNat 8 (f.data.getD 1 0).toNat, acc := false
      body := { win := w.extractLsb' 0 4, core := Fin.ofNat 2 (w.toNat / 16), coll := false, timed := true, late := f.late
                epoch := 0, seq := 0, offset := BitVec.ofNat 32 (off + 4096 * i), tag := 0, payload := pay }
      len := pay.length, ends := none, split := false, dma := none, psend := none, wait := false, sent := false }

/-- Counts of a frame that is launched (R616, R617, R625). -/
def frameSent (s : State) (n : ChanId) (f : Frame) (slipped : Bool) : State :=
  frameCairn ((dropFrame s n f.serial).updCh n fun c => { c with lch := { c.lch with
    sent := wrapAdd c.lch.sent 1
    lateSent := if f.late then satAdd c.lch.lateSent 1 else c.lch.lateSent
    slips := if slipped && !f.late then satAdd c.lch.slips 1 else c.lch.slips } }) n f

/-- A radio frame leaves: its beats spend the credits held, and the rest wait for theirs (R90, R97, R618). -/
def launchRadio (s : State) (n : ChanId) (f : Frame) (slipped : Bool) : State :=
  let c := s.chan n
  if c.rp.ocredit = 0 ∨ c.rp.owed ≠ 0 then s
  else
    let bs := radioBytes c f
    let ty := (bs.getD 0 0).toNat
    if ty < 3 ∨ 5 < ty then
      (dropFrame s n f.serial).updCh n fun c => { c with rp := { c.rp with oType := satAdd c.rp.oType 1 } }
    else
      let beats := bs.length / 32
      let k := min beats c.rp.ocredit.toNat
      (frameSent s n f slipped).updCh n fun c => { c with rp := { c.rp with
        sent := wrapAdd c.rp.sent 1, lastOut := bs, ocredit := c.rp.ocredit - BitVec.ofNat 8 k, owed := beats - k } }

/-- A peer frame leaves when the path is free and no earlier frame is still leaving, or is refused when its partner
takes no timed traffic (R97, R618, R620, R652). -/
def launchPeer (s : State) (n : ChanId) (f : Frame) (slipped : Bool) : State :=
  let c := s.chan n
  if !c.timed ((f.data.getD 1 0).toNat % 8) then
    (dropFrame s n f.serial).updCh n fun c => { c with lch := { c.lch with refused := satAdd c.lch.refused 1 } }
  else if !c.peers.pathFree || c.peers.out.any fun p => !p.sent && p.body.timed then s
  else
    let ps := framePackets c f
    (frameSent s n f slipped).updCh n fun c => { c with peers := { c.peers with
      serial := c.peers.serial + ps.length, out := c.peers.out ++ ps } }

/-- The frame of a destination that leaves next: among those due, the earliest launch time, the first completed on
ties (R618). -/
def nextFrame (s : State) (n : ChanId) (peer : Bool) : Option Frame :=
  ((s.chan n).lch.frames.filter fun f => f.elig && f.peer == peer && (f.late || frameDue s f)).foldl
    (fun (m : Option Frame) f => match m with
      | none => some f
      | some g => if f.time < g.time ∨ (f.time = g.time ∧ f.serial < g.serial) then some f else some g) none

/-! ### The rows -/

/-- FRAME_LAUNCH: the next due frame of a destination starts (R617, R618). `slipped` says that its first beat leaves
more than 8 tc after its start tc. -/
def execFrameLaunch (n : ChanId) (peer slipped : Bool) (s : State) : Out :=
  .next (
    if !(s.chan n).live then s
    else
      match nextFrame s n peer with
      | none => s
      | some f => if peer then launchPeer s n f slipped else launchRadio s n f slipped)

/-- LCH_CLEAR: LCH_CTRL.CLEAR (R625). -/
def execLchClear (n : ChanId) (s : State) : Out :=
  .next (hostWr s (.lchClear n) (chBase n + 0x30018) fun t => t.updCh n fun c =>
    { c with lch := { c.lch with sent := 0, lateSent := 0, dropped := 0, voided := 0, refused := 0, slips := 0, provRef := 0 } })

end Sys2Proof.Machine
end

