-- ==== Sys2Proof/Machine/Ticks.lean ====
section
/-! DEFINITION. Channel start and slot ticks (chapters 04, 07 and 18): arming, the first tick, commit and overrun,
tick-access writes, histogram snapshots, the tick gap. -/

namespace Sys2Proof.Machine

/-! ### Tick-access fields (R11–R14) -/

/-- A field of a ring's registers (R665). -/
def Ring.put (r : Ring) (o : Nat) (v : Word) : Ring :=
  if o = 0 then
    { r with en := bitOf v 31, type := v.extractLsb' 24 4, stream := v.extractLsb' 16 8, form := v.extractLsb' 14 2
             logbs := v.extractLsb' 10 4, core := Fin.ofNat 2 (fld v 9 1) }
  else if o = 4 then { r with elines := v.extractLsb' 16 12, base := v.extractLsb' 0 12 }
  else if o = 8 then { r with nent := v.extractLsb' 16 4, cairn := v.extractLsb' 0 11 }
  else r

def Tmpl.put (t : Tmpl) (o : Nat) (v : Word) : Tmpl :=
  if o = 0 then { t with a := v.extractLsb' 0 24 }
  else if o = 4 then { t with b := v.extractLsb' 0 24 }
  else if o = 8 then { t with c := v }
  else { t with d := v }

/-- Tick-access fields of the control block, the peer and the radio registers. -/
def Chan.tickPut (c : Chan) (o : Nat) (v : Word) : Chan :=
  if o = 0x50 then { c with ctl := { c.ctl with freq := v.extractLsb' 0 7 } }
  else if o = 0x40008 then { c with peer := { c.peer with coll := v.extractLsb' 0 8 } }
  else if 0x50040 ≤ o ∧ o < 0x50080 then
    { c with rp := { c.rp with rings := listUpd c.rp.rings ((o - 0x50040) / 16) fun r => r.put (o % 16) v } }
  else if 0x50080 ≤ o ∧ o < 0x500B0 then
    { c with rp := { c.rp with tmpls := listUpd c.rp.tmpls ((o - 0x50080) / 16) fun t => t.put (o % 16) v } }
  else c

/-- Tick-access fields of a control core (R539). -/
def Cc.tickPut (c : Cc) (o : Nat) (v : Word) : Cc :=
  if o = 0x1018 then { c with trig := bitOf v 16, tcairn := v.extractLsb' 0 11 }
  else if 0x1080 ≤ o ∧ o < 0x1100 then
    let k := (o - 0x1080) / 8
    if o % 8 = 0 then { c with selBase := smSet 0 c.selBase k (v &&& 0xFFFFFFFC) }
    else { c with selLen := smSet 0 c.selLen k (v.extractLsb' 0 15) }
  else c

/-- Tick-access fields of a histogram unit; while EN is 0 its counters hold 0 (R293, R297). -/
def Hist.tickPut (h : Hist) (o : Nat) (v : Word) : Hist :=
  if o = 0 then
    { h with en := bitOf v 31, pool := bitOf v 2, src := bitOf v 0, bins := if bitOf v 31 then h.bins else [] }
  else { h with line := v.extractLsb' 7 12 }

/-- A tick-access write takes effect. -/
def tickApply (s : State) (addr : Nat) (v : Word) : State :=
  match locate addr with
  | .ch n o => s.updCh n fun c => c.tickPut o v
  | .core c o => updCc s c fun x => x.tickPut o v
  | .hist a o => s.updArr a fun x => { x with hist := x.hist.tickPut o v }
  | _ => s

/-- Whether a value may be written to a tick-access register: others leave the field unchanged (R149, R297, R539). -/
def tickValueOk (addr : Nat) (v : Word) : Bool :=
  match locate addr with
  | .ch _ o => o != 0x50 || decide (8 ≤ fld v 0 7 ∧ fld v 0 7 ≤ 72)
  | .core _ o => !(decide (0x1080 ≤ o ∧ o < 0x1100) && o % 8 == 4) || decide (fld v 0 15 ≤ 16384)
  | .hist _ o => o != 0xC || decide (fld v 7 12 ≤ 4091)
  | _ => true

/-- A tick-access write of a channel: at once while the channel generates no ticks, else at its next tick, the last
value only (R12–R14). -/
def tickWrite (s : State) (n : ChanId) (addr : Nat) (v : Word) : State :=
  if !tickValueOk addr v then s
  else if (s.chan n).ticking then
    s.updCh n fun c => { c with tickPend := c.tickPend.filter (fun p => p.1 != addr) ++ [(addr, v)] }
  else resupply (tickApply s addr v)

/-- The writes held take effect at a tick, and the channel's frequency follows (R12, R143, R144). -/
def tickPending (s : State) (n : ChanId) : State :=
  let p := (s.chan n).tickPend
  resupply (applyEff (p.foldl (fun t w => tickApply t w.1 w.2) (s.updCh n fun c => { c with tickPend := [] })) n)

/-! ### Histograms (R293–R296) -/

/-- A snapshot at a tick: counters to the bank, cleared, with its status. -/
def Hist.shot (h : Hist) (overrun : Bool) : Hist :=
  if h.en then
    { h with snap := h.bins, bins := [], seq := wrapAdd h.seq 1, ovr := overrun, sat := h.bins.any fun b => b.2 == 0xFFFFFF
             due := h.pool }
  else h

/-- The pool lines a snapshot is written to: those whose bank has a DRIP slot of the array (R296). -/
def histLines (x : Core) (j : Fin 2) (h : Hist) : List Nat :=
  ((List.range 5).map fun i => h.line.toNat + i).filter fun l => x.hasSlot (clDrip j) (lineBank l)

/-- The 640 bytes of a snapshot (R295). -/
def Hist.bytes (h : Hist) : List Byte :=
  natLe 4 h.seq.toNat ++ natLe 4 (2 * h.sat.toNat + h.ovr.toNat) ++ List.replicate 8 0 ++
  ((List.range 132).flatMap fun k => natLe 4 (smGet 0 h.snap k).toNat) ++ List.replicate 96 0

/-- Until its write the lines of a due snapshot hold undefined bytes (R296, log 11). -/
def histBlur (s : State) (n : ChanId) (k j : Fin 2) : State :=
  let x := (s.chan n).core k
  let h := (x.arr j).hist
  if h.due then
    let ls := histLines x j h
    let s1 := s.updCh n fun c => c.updCore k fun y => { y with pool := ls.zipIdx.foldl (fun p l =>
      p.writeBytes (128 * l.1) (freeBytes (s.free + 128 * l.2) 128)) y.pool }
    { s1 with free := s.free + 128 * ls.length }
  else s


/-- Every unit of the channel takes its snapshot. -/
def histTick (s : State) (n : ChanId) (overrun : Bool) : State :=
  let s1 := s.updCh n fun c => c.updCores fun x => x.updArrs fun a =>
    if a.cfg.used then { a with hist := a.hist.shot overrun } else a
  duoIx.foldl (fun t k => duoIx.foldl (fun u j => histBlur u n k j) t) s1

/-! ### Commit and overrun (R611) -/

/-- A cairn's record at a commit (R580). -/
def Cairn.mark (c : Cairn) : Cairn := { c with record := c.count, outside := 0 }

def markCairns (c : Cairns) : Cairns := { c with cells := mapCairns Cairn.mark c.cells }

/-- What a control core records at a commit (R527). -/
def Cc.mark (c : Cc) : Cc := { c with saved := c.r, psCommit := c.ps }

/-- Tag-parity errors that a commit or a rollback finds in its arrays (R367). -/
def parityFound (s : State) (n : ChanId) (sees : List ArrSee) : State :=
  sees.foldl (fun t e =>
    let a := ((t.chan n).core e.core).arr e.arr
    (if a.cfg.used then e.see.par.filter fun g => decide (32 * g.toNat < a.cfg.stateElems) else []).foldl
      (fun u g => tagParity u (mkArr n e.core e.arr) g.toNat) t) s

/-- A commit (R340, R527, R580, R611, R613, R615). At the tick of a switch the arrays have committed at T_c, and the
frames are judged by the LATE of the old image (R240). -/
def commitSlot (s : State) (n : ChanId) (sees : List ArrSee) : State :=
  let sw := (s.chan n).ctl.switched
  let s1 := s.updCh n fun c =>
    let core (x : Core) : Core :=
      { (x.updArrs fun a => if a.cfg.used && sw.isNone then a.commit false else a) with cc := x.cc.mark }
    { c with
      cores := ⟨core c.cores.c0, core c.cores.c1⟩, crn := markCairns c.crn
      peers := { c.peers with sentTo := 0 }
      ctl := { c.ctl with
        commits := wrapAdd c.ctl.commits 1, switched := none
        slack := satAdd 0 (match c.ctl.drained with
          | some d => c.ctl.cc - d
          | none => 0) } }
  parityFound (commitFrames s1 n (sw.getD (s.chan n).cfg.late)) n sees

/-- An overrun's count (R611, R613). -/
def countOverrun (s : State) (n : ChanId) : State :=
  s.updCh n fun c => { c with ctl := { c.ctl with overruns := satAdd c.ctl.overruns 1, ovr := true, slack := 0 } }

/-- An overrun; after a rollback between ticks nothing is undone again (R341, R611, R667). -/
def overrunSlot (s : State) (n : ChanId) (sees : List ArrSee) : State :=
  let s1 := countOverrun s n
  if s.chan n |>.flt.rolled then
    (if s.chan n |>.flt.rbOrder then parityFound (undoUsed s1 n) n sees else s1)
  else parityFound (undoUsed s1 n) n sees

/-! ### The next slot -/

/-- The tick class's increments: every cairn with SOURCES bit 3 (R573). -/
def tickCairns (s : State) (n : ChanId) : State :=
  ((s.chan n).crn.cfg.filter fun e => bitOf e.2.1 3).foldl (fun t e => crnInc t n e.1 clsTick 1) s

/-- The instant of a tick: one that a forced step set, else the first after the slot's own or the latest τ has reached
(R607, R609). -/
def tickInstant (s : State) (n : ChanId) : Nat :=
  let c := s.chan n
  let len := slotNs c.ctl.mu.toNat
  match c.ctl.forcedTick with
  | some t => t
  | none => max (c.ctl.tauS / len * len + len) (tauNs s / len * len)

/-- CH_SLOT's numbers for an instant (R614). -/
def ChCtl.begin (x : ChCtl) (inst : Nat) : ChCtl :=
  { x with tauS := inst, sfn := BitVec.ofNat 10 (inst / 10000000)
           slot := BitVec.ofNat 8 (inst % 10000000 / slotNs x.mu.toNat), inGap := false, forcedTick := none, drained := none }

/-- A core whose release waits for the tick (R690). -/
def releaseCores (c : Chan) : Chan :=
  let free (k : Fin 2) (x : Core) : Core :=
    if bitOf c.flt.unquar k.val then { x with flt := { x.flt with charges := 0 } } else x
  { c with
    flt := { c.flt with quar := c.flt.quar &&& ~~~c.flt.unquar, unquar := 0 }
    cores := ⟨free 0 c.cores.c0, free 1 c.cores.c1⟩ }

/-- Replays under TRIG 0 (R524). -/
def startSlot (s : State) (n : ChanId) : State :=
  duoIx.foldl (fun t k => if ((t.chan n).core k).cc.trig then t else startReplay t (mkCore n k)) s

/-- The slot that begins at an instant: its numbers, held contributions under its tag, tick increments, replays; the
comparators' self-test begins (R684). -/
def beginSlot (s : State) (n : ChanId) (inst : Nat) (sees : List ArrSee) : State :=
  let s1 := s.updCh n fun c =>
    (releaseCores { c with ctl := c.ctl.begin inst, flt := { c.flt with rolled := false } }).updCores fun x =>
      { x with flt := { x.flt with testing := !(x.flt.cmpaOff && x.flt.cmpbOff) } }
  startSlot (tickCairns (heldTick s1 n sees) n) n

/-- No slot begins: RUN was cleared or the survey made the channel inactive (R177). -/
def goIdle (s : State) (n : ChanId) : State :=
  s.updCh n fun c =>
    releaseCores { c with
      ctl := { c.ctl with state := .idle, run := false, runOff := false, inGap := false, forcedTick := none, drained := none }
      flt := { c.flt with rolled := false } }

/-- The tick of a RUNNING channel (R611). A slot that committed at T_c stays committed (R240, log 23); a halt that falls
on the tick counts as an overrun, and the writes held for the tick take effect all the same (R12, log 32). -/
def slotTickOf (s : State) (n : ChanId) (sees : List ArrSee) : State :=
  let c := s.chan n
  let inst := tickInstant s n
  if c.flt.lostOrder then holdChan s n .lost
  else if c.flt.haltOrder.isSome then
    parityFound (histTick (haltChan (tickPending (countOverrun s n) n) n) n true) n sees
  else
    let ok := c.canCommit || c.ctl.switched.isSome
    let s1 := if ok then commitSlot s n sees else overrunSlot s n sees
    let s2 := histTick (tickPending s1 n) n (!ok)
    if c.ctl.runOff then tickCairns (heldTick (goIdle s2 n) n sees) n else beginSlot s2 n inst sees

/-! ### The rows -/

/-- RUN_SET (R175). -/
def execRunSet (n : ChanId) (s : State) : Out :=
  .next (hostWr s (.runSet n) (chBase n) fun t =>
    let c := t.chan n
    if c.ctl.state = .idle ∧ c.cfg.active = true then
      t.setChan n { c with ctl := { c.ctl with state := .armed, run := true } }
    else t)

/-- RUN_CLEAR (R177). -/
def execRunClear (n : ChanId) (s : State) : Out :=
  .next (hostWr s (.runClear n) (chBase n) fun t =>
    let c := t.chan n
    match c.ctl.state with
    | .armed => t.setChan n { c with ctl := { c.ctl with state := .idle, run := false } }
    | .running => t.setChan n { c with ctl := { c.ctl with runOff := true } }
    | _ => t)

/-- RELEASE (R178, R180): of a HALTED or LOST channel, unless FATAL_N holds it (R672). -/
def execRelease (n : ChanId) (s : State) : Out :=
  .next (hostWr s (.release n) (chBase n) fun t =>
    let st := (t.chan n).ctl.state
    if (st = .halted ∨ st = .lost) ∧ t.flt.fatal = false then liftReset (holdChan t n .reset) n false else t)

/-- FIRST_TICK (R176) of a channel, with what the parity checks find: nothing is committed; tags clear, cairns are
recorded, the first replays start. -/
def execFirstTick (tick : ChanId × List ArrSee) (s : State) : Out :=
  .next (
    let n := tick.1
    let c := s.chan n
    if c.ctl.state ≠ .armed then s
    else
      let len := slotNs c.ctl.mu.toNat
      let s1 := s.updCh n fun c =>
        { c with
          ctl := { c.ctl with state := .running }
          crn := markCairns c.crn
          cores := ⟨c.cores.c0.updArrs fun a => a.commit true, c.cores.c1.updArrs fun a => a.commit true⟩ }
      beginSlot (parityFound s1 n tick.2) n (tauNs s / len * len) tick.2)

/-- SLOT_TICK (R611). -/
def execSlotTick (n : ChanId) (sees : List ArrSee) (s : State) : Out :=
  .next (if (s.chan n).ticking then slotTickOf s n sees else s)

/-- TICK_GAP: GUARD cc before the tick (R612). -/
def execTickGap (n : ChanId) (s : State) : Out :=
  .next (
    let c := s.chan n
    if c.ticking && !c.ctl.inGap then
      s.setChan n { c with ctl := { c.ctl with inGap := true, gap := c.ctl.gap || !c.isDrained } }
    else s)

/-- HISTOGRAM_POOL_WRITE: a due snapshot's lines are queued for the DRIP slots of their banks, ahead of the array's drip
output, which waits for them on those banks from the tick on (R296). -/
def execHistogramPoolWrite (a : ArrId) (s : State) : Out :=
  .next (
    let n := arrChan a
    let k := arrCore a
    let j := arrLoc a
    let x := (s.chan n).core k
    let h := (x.arr j).hist
    if h.due then
      let bs := h.bytes
      s.updCh n fun c => c.updCore k fun y =>
        (y.pend ((histLines y j h).map fun l =>
          { client := clDrip j, line := l, dest := .hist j
            write := some (((bs.drop (128 * (l - h.line.toNat))).take 128).zipIdx.map fun b => (128 * l + b.2, b.1)) })).updArr j
          fun r => { r with hist := { r.hist with due := false } }
    else s)

end Sys2Proof.Machine
end

