-- ==== Sys2Proof/Machine/Faults.lean ====
section
/-! DEFINITION. Faults and recovery as events (chapter 21): rollback, halt and CH_LOST acting, lockstep checking, the
comparators' self-test, the still-water detector, quarantine. -/

namespace Sys2Proof.Machine

/-- CHANNEL_ROLLBACK: a rollback ordered in the cc before acts between ticks (R667, R668). -/
def execChannelRollback (n : ChanId) (sees : List ArrSee) (s : State) : Out :=
  .next (
    let c := s.chan n
    if c.live && c.flt.rbOrder && c.flt.haltOrder.isNone && !c.flt.lostOrder then parityFound (rollbackBetween s n) n sees
    else s)

/-- HALT: a halt ordered in the cc before acts (R669, R537). -/
def execHalt (n : ChanId) (sees : List ArrSee) (s : State) : Out :=
  .next (
    let c := s.chan n
    if c.live && c.flt.haltOrder.isSome && !c.flt.lostOrder then parityFound (haltChan s n) n sees else s)

/-- CH_LOST (R670). -/
def execChLost (n : ChanId) (s : State) : Out :=
  .next (if (s.chan n).live && (s.chan n).flt.lostOrder then holdChan s n .lost else s)

/-! ### Lockstep (R681–R687) -/

/-- The cause of one cc's observations (R682). -/
def lockCause (f : CoreFlt) (o : LockObs) : Option Nat :=
  let a := o.cmpA && !f.cmpaOff
  let b := o.cmpB && !f.cmpbOff
  if o.parity then some 0x32
  else if !f.cmpaOff && !f.cmpbOff then (if a && b then some 0x30 else if a || b then some 0x31 else none)
  else if a || b then some 0x30 else none

/-- LOCKSTEP_CHECKING: one pair's observations in a cc (R682, R683, R687). -/
def execLockstepChecking (c : CoreId) (obs : LockObs) (s : State) : Out :=
  .next (
    let n := coreChan c
    let k := coreLoc c
    let f := (s.core c).flt
    if !(s.chan n).live then s
    else
      match lockCause f obs with
      | none => s
      | some cause =>
        let err (cls : Nat) (info : Nat) : Err :=
          { lvl := .core k, cause := cause, cls := cls, info := BitVec.ofNat 32 info, addr := 0 }
        if cause = 0x30 then
          let charged := decide (1 ≤ f.charges.toNat)
          let s1 := s.updCore c fun x => { x with flt := { x.flt with charges := satAdd x.flt.charges 1 } }
          let s2 := if charged then s1.updCh n fun h => { h with flt := { h.flt with quar := setBit h.flt.quar k.val } } else s1
          raise s2 n (err (if charged then 3 else 2) obs.offset.toNat)
        else
          let s1 := s.updCore c fun x => { x with flt := { x.flt with uncharged := satAdd x.flt.uncharged 1 } }
          raise s1 n (err 2 (if cause = 0x32 then obs.stage.toNat + 4 * obs.output.toNat else if obs.cmpA && !f.cmpaOff then 0 else 1)))

/-- CMP_SELFTEST: the self-test of a tick ends; `missed` has bit 0 for CMP-A, bit 1 for CMP-B (R684, R685). -/
def execCmpSelftest (c : CoreId) (missed : BitVec 2) (s : State) : Out :=
  .next (
    let n := coreChan c
    let f := (s.core c).flt
    if !(s.chan n).ticking || !f.testing then s
    else
      let m := missed &&& BitVec.ofNat 2 ((!f.cmpaOff).toNat + 2 * (!f.cmpbOff).toNat)
      let s1 := s.updCore c fun x => { x with flt := { x.flt with testing := false } }
      if m = 0 then s1
      else
        let soft := (s.chan n).cfg.selftest
        let count := (bitOf m 0).toNat + (bitOf m 1).toNat
        let s2 := s1.updCore c fun x =>
          { x with
            flt := { x.flt with
              misses := satAdd x.flt.misses count
              cmpaOff := x.flt.cmpaOff || (soft && bitOf m 0), cmpbOff := x.flt.cmpbOff || (soft && bitOf m 1) }
            cc := { x.cc with unchecked := x.cc.unchecked || soft } }
        raise s2 n { lvl := .core (coreLoc c), cause := 0x33, cls := if soft then 1 else 4, info := m.setWidth 32, addr := 0 })

/-! ### The still-water detector (R556, R691–R693) -/

/-- A command word is a BARRIER, a SIGNAL (R542). -/
def isBarrier (c : Cmd) : Bool := c.feed.isNone && fld (c.words.getD 0 0) 20 4 == 3
def isSignal (c : Cmd) : Bool := c.feed.isNone && fld (c.words.getD 0 0) 20 4 == 2

/-- The MASK of a BARRIER. -/
def barrierMask (c : Cmd) : BitVec 17 := BitVec.ofNat 17 (fld (c.words.getD 0 0) 0 17)

/-- The queues a BARRIER waits on: those of its MASK with a command pushed before it and not complete (R555). -/
def Chan.barrierOn (c : Chan) (b : Cmd) : List QId :=
  allQ.filter fun q => bitOf (barrierMask b) q.val && c.present q &&
    ((c.queue q).waiting.any (fun x => decide (x.order < b.order)) ||
      (c.queue q).issued.any fun x => decide (x.cmd.order < b.order))

/-- The queues of a quarantined core are ignored (R691). -/
def Chan.qIgnored (c : Chan) (q : QId) : Bool :=
  match qCore q with
  | some k => bitOf c.flt.quar k.val
  | none => false

/-- A WAIT that stands: at its queue's head and not satisfied. -/
def Chan.waitStands (c : Chan) (q : QId) : Bool :=
  match c.headWait q with
  | some h => decide ((c.cairn (waitCairn h)).count.toNat < waitCount h)
  | none => false

/-- One round of R556: WAITs that stand, and BARRIERs whose every queue is blocked already. -/
def Chan.blockedStep (c : Chan) (b : BitVec 17) : BitVec 17 :=
  allQ.foldl (fun m q =>
    let on := match (c.queue q).waiting with
      | h :: _ => isBarrier h && !(c.barrierOn h).isEmpty && (c.barrierOn h).all fun r => bitOf b r.val
      | [] => false
    if c.waitStands q || on then setBit m q.val else m) b

def Chan.blockedRun (c : Chan) : Nat → BitVec 17 → BitVec 17
  | 0, b => b
  | f + 1, b => c.blockedRun f (c.blockedStep b)

/-- The queues blocked on WAIT; a BARRIER waits only on commands pushed before it, so 17 rounds reach them all. -/
def Chan.blocked (c : Chan) : BitVec 17 := c.blockedRun 17 0

/-- A replay start under TRIG 1 stands (R524, R612). -/
def Chan.startStanding (c : Chan) (k : Fin 2) : Bool :=
  let x := (c.core k).cc
  c.ticking && !c.flt.rolled && x.trig && !x.list && !x.halt && (c.core k).cfg.used && !bitOf c.flt.quar k.val &&
    (c.ctl.inGap || (c.cairn x.tcairn.toNat).count == 0)

/-- A control core that has ended its replay, or is stalled on a push or a pending q register (R691). -/
def Chan.coreStill (c : Chan) (k : Fin 2) : Bool :=
  let x := (c.core k).cc
  !(c.core k).cfg.used || bitOf c.flt.quar k.val || !x.list ||
  (match x.stall with
   | some st => !st.brk
   | none => false) ||
  (match x.qwait with
   | some i => x.r.pends i.toNat
   | none => false)

/-- A source that can still raise a cairn (R692). -/
def Chan.sourceLive (c : Chan) (i : Nat) : Bool :=
  let src := (c.crnCfg i).1
  let wins := duoIx.flatMap fun k => if (c.core k).cfg.used then (c.core k).cfg.wins.map fun w => (k, w) else []
  (c.cairn i).sums.any (· != 0) ||
  (bitOf src 0 && allQ.any fun q => (c.queue q).issued.any fun x => isSignal x.cmd && fld (x.cmd.words.getD 0 0) 0 11 == i) ||
  (bitOf src 1 && (c.dma.descs.any (fun d => d.cen && d.cairn.toNat == i) ||
    c.dma.xfers.any fun x => decide (8 * x.burst < x.count))) ||
  (bitOf src 2 && (wins.any (fun w => w.2.cairn == i &&
      ((!bitOf c.flt.qwin (16 * w.1.val + w.2.id) && allParts.any fun p => c.usable p.val) ||
        c.peers.holds.any fun h => h.body.core == w.1 && h.body.win.toNat == w.2.id)) ||
    c.rp.rings.any fun r => r.en && r.cairn.toNat == i)) ||
  (bitOf src 3 && c.ticking) ||
  (bitOf src 4 && c.lch.frames.any fun f => f.cen && f.cairn.toNat == i) ||
  bitOf src 5

/-- A recorded wait: CH_DLk's index, BARRIER, WHAT, COUNT. -/
def Chan.standing (c : Chan) : List (Nat × Bool × BitVec 17 × BitVec 24) :=
  let b := c.blocked
  (allQ.filter fun q => bitOf b q.val && !c.qIgnored q).filterMap (fun q =>
    match (c.queue q).waiting with
    | h :: _ => some (if isBarrier h then (q.val, true, barrierMask h, 0)
                      else (q.val, false, BitVec.ofNat 17 (waitCairn h), BitVec.ofNat 24 (waitCount h)))
    | [] => none) ++
  (duoIx.filter c.startStanding).map fun k => (17 + k.val, false, (c.core k).cc.tcairn.setWidth 17, 1)

/-- The channel is still in this cc (R691). -/
def Chan.still (c : Chan) : Bool :=
  let w := c.standing
  let b := c.blocked
  c.working && !w.isEmpty &&
  (allQ.all fun q => c.qIgnored q ||
    ((c.queue q).issued.isEmpty && ((c.queue q).waiting.isEmpty || bitOf b q.val))) &&
  duoIx.all c.coreStill && w.all fun x => x.2.1 || !c.sourceLive x.2.2.1.toNat

/-- DEADLOCK: the channel has been still for 4,096 cc; the standing waits are recorded (R693). -/
def execDeadlock (n : ChanId) (s : State) : Out :=
  .next (
    let c := s.chan n
    if c.still && c.flt.haltOrder.isNone then
      let w := c.standing
      let dl := (List.range 19).map fun k =>
        match w.find? fun x => x.1 == k with
        | some x => (true, x.2.1, x.2.2.1, x.2.2.2)
        | none => (false, false, 0, 0)
      raise (s.setChan n { c with flt := { c.flt with swCount := 4096, dl := dl } }) n
        { lvl := .chan, cause := 0x34, cls := 4, info := BitVec.ofNat 32 w.length, addr := 0 }
    else s)

/-! ### The driver -/

/-- DRIVER_HALT: CH_FLT_CTRL.HALT while ARMED or RUNNING (R700). -/
def execDriverHalt (n : ChanId) (s : State) : Out :=
  .next (hostWr s (.driverHalt n) (chBase n + 0xA4) fun t =>
    let st := (t.chan n).ctl.state
    if st = .armed ∨ st = .running then raise t n { lvl := .chan, cause := 0x56, cls := 4, info := 0, addr := 0 } else t)

/-- QUARANTINE_RELEASE: ones written to CH_QUAR.CORE and CH_QWIN (R690). -/
def execQuarantineRelease (n : ChanId) (cores : BitVec 2) (wins : Word) (s : State) : Out :=
  .next (hostWr s (.quarantineRelease n cores wins) (chBase n + 0x9C) fun t => t.updCh n fun c =>
    let c1 := { c with flt := { c.flt with qwin := c.flt.qwin &&& ~~~wins, unquar := c.flt.unquar ||| (cores &&& c.flt.quar) } }
    if c.ticking then c1 else releaseCores c1)

end Sys2Proof.Machine
end

