-- ==== Sys2Proof/Machine/Func.lean ====
section
/-! DEFINITION. The functions of a FUNC stage (R436–R446): built-in functions in native mode, whose codes within the
bound of R437 are a free value (log 9), built-in functions in fossil mode, and user functions. Real numbers are
held as integers in units of 2^−320. -/

namespace Sys2Proof.Machine

/-! ### Reals to 320 fraction bits -/

/-- 1 in units of 2^−320. -/
def fixOne : Int := 2 ^ 320

/-- m · 2^e in units of 2^−320. -/
def fixOf (m e : Int) : Int := m * pow2Num (e + 320) / (pow2Den (e + 320) : Int)

/-- ln y of y in [1, 2], both in units of 2^−320: 2 · artanh((y − 1)/(y + 1)). -/
def fixLn (y : Int) : Int :=
  let z := (y - fixOne) * fixOne / (y + fixOne)
  let z2 := z * z / fixOne
  2 * ((List.range 110).foldl (fun (acc : Int × Int) k => (acc.1 * z2 / fixOne, acc.2 + acc.1 / (2 * k + 1 : Nat))) (z, 0)).2

def fixLn2 : Int := fixLn (2 * fixOne)

/-- e^r of r in [0, 1), in units of 2^−320. -/
def fixExpSeries (r : Int) : Int :=
  (List.range 80).foldr (fun i acc => fixOne + r * acc / (fixOne * (i + 1 : Nat))) fixOne

/-- e^a, in units of 2^−320; at least one unit, since e^a is positive. -/
def fixExp (a : Int) : Int :=
  let k := a / fixLn2
  max 1 (fixExpSeries (a - k * fixLn2) * pow2Num k / (pow2Den k : Int))

/-- 2^t of t in [0, 1], in units of 2^−320. -/
def fixExp2 (t : Int) : Int := fixExp (t * fixLn2 / fixOne)

/-- log2 of y in [1, 2], in units of 2^−320. -/
def fixLog2 (y : Int) : Int := fixLn y * fixOne / fixLn2

/-- ⌊√n⌋ by Newton's iteration from above. -/
def natSqrt (n : Nat) : Nat :=
  (List.range 24).foldl (fun x _ => min x ((x + n / x) / 2)) (2 ^ ((Nat.log2 n) / 2 + 1))

/-- 1/√(m · 2^e), in units of 2^−320. -/
def fixRsqrt (m e : Int) : Int := natSqrt ((2 ^ 960 / (fixOf m e).toNat))

/-! ### Built-in functions (R437) -/

/-- The names of R437. -/
inductive Fn where
  | sig
  | tanh
  | exp
  | exp2
  | log2
  | rcp
  | rsqrt
  | softplus
  | silu
  deriving DecidableEq, Repr

/-- The function of an ARG below 0x10; codes 0x09–0x0F are not used. -/
def fnOf (arg : Nat) : Option Fn :=
  match arg with
  | 0 => some .sig
  | 1 => some .tanh
  | 2 => some .exp
  | 3 => some .exp2
  | 4 => some .log2
  | 5 => some .rcp
  | 6 => some .rsqrt
  | 7 => some .softplus
  | 8 => some .silu
  | _ => none

def Fn.arg : Fn → BitVec 5
  | .sig => 0
  | .tanh => 1
  | .exp => 2
  | .exp2 => 3
  | .log2 => 4
  | .rcp => 5
  | .rsqrt => 6
  | .softplus => 7
  | .silu => 8

/-- The bound of R437 in ulp. -/
def Fn.bound : Fn → Nat
  | .exp => 2
  | .softplus => 2
  | _ => 1

/-- The result for ±∞. -/
def fnInf (f : Fn) (neg : Bool) : F20 × Fl :=
  match f, neg with
  | .sig, false => (f20One, 0)
  | .tanh, false => (f20One, 0)
  | .tanh, true => (0xBF000, 0)
  | .rcp, _ => (0, 0)
  | .rsqrt, false => (0, 0)
  | .log2, true => (f20Void, flIV)
  | .rsqrt, true => (f20Void, flIV)
  | _, false => (f20Inf false, 0)
  | _, true => (0, 0)

/-- m · 2^e below, at or above the decimal n / 100. -/
def cmpHundredth (m e n : Int) : Ordering := compare (100 * m * pow2Num e) (n * pow2Den e)

/-- The power of two a positive m · 2^e is, if it is one. -/
def dyPow2 (m e : Int) : Option Int :=
  let k := Nat.log2 m.toNat
  if m = 2 ^ k then some (k + e) else none

/-- Results the manual fixes for a finite x = m · 2^e: zero, outside the domain, and exact (R437, R438). -/
def fnFixed (f : Fn) (m e : Int) : Option (F20 × Fl) :=
  match f with
  | .sig => if m = 0 then some (0x3E000, 0) else none
  | .tanh => if m = 0 then some (0, 0) else none
  | .exp =>
    if m = 0 then some (f20One, 0)
    else if cmpHundredth m e (-5170) = .lt then some (0, flUF ||| flIX)
    else if cmpHundredth m e 4436 = .gt then some (f20Inf false, flOF ||| flIX)
    else none
  | .exp2 =>
    if cmpHundredth m e (-7450) = .lt then some (0, flUF ||| flIX)
    else if cmpHundredth m e 6400 != .lt then some (f20Inf false, flOF ||| flIX)
    else
      let n := m * pow2Num e / (pow2Den e : Int)
      if n * pow2Den e = m * pow2Num e then some (roundDy 1 n) else none
  | .log2 =>
    if m = 0 then some (f20Inf true, 0)
    else if m < 0 then some (f20Void, flIV)
    else (dyPow2 m e).map fun n => roundDy n 0
  | .rcp =>
    if m = 0 then some (f20Inf false, 0)
    else (dyPow2 m.natAbs e).map fun n => roundDy (if m < 0 then -1 else 1) (-n)
  | .rsqrt =>
    if m = 0 then some (f20Inf false, 0)
    else if m < 0 then some (f20Void, flIV)
    else match dyPow2 m e with
      | some n => if n % 2 = 0 then some (roundDy 1 (-(n / 2))) else none
      | none => none
  | .softplus => if cmpHundredth m e (-5170) = .lt then some (0, flUF ||| flIX) else none
  | .silu => none

/-- x put between −200 and 200, in units of 2^−320: beyond, every function here is settled to within any ulp. -/
def fixClamp (m e : Int) : Int := max (-200 * fixOne) (min (200 * fixOne) (fixOf m (min e 64)))

/-- f(x) as a fraction, for x = m · 2^e inside the domain and not covered by fnFixed. -/
def fnReal (f : Fn) (m e : Int) : Int × Nat :=
  let x := fixClamp m e
  let a : Int := x.natAbs
  let den (d : Int) : Nat := d.toNat
  match f with
  | .sig => if m < 0 then (fixExp (-a), den (fixOne + fixExp (-a))) else (fixOne, den (fixOne + fixExp (-a)))
  | .tanh =>
    let t := fixExp (-2 * min a (100 * fixOne))
    (if m < 0 then t - fixOne else fixOne - t, den (fixOne + t))
  | .exp => (fixExp x, den fixOne)
  | .exp2 => (fixExp (x * fixLn2 / fixOne), den fixOne)
  | .log2 =>
    let k : Int := Nat.log2 m.toNat
    (fixLog2 (fixOf m (-k)) + (k + e) * fixOne, den fixOne)
  | .rcp => (if m < 0 then -(pow2Den e : Int) else pow2Den e, m.natAbs * pow2Num e)
  | .rsqrt => (fixRsqrt m e, den fixOne)
  | .softplus =>
    let t := fixExp (-a)
    let l := 2 * ((List.range 110).foldl (fun (acc : Int × Int) k =>
      let z := t * fixOne / (2 * fixOne + t)
      (acc.1 * (z * z / fixOne) / fixOne, acc.2 + acc.1 / (2 * k + 1 : Nat))) (t * fixOne / (2 * fixOne + t), 0)).2
    (if m < 0 then max 1 l else fixOf m e + max 1 l, den fixOne)
  | .silu =>
    let t := fixExp (-a)
    (m * pow2Num e * (if m < 0 then t else fixOne), pow2Den e * den (fixOne + t))

/-- Whether code c lies within n ulp of the real num / den (R436). -/
def withinUlp (n : Nat) (c : F20) (num : Int) (d : Nat) : Bool :=
  match f20Dec c with
  | .fin m e =>
    let u : Int := (if num = 0 then -62 else max (floorLog2 num.natAbs d) (-62)) - 12
    let diff : Nat := (m * pow2Num e * d - num * pow2Den e).natAbs
    decide (diff * pow2Den u ≤ n * pow2Num u * (d * pow2Den e))
  | _ => false

/-- Whether the finite code c is exactly num / den. -/
def codeIs (c : F20) (num : Int) (d : Nat) : Bool :=
  match f20Dec c with
  | .fin m e => decide (m * pow2Num e * d = num * pow2Den e)
  | _ => false

/-- The flags of R274 for a delivered code when the exact result is num / den. -/
def fnFlags (c : F20) (num : Int) (d : Nat) : Fl :=
  if codeIs c num d then 0
  else if num ≠ 0 ∧ floorLog2 num.natAbs d < -62 then flUF ||| flIX
  else flIX

/-- A native function at a finite x within its domain: the code of R439, a free value within the bound of R437. -/
def nativeAt (f : Fn) (x : F20) (num : Int) (d : Nat) : F20 × Fl :=
  let near := roundFrac num d
  if near.2 &&& flOF ≠ 0 then near
  else
    let c := f20Canon (Config.nativeCode f.arg x)
    let y := if withinUlp f.bound c num d then c else near.1
    (y, fnFlags y num d)

/-- A built-in function in native mode (R437–R439). -/
def fnNative (f : Fn) (x : F20) : F20 × Fl :=
  match f20Dec x with
  | .void => (f20Void, 0)
  | .inf s => fnInf f s
  | .fin m e =>
    match fnFixed f m e with
    | some r => r
    | none =>
      if f = .tanh ∧ m < 0 then
        let r := nativeAt .tanh (f20Neg x) (fnReal .tanh (-m) e).1 (fnReal .tanh (-m) e).2
        (f20Neg r.1, r.2)
      else nativeAt f (f20Canon x) (fnReal f m e).1 (fnReal f m e).2

/-! ### Fossil mode (R444–R446) -/

def fossilFn (f : Fn) : Bool :=
  match f with
  | .softplus => false
  | .silu => false
  | _ => true

/-- g(t) of R445 for t = i · 2^e, as a fraction; EXP uses 2^t. -/
def fossilG (f : Fn) (i e : Int) : Int × Nat :=
  let t := fixOf i e
  match f with
  | .log2 => (fixLog2 (fixOne + t), fixOne.toNat)
  | .rcp => (fixOne, (fixOne + t).toNat)
  | .rsqrt => (fixRsqrt (fixOne + t) (-320), fixOne.toNat)
  | .sig => (fixOne, (fixOne + fixExp (-t)).toNat)
  | .tanh => (fixOne - fixExp (-2 * t), (fixOne + fixExp (-2 * t)).toNat)
  | _ => (fixExp2 t, fixOne.toNat)

/-- The rounded node value at i · 2^e. -/
def fossilNode (f : Fn) (i e : Int) : Num := f20Dec (roundFrac (fossilG f i e).1 (fossilG f i e).2).1

/-- a · x + b · y + c · z of three values, formed exactly and rounded once. -/
def comb3 (a b c : Int) (x y z : Num) : F20 :=
  let p := dyAdd (a * numMant x) (numExp x) (b * numMant y) (numExp y)
  let q := dyAdd p.1 p.2 (c * numMant z) (numExp z)
  (roundDy q.1 q.2).1

/-- The quadratic of R446 on the segment from i0 · 2^e with width 2^e, at t = tm · 2^te. -/
def fossilSeg (f : Fn) (i0 e tm te : Int) : F20 :=
  let f0 := fossilNode f i0 e
  let fm := fossilNode f (2 * i0 + 1) (e - 1)
  let f1 := fossilNode f (i0 + 1) e
  let c0 := (roundNum f0).1
  let c1 := comb3 4 (-3) (-1) fm f0 f1
  let c2 := comb3 2 (-4) 2 f0 fm f1
  let d := dyAdd tm te (-i0) e
  let u := (roundDy d.1 (d.2 - e)).1
  (f20Fma (f20Fma c2 u c1).1 u c0).1

/-- Segment number ⌊t / 2^e⌋ and its quadratic at t. -/
def fossilAt (f : Fn) (e tm te : Int) : F20 := fossilSeg f (tm * pow2Num (te - e) / (pow2Den (te - e) : Int)) e tm te

/-- p · 2^n rounded (R272), n held where the rounding is settled. -/
def f20Scale (p : F20) (n : Int) : F20 × Fl :=
  match f20Dec p with
  | .fin m e => roundDy m (e + max (-4000) (min 4000 n))
  | x => roundNum x

/-- EXP2 of a finite x in fossil mode. -/
def fossilExp2 (m e : Int) : F20 × Fl :=
  let n := m * pow2Num e / (pow2Den e : Int)
  let t := dyAdd m e (-n) 0
  f20Scale (fossilAt .exp2 (-6) t.1 t.2) n

/-- A reduced function of R445 at a finite, normal, non-zero x = m · 2^e. -/
def fossilMain (f : Fn) (m e : Int) : F20 × Fl :=
  let a : Int := m.natAbs
  let k : Int := Nat.log2 m.natAbs
  match f with
  | .exp2 => fossilExp2 m e
  | .exp =>
    let x' := numMul (.fin m e) (f20Dec 0x3F715)
    match f20Dec x'.1 with
    | .fin m' e' => fossilExp2 m' e'
    | .inf s => ((fnInf .exp2 s).1, if s then flUF ||| flIX else flOF ||| flIX)
    | .void => (f20Void, 0)
  | .log2 => f20Add (roundDy (k + e) 0).1 (fossilAt .log2 (-6) (m - 2 ^ k.toNat) (-k))
  | .rcp =>
    let r := f20Scale (fossilAt .rcp (-6) (a - 2 ^ k.toNat) (-k)) (-(k + e))
    (if m < 0 then f20Neg r.1 else r.1, r.2)
  | .rsqrt =>
    let n := (k + e) / 2
    let te := e - 2 * n
    let t := dyAdd m te (-1) 0
    let low := decide (t.1 * pow2Num t.2 < pow2Den t.2)
    let p := if low then fossilAt .rsqrt (-5) t.1 t.2
             else fossilAt .rsqrt (-4) t.1 t.2
    f20Scale p (-n)
  | .sig =>
    let p := if 16 * pow2Den e ≤ a * pow2Num e then f20One else fossilAt .sig (-2) a e
    if m < 0 then f20Add f20One (f20Neg p) else (p, 0)
  | .tanh =>
    let p := if 8 * pow2Den e ≤ a * pow2Num e then f20One else fossilAt .tanh (-3) a e
    (if m < 0 then f20Neg p else p, 0)
  | _ => (f20Void, 0)

/-- Whether f(x) is exactly representable at a finite non-zero x (R438). -/
def fnExact (f : Fn) (m e : Int) : Bool :=
  match f with
  | .exp2 => decide (m * pow2Num e % (pow2Den e : Int) = 0)
  | .log2 => (dyPow2 m e).isSome
  | .rcp => (dyPow2 m.natAbs e).isSome
  | .rsqrt => match dyPow2 m e with
    | some n => decide (n % 2 = 0)
    | none => false
  | _ => false

/-- A built-in function in fossil mode: the code of R445 and R446, with the flags R274 and R438 give the delivered
result against the exact value of the function (log 17). -/
def fnFossil (f : Fn) (x : F20) : F20 × Fl :=
  let x := if f20Exp x = 0 then 0 else x
  match f20Dec x with
  | .void => (f20Void, 0)
  | .inf s => fnInf f s
  | .fin m e =>
    if m = 0 ∨ (m < 0 ∧ (f = .log2 ∨ f = .rsqrt)) then (fnFixed f m e).getD (f20Void, 0)
    else
      let r := fossilMain f m e
      let y := fnReal f m e
      (f20Canon r.1,
        if r.2 &&& flOF ≠ 0 then flOF ||| flIX
        else if fnExact f m e then r.2
        else fnFlags r.1 y.1 y.2)

/-- A built-in function of an array in its mode (R444). -/
def fnEval (fossil : Bool) (f : Fn) (x : F20) : F20 × Fl :=
  if fossil && fossilFn f then fnFossil f x else fnNative f x

/-! ### User functions (R440–R442) -/

/-- The machine of R441: w0–w3, k, flags. -/
structure UState where
  w : List F20
  k : Int
  fl : Fl
  deriving DecidableEq, Repr

def uField (st : BitVec 64) (lo n : Nat) : Nat := (st.toNat / 2 ^ lo) % 2 ^ n

/-- Operand codes of R441. -/
def uOperand (st : BitVec 64) (x : F20) (u : UState) (code : Nat) (neg : Bool) : F20 :=
  let v : F20 :=
    match code with
    | 0 => x
    | 5 => (roundDy u.k 0).1
    | 6 => BitVec.ofNat 20 (uField st 18 20)
    | 7 => BitVec.ofNat 20 (uField st 38 20)
    | n => u.w.getD (n - 1) 0
  if neg then f20Neg v else f20Canon v

def uSigned (v n : Nat) : Int := if v < 2 ^ (n - 1) then v else (v : Int) - 2 ^ n

def uSet (u : UState) (i : Nat) (r : F20 × Fl) : UState := { u with w := u.w.set i r.1, fl := u.fl ||| r.2 }

/-- RED: argument reduction. A void or an infinity that earlier steps made passes through. -/
def uRed (mode : Nat) (k1 k2 a : F20) (dst : Nat) (u : UState) : UState :=
  match f20Dec a, f20Dec k1 with
  | .fin m e, .fin m1 e1 =>
    if mode = 2 then
      let k : Int := if m = 0 then -1024 else Nat.log2 m.natAbs + e
      { uSet u dst (roundDy m (if m = 0 then 0 else e - k)) with k := k }
    else
      let p := m * m1
      let q := e + e1
      let k := if mode = 0 then p * pow2Num q / (pow2Den q : Int) else rneScale p q
      let k := max (-1024) (min 1023 k)
      { uSet u dst (numFma (.fin (-k) 0) (f20Dec k2) (.fin m e)) with k := k }
  | .inf s, _ => uSet u dst (f20Inf s, 0)
  | _, _ => uSet u dst (f20Void, 0)

/-- LUT: table lookup with its fraction. -/
def uLut (st : BitVec 64) (table : List F20) (a : F20) (u : UState) : UState :=
  let base := uField st 18 8
  let imax := uField st 26 8
  let wdt := uField st 34 2
  let off := uSigned (uField st 38 8) 8
  let sh := uSigned (uField st 46 5) 5
  let pick (i : Nat) (j : Nat) : F20 := if j < wdt then f20Canon (table.getD (base + wdt * i + j) 0) else 0
  let put (i : Nat) (w0 : F20 × Fl) : UState :=
    { u with w := [w0.1, pick i 0, pick i 1, pick i 2], fl := u.fl ||| w0.2 }
  match f20Dec a with
  | .void => put 0 (f20Void, 0)
  | .inf s => if s then put 0 (0, 0) else put imax (f20One, 0)
  | .fin m e =>
    let fl := m * pow2Num (e + sh) / (pow2Den (e + sh) : Int)
    let i := fl - off
    if i < 0 then put 0 (0, 0)
    else if (imax : Int) < i then put imax (f20One, 0)
    else
      let t := dyAdd m (e + sh) (-fl) 0
      put i.toNat (roundDy t.1 t.2)

/-- One step word (R442). -/
def uStep (table : List F20) (x : F20) (u : UState) (st : BitVec 64) : UState :=
  let neg := uField st 13 3
  let a := uOperand st x u (uField st 4 3) (neg % 2 = 1)
  let b := uOperand st x u (uField st 7 3) (neg / 2 % 2 = 1)
  let c := uOperand st x u (uField st 10 3) (neg / 4 = 1)
  let dst := uField st 16 2
  match uField st 0 4 with
  | 1 => uRed (uField st 58 2) (BitVec.ofNat 20 (uField st 18 20)) (BitVec.ofNat 20 (uField st 38 20)) a dst u
  | 2 => uLut st table a u
  | 3 =>
    let w (i : Nat) : F20 := u.w.getD i 0
    let r := f20Fma (w 3) (w 0) (w 2)
    let q := f20Fma r.1 (w 0) (w 1)
    uSet u dst (q.1, r.2 ||| q.2)
  | 4 => uSet u dst (f20Scale a (if uField st 58 1 = 1 then -u.k else u.k))
  | 5 => uSet u dst (f20Fma a b c)
  | _ => u

/-- A user function: a void input gives void, an infinite one acts as ±MAX (R440). -/
def fnUser (steps : List (BitVec 64)) (table : List F20) (x : F20) : F20 × Fl :=
  match f20Dec x with
  | .void => (f20Void, 0)
  | d =>
    let x' : F20 := match d with
      | .inf true => 0xFEFFF
      | .inf false => f20Max
      | _ => f20Canon x
    let u := steps.foldl (uStep table x') { w := [0, 0, 0, 0], k := 0, fl := 0 }
    let dst := match steps.getLast? with
      | some st => if uField st 0 4 = 2 then 0 else uField st 16 2
      | none => 0
    (u.w.getD dst 0, u.fl)

end Sys2Proof.Machine
end

