-- ==== Sys2Proof/Machine/Radio.lean ====
section
/-! DEFINITION. The radio port and its receive rings (chapters 02 and 20). -/

namespace Sys2Proof.Machine

/-- RPn_EN (R656). -/
def Chan.rpEn (c : Chan) : Bool := c.cfg.radioEn && c.live

/-- RP_RINGr_CFG.BAD (R660). -/
def Chan.ringBad (c : Chan) (r : Ring) : Bool :=
  let bs := r.logbs.toNat
  (r.type != 1 && r.type != 2) || (r.form == 1 && decide (bs < 3 ∨ 10 < bs)) || (r.form == 2 && decide (bs < 4 ∨ 10 < bs)) ||
  decide (r.elines.toNat < 2) || decide (4096 < r.base.toNat + (r.nent.toNat + 1) * r.elines.toNat) ||
  !(c.core r.core).cfg.used

/-! ### Frames in (R657–R661) -/

/-- A field of the header beat. -/
def hdrF (f : List Byte) (o n : Nat) : Nat := leNat ((f.drop o).take n)

/-- V: complex values of a frame (R658). -/
def frameV (f : List Byte) : Nat :=
  if hdrF f 0 1 = 1 then hdrF f 0x0A 1 * hdrF f 0x0B 1 * hdrF f 0x0E 2 else hdrF f 0x10 4

/-- A frame that R95 or R658 calls malformed. -/
def frameBad (f : List Byte) : Bool :=
  let ty := hdrF f 0 1
  let v := frameV f
  (ty != 1 && ty != 2) || hdrF f 2 1 / 16 != 0 || hdrF f 3 1 % 128 != 0 || hdrF f 0x1C 4 != 0 ||
  (ty == 2 && hdrF f 0x0E 2 != 0) || (ty == 1 && hdrF f 0x10 4 != 0) || v == 0 || hdrF f 4 2 != ceilDiv (4 * v) 32 ||
  f.length != 32 * (hdrF f 4 2 + 1)

/-- Two nibble codes to a byte, element 2k low (R263). -/
def packNibbles : List Byte → List Byte
  | [] => []
  | [a] => [a &&& 0x0F]
  | a :: b :: t => ((a &&& 0x0F) ||| (b <<< 4)) :: packNibbles t

/-- Consecutive runs of `n` values; the last holds the remainder. -/
def blocksOf {α : Type} (n : Nat) (l : List α) : List (List α) :=
  (List.range (ceilDiv l.length n)).map fun i => (l.drop (n * i)).take n

/-- F20 values padded (R278). -/
def padF20 (l : List F20) : List Byte := l.flatMap fun v => natLe 4 v.toNat

/-- The body of a ring entry under a FORM, and its flags (R661). -/
def ringBody (form : BitVec 2) (logbs frac : Nat) (body : List Byte) (v : Nat) : List Byte × Fl :=
  let q (i : Nat) : BitVec 16 := BitVec.ofNat 16 (leNat ((body.drop (2 * i)).take 2))
  let els := (List.range (2 * v)).map q
  let blocks (fm : Fmt) : List Block := (blocksOf (2 ^ logbs) els).map (blockQ16 fm frac)
  match form with
  | 0 => (body.take (4 * v), 0)
  | 1 =>
    let bs := blocks .s8
    (bs.flatMap (·.codes) ++ bs.map (·.scale), bs.foldl (fun f b => f ||| b.flags) 0)
  | 2 =>
    let bs := blocks .s4
    (packNibbles (bs.flatMap (·.codes)) ++ bs.map (·.scale), bs.foldl (fun f b => f ||| b.flags) 0)
  | 3 =>
    let is := (List.range v).map fun i => q16ToF20 (q (2 * i)) frac
    let qs := (List.range v).map fun i => q16ToF20 (q (2 * i + 1)) frac
    let a := padF20 (is.map (·.1))
    (a ++ List.replicate (ceilDiv a.length 128 * 128 - a.length) 0 ++ padF20 (qs.map (·.1)),
      (is ++ qs).foldl (fun f r => f ||| r.2) 0)

/-- The ring writes of a frame: its lines, with the beats of the inbound buffer each empties: the header beat with line
0, the body's beats spread evenly over the other lines (log 35). -/
def ringWrites (r : Ring) (i : Fin 4) (serial e beats : Nat) (bytes : List Byte) : List (Fin 2 × PoolAcc) :=
  let ls := lineWrites clDma (128 * (r.base.toNat + r.elines.toNat * e)) bytes (.ring i serial 1)
  let n := ls.length - 1
  ls.zipIdx.map fun a =>
    (r.core, { a.1 with dest := .ring i serial (if a.2 = 0 then 1 else beats * a.2 / n - beats * (a.2 - 1) / n) })

/-- A frame the port accepts goes to the first ring that takes it, as line writes of its entry (R660–R662). -/
def ringTake (s : State) (n : ChanId) (rxtime : BitVec 64) (f : List Byte) : State :=
  let c := s.chan n
  let cnt (g : Rp → Rp) : State := s.updCh n fun c => { c with rp := g c.rp }
  match c.rp.rings.zipIdx.find? fun r => r.1.en && !c.ringBad r.1 && r.1.type.toNat == hdrF f 0 1 &&
      r.1.stream.toNat == hdrF f 1 1 with
  | none => cnt fun p => { p with noMatch := satAdd p.noMatch 1 }
  | some (r, i) =>
    let b := ringBody r.form r.logbs.toNat (hdrF f 2 1 % 16) (f.drop 32) (frameV f)
    if r.elines.toNat < 1 + ceilDiv b.1.length 128 then cnt fun p => { p with tooBig := satAdd p.tooBig 1 }
    else
      let e := r.next.toNat % (r.nent.toNat + 1)
      let head := f.take 32 ++ natLe 8 rxtime.toNat ++ List.replicate 88 0
      s.updCh n fun c =>
        let inq := c.rp.inq ++ ringWrites r (Fin.ofNat 4 i) c.rp.serial e (f.length / 32 - 1) (head ++ b.1)
        ringPump inq.length { c with rp := { c.rp with
          ix := c.rp.ix || b.2 &&& flIX != 0, inq := inq, serial := c.rp.serial + 1
          rings := listUpd c.rp.rings i fun x => { x with next := BitVec.ofNat 4 ((e + 1) % (r.nent.toNat + 1)) } } }

/-- An inbound frame (R95, R658). One that begins while the host holds no credit is dropped as an overrun (R96); while
some are left the host sends on as the buffer empties (R92, log 35). -/
def radioIn (s : State) (n : ChanId) (rxtime : BitVec 64) (f : List Byte) : State :=
  if !(s.chan n).rpEn then s
  else if (s.chan n).rp.credits = 0 then portErr s n 10
  else if frameBad f then portErr s n 9
  else ringTake s n rxtime f

/-! ### The rows -/

/-- A frame arrives whole: at least its header beat and a body beat, in whole beats. -/
def frameShape (f : List Byte) : Bool := decide (64 ≤ f.length) && f.length % 32 == 0

/-- GRID: a frame of another inbound TYPE has a row of its own. -/
def execGrid (n : ChanId) (rxtime : BitVec 64) (frame : List Byte) (s : State) : Out :=
  if frameShape frame then .next (if hdrF frame 0 1 = 2 then s else radioIn s n rxtime frame) else .fault .illFormed

/-- SAMPLE. -/
def execSample (n : ChanId) (rxtime : BitVec 64) (frame : List Byte) (s : State) : Out :=
  if frameShape frame then .next (if hdrF frame 0 1 = 1 then s else radioIn s n rxtime frame) else .fault .illFormed

/-- RING_ENTRY_WRITTEN: an entry whose last line has been granted raises its ring's cairn (R662). -/
def execRingEntryWritten (n : ChanId) (r : Fin 4) (s : State) : Out :=
  .next (
    let x := (s.chan n).rp.rings.getD r.val Ring.reset
    if x.due = 0 then s
    else
      crnInc (s.updCh n fun c => { c with rp := { c.rp with
        frames := wrapAdd c.rp.frames 1
        rings := listUpd c.rp.rings r.val fun y => { y with due := y.due - 1, frames := wrapAdd y.frames 1 } } })
        n x.cairn.toNat clsPeer 1)

/-- RADIO_OUTBOUND_CREDIT: spent by a waiting beat, or held, up to 255 (R91, R93). -/
def execRadioOutboundCredit (n : ChanId) (s : State) : Out :=
  .next (s.updCh n fun c =>
    if !c.rpEn then c
    else if c.rp.owed ≠ 0 then { c with rp := { c.rp with owed := c.rp.owed - 1 } }
    else { c with rp := { c.rp with ocredit := satAdd c.rp.ocredit 1 } })

/-- MALFORMED_RADIO_FRAME: dropped, RP_MALFORM (R95). -/
def execMalformedRadioFrame (n : ChanId) (s : State) : Out :=
  .next (if (s.chan n).rpEn then portErr s n 9 else s)

/-- RADIO_INBOUND_OVERRUN: its frame is dropped, RP_OVERRUN (R96). -/
def execRadioInboundOverrun (n : ChanId) (s : State) : Out :=
  .next (if (s.chan n).rpEn then portErr s n 10 else s)

/-- RP_CLEAR: RP_CTRL.CLEAR (R665). -/
def execRpClear (n : ChanId) (s : State) : Out :=
  .next (hostWr s (.rpClear n) (chBase n + 0x50014) fun t => t.updCh n fun c =>
    { c with rp := { c.rp with frames := 0, noMatch := 0, tooBig := 0, oType := 0, sent := 0 } })

end Sys2Proof.Machine
end

