-- ==== Sys2Proof/Machine/Operands.lean ====
section
/-! DEFINITION. The words of station commands (chapter 16): layouts and reserved fields, profiles with the command's
words put in, F20 layouts and tile streams, and the pool ranges and tile registers a command declares at issue. -/

namespace Sys2Proof.Machine

/-! ### Fields -/

def Cmd.w (c : Cmd) (i : Nat) : Word := c.words.getD i 0
def Cmd.opc (c : Cmd) : Nat := fld (c.w 0) 20 4
def Cmd.tag (c : Cmd) : Byte := BitVec.ofNat 8 (fld (c.w 0) 24 8)

def flag (w : Word) (i : Nat) : Bool := fld w i 1 == 1

/-- A signed 8-bit field. -/
def sfld (w : Word) (lo : Nat) : Int := (w.extractLsb' lo 8).toInt

/-- An F20 code given by its bits [19:4]. -/
def f20Hi (w : Word) (lo : Nat) : F20 := BitVec.ofNat 20 (16 * fld w lo 16)

/-! ### F20 in the pool (R278) -/

/-- Bytes of a run of N values: padded, or packed in whole groups of 20 bytes. -/
def f20Bytes (pack : Bool) (n : Nat) : Nat := if pack then 20 * ceilDiv n 8 else 4 * n

/-- Where value i of a run lies: first byte, bytes read, shift. -/
def f20Place (pack : Bool) (i : Nat) : Nat × Nat × Nat :=
  if pack then (5 * (i / 2) + 2 * (i % 2), 3, 4 * (i % 2)) else (4 * i, 4, 0)

/-- Value i of a run of bytes. -/
def f20Of (pack : Bool) (bs : List Byte) (i : Nat) : F20 :=
  let p := f20Place pack i
  BitVec.ofNat 20 (leNat ((bs.drop p.1).take p.2.1) / 2 ^ p.2.2)

def f20List (pack : Bool) (bs : List Byte) (n : Nat) : List F20 := (List.range n).map (f20Of pack bs)

/-- Packed bytes of values from an even position on. -/
def packF20 : List F20 → List Byte
  | [] => []
  | [a] => natLe 5 a.toNat
  | a :: b :: t => natLe 5 (a.toNat + b.toNat * 2 ^ 20) ++ packF20 t

/-- The bytes that write values from a group's start on; the rest of the last group is 0. -/
def f20Write (pack : Bool) (l : List F20) : List Byte :=
  if pack then
    let b := packF20 l
    b ++ List.replicate (f20Bytes true l.length - b.length) 0
  else padF20 l

/-! ### Tile streams (R457) -/

/-- The key of element e of a tile stream with base (T, ρ0). -/
def tileKey (t rho : Nat) (tr : Bool) (e : Nat) : Nat :=
  let e := if tr then 1024 * (e / 1024) + 32 * (e % 32) + e % 1024 / 32 else e
  let r := rho + e / 32
  (t + r / 32) % 8 * 1024 + r % 32 * 32 + e % 32

/-- The tile registers that n elements of a stream touch. -/
def tileSet (t rho n : Nat) : Byte :=
  if n = 0 then 0
  else (List.range (min 8 ((rho + (n - 1) / 32) / 32 + 1))).foldl (fun m i => setBit m ((t + i) % 8)) 0

/-! ### Layouts (R542–R544, R549) -/

inductive Station where
  | feed
  | arr
  | gate
  | lane
  | dma
  | launch
  | peer
  deriving DecidableEq, Repr

def stationOf (q : QId) : Station :=
  if q = dmaQ then .dma else if q = launchQ then .launch else if q = peerQ then .peer
  else match q.val % 7 with
    | 0 => .feed
    | 1 => .feed
    | 2 => .arr
    | 3 => .arr
    | 4 => .gate
    | 5 => .gate
    | _ => .lane

/-- The local array of a core station's queue. -/
def qArr (q : QId) : Fin 2 := if q.val % 7 % 2 = 0 then 0 else 1

/-- The QUEUE code of R516. -/
def queueCode (q : QId) : BitVec 4 := BitVec.ofNat 4 (if q.val < 14 then q.val % 7 else q.val - 7)

/-- Words of a command and the bits each may use; word 0 less TAG and OPC. -/
structure Layout where
  lo    : Nat
  hi    : Nat
  masks : List Nat
  deriving DecidableEq, Repr

def popcount (n bits : Nat) : Nat := ((List.range bits).filter fun i => n / 2 ^ i % 2 == 1).length

/-- The layout of an opcode of a station; none when the queue does not list it. -/
def layoutOf (st : Station) (opc : Nat) (w1 : Word) : Option Layout :=
  let all := 0xFFFFFFFF
  let addr := 0x7FFFF
  match opc with
  | 1 => some ⟨2, 2, [0x7FF, 0xFFFFFF]⟩
  | 2 => some ⟨1, 1, [0x7FFFF]⟩
  | 3 => some ⟨1, 1, [0x1FFFF]⟩
  | 8 => match st with
    | .feed => some ⟨2, 2, [0x3FFFF, 0xFFFFFF]⟩
    | .arr => some ⟨2, 2, [0xFF, addr]⟩
    | .gate => some ⟨2, 4, [0xF, 0xFFFF, 0xFFFF, 0xFFFF]⟩
    | .lane =>
      let n := popcount (fld w1 24 6) 6
      some ⟨5 + n, 5 + n, [0x1FFFF, 0x3FFFFFFF, 0xFFFFF, 0xFFFFF, all, all, all, all, all, all, all]⟩
    | .dma => some ⟨3, 5, [0x1FF, 0xFFFFFFE0, 0xFFFF, 0x83FFFFFF, 0x83FFFFFF]⟩
    | .launch => some ⟨5, 5, [0x3FFFF, all, all, all, 0xFFFFF]⟩
    | .peer => some ⟨4, 4, [0x1FF, addr, 0x7FFFFF, 0xFFFFFF]⟩
  | 9 => match st with
    | .arr => some ⟨2, 2, [0xFFF, addr]⟩
    | .lane => some ⟨2, 2, [0x3FFFF, addr]⟩
    | _ => none
  | 10 => match st with
    | .arr => some ⟨3, 6, [0xF, addr, 0xFFFF, addr, addr, 0xFFFF]⟩
    | .lane => some ⟨7, 7, [0x1FFFF, 0xFFFFFF, addr, addr, all, addr, 0xFFFF]⟩
    | _ => none
  | 11 => if st = .arr then
      some ⟨3, 8, [0xF, addr, 0x3FFFFFF, 0xFFFF, 0x8007FFFF, 0x8007FFFF, 0x8007FFFF, 0x8007FFFF]⟩ else none
  | 12 => if st = .arr then some ⟨2, 2, [0xFFFFF, addr]⟩ else none
  | 13 => if st = .arr then some ⟨2, 2, [0xFFFFF, addr]⟩ else none
  | 14 => if st = .arr then some ⟨2, 4, [0xF, all, addr, addr]⟩ else none
  | _ => none

/-- Word counts and reserved fields of a command (R543). -/
def Cmd.formOk (c : Cmd) (l : Layout) : Bool :=
  decide (l.lo ≤ c.words.length) && decide (c.words.length ≤ l.hi) &&
  (List.range c.words.length).all fun i =>
    let used := l.masks.getD i 0 + (if i = 0 then 0xFFF00000 else 0)
    (c.w i &&& ~~~(BitVec.ofNat 32 used)) == 0

/-! ### Profiles (R558–R560, R709) -/

def Arr.profile (a : Arr) (k : Nat) : List Word := smGetList 0 a.profiles (32 * k) 32

/-- The bits each word of a profile may use under its KIND; a word not listed is 0. -/
def profMask (kind nseq i : Nat) : Nat :=
  let all := 0xFFFFFFFF
  let drip := if i = 8 then 0xFFFFFF else if 9 ≤ i ∧ i ≤ 11 then all else 0
  let seq := if 12 ≤ i ∧ i < 12 + 2 * nseq then (if i % 2 = 0 then 0x1F1F3F else all) else 0
  match kind with
  | 1 => match i with
    | 0 => 0x01FFFFFF
    | 1 => all
    | 4 => 0x7FFFF
    | 6 => 0x1F00FF
    | 7 => all
    | _ => drip
  | 2 => match i with
    | 0 => 0x3FFFFFFF
    | 1 => all
    | 2 => all
    | 3 => all
    | 4 => 0x7FFFF
    | 5 => all
    | 6 => 0xFFFFFF
    | 7 => all
    | _ => if 24 ≤ i ∧ i ≤ 27 then 0x8007FFFF else drip + seq
  | 3 => match i with
    | 0 => 0xF
    | 6 => 0xFF
    | _ => drip
  | 4 => match i with
    | 0 => 0x3800000F
    | 5 => 0xFFFF
    | 6 => 0xFF00
    | 7 => 0xFFFF
    | 24 => 0xFF01FFFF
    | 25 => 0xFFFFFF
    | 26 => all
    | 27 => all
    | 28 => 0xFFFFF
    | _ => seq
  | _ => 0

/-- A profile of the KIND a command needs, with nothing its KIND does not use (R543, R709). -/
def profOk (p : List Word) (kind : Nat) : Bool :=
  let w0 := p.getD 0 0
  fld w0 0 4 == kind && (List.range 32).all fun i =>
    (p.getD i 0 &&& ~~~(BitVec.ofNat 32 (profMask kind (min 6 (fld w0 27 3)) i))) == 0

/-- A word of the command over a field of the profile, when the command has it (R544). -/
def putWord (c : Cmd) (i : Nat) (p : List Word) (k : Nat) (mask : Nat) : List Word :=
  if i < c.words.length then
    p.set k ((p.getD k 0 &&& ~~~(BitVec.ofNat 32 mask)) ||| (c.w i &&& BitVec.ofNat 32 mask))
  else p

/-- The profile an MPASS, STEP, DRAIN or CHAIN reads at issue, with its words put in; word 32 is XADDR. -/
def Cmd.prof (c : Cmd) (a : Arr) : List Word :=
  let p := a.profile (fld (c.w 0) 0 4) ++ [c.w 1]
  let q := if c.opc = 10 then putWord c 5 (putWord c 4 (putWord c 3 p 9 0xFFFFFFFF) 10 0xFFFFFFFF) 7 0xFFFF
    else if c.opc = 11 then
      (List.range 4).foldl (fun q i => putWord c (4 + i) q (24 + i) 0xFFFFFFFF) (putWord c 3 p 7 0xFFFF)
    else if c.opc = 14 then putWord c 3 (putWord c 2 p 9 0xFFFFFFFF) 10 0xFFFFFFFF
    else putWord c 3 (putWord c 2 p 7 0xFFFF) 25 0xFFFF
  q

abbrev Prof := List Word

def pw (p : Prof) (i : Nat) : Word := p.getD i 0
def pfPart (p : Prof) : Nat := fld (pw p 0) 4 3
def pfLogr (p : Prof) : Nat := fld (pw p 0) 7 3
def pfR (p : Prof) : Nat := 2 ^ pfLogr p
def pfW4 (p : Prof) : Bool := flag (pw p 0) 10
def pfMode (p : Prof) : Nat := fld (pw p 0) 13 3
def pfEmitBit (p : Prof) : Bool := flag (pw p 0) 16
def pfFeed (p : Prof) : Bool := flag (pw p 0) 17
def pfG (p : Prof) : Nat := 2 ^ fld (pw p 0) 18 3
def pfXbs (p : Prof) : Nat := 2 ^ fld (pw p 0) 21 4
def pfBqCode (p : Prof) : Nat := fld (pw p 0) 25 2
def pfNseq (p : Prof) : Nat := fld (pw p 0) 27 3
def pfPool (p : Prof) (i : Nat) : Bool := bitOf (pw p 1) i
def pfLoop (p : Prof) (i : Nat) : Bool := bitOf (pw p 2) i
def pfSib (p : Prof) (i : Nat) : Bool := bitOf (pw p 3) i
def pfXstr (p : Prof) : Nat := fld (pw p 4) 0 19
def pfHS (p : Prof) : Nat := fld (pw p 5) 0 16
def pfHL (p : Prof) : Nat := fld (pw p 5) 16 16
def pfX (p : Prof) : Int := sfld (pw p 6) 0
def pfXS (p : Prof) : Int := sfld (pw p 6) 8
def pfDC (p : Prof) : Nat := 32 * fld (pw p 6) 16 5
def pfSibPart (p : Prof) : Nat := fld (pw p 6) 21 3
def pfB (p : Prof) : Nat := fld (pw p 7) 0 16
def pfStride (p : Prof) : Nat := fld (pw p 7) 16 16
def pfAct (p : Prof) : Nat := fld (pw p 8) 0 3
def pfDdest (p : Prof) : Nat := fld (pw p 8) 3 3
def pfQF (p : Prof) : Nat := fld (pw p 8) 6 4
def pfDbs (p : Prof) : Nat := 2 ^ fld (pw p 8) 10 4
def pfDP (p : Prof) : Nat := fld (pw p 8) 14 10
def pfLO (p : Prof) : F20 := f20Hi (pw p 11) 0
def pfHI (p : Prof) : F20 := f20Hi (pw p 11) 16
def pfXaddr (p : Prof) : Nat := fld (pw p 32) 0 19

/-- A SEQ entry: descriptor, first and last lane group, lane mask (R381). -/
structure SeqEnt where
  desc  : Nat
  first : Nat
  last  : Nat
  mask  : Word
  deriving DecidableEq, Repr

def pfSeq (p : Prof) : List SeqEnt :=
  (List.range (min 6 (pfNseq p))).map fun i =>
    { desc := fld (pw p (12 + 2 * i)) 0 6, first := fld (pw p (12 + 2 * i)) 8 5, last := fld (pw p (12 + 2 * i)) 16 5
      mask := pw p (13 + 2 * i) }

/-- MASK, INIT, FLAGS, CSEL of a STEP: the address, when present. -/
def pfOpt (p : Prof) (i : Nat) : Option Nat := if flag (pw p (24 + i)) 31 then some (fld (pw p (24 + i)) 0 19) else none

/-- E: elements of a slice (R301). -/
def pfE (p : Prof) : Nat := if pfW4 p then 64 else 32
def pfXFmt (p : Prof) : Fmt := if pfW4 p then (if flag (pw p 0) 12 then .s4 else .u4) else if flag (pw p 0) 12 then .s8 else .u8
def pfWFmt (p : Prof) : Fmt := if pfW4 p then (if flag (pw p 0) 11 then .s4 else .u4) else if flag (pw p 0) 11 then .s8 else .u8

/-- BQ of R357. -/
def pfBQ (p : Prof) : Nat := pfE p / 4 * 2 ^ pfBqCode p

/-- The pool rows of a shape, in ascending order. -/
def pfPoolRows (p : Prof) : List Nat := (List.range (pfR p)).filter (pfPool p)

def modeDirect : Nat := 0
def modeOver : Nat := 1
def modeAcc : Nat := 2
def modeDecay : Nat := 3
def modeAinto : Nat := 4
def modeSpan : Nat := 5

/-- A pass whose values go to the drip stage (R349, R392, R563). -/
def pfEmits (p : Prof) : Bool :=
  pfMode p == modeDirect || pfMode p == modeSpan || (pfEmitBit p && pfMode p != modeAinto)

def Arr.partOf (a : Arr) (k : Nat) : Option Part := a.cfg.parts[k]?

/-- c of a partition under a shape (R300). -/
def partCols (t : Part) (p : Prof) : Nat := 128 * t.bands / pfR p

/-- Columns of a pass; 0 when its partition is not defined. -/
def Arr.cols (a : Arr) (p : Prof) : Nat :=
  match a.partOf (pfPart p) with
  | some t => partCols t p
  | none => 0

/-! ### Declared pool ranges (R483, R492, R552) -/

/-- Bytes of one operand in a pool. -/
structure Span where
  core  : Fin 2
  off   : Nat
  len   : Nat
  write : Bool
  deriving DecidableEq, Repr

/-- Bytes rounded up to whole lines. -/
def up128 (n : Nat) : Nat := 128 * ceilDiv n 128

/-- The drip output of n values to the pool. -/
def dripSpans (k : Fin 2) (p : Prof) (n : Nat) : List Span :=
  let at_ (i len : Nat) : Span := { core := k, off := fld (pw p i) 0 32, len := len, write := true }
  match pfDdest p with
  | 2 => [at_ 9 (4 * n)]
  | 3 => [at_ 9 (f20Bytes true n)]
  | 4 => [at_ 9 n, at_ 10 (ceilDiv n (pfDbs p))]
  | 5 => [at_ 9 (ceilDiv n 2), at_ 10 (ceilDiv n (pfDbs p))]
  | 6 => [at_ 9 (2 * n)]
  | _ => []

/-- Vectors of a pass: VECS, or SLOTS · STEPS. -/
def Cmd.slots (c : Cmd) : Nat := if c.opc = 11 then fld (c.w 2) 16 10 + 1 else 1
def Cmd.steps (c : Cmd) : Nat := fld (c.w 2) 0 16 + 1
def Cmd.vecs (c : Cmd) : Nat := c.slots * c.steps

/-- Bytes of one step's mask and FINAL bits (R373, R377). -/
def maskLen (n : Nat) : Nat := up128 (ceilDiv n 4)
def finalLen (n : Nat) : Nat := up128 (ceilDiv n 8)

/-- E8 codes of one vector (R562). -/
def pfCodes (p : Prof) : Nat := (pfPoolRows p).length * pfE p / pfXbs p

def passSpans (k : Fin 2) (c : Cmd) (p : Prof) (cols : Nat) : List Span :=
  let rd (off len : Nat) : Span := { core := k, off := off, len := len, write := false }
  let rows := (pfPoolRows p).length
  let v := c.vecs
  let inp := if rows = 0 then [] else
    [rd (pfXaddr p) ((v - 1) * pfXstr p + 32 * rows), rd (pfXaddr p + v * pfXstr p) (v * pfCodes p)]
  let opt (i : Nat) (f : Nat → Span) : List Span := ((pfOpt p i).map f).toList
  let stp := if c.opc = 11 then
      opt 0 (fun a => rd a (c.steps * maskLen c.slots)) ++ opt 1 (fun a => rd a (f20Bytes true (pfHL p))) ++
      opt 3 (fun a => rd a c.slots) ++
      opt 2 (fun a => { core := k, off := a, len := c.steps * finalLen c.slots, write := true })
    else []
  inp ++ stp ++ (if pfEmits p then dripSpans k p (v * cols) else [])

/-- A stream word of an LRUN (R549). -/
inductive Strm where
  | none
  | tile (t rho : Nat) (tr : Bool)
  | pool (addr : Nat) (pack : Bool)
  | fin (peer : Bool)
  deriving DecidableEq, Repr

def strmOf (w : Word) : Strm :=
  match fld w 30 2 with
  | 1 => .tile (fld w 0 3) (fld w 3 5) (flag w 29)
  | 2 => .pool (fld w 0 19) (flag w 29)
  | 3 => .fin (flag w 29)
  | _ => .none

/-- The form of a stream word; an end is allowed for D0 and D1 only. -/
def strmOk (w : Word) (out : Bool) : Bool :=
  match fld w 30 2 with
  | 0 => w == 0
  | 1 => fld w 8 21 == 0
  | 2 => fld w 19 10 == 0 && fld w 0 2 == 0
  | _ => out && fld w 0 29 == 0

/-- Stream i of an LRUN: S0–S3, D0, D1. -/
def Cmd.strmWord (c : Cmd) (i : Nat) : Word :=
  let pres := fld (c.w 1) 24 6
  if pres / 2 ^ i % 2 = 1 then c.w (5 + popcount (pres % 2 ^ i) 6) else 0

def Cmd.strm (c : Cmd) (i : Nat) : Strm := strmOf (c.strmWord i)

def lrunN (c : Cmd) : Nat := fld (c.w 1) 0 16 + 1

/-- Results of a reduction over N elements (R472). -/
def redCount (axis n : Nat) : Nat :=
  match axis with
  | 1 => ceilDiv n 32
  | 2 => 32 * ((n - 1) / 1024) + min 32 ((n - 1) % 1024 + 1)
  | 3 => 1
  | _ => 0

def strmSpan (k : Fin 2) (s : Strm) (n : Nat) (write : Bool) : List Span :=
  match s with
  | .pool a pack => [{ core := k, off := a, len := f20Bytes pack n, write := write }]
  | _ => []

def strmTiles (s : Strm) (n : Nat) : Byte :=
  match s with
  | .tile t rho _ => tileSet t rho n
  | _ => 0

/-- Bytes of a WLOAD's scale codes, and of its image (R320). -/
def wloadE (w0 : Word) : Nat := if flag w0 6 then 64 else 32
def wloadR (w0 : Word) : Nat := 2 ^ fld w0 3 3
def wloadBS (w0 : Word) : Nat := 2 ^ fld w0 8 4
def wloadCodes (bands : Nat) (w0 : Word) : Nat := wloadE w0 * wloadR w0 * (128 * bands / wloadR w0) / wloadBS w0
def wloadBytes (bands : Nat) (w0 : Word) : Nat := up128 (4096 * bands + wloadCodes bands w0)

def xferRange (w : Word) : List Span :=
  if flag w 31 then
    [{ core := Fin.ofNat 2 (fld w 24 1), off := 128 * fld w 0 12, len := 128 * (fld w 12 12 + 1), write := flag w 25 }]
  else []

/-- The spans a command declares (R552). -/
def Chan.spans (c : Chan) (q : QId) (h : Cmd) : List Span :=
  let k : Fin 2 := (qCore q).getD h.pusher
  let a := (c.core k).arr (qArr q)
  let w1 := h.w 1
  let img (len : Nat) : List Span := [{ core := k, off := fld w1 0 19, len := len, write := false }]
  match stationOf q, h.opc with
  | .feed, 8 => img (f20Bytes (flag (h.w 0) 13) (fld (h.w 0) 0 13 + 1))
  | .arr, 8 => img (128 * (fld (h.w 0) 4 4 + 1))
  | .arr, 9 =>
    match a.partOf (fld (h.w 0) 0 3) with
    | some t => img (wloadBytes t.bands (h.w 0))
    | none => []
  | .arr, 10 => passSpans k h (h.prof a) (a.cols (h.prof a))
  | .arr, 11 => passSpans k h (h.prof a) (a.cols (h.prof a))
  | .arr, 12 => img (4 * (fld (h.w 0) 0 10 + 1))
  | .arr, 13 => img (8 * (fld (h.w 0) 0 10 + 1))
  | .arr, 14 => dripSpans k (h.prof a) (fld w1 16 16 + 1)
  | .lane, 8 =>
    let n := lrunN h
    ([0, 1, 2, 3].flatMap fun i => strmSpan k (h.strm i) n false) ++
    ([4, 5].flatMap fun i => strmSpan k (h.strm i) n true) ++
    strmSpan k (strmOf (h.w 4)) (redCount (fld (h.w 0) 15 2) n) true
  | .lane, 9 => img (8 * (fld (h.w 0) 9 9 + 1))
  | .lane, 10 =>
    let len := siphRegionLen (h.w 0) w1 (h.w 4)
    [{ core := k, off := fld (h.w 2) 0 19, len := len, write := true }, { core := k, off := fld (h.w 3) 0 19, len := len, write := true }] ++
    (if fld (h.w 0) 3 2 = 2 then [{ core := k, off := fld (h.w 5) 0 19, len := 4 * (fld (h.w 0) 7 10 + 1), write := true }] else [])
  | .dma, 8 => xferRange (h.w 3) ++ xferRange (h.w 4)
  | .launch, 8 => if fld (h.w 0) 3 2 = 3 then
      [{ core := Fin.ofNat 2 (fld (h.w 4) 19 1), off := fld (h.w 4) 0 19, len := 32 * fld (h.w 3) 16 16, write := false }] else []
  | .peer, 8 => if fld (h.w 0) 6 2 = 3 then
      [{ core := Fin.ofNat 2 (fld (h.w 0) 8 1), off := fld w1 0 19, len := fld (h.w 3) 0 24, write := false }] else []
  | _, _ => []

/-- A range that runs past the end of the pool (R483). -/
def spansPast (l : List Span) : Bool := l.any fun s => decide (0 < s.len) && decide (poolBytes < s.off + s.len)

/-- The whole lines that cover each span. -/
def spanRanges (l : List Span) : List Range :=
  (l.filter fun s => decide (0 < s.len)).map fun s =>
    { core := s.core, first := s.off / 128, last := (s.off + s.len - 1) / 128, write := s.write }

/-! ### Checks -/

/-- The reasons of R538 that station commands give. -/
def rsFormat : Nat := 0x10
def rsWidth : Nat := 0x11
def rsScale : Nat := 0x12
def rsShape : Nat := 0x13
def rsEdge : Nat := 0x14
def rsAccRange : Nat := 0x15
def rsDecayBase : Nat := 0x16
def rsDripForm : Nat := 0x17
def rsStepForm : Nat := 0x18
def rsStepLatency : Nat := 0x19
def rsSiphonForm : Nat := 0x1A
def rsChainForm : Nat := 0x1B
def rsLaneForm : Nat := 0x1C
def rsPoolRange : Nat := 0x1D
def rsCairnForm : Nat := 0x1E
def rsTimeout : Nat := 0x21

/-- The first of a list of checks that fails. -/
def firstBad : List (Bool × Nat) → Option Nat
  | [] => none
  | (b, r) :: t => if b then some r else firstBad t

/-- Whether a core's CONNECT permits an edge (R212). -/
def Core.edge (c : Core) (bit : Nat) : Bool := bitOf c.cfg.connect bit

/-! ### Fields of a SIPHON (R400, R544) -/

/-- The fields of a SIPHON. -/
structure SiphonOp where
  arr    : Fin 2
  layout : Nat
  init   : Nat
  final  : Bool
  gates  : Bool
  w      : Nat
  l      : Nat
  xs     : Int
  a      : Nat
  b      : Nat
  stride : Nat
  iaddr  : Nat
  sb     : Nat
  deriving DecidableEq, Repr

def siphonOf (ws : List Word) : SiphonOp :=
  let g (i : Nat) : Word := ws.getD i 0
  { arr := if flag (g 0) 0 then 1 else 0, layout := fld (g 0) 1 2, init := fld (g 0) 3 2, final := flag (g 0) 5
    gates := flag (g 0) 6, w := fld (g 0) 7 10 + 1, l := fld (g 1) 0 16 + 1, xs := sfld (g 1) 16
    a := fld (g 2) 0 19, b := fld (g 3) 0 19, stride := (g 4).toNat, iaddr := fld (g 5) 0 19, sb := fld (g 6) 0 16 }

/-- TM layouts run along a row, CM layouts along a channel. -/
def SiphonOp.tm (x : SiphonOp) : Bool := decide (x.layout < 2)
def SiphonOp.pack (x : SiphonOp) : Bool := x.layout % 2 == 1
def SiphonOp.rowBytes (x : SiphonOp) : Nat := f20Bytes x.pack (if x.tm then x.w else x.l)
def SiphonOp.bytes (x : SiphonOp) : Nat := ((if x.tm then x.l else x.w) - 1) * x.stride + x.rowBytes
def SiphonOp.initBytes (x : SiphonOp) : Nat := 4 * x.w

/-- D of R404. -/
def SiphonOp.d (x : SiphonOp) : Nat := clog2 x.l

/-- GATEn is occupied (R402). -/
def SiphonOp.borrows (x : SiphonOp) : Bool := x.gates || x.init == 1 || x.final

/-! Fields of an LRUN (R549). -/

def lrunStart (h : Cmd) : Nat := fld (h.w 0) 0 9
def lrunP (h : Cmd) : Nat := fld (h.w 0) 9 6 + 1
def lrunAxis (h : Cmd) : Nat := fld (h.w 0) 15 2
def lrunRop (h : Cmd) : Nat := fld (h.w 1) 16 4
def lrunQ (h : Cmd) : Fin 8 := Fin.ofNat 8 (fld (h.w 1) 20 3)
def lrunQen (h : Cmd) : Bool := flag (h.w 1) 23
def lrunDest (h : Cmd) : Strm := strmOf (h.w 4)

/-- The tile registers of a drip output. -/
def dripTiles (p : Prof) (n : Nat) : Byte :=
  if pfDdest p = 1 then tileSet (fld (pw p 9) 0 3) (fld (pw p 9) 3 5) n else 0

/-! Fields of a CHAIN (R430, R560). -/

def cfItems (h : Cmd) : Nat := fld (h.w 1) 0 16 + 1
def cfGI (p : Prof) : Nat := fld (pw p 24) 0 5 + 1
def cfTile (p : Prof) : Bool := flag (pw p 24) 5
def cfTI (p : Prof) : Nat := fld (pw p 24) 6 3
def cfTable (p : Prof) : Nat := fld (pw p 24) 9 4
def cfF (p : Prof) : Nat := fld (pw p 24) 13 4
def cfXC (p : Prof) : Int := sfld (pw p 24) 24
def cfStatw (p : Prof) : Nat := fld (pw p 25) 0 16
def cfXN (p : Prof) : Int := sfld (pw p 25) 16
def cfN (p : Prof) : Nat := fld (pw p 26) 0 32
def cfNL (p : Prof) : Nat := fld (pw p 27) 0 32
def cfEps (p : Prof) : F20 := (pw p 28).setWidth 20

end Sys2Proof.Machine
end

