-- ==== Sys2Proof/Machine/Chains.lean ====
section
/-! DEFINITION. Chains of the gate pipe (chapter 12): descriptors, the checks of R425, and what one issue computes:
stage results, flags, state writes, normalisation and conversions. -/

namespace Sys2Proof.Machine

/-! ### Descriptors (R420–R422) -/

structure Stage where
  op  : Nat
  sa  : Nat
  sb  : Nat
  sc  : Nat
  na  : Bool
  nb  : Bool
  nc  : Bool
  arg : Nat
  deriving DecidableEq, Repr

structure ChainDesc where
  stages : List Stage
  dest   : Nat
  lw     : Bool
  link   : Nat
  loop   : Bool
  lrow   : Nat
  doff   : List Nat
  tsreg  : Nat
  tsrow  : Nat
  tdreg  : Nat
  tdrow  : Nat
  imm    : F20
  deriving DecidableEq, Repr

def stageOf (v : Nat) : Stage :=
  let f (lo n : Nat) : Nat := v / 2 ^ lo % 2 ^ n
  { op := f 0 4, sa := f 4 4, sb := f 8 4, sc := f 12 4, na := f 16 1 == 1, nb := f 17 1 == 1, nc := f 18 1 == 1, arg := f 19 5 }

def chainOf (b : List Byte) : ChainDesc :=
  let h := leNat (b.take 4)
  let f (lo n : Nat) : Nat := h / 2 ^ lo % 2 ^ n
  let t := leNat ((b.drop 0x1C).take 2)
  let g (lo n : Nat) : Nat := t / 2 ^ lo % 2 ^ n
  { stages := (List.range (f 0 3 + 1)).map fun k => stageOf (leNat ((b.drop (4 + 3 * k)).take 3))
    dest := f 3 3, lw := f 6 1 == 1, link := f 7 2, loop := f 9 1 == 1, lrow := f 10 5
    doff := [f 16 5, f 21 5, f 26 5], tsreg := g 0 3, tsrow := g 3 5, tdreg := g 8 3, tdrow := g 11 5
    imm := BitVec.ofNat 20 (16 * leNat ((b.drop 0x1E).take 2)) }

/-- The descriptor of an index; none outside the CHAINS section (R217, R425). -/
def Arr.chain (a : Arr) (i : Nat) : Option ChainDesc :=
  if a.cfg.chainBase ≤ i then (a.cfg.chains[i - a.cfg.chainBase]?).map chainOf else none

def opMUL : Nat := 1
def opADD : Nat := 2
def opFMA : Nat := 3
def opFUNC : Nat := 4
def opCLAMP : Nat := 5
def opSEL : Nat := 6
def opSLICE : Nat := 7
def opNORM : Nat := 8
def opSTATE : Nat := 9
def opCVT : Nat := 10

/-- Operands a stage uses, by source code (R424). -/
def Stage.srcs (t : Stage) : List Nat :=
  match t.op with
  | 1 => [t.sa, t.sb]
  | 2 => [t.sa, t.sb]
  | 3 => [t.sa, t.sb, t.sc]
  | 5 => [t.sa, t.sb, t.sc]
  | 6 => [t.sa, t.sb, t.sc]
  | 8 => if t.arg % 8 = 0 then [t.sa] else []
  | 0 => []
  | _ => [t.sa]

/-- The state offset of a stage's STATE operands (R423). -/
def Stage.stOff (t : Stage) : Nat := if t.op ≤ 3 ∨ t.op = opCLAMP then t.arg else 0

/-- λ (R383). -/
def ChainDesc.lat (d : ChainDesc) : Nat := d.stages.length + d.stages.countP fun t => t.op == opFUNC || t.op == opSLICE

/-- Cycles of a stage (R424). -/
def Stage.cycles (t : Stage) : Nat := if t.op = opFUNC ∨ t.op = opSLICE then 2 else 1

/-- The cc, from that of its issue, in which a chain's stage of an OP ends (R383). -/
def ChainDesc.stageAt (d : ChainDesc) (op : Nat) : Nat :=
  ((d.stages.takeWhile fun t => t.op != op).map (·.cycles)).sum + 1

def ChainDesc.has (d : ChainDesc) (op : Nat) : Bool := d.stages.any fun t => t.op == op
def ChainDesc.reads (d : ChainDesc) (src : Nat) : Bool := d.stages.any fun t => t.srcs.contains src

/-- The conversion of a final CVT. -/
def ChainDesc.cvt (d : ChainDesc) : Option Nat :=
  match d.stages.getLast? with
  | some t => if t.op = opCVT then some t.arg else none
  | none => none

def ChainDesc.gathers (d : ChainDesc) : Bool := d.stages.any fun t => t.op == opNORM && t.arg % 8 == 0

/-- Drip groups an issue on lane group k reads. -/
def ChainDesc.dripGroups (d : ChainDesc) (k : Nat) : List Nat :=
  ([0, 1, 2].filter fun i => d.reads (i + 1)).map fun i => k + d.doff.getD i 0

/-- The highest state entry, counted from the item's first, that the lane groups up to `last` name; plus one. -/
def ChainDesc.reach (d : ChainDesc) (last : Nat) : Nat :=
  d.stages.foldl (fun m t =>
    let r := if t.srcs.contains 4 then 32 * (last + t.stOff) + 32 else 0
    let w := if t.op = opSTATE then 32 * (last + t.arg) + 32 else 0
    max m (max r w)) 0

/-- Whether a descriptor breaks R425 for a STEP or a CHAIN with so many drip groups. -/
def ChainDesc.bad (d : ChainDesc) (ufuncs : SMap UFunc) (last groups : Nat) (command : Bool) : Bool :=
  [opFUNC, opSLICE, opSTATE, opCVT].any (fun o => decide (1 < d.stages.countP fun t => t.op == o)) ||
  d.stages.dropLast.any (fun t => t.op == opCVT) ||
  (d.dest == 2) != (d.cvt == some 0) ||
  ((match d.cvt with
    | some c => c != 0
    | none => false) && d.dest != 3 && d.dest != 4) ||
  (d.lw && d.cvt.isSome) || (d.loop && !d.has opSTATE) ||
  d.stages.any (fun t => t.op == opFUNC && decide (16 ≤ t.arg) && (smFind ufuncs (t.arg - 16)).isNone) ||
  (d.dripGroups last).any (fun g => decide (groups ≤ g)) ||
  (d.has opNORM && !command) || (d.gathers && d.dest != 4)

/-- The edge a chain's destination takes, by CONNECT bit (R212, R426). -/
def ChainDesc.edgeBit (d : ChainDesc) (j : Fin 2) : Option Nat :=
  match d.dest with
  | 1 => some (4 + j.val)
  | 3 => some (6 + j.val)
  | 4 => some (8 + j.val)
  | _ => none

/-- The checks of a SEQ: first to last, forms, edges and state entries. `form` is the reason for lane groups. -/
def seqBad (x : Core) (j : Fin 2) (ufuncs : SMap UFunc) (seq : List SeqEnt) (groups : Nat) (command : Bool) : Option Nat :=
  let a := x.arr j
  firstBad (
    (seq.map fun e => (decide (e.last < e.first), if command then rsChainForm else rsStepForm)) ++
    (seq.map fun e => (match a.chain e.desc with
      | some d => d.bad ufuncs e.last groups command
      | none => true, rsChainForm)) ++
    (seq.map fun e => (match (a.chain e.desc).bind fun d => d.edgeBit j with
      | some b => !x.edge b
      | none => false, rsEdge)))

def seqDescs (a : Arr) (seq : List SeqEnt) : List ChainDesc := seq.filterMap fun e => a.chain e.desc

/-- The entries, from an item's first, that a SEQ names. -/
def seqReach (a : Arr) (seq : List SeqEnt) : Nat :=
  seq.foldl (fun m e => match a.chain e.desc with
    | some d => max m (d.reach e.last)
    | none => m) 0

/-- Tile registers a SEQ's chains read and write (R461). -/
def seqTiles (a : Arr) (seq : List SeqEnt) : Byte × Byte :=
  (seqDescs a seq).foldl (fun m d =>
    (if d.reads 9 then setBit m.1 d.tsreg else m.1, if d.dest = 1 then setBit m.2 d.tdreg else m.2)) (0, 0)

/-! ### An issue (R416–R424) -/

/-- The normalisation fields of an item (R447, R453); `soft` is CHANNEL.NORM. -/
structure NormCtx where
  entry : Nat
  n     : Nat
  nl    : Nat
  xn    : Int
  eps   : F20
  soft  : Bool
  deriving DecidableEq, Repr

/-- What an issue reads. -/
structure IssueCtx where
  arr    : Arr
  tiles  : SMap F20
  desc   : ChainDesc
  k      : Nat
  mask   : Word
  groups : List (List F20)
  links  : List (List F20)
  base   : Nat
  xs     : Int
  ending : Bool
  table  : Option ConstTab
  ufuncs : SMap UFunc
  f      : Nat
  xc     : Int
  norm   : NormCtx
  deriving DecidableEq, Repr

/-- What an issue does. `state` lists element, word and result of each lane's STATE write. -/
structure IssueRes where
  vals    : List F20
  flags   : Fl
  state   : List (Nat × A40 × F20)
  sum     : Acc
  sq      : Acc
  isLocal : Bool
  normed  : Bool           -- the item's S, Q and QL are to be cleared at the entry's last lane group
  voided  : Nat
  notable : Nat
  deriving DecidableEq, Repr

def laneIx : List Nat := List.range 32

def IssueCtx.on (x : IssueCtx) (l : Nat) : Bool := bitOf x.mask l

/-- The state entry a STATE operand or stage of a lane names. -/
def IssueCtx.entry (x : IssueCtx) (o l : Nat) : Nat := x.base + 32 * (x.k + o) + l

/-- An operand's value before negation (R423), with the flags of its conversion. -/
def IssueCtx.source (x : IssueCtx) (o l : Nat) (run : F20) (src : Nat) : F20 × Fl :=
  match src with
  | 0 => (run, 0)
  | 4 => accToF20 (x.arr.accGet (x.arr.accS + x.entry o l)) x.xs
  | 9 => (smGet 0 x.tiles (1024 * x.desc.tsreg + 32 * ((x.desc.tsrow + x.k) % 32) + l), 0)
  | 10 => (x.desc.imm, 0)
  | 11 => (f20One, 0)
  | 12 => (0, 0)
  | n =>
    if n ≤ 3 then ((x.groups.getD (x.k + x.desc.doff.getD (n - 1) 0) []).getD l 0, 0)
    else ((x.links.getD (n - 5) []).getD l 0, 0)

def IssueCtx.operand (x : IssueCtx) (o l : Nat) (run : F20) (src : Nat) (neg : Bool) : F20 × Fl :=
  let v := x.source o l run src
  (if neg then f20Neg v.1 else v.1, v.2)

/-- FUNC (R437, R440, R444). -/
def IssueCtx.func (x : IssueCtx) (arg : Nat) (v : F20) : F20 × Fl :=
  if 16 ≤ arg then
    match smFind x.ufuncs (arg - 16) with
    | some u => fnUser (u.steps.take u.nsteps) u.table v
    | none => (f20Void, 0)
  else match fnOf arg with
    | some f => fnEval x.arr.cfg.arrange f v
    | none => (f20Void, 0)

/-- The stages that act on each lane alone (R424). -/
def IssueCtx.laneOp (x : IssueCtx) (t : Stage) (l : Nat) (run : F20) : F20 × Fl :=
  let o := t.stOff
  let a := x.operand o l run t.sa t.na
  let b := x.operand o l run t.sb t.nb
  let c := x.operand o l run t.sc t.nc
  let r := match t.op with
    | 1 => let v := f20Mul a.1 b.1; (v.1, v.2 ||| a.2 ||| b.2)
    | 2 => let v := f20Add a.1 b.1; (v.1, v.2 ||| a.2 ||| b.2)
    | 3 => let v := f20Fma a.1 b.1 c.1; (v.1, v.2 ||| a.2 ||| b.2 ||| c.2)
    | 4 => let v := x.func t.arg a.1; (v.1, v.2 ||| a.2)
    | 5 => (f20Clamp a.1 b.1 c.1, a.2 ||| b.2 ||| c.2)
    | 6 => (if selCond (t.arg % 8) c.1 then a.1 else b.1, a.2 ||| b.2 ||| c.2)
    | _ => a
  (f20Canon r.1, r.2)

/-! ### SLICE (R433–R435) -/

def pointI (p : Word) : BitVec 16 := p.extractLsb' 0 16
def pointQ (p : Word) : BitVec 16 := p.extractLsb' 16 16

/-- The exact squared distance of a symbol from a point. -/
def sliceDist (qf : Nat) (i q : Num) (p : Word) : Int × Int :=
  let a := dyAdd (numMant i) (numExp i) (-(pointI p).toInt) (-(qf : Int))
  let b := dyAdd (numMant q) (numExp q) (-(pointQ p).toInt) (-(qf : Int))
  dyAdd (a.1 * a.1) (2 * a.2) (b.1 * b.1) (2 * b.2)

/-- The nearest point: its label, its word and the distance; the lowest label on a tie. -/
def sliceBest (t : ConstTab) (i q : Num) : Nat × Word × Int × Int :=
  (t.points.zipIdx.foldl (fun (m : Option (Nat × Word × Int × Int)) p =>
    let d := sliceDist t.qfrac i q p.1
    match m with
    | none => some (p.2, p.1, d)
    | some b => if (dyAdd d.1 d.2 (-b.2.2.1) b.2.2.2).1 < 0 then some (p.2, p.1, d) else m) none).getD (0, 0, 0, 0)

/-- A pair of lanes through SLICE: two values, flags, and 1 when its table is missing. -/
def slicePair (t : Option ConstTab) (label : Bool) (vi vq : F20) : F20 × F20 × Fl × Nat :=
  let i := f20Dec vi
  let q := f20Dec vq
  if i = .void ∨ q = .void then (f20Void, f20Void, 0, 0)
  else if numIsInf i || numIsInf q then (f20Void, f20Void, flIV, 0)
  else match t with
    | none => (f20Void, f20Void, flIV, 1)
    | some t =>
      let b := sliceBest t i q
      let a := if label then roundDy b.1 0 else q16ToF20 (pointI b.2.1) t.qfrac
      let c := if label then roundDy b.2.2.1 b.2.2.2 else q16ToF20 (pointQ b.2.1) t.qfrac
      (a.1, c.1, a.2 ||| c.2, 0)

def IssueCtx.slice (x : IssueCtx) (t : Stage) (r : IssueRes) : IssueRes :=
  let a := laneIx.map fun l => if x.on l then x.operand 0 l (r.vals.getD l 0) t.sa t.na else (0, 0)
  let fl := a.foldl (fun m v => m ||| v.2) 0
  let ps := (List.range 16).map fun i =>
    if x.on (2 * i) || x.on (2 * i + 1) then
      slicePair x.table (t.arg % 2 == 1) (a.getD (2 * i) (0, 0)).1 (a.getD (2 * i + 1) (0, 0)).1
    else (0, 0, 0, 0)
  { r with
    vals := ps.flatMap (fun p => [p.1, p.2.1]), flags := ps.foldl (fun m p => m ||| p.2.2.1) (r.flags ||| fl)
    notable := r.notable + ps.foldl (fun m p => m + p.2.2.2) 0 }

/-! ### NORM (R447–R453) -/

/-- An A40 word scaled and divided, rounded once to F20: v · 2^e / n. -/
def accScaled (v : Acc) (e : Int) (n : Nat) : F20 × Fl :=
  match v with
  | .fin m => roundFrac (m * pow2Num e) (n * pow2Den e)
  | .pinf => (f20Inf false, 0)
  | .ninf => (f20Inf true, 0)
  | .void => (f20Void, 0)

def accFinite (v : Acc) : Bool :=
  match v with
  | .fin _ => true
  | _ => false

/-- The exact integer RNE(v · 2^e) of an F20 value. -/
def gatherTerm (v : F20) (e : Int) : Acc :=
  match f20Dec v with
  | .fin m x => .fin (rneScale m (x + e))
  | .inf s => if s then .ninf else .pinf
  | .void => .void

def IssueCtx.normWord (x : IssueCtx) (i : Nat) : Acc := x.arr.accGet (x.arr.accS + x.norm.entry + i)

/-- LVAR's value, and whether NL is 0 (R448, R451). -/
def IssueCtx.lvar (x : IssueCtx) : F20 × Fl × Bool :=
  if x.norm.nl = 0 then (f20Void, 0, true)
  else
    let m := accScaled (x.normWord 2) (2 * x.norm.xn) x.norm.nl
    let r := f20Add m.1 x.norm.eps
    (r.1, m.2 ||| r.2, false)

/-- μ of MEAN. -/
def IssueCtx.mu (x : IssueCtx) : F20 × Fl := accScaled (x.normWord 0) x.norm.xn x.norm.n

def IssueCtx.normFalls (x : IssueCtx) : Bool :=
  !accFinite (x.normWord 0) || !accFinite (x.normWord 1) || x.norm.n == 0

/-- A NORM stage. -/
def IssueCtx.normOp (x : IssueCtx) (t : Stage) (r : IssueRes) : IssueRes :=
  let all (v : F20) : List F20 := laneIx.map fun l => if x.on l then v else 0
  let lv := x.lvar
  let lvarRes : IssueRes :=
    { r with vals := all lv.1, flags := r.flags ||| lv.2.1, isLocal := true, normed := true
             voided := r.voided + (if lv.2.2 then 1 else 0) }
  match t.arg % 8 with
  | 0 =>
    let a := laneIx.map fun l => if x.on l then x.operand 0 l (r.vals.getD l 0) t.sa t.na else (0, 0)
    let on := laneIx.filter x.on
    let sq := on.map fun l => f20Mul (a.getD l (0, 0)).1 (a.getD l (0, 0)).1
    { r with
      vals := a.map fun v => f20Canon v.1
      flags := sq.foldl (fun m v => m ||| v.2) (a.foldl (fun m v => m ||| v.2) r.flags)
      sum := accTotal (r.sum :: on.map fun l => gatherTerm (a.getD l (0, 0)).1 (-x.norm.xn))
      sq := accTotal (r.sq :: sq.map fun v => gatherTerm v.1 (-2 * x.norm.xn)) }
  | 1 =>
    if x.normFalls then
      if x.norm.soft then { r with vals := all 0, isLocal := true }
      else { r with vals := all f20Void, voided := r.voided + 1 }
    else { r with vals := all x.mu.1, flags := r.flags ||| x.mu.2 }
  | 2 =>
    if x.normFalls then
      if x.norm.soft then lvarRes
      else { r with vals := all f20Void, voided := r.voided + 1, normed := true }
    else
      let ms := accScaled (x.normWord 1) (2 * x.norm.xn) x.norm.n
      let v := f20Fma (f20Neg x.mu.1) x.mu.1 ms.1
      let y := f20Add (f20MaxOf v.1 0) x.norm.eps
      { r with vals := all y.1, flags := r.flags ||| x.mu.2 ||| ms.2 ||| v.2 ||| y.2, normed := true }
  | 3 => { r with vals := all 0, isLocal := true }
  | _ => lvarRes

/-! ### The stages in order -/

/-- A STATE stage: its operand passes on, and its entry is written with the conversion, or with 0 in an END step
(R356, R376). -/
def IssueCtx.stateOp (x : IssueCtx) (t : Stage) (r : IssueRes) : IssueRes :=
  (laneIx.filter x.on).foldl (fun (m : IssueRes) l =>
    let a := x.operand 0 l (r.vals.getD l 0) t.sa t.na
    let v := f20Canon a.1
    let w := f20ToAcc v x.xs
    { m with vals := m.vals.set l v
             flags := m.flags ||| a.2 ||| (if x.ending then 0 else w.2)
             state := m.state ++ [(32 * (x.k + t.arg) + l, if x.ending then 0 else a40Enc w.1, v)] }) r

def IssueCtx.stage (x : IssueCtx) (r : IssueRes) (t : Stage) : IssueRes :=
  if t.op = opCVT then r
  else if t.op = opSLICE then x.slice t r
  else if t.op = opNORM then x.normOp t r
  else if t.op = opSTATE then x.stateOp t r
  else
    let vs := laneIx.map fun l => if x.on l then x.laneOp t l (r.vals.getD l 0) else (0, 0)
    { r with vals := vs.map (·.1), flags := vs.foldl (fun m v => m ||| v.2) r.flags }

/-- The stages of an issue up to any CVT; the item's gather sums and its local mark come in and go out. -/
def IssueCtx.run (x : IssueCtx) (sum sq : Acc) (isLocal : Bool) : IssueRes :=
  x.desc.stages.foldl x.stage
    { vals := List.replicate 32 0, flags := 0, state := [], sum := sum, sq := sq, isLocal := isLocal, normed := false
      voided := 0, notable := 0 }

/-- The state entries an issue reads, in lane order. -/
def IssueCtx.entriesRead (x : IssueCtx) : List Nat :=
  x.desc.stages.flatMap fun t =>
    (if t.srcs.contains 4 then (laneIx.filter x.on).map fun l => x.entry t.stOff l else []) ++
    (if t.op = opNORM ∧ 1 ≤ t.arg % 8 then [x.norm.entry, x.norm.entry + 1, x.norm.entry + 2] else [])

/-! ### Deliveries (R426, R432, R570) -/

/-- An A40 code in its 8 bytes (R284). -/
def a40Bytes (a : A40) : List Byte := natLe 5 a.toNat ++ List.replicate 3 (if a.getLsbD 39 then 0xFF else 0)

/-- The operand of the final CVT of an issue, lane by lane. -/
def IssueCtx.cvtIn (x : IssueCtx) (r : IssueRes) : List (F20 × Fl) :=
  match x.desc.stages.getLast? with
  | some t => laneIx.map fun l => if x.on l then x.operand 0 l (r.vals.getD l 0) t.sa t.na else (0, 0)
  | none => []

/-- Codes put back in their lanes; disabled lanes hold code 0. -/
def spreadLanes (on : Nat → Bool) (codes : List Byte) : List Byte :=
  (laneIx.foldl (fun (p : List Byte × List Byte) l =>
    if on l then (p.1 ++ [p.2.headD 0], p.2.tail) else (p.1 ++ [0], p.2)) ([], codes)).1

/-- The record an issue delivers to LAUNCH or PEER, with its conversion flags. -/
def IssueCtx.record (x : IssueCtx) (r : IssueRes) : List Byte × Fl :=
  let vs := x.cvtIn r
  let inFl := vs.foldl (fun m v => m ||| v.2) 0
  let on := laneIx.filter x.on
  let block (f : Fmt) : List Byte × Fl :=
    let b := blockF20 f (on.map fun l => (vs.getD l (0, 0)).1)
    let codes := spreadLanes x.on b.codes
    ((if f.is4 then packNibbles codes else codes) ++ [b.scale], b.flags ||| inFl)
  match x.desc.cvt with
  | some 1 =>
    let q := laneIx.map fun l => if x.on l then f20ToQ16 (vs.getD l (0, 0)).1 x.f else (0, 0)
    (q.flatMap fun v => natLe 2 v.1.toNat, q.foldl (fun m v => m ||| v.2) inFl)
  | some 2 => block .s8
  | some 3 => block .s4
  | some 4 =>
    let q := laneIx.map fun l => if x.on l then f20ToAcc (vs.getD l (0, 0)).1 x.xc else (.fin 0, 0)
    (q.flatMap fun v => a40Bytes (a40Enc v.1), q.foldl (fun m v => m ||| v.2) inFl)
  | _ => (padF20 (laneIx.map fun l => if x.on l then r.vals.getD l 0 else 0), 0)

/-- The decay codes of a CVT to Q1.16, of the enabled lanes in lane order (R285, R426). -/
def IssueCtx.decayCodes (x : IssueCtx) (r : IssueRes) : List (Option (BitVec 17)) × Fl :=
  let vs := x.cvtIn r
  let q := (laneIx.filter x.on).map fun l => f20ToDecay (vs.getD l (0, 0)).1
  (q.map (·.1), q.foldl (fun m v => m ||| v.2) (vs.foldl (fun m v => m ||| v.2) 0))

/-- Bytes of one delivery into an end (R570). -/
def ChainDesc.recordLen (d : ChainDesc) : Nat :=
  if d.gathers then 16
  else match d.cvt with
    | some 1 => 64
    | some 2 => 33
    | some 3 => 17
    | some 4 => 256
    | _ => 128

end Sys2Proof.Machine
end

