-- ==== Sys2Proof/Machine/Claims.lean ====
section
/-! DEFINITION. The issue of station commands (chapter 16): what holds a command at its queue's head, the tile registers
it claims, the scoreboard, and the checks of its words when it issues (R521, R543, R545, log 7). -/

namespace Sys2Proof.Machine

/-! ### Heads of queues -/

/-- A SIPHON's place in the queue of the gate pipe it borrows (R402). -/
def Chan.siphonCopy (c : Chan) (q : QId) (h : Cmd) : Bool :=
  match qCore q with
  | some k => stationOf q == .gate && (c.queue (laneQ k)).waiting.any fun x => x.order == h.order
  | none => false

/-- A SIPHON holds the queue of a gate pipe until it completes (R402). -/
def Chan.gateHeld (c : Chan) (q : QId) : Bool :=
  stationOf q == .gate && (c.queue q).issued.any fun x => x.cmd.opc == 10

/-- The queue a command is answered for: a SIPHON's is LANE (R402, R539). -/
def Chan.homeQ (c : Chan) (q : QId) (h : Cmd) : QId :=
  match qCore q with
  | some k => if c.siphonCopy q h then laneQ k else q
  | none => q

/-- The core that pushed a command halts at that PUSH (R521). -/
def cmdHalt (s : State) (n : ChanId) (q : QId) (h : Cmd) (reason : Nat) : State :=
  coreHalt s n h.pusher reason h.addr h.repidx h.tag (queueCode ((s.chan n).homeQ q h))

/-- The core whose pools a queue's commands use. -/
def qHome (q : QId) (h : Cmd) : Fin 2 := (qCore q).getD h.pusher

/-- Whether a command counts towards its station's limit. -/
def Cmd.counts (c : Cmd) : Bool := decide (8 ≤ c.opc)

/-- The station's room (R547, R615); a FRAME of more than 32,768 beats has it when the buffer is empty, and is
refused. -/
def Chan.room (c : Chan) (q : QId) (h : Cmd) : Bool :=
  let busy := (c.queue q).issued.countP fun x => x.cmd.counts
  match stationOf q with
  | .feed => decide (busy < 8)
  | .arr => decide (busy < 16)
  | .gate => decide ((c.queue q).issued.countP (fun x => x.cmd.opc == 8) < 4)
  | .lane => decide (busy < 1)
  | .dma => decide (busy < 64)
  | .launch => decide (c.lch.frames.length < 64) &&
      decide ((c.lch.frames.foldl (fun m f => m + f.len / 32) 0) + min 32768 (fld (h.w 3) 16 16) ≤ 32768)
  | .peer => decide (busy < 16)

/-- Every earlier command of the array has emitted its last value (R348); a pass that emits nothing has taken its last
vector. -/
def Arr.quiet (a : Arr) : Bool :=
  a.passes.all (fun p => p.phase == .done && p.entries.isEmpty) && a.outs.isEmpty && a.emits.isEmpty && a.drains.isEmpty

/-- The tile registers a command reads and writes, by its fields (R461, R462). -/
def Chan.tiles (c : Chan) (q : QId) (h : Cmd) : Byte × Byte :=
  let a := (c.core (qHome q h)).arr (qArr q)
  let p := h.prof a
  match stationOf q, h.opc with
  | .feed, 8 => (0, tileSet (fld (h.w 0) 14 3) (fld (h.w 1) 19 5) (fld (h.w 0) 0 13 + 1))
  | .arr, 10 => (0, if pfEmits p then dripTiles p (h.vecs * a.cols p) else 0)
  | .arr, 11 =>
    let st := seqTiles a (pfSeq p)
    (st.1, st.2 ||| (if pfEmits p then dripTiles p (h.vecs * a.cols p) else 0))
  | .arr, 14 => (0, dripTiles p (fld (h.w 1) 16 16 + 1))
  | .gate, 8 =>
    let st := seqTiles a (pfSeq p)
    (st.1 ||| (if cfTile p then tileSet (cfTI p) 0 (32 * cfItems h * cfGI p) else 0), st.2)
  | .lane, 8 =>
    let n := lrunN h
    ([0, 1, 2, 3].foldl (fun m i => m ||| strmTiles (h.strm i) n) 0,
      [4, 5].foldl (fun m i => m ||| strmTiles (h.strm i) n) (strmTiles (lrunDest h) (redCount (lrunAxis h) n)))
  | .lane, 10 => if (siphonOf h.words).gates then (0xC0, 0xC0) else (0, 0)
  | _, _ => (0, 0)

/-- A command's own condition does not hold: the staging buffer is in use (R321), the drip stores are (R348), FEEDn has
no free entry (R561), an earlier LANE command is not complete (R476), or a SIPHON is not at the head of both its queues
(R402). -/
def Chan.holds (c : Chan) (q : QId) (h : Cmd) : Bool :=
  let k := qHome q h
  let j := qArr q
  let a := (c.core k).arr j
  let fed := decide (c.depth (feedQ k j) ≤ (c.queue (feedQ k j)).waiting.length)
  match stationOf q, h.opc with
  | .arr, 9 => a.reg.staging.isSome
  | .arr, 10 => fed
  | .arr, 11 => fed
  | .arr, 12 => !a.quiet
  | .arr, 13 => !a.quiet
  | .lane, 9 => !(c.queue q).issued.isEmpty
  | .lane, 10 =>
    let x := siphonOf h.words
    let g := gateQ k x.arr
    x.borrows && c.present g && (match (c.queue g).waiting with
      | y :: _ => y.order != h.order || y.feed.isSome
      | [] => true)
  | _, _ => false

/-! ### The scoreboard (R493–R496) -/

def Range.meets (a b : Range) : Bool :=
  a.core == b.core && (a.write || b.write) && decide (a.first ≤ b.last) && decide (b.first ≤ a.last)

/-- A command waits on a live range of an earlier command of another queue, or its queue holds 16 ranges. -/
def Chan.sbWait (c : Chan) (q : QId) (h : Cmd) (rs : List Range) : Bool :=
  (allQ.any fun r => r != q && (c.queue r).issued.any fun x => decide (x.cmd.order < h.order) &&
    x.ranges.any fun a => rs.any fun b => a.meets b) ||
  duoIx.any fun k =>
    decide (16 < (((c.queue q).issued.flatMap (·.ranges)) ++ rs).countP (fun r => r.core == k)) &&
    rs.any fun r => r.core == k

/-- A command waits on a tile register declared by an earlier command of another queue of its core (R461). -/
def Chan.tileWait (c : Chan) (q : QId) (h : Cmd) (rd wr : Byte) : Bool :=
  match qCore q with
  | none => false
  | some k => allQ.any fun r => r != q && qCore r == some k && (c.queue r).issued.any fun x =>
      decide (x.cmd.order < h.order) && ((x.tilesW &&& (rd ||| wr)) != 0 || (x.tilesR &&& wr) != 0)

/-- The ranges a command declares. -/
def Chan.ranges (c : Chan) (q : QId) (h : Cmd) : List Range := spanRanges (c.spans q h)

/-- Nothing keeps a head back but, perhaps, a head pushed earlier that becomes free in the same cc (R545). -/
def Chan.headFree (c : Chan) (q : QId) (h : Cmd) : Bool :=
  !c.holds q h && c.room q h && !c.sbWait q h (c.ranges q h) && !c.tileWait q h (c.tiles q h).1 (c.tiles q h).2

/-- The head of another queue was pushed earlier, is free to issue too, and its ranges conflict with the command's: it
issues first (R496). -/
def Chan.tieWait (c : Chan) (q : QId) (h : Cmd) : Bool :=
  allQ.any fun r => r != q && match (c.queue r).waiting with
    | [] => false
    | e :: _ => e.feed.isNone && decide (8 ≤ e.opc) && decide (e.order < h.order) && !c.siphonCopy r e && !c.gateHeld r &&
        !c.feedStopped r && ((c.ranges r e).any fun a => (c.ranges q h).any fun b => a.meets b) && c.headFree r e

/-! ### Issue (R521, R543–R547) -/

/-- The head leaves its queue and is issued, its ranges and tile claims live (R493, R545). -/
def issue (s : State) (n : ChanId) (q : QId) (h : Cmd) (ended failed : Bool) : State :=
  s.updCh n fun c =>
    let i : Issued := { cmd := h, ranges := c.ranges q h, tilesR := (c.tiles q h).1, tilesW := (c.tiles q h).2
                        ended := ended, failed := failed }
    c.updQueue q fun y => { waiting := y.waiting.tail, issued := y.issued ++ [i] }

/-- The waits, then the checks: `bad` is the first check that fails, before the pool's end. -/
def issueBy (s : State) (n : ChanId) (q : QId) (h : Cmd) (bad : Option Nat) (go : State → State) : State :=
  let c := s.chan n
  if !c.headFree q h || c.tieWait q h then s
  else match bad with
    | some r => cmdHalt s n q h r
    | none => if spansPast (c.spans q h) then cmdHalt s n q h rsPoolRange else go s

/-- The command of an opcode at its queue's head, its layout checked; another command there waits for its own row. -/
def issueRow (s : State) (n : ChanId) (q : QId) (opc : Nat) (act : State → Cmd → State) : State :=
  let c := s.chan n
  match (c.queue q).waiting with
  | [] => s
  | h :: _ =>
    let form := if decide (8 ≤ h.opc) then issueBy s n q h (some rsFormat) id else cmdHalt s n q h rsFormat
    if !c.working || h.feed.isSome || c.siphonCopy q h || c.gateHeld q || c.feedStopped q then s
    else match layoutOf (stationOf q) h.opc (h.w 1) with
      | none => form
      | some l => if h.opc ≠ opc then s else if h.formOk l then act s h else form

end Sys2Proof.Machine
end

