-- ==== Sys2Proof/Machine/Stations.lean ====
section
/-! DEFINITION. Station commands (chapter 16): WAIT, SIGNAL and BARRIER, the loads, XFER, FRAME and PSEND, completion
and the command timeout. The row of a command acts when that command stands at its queue's head and can issue (log 7).
-/

namespace Sys2Proof.Machine

/-! ### WAIT, SIGNAL, BARRIER (R553–R556) -/

/-- WAIT (R553, R578); a queue that does not own the cairn halts its core (R574). -/
def execWait (n : ChanId) (q : QId) (s : State) : Out :=
  .next (issueRow s n q 1 fun t h =>
    if fld (h.w 1) 0 24 = 0 then cmdHalt t n q h rsFormat
    else if !bitOf ((t.chan n).crnCfg (waitCairn h)).2 q.val then cmdHalt t n q h rsCairnForm
    else waitEval t n q)

def signalCairn (h : Cmd) : Nat := fld (h.w 0) 0 11
def signalAmount (h : Cmd) : Nat := fld (h.w 0) 11 8

/-- SIGNAL: applied in the cc of issue when nothing earlier of its queue is under way (R554). -/
def execSignal (n : ChanId) (q : QId) (s : State) : Out :=
  .next (issueRow s n q 2 fun t h =>
    if signalAmount h = 0 then cmdHalt t n q h rsFormat
    else if ((t.chan n).queue q).issued.isEmpty then
      crnInc (t.updCh n fun c => c.updQueue q fun y => { y with waiting := y.waiting.tail }) n (signalCairn h) clsCmd
        (signalAmount h)
    else issue t n q h false false)

/-- SIGNAL_APPLIED: the increment of an issued SIGNAL once every earlier command has completed (R554). -/
def execSignalApplied (n : ChanId) (q : QId) (s : State) : Out :=
  .next (
    match ((s.chan n).queue q).issued with
    | [] => s
    | x :: _ =>
      if isSignal x.cmd then
        crnInc (s.updCh n fun c => c.updQueue q fun y => { y with issued := y.issued.tail }) n (signalCairn x.cmd) clsCmd
          (signalAmount x.cmd)
      else s)

/-- BARRIER: it leaves the head once no command it waits on is left (R555). -/
def execBarrier (n : ChanId) (q : QId) (s : State) : Out :=
  .next (issueRow s n q 3 fun t h =>
    if !((t.chan n).barrierOn h).isEmpty then t
    else if ((t.chan n).queue q).issued.isEmpty then
      t.updCh n fun c => c.updQueue q fun y => { y with waiting := y.waiting.tail }
    else issue t n q h true false)

/-! ### Loads (R348, R464, R506, R558) -/

/-- The reads of an image asked for, in the order of the commands (R707). -/
def Core.loadStart (x : Core) (client : BitVec 4) (q : QId) (h : Cmd) (part off len : Nat) : Core :=
  let ls := wantLines off len
  ({ x with
    loads := x.loads ++ [{ id := x.loadNext, q := q, cmd := h, part := part, off := off, len := len, left := ls.length, buf := [] }]
    loadNext := x.loadNext + 1 } : Core).pend (lineReads client ls (.load x.loadNext))

def loadStart (s : State) (n : ChanId) (k : Fin 2) (client : BitVec 4) (q : QId) (h : Cmd) (part off len : Nat) : State :=
  s.updCh n fun c => c.updCore k fun x => x.loadStart client q h part off len

/-- A load issues: its image is read through its client's slots, and takes effect once it is whole (R506, R706). -/
def loadIssue (s : State) (n : ChanId) (q : QId) (h : Cmd) (client : BitVec 4) (off len : Nat) : State :=
  loadStart (issue s n q h false false) n (qHome q h) client q h 0 off len

/-- The tile elements as read: as they stood before every write of the cc in progress (R460). -/
def Lane.tilesRead (l : Lane) : SMap F20 := l.upd.foldl (fun m e => smSet 0 m e.1 e.2) l.tiles

/-- A tile element written; a second write in the cc voids it (R460). -/
def Lane.tileWrite (l : Lane) (key : Nat) (v : F20) : Lane :=
  if (smFind l.upd key).isSome then { l with tiles := smSet 0 l.tiles key f20Void, clash := true }
  else { l with tiles := smSet 0 l.tiles key v, upd := smPut l.upd key (smGet 0 l.tiles key) }

/-- Values put as elements i0 onwards of a tile stream (R457). -/
def Lane.tilePut (l : Lane) (t rho : Nat) (tr : Bool) (i0 : Nat) (vals : List F20) : Lane :=
  vals.zipIdx.foldl (fun (m : Lane) v => m.tileWrite (tileKey t rho tr (i0 + v.2)) v.1) l

/-- TLOAD (R464). -/
def execTload (a : ArrId) (_ : Unit) (s : State) : Out :=
  let n := arrChan a
  let q := feedQ (arrCore a) (arrLoc a)
  .next (issueRow s n q 8 fun t h =>
    let cnt := fld (h.w 0) 0 13 + 1
    let pack := flag (h.w 0) 13
    let off := fld (h.w 1) 0 19
    issueBy t n q h (firstBad [(off % 4 != 0 || (flag (h.w 0) 17 && fld (h.w 1) 19 5 != 0), rsFormat)]) fun u =>
      loadIssue u n q h (clFeed (arrLoc a)) off (f20Bytes pack cnt))

/-- The image of a TLOAD put in its tile stream. -/
def Core.tloaded (x : Core) (h : Cmd) (bs : List Byte) : Core :=
  let vals := f20List (flag (h.w 0) 13) bs (fld (h.w 0) 0 13 + 1)
  { x with lane := x.lane.tilePut (fld (h.w 0) 14 3) (fld (h.w 1) 19 5) (flag (h.w 0) 17) 0 vals }

/-- PLOAD (R558). -/
def execPload (a : ArrId) (_ : Unit) (s : State) : Out :=
  let n := arrChan a
  let j := arrLoc a
  let q := arrQ (arrCore a) j
  .next (issueRow s n q 8 fun t h =>
    let first := fld (h.w 0) 0 4
    let cnt := fld (h.w 0) 4 4 + 1
    let off := fld (h.w 1) 0 19
    issueBy t n q h (firstBad [(off % 128 != 0 || decide (16 < first + cnt), rsFormat)]) fun u =>
      loadIssue u n q h (clFeed j) off (128 * cnt))

/-- The image of a PLOAD put in the profiles. -/
def Arr.ploaded (r : Arr) (h : Cmd) (bs : List Byte) : Arr :=
  { r with profiles := smSetList 0 r.profiles (32 * fld (h.w 0) 0 4) (wordsLe bs) }

/-- DLOAD: codes to the decay store (R283, R348). -/
def execDload (a : ArrId) (_ : Unit) (s : State) : Out :=
  let n := arrChan a
  let j := arrLoc a
  let q := arrQ (arrCore a) j
  .next (issueRow s n q 12 fun t h =>
    let cnt := fld (h.w 0) 0 10 + 1
    let base := fld (h.w 0) 10 10
    let off := fld (h.w 1) 0 19
    issueBy t n q h (firstBad [(off % 128 != 0 || decide (1024 < base + cnt), rsFormat)]) fun u =>
      loadIssue u n q h (clFeed j) off (4 * cnt))

/-- The image of a DLOAD put in the decay store. -/
def Arr.dloaded (r : Arr) (h : Cmd) (bs : List Byte) : Arr :=
  { r with drip := { r.drip with
    decay := smSetList 0 r.drip.decay (fld (h.w 0) 10 10) ((wordsLe bs).map fun w => w.setWidth 17) } }

/-- DPLOAD: scale and bias values to the drip parameter store (R278, R348). -/
def execDpload (a : ArrId) (_ : Unit) (s : State) : Out :=
  let n := arrChan a
  let j := arrLoc a
  let q := arrQ (arrCore a) j
  .next (issueRow s n q 13 fun t h =>
    let cnt := fld (h.w 0) 0 10 + 1
    let base := fld (h.w 0) 10 10
    let off := fld (h.w 1) 0 19
    issueBy t n q h (firstBad [(off % 128 != 0 || decide (1024 < base + cnt), rsFormat)]) fun u =>
      loadIssue u n q h (clFeed j) off (8 * cnt))

/-- The image of a DPLOAD put in the drip parameter store. -/
def Arr.dploaded (r : Arr) (h : Cmd) (bs : List Byte) : Arr :=
  let cnt := fld (h.w 0) 0 10 + 1
  let base := fld (h.w 0) 10 10
  let v := f20List false bs (2 * cnt)
  { r with drip := { r.drip with
    scale := smSetList 0 r.drip.scale base (v.take cnt), bias := smSetList 0 r.drip.bias base (v.drop cnt) } }

/-! ### XFER (R568, R587) -/

/-- XFER: its descriptors are fetched and run by the DMA engine. -/
def execXfer (n : ChanId) (s : State) : Out :=
  .next (issueRow s n dmaQ 8 fun t h =>
    issueBy t n dmaQ h none fun u =>
      let cnt := fld (h.w 0) 0 9 + 1
      (issue u n dmaQ h false false).updCh n fun c => { c with dma := { c.dma with xfers := c.dma.xfers ++
        [{ order := h.order, tag := h.tag, count := cnt, addr := fld (h.w 1) 0 32 + fld (h.w 2) 0 16 * 2 ^ 32
           ranges := [h.w 3, h.w 4], burst := 0, part := 0, got := [], waiting := 0, bad := false, left := cnt }] } })

/-! ### FRAME (R568, R615, R619) -/

/-- Bytes in a queue end towards LAUNCH (R569). -/
def Core.endL (c : Core) (src : Nat) : List Byte :=
  match src with
  | 0 => c.ends.gateL.c0
  | 1 => c.ends.gateL.c1
  | _ => c.ends.laneL

def Core.setEndL (c : Core) (src : Nat) (b : List Byte) : Core :=
  { c with ends := match src with
    | 0 => { c.ends with gateL := { c.ends.gateL with c0 := b } }
    | 1 => { c.ends with gateL := { c.ends.gateL with c1 := b } }
    | _ => { c.ends with laneL := b } }

/-- A FRAME completes (R546, R568): its frame belongs to the slot in progress, and a provisional one becomes eligible
now (R615, R619). -/
def frameWhole (s : State) (n : ChanId) (order : Nat) : State :=
  match (s.chan n).lch.frames.find? fun f => f.order == order && !f.whole with
  | none => s
  | some f =>
    let c := s.chan n
    let g := { f with whole := true, serial := c.lch.serial, sfn := c.ctl.sfn, slot := c.ctl.slot }
    let s1 := s.updCh n fun c => { c with lch := { c.lch with
      serial := c.lch.serial + 1
      frames := c.lch.frames.map fun x => if x.order = order ∧ x.whole = false then g else x } }
    if !f.prov then s1
    else if c.cfg.prov then frameElig s1 n g c.cfg.late
    else s1.updCh n fun c => { c with lch := { c.lch with provRef := satAdd c.lch.provRef 1 } }

/-- The work of a FRAME has ended: its beats are held whole. -/
def frameHeld (s : State) (n : ChanId) (order : Nat) : State := s.updCh n fun c => markIssued c launchQ order false true

/-- A frame takes what its end holds, up to its length (R570). -/
def frameTake (s : State) (n : ChanId) (order : Nat) : State :=
  match (s.chan n).lch.frames.find? fun f => f.order == order && !f.whole with
  | none => s
  | some f =>
    if f.src = 3 then s
    else
      let bs := ((s.chan n).core f.core).endL f.src.toNat
      let k := min (f.len - f.data.length) bs.length
      let s1 := s.updCh n fun c =>
        let fs := c.lch.frames.map fun (x : Frame) =>
          if x.order = order ∧ x.whole = false then { x with data := x.data ++ bs.take k } else x
        ({ c with lch := { c.lch with frames := fs } } : Chan).updCore f.core fun x => x.setEndL f.src.toNat (bs.drop k)
      if f.len ≤ f.data.length + k then frameHeld s1 n order else s1

/-- Every frame under way takes from its end, the earliest first. -/
def framePump (s : State) (n : ChanId) : State :=
  ((s.chan n).lch.frames.filter fun f => !f.whole).foldl (fun t f => frameTake t n f.order) s

/-- FRAME. -/
def execFrame (n : ChanId) (_ : Unit) (s : State) : Out :=
  .next (issueRow s n launchQ 8 fun t h =>
    let w0 := h.w 0
    let src := fld w0 3 2
    let core : Fin 2 := Fin.ofNat 2 (fld w0 5 1)
    let len := fld (h.w 3) 16 16
    let edge := src = 3 || ((t.chan n).core core).edge (if src = 2 then 10 else 6 + src)
    issueBy t n launchQ h (firstBad [(len == 0 || decide (32768 < len), rsFormat), (!edge, rsEdge)]) fun u =>
      let f : Frame :=
        { order := h.order, domain := Fin.ofNat 2 (fld w0 0 1), peer := flag w0 1, prov := flag w0 2
          src := BitVec.ofNat 2 src, cen := flag w0 6, cairn := BitVec.ofNat 11 (fld w0 7 11), ns := h.w 1
          sec := BitVec.ofNat 48 (fld (h.w 2) 0 32 + fld (h.w 3) 0 16 * 2 ^ 32), len := 32 * len, core := core, data := []
          elig := false, late := false, sfn := 0, slot := 0, serial := 0, whole := false }
      let add (v : State) (f : Frame) : State :=
        v.updCh n fun c => { c with lch := { c.lch with frames := c.lch.frames ++ [f] } }
      let v := add (issue u n launchQ h false false) f
      if src ≠ 3 then framePump v n
      else loadStart v n (Fin.ofNat 2 (fld (h.w 4) 19 1)) clDma launchQ h 0 (fld (h.w 4) 0 19) (32 * len))

/-- The beats of a FRAME with SRC pool have been read. -/
def frameFilled (s : State) (n : ChanId) (order : Nat) (bs : List Byte) : State :=
  frameHeld (s.updCh n fun c => { c with lch := { c.lch with frames := c.lch.frames.map fun (x : Frame) =>
    if x.order = order ∧ x.whole = false then { x with data := bs } else x } }) n order

/-- A FRAME whose data met a double error holds nothing and completes with an error (R506). -/
def frameLost (s : State) (n : ChanId) (order : Nat) : State :=
  s.updCh n fun c => markIssued { c with lch := { c.lch with
    frames := c.lch.frames.filter fun x => !(x.order == order && !x.whole) } } launchQ order true true

/-! ### PSEND (R568, R645–R647) -/

/-- The packets of a PSEND, their payloads still to come; pairs of a collective stand 24 bytes apart (R632, R646). -/
def psendPackets (c : Chan) (h : Cmd) : List OutPkt :=
  let w0 := h.w 0
  let src := fld w0 6 2
  let acc := flag w0 4
  let coll := flag w0 5 && acc
  let len := fld (h.w 3) 0 24
  let core : Fin 2 := Fin.ofNat 2 (fld w0 8 1)
  (List.range (ceilDiv len 4096)).map fun i =>
    { serial := c.peers.serial + i, entry := Fin.ofNat 8 (fld (h.w 2) 20 3), acc := acc
      body := { win := BitVec.ofNat 4 (fld w0 0 4), core := Fin.ofNat 2 (fld (h.w 2) 19 1), coll := coll, timed := false
                late := false, epoch := 0, seq := 0
                offset := BitVec.ofNat 32 (fld (h.w 2) 0 19 + (if coll then 6144 else 4096) * i), tag := 0
                payload := [] }
      len := min 4096 (len - 4096 * i)
      wait := src == 3
      ends := if src = 3 then none else some (Fin.ofNat 3 src, core)
      split := false, dma := none, psend := some h.order, sent := false }

/-- PSEND. -/
def execPsend (n : ChanId) (_ : Unit) (s : State) : Out :=
  .next (issueRow s n peerQ 8 fun t h =>
    let w0 := h.w 0
    let src := fld w0 6 2
    let core : Fin 2 := Fin.ofNat 2 (fld w0 8 1)
    let len := fld (h.w 3) 0 24
    let edge := src = 3 || ((t.chan n).core core).edge (if src = 2 then 11 else 8 + src)
    issueBy t n peerQ h (firstBad [(!edge, rsEdge)]) fun u =>
      let coll := flag w0 5 && flag w0 4
      let entry : Fin 8 := Fin.ofNat 8 (fld (h.w 2) 20 3)
      if !coll && !(u.chan n).entryUsed entry.val then
        let v := peerErr (issue u n peerQ h true true) n (freeStatus u) false entry
          (winByte (BitVec.ofNat 4 (fld w0 0 4)) (Fin.ofNat 2 (fld (h.w 2) 19 1)))
        { v with free := u.free + 1 }
      else
        let ps := psendPackets (u.chan n) h
        let v := (issue u n peerQ h (len == 0) false).updCh n fun c => { c with peers := { c.peers with
          serial := c.peers.serial + ps.length, out := c.peers.out ++ ps } }
        if src ≠ 3 then v
        else ps.zipIdx.foldl (fun t p =>
          loadStart t n core clPeer peerQ h p.1.serial (fld (h.w 1) 0 19 + 4096 * p.2) p.1.len) v)

/-! ### Completion (R546, R557, R561–R568) -/

def poolDestOf (j : Fin 2) (order : Nat) (a : PoolAcc) : Bool :=
  match a.dest with
  | .drip i o _ => i == j && o == order
  | .final i o => i == j && o == order
  | _ => false

/-- Drip values of a command that have not reached their destination. -/
def Core.dripBusy (x : Core) (j : Fin 2) (order : Nat) : Bool :=
  (x.arr j).drip.runs.any (fun r => r.1 == order) || x.pool.acc.any (poolDestOf j order)

/-- A pass has ended (R561, R563, R564). -/
def Core.passDone (x : Core) (j : Fin 2) (p : Pass) : Bool :=
  let a := x.arr j
  let o := p.order
  p.phase == .done && p.entries.isEmpty && !a.outs.any (fun v => v.order == o) && !x.dripBusy j o &&
  !(x.arr (other j)).arrivals.any (fun v => v.own == some o) && !a.streams.any (fun v => v.order == o) &&
  !a.emits.any (fun v => v.order == o) && !a.acc.pend.any (fun v => v.order == o) &&
  !a.clears.any (fun v => v.order == o) && (!p.isStep || (pfOpt p.prof 2).isNone || p.finalsOut) &&
  !(x.queues.getD j.val Queue.empty).issued.any fun i => i.cmd.feed == some o

/-- The work of an issued command has ended. -/
def Chan.workEnded (c : Chan) (q : QId) (x : Issued) : Bool :=
  let k := c.core (qHome q x.cmd)
  let j := qArr q
  let a := k.arr j
  x.ended || (match x.cmd.feed with
  | some o => (match a.passes.find? fun p => p.order == o with
    | some p => p.phase == .done
    | none => true)
  | none =>
    let o := x.cmd.order
    match stationOf q, x.cmd.opc with
    | .arr, 10 => (match a.passes.find? fun p => p.order == o with
      | some p => k.passDone j p
      | none => false)
    | .arr, 11 => (match a.passes.find? fun p => p.order == o with
      | some p => k.passDone j p
      | none => false)
    | .arr, 14 => !a.drains.any (fun d => d.order == o) && !k.dripBusy j o
    | .gate, 8 => !a.chainRun.any (fun r => r.order == o) && !a.acc.pend.any fun v => v.order == o
    | .dma, 8 => (match c.dma.xfers.find? fun f => f.order == o with
      | some f => f.left == 0
      | none => true)
    | _, _ => false)

/-- A pass of the array that met a double error in its mask, INIT or CSEL (R506). -/
def Chan.passErr (c : Chan) (q : QId) (x : Issued) : Bool :=
  stationOf q == .arr && ((c.core (qHome q x.cmd)).arr (qArr q)).passes.any fun p => p.order == x.cmd.order && p.err

/-- What a command leaves behind on completion is put away. -/
def Chan.retire (c : Chan) (q : QId) (x : Issued) : Chan :=
  let c1 := c.updQueue q fun y => { y with issued := y.issued.tail }
  match stationOf q with
  | .arr => c1.updCore (qHome q x.cmd) fun k => k.updArr (qArr q) fun a =>
    { a with passes := a.passes.filter fun p => p.order != x.cmd.order }
  | .dma => { c1 with dma := { c1.dma with xfers := c1.dma.xfers.filter fun f => f.order != x.cmd.order } }
  | _ => c1

/-- COMMAND_COMPLETION: the oldest issued command of a queue completes once its work has ended; one with an error
raises CMD_ERROR (R546, R673). -/
def execCommandCompletion (n : ChanId) (q : QId) (s : State) : Out :=
  .next (
    let c := s.chan n
    match (c.queue q).issued with
    | [] => s
    | x :: _ =>
      if isSignal x.cmd || !c.workEnded q x then s
      else
        let s0 := s.setChan n (c.retire q x)
        let s1 := if q = launchQ then frameWhole s0 n x.cmd.order else s0
        if x.failed || c.passErr q x then
          raise s1 n { lvl := .chan, cause := 0x52, cls := 1, info := BitVec.ofNat 32 (q.val + x.cmd.tag.toNat * 65536)
                       addr := 0 }
        else s1)

/-- CMD_TIMEOUT: a head other than a WAIT or a feed job has stood for CHANNEL.CMD_TIMEOUT cc (R536). -/
def execCmdTimeout (n : ChanId) (q : QId) (s : State) : Out :=
  .next (
    let c := s.chan n
    match (c.queue q).waiting with
    | [] => s
    | h :: _ =>
      if c.working && c.cfg.cmdTimeout != 0 && h.feed.isNone && !isWait h then cmdHalt s n q h rsTimeout else s)

end Sys2Proof.Machine
end

