-- ==== Sys2Proof/Machine/Feeder.lean ====
section
/-! DEFINITION. Feeders and feed jobs (R311–R318, R373–R377, R561, R562): what a pass reads from the pool, its entries,
and its FINAL bits. The pump moves every feed job of a core on as far as the data that has arrived allows. -/

namespace Sys2Proof.Machine

/-! ### Slices -/

/-- The requantiser on looped elements of one slice: blocks of BQ, codes repeated over quarters, the rest 0 (R357). -/
def requant (p : Prof) (vals : List F20) : Slice × Fl :=
  let e := pfE p
  let bq := pfBQ p
  let f := if pfW4 p then Fmt.s4 else Fmt.s8
  let bs := (blocksOf bq vals).map (blockF20 f)
  let codes := bs.flatMap (·.codes)
  let full := codes ++ List.replicate (e - codes.length) 0
  ({ bytes := if pfW4 p then packNibbles full else full
     codes := [0, 1, 2, 3].map fun g => (bs.map (·.scale)).getD (e / 4 * g / bq) 0 },
    bs.foldl (fun m b => m ||| b.flags) 0)

def zeroSlice : Slice := { bytes := List.replicate 32 0, codes := [0, 0, 0, 0] }

/-- Looped slices of a slot (R378). -/
def pfSlices (p : Prof) : Nat := ceilDiv (pfHL p) (pfE p)

/-- L0 of R708: the LROW of a looping chain of the SEQ. -/
def loopRow (a : Arr) (p : Prof) : Nat :=
  match (seqDescs a (pfSeq p)).find? (·.loop) with
  | some d => d.lrow
  | none => 0

/-- The initial slices of a START, by slice number (R375). -/
def Pass.initSlice (p : Pass) (n : Nat) : Slice :=
  if p.initV.isEmpty then zeroSlice else (requant p.prof ((p.initV.drop (n * pfE p.prof)).take (pfE p.prof))).1

/-- Flags of the requantiser, in SL_IX and SL_IV (R360). -/
def Drip.addLoop (d : Drip) (fl : Fl) : Drip :=
  { d with flags := putBit (putBit d.flags 4 (bitOf d.flags 4 || bitOf fl 1)) 5 (bitOf d.flags 5 || bitOf fl 0) }

/-- The conversion of the initial states: its slices' flags, and OF and IX of their A40 words (R275, R285, R360, R375;
log 60). -/
def Pass.initFlags (p : Pass) (d : Drip) : Drip :=
  if p.initV.isEmpty then d
  else
    let sl := (List.range (pfSlices p.prof)).foldl (fun m n =>
      m ||| (requant p.prof ((p.initV.drop (n * pfE p.prof)).take (pfE p.prof))).2) (0 : Fl)
    let wd := p.initV.foldl (fun m v => m ||| (f20ToAcc v (pfXS p.prof)).2) (0 : Fl)
    let e := d.addLoop (sl ||| (wd &&& flIX))
    { e with flags := e.flags ||| (wd &&& flOF).setWidth 6 }

/-! ### What a pass reads -/

def Pass.steps (p : Pass) : Nat := p.vecs / p.slots

/-- The bytes of the phase at hand, as offset and length. -/
def Pass.wants (p : Pass) : List (Nat × Nat) :=
  match p.phase with
  | .init => ((pfOpt p.prof 1).map fun a => (a, f20Bytes true (pfHL p.prof))).toList
  | .csel => ((pfOpt p.prof 3).map fun a => (a, p.slots)).toList
  | .mask => ((pfOpt p.prof 0).map fun a => (a + p.fed / p.slots * maskLen p.slots, ceilDiv p.slots 4)).toList
  | .vec =>
    let rows := (pfPoolRows p.prof).length
    if rows = 0 then []
    else [(pfXaddr p.prof + p.fed * pfXstr p.prof, 32 * rows),
          (pfXaddr p.prof + p.vecs * pfXstr p.prof + p.fed * pfCodes p.prof, pfCodes p.prof)]
  | .done => []

def Pass.bytes (p : Pass) (off len : Nat) : List Byte := smGetList 0 p.buf off len

/-- A byte range met a double-bit error. -/
def Pass.badIn (p : Pass) (off len : Nat) : Bool := (words64 off len).any fun w => p.voidWs.contains w

/-- The mask code of a slot in the step being fed. -/
def Pass.code (p : Pass) (s : Nat) : BitVec 2 := BitVec.ofNat 2 ((p.mask.getD (s / 4) 0).toNat / 4 ^ (s % 4))

def cCONT : BitVec 2 := 0
def cSTART : BitVec 2 := 1
def cHOLD : BitVec 2 := 2
def cEND : BitVec 2 := 3

/-- The slice of the i-th pool row of the vector being fed; void when its bytes or a code it uses are bad (R506). -/
def Pass.poolSlice (p : Pass) (i : Nat) : Slice :=
  let at_ := pfXaddr p.prof + p.fed * pfXstr p.prof + 32 * i
  let cat := pfXaddr p.prof + p.vecs * pfXstr p.prof + p.fed * pfCodes p.prof
  let e := pfE p.prof
  let ci := [0, 1, 2, 3].map fun g => cat + (i * e + e / 4 * g) / pfXbs p.prof
  let bad := p.badIn at_ 32 || ci.any fun c => p.badIn c 1
  { bytes := p.bytes at_ 32, codes := ci.map fun c => if bad then e8Void else smGet 0 p.buf c }

def Pass.cleared (p : Pass) (ph : FeedPhase) : Pass :=
  { p with phase := ph, asked := false, lines := 0, buf := [], voidWs := [] }

/-- A bad mask, INIT or CSEL read ends the pass with an error: nothing more is fed (R506). -/
def Pass.abort (p : Pass) : Pass := { p.cleared .done with err := true, finalsOut := true }

/-- The phase after a vector or a mask. -/
def Pass.next (p : Pass) : Pass :=
  if p.vecs ≤ p.fed then p.cleared .done
  else if p.fed % p.slots = 0 then p.cleared .mask else p.cleared .vec

/-- Everything the phase reads has arrived: the phase ends. `room` says that a feeder entry is free. -/
def Pass.arrive (p : Pass) (room : Bool) : Option Pass :=
  let bad := p.wants.any fun w => p.badIn w.1 w.2
  match p.phase with
  | .init =>
    if bad then some p.abort
    else some { p.cleared .csel with initV := match pfOpt p.prof 1 with
      | some a => f20List true (p.bytes a (f20Bytes true (pfHL p.prof))) (pfHL p.prof)
      | none => [] }
  | .csel =>
    if bad then some p.abort
    else some { p.next with csel := match pfOpt p.prof 3 with
      | some a => p.bytes a p.slots
      | none => [] }
  | .mask =>
    if bad then some p.abort
    else some { p.cleared .vec with mask := match p.wants with
      | (o, n) :: _ => p.bytes o n
      | [] => List.replicate (ceilDiv p.slots 4) 0 }
  | .vec =>
    let rows := pfPoolRows p.prof
    if room then
      some ({ p with
        entries := p.entries ++ [{ v := p.fed, code := p.code (p.fed % p.slots), slices := rows.zipIdx.map fun r => p.poolSlice r.2 }]
        fed := p.fed + 1 } : Pass).next
    else none
  | .done => none

/-- Vectors under HOLD ahead of the next one are passed over (R370, R562). -/
def Pass.skipHold (p : Pass) : Pass :=
  if p.phase = .vec then
    let s := p.fed % p.slots
    let k := ((List.range (p.slots - s)).find? fun i => p.code (s + i) != cHOLD).getD (p.slots - s)
    if k = 0 then p else { p with fed := p.fed + k }.next
  else p

/-- One move of a feed job: reads asked for, or the end of a phase; none when it has to wait. -/
def Pass.move (p : Pass) (j : Fin 2) (room : Bool) : Option (Pass × List PoolAcc) :=
  let q := p.skipHold
  if q ≠ p then some (q, [])
  else if !p.fedOn || p.phase == .done then none
  else if !p.asked then
    let ls := (p.wants.flatMap fun w => wantLines w.1 w.2).eraseDups
    some ({ p with asked := true, lines := ls.length },
      ls.map fun l => { client := clFeed j, line := l, write := none, dest := .feed j p.order })
  else if p.lines ≠ 0 then none
  else (p.arrive room).map fun q => (q, [])

/-! ### The pump -/

def Arr.setPass (a : Arr) (p : Pass) : Arr :=
  { a with passes := a.passes.map fun q => if q.order = p.order then p else q }

/-- A pass fed as far as it goes: at most 16 entries and the reads between them. -/
def feedPass (j : Fin 2) (order : Nat) : Nat → Core → Core
  | 0, x => x
  | f + 1, x =>
    let a := x.arr j
    match a.passes.find? fun p => p.order == order with
    | none => x
    | some p =>
      match p.move j (decide (a.held (pfPart p.prof) < a.cfg.feedDepth)) with
      | none => x
      | some (q, acc) =>
        let y := { x with pool := { x.pool with acc := x.pool.acc ++ acc } }.updArr j fun b => b.setPass q
        feedPass j order f (if p.phase = .init ∧ q.phase ≠ .init then
          y.updArr j fun b => { b with drip := q.initFlags b.drip } else y)

/-- A feed job at the head of FEEDj issues: at most 8 with the TLOADs, one to a partition (R547, R561). -/
def feedIssue (x : Core) (j : Fin 2) : Core :=
  let a := x.arr j
  let qu := x.queues.getD j.val Queue.empty
  match qu.waiting with
  | [] => x
  | h :: t =>
    match h.feed with
    | none => x
    | some o =>
      if a.feedFull then x else
      let partOf (o : Nat) : Option Nat := (a.passes.find? fun p => p.order == o).map fun p => pfPart p.prof
      if 8 ≤ qu.issued.countP (fun i => i.cmd.counts) ||
          qu.issued.any fun i => (match i.cmd.feed with
            | some u => partOf u == partOf o
            | none => false) then x
      else
        let job : Issued := { cmd := h, ranges := [], tilesR := 0, tilesW := 0, ended := false, failed := false }
        { x with queues := x.queues.set j.val { waiting := t, issued := qu.issued ++ [job] } }.updArr j fun b =>
          { b with passes := b.passes.map fun (p : Pass) => if p.order = o then { p with fedOn := true } else p }

/-- The FINAL bits of every step of a pass (R377). -/
def Pass.finalBytes (p : Pass) (at_ : Nat) : List Byte := smGetList 0 p.finals at_ (p.steps * finalLen p.slots)

/-- A pass whose last vector has left the array writes its FINAL bits. -/
def finalsPass (x : Core) (j : Fin 2) (p : Pass) : Core :=
  match pfOpt p.prof 2 with
  | none => x
  | some at_ =>
    if p.isStep && p.phase == .done && p.entries.isEmpty && !p.finalsOut && !(x.arr j).outs.any fun v => v.order == p.order then
      let ws := lineWrites (clDrip j) at_ (p.finalBytes at_) (.final j p.order)
      { x with pool := { x.pool with acc := x.pool.acc ++ ws } }.updArr j fun a => a.setPass { p with finalsOut := true }
    else x

/-- Feed jobs of one array. -/
def Core.feedArr (x : Core) (j : Fin 2) : Core :=
  let y := feedIssue x j
  let z := ((y.arr j).passes.map (·.order)).foldl (fun z o => feedPass j o 96 z) y
  (z.arr j).passes.foldl (fun z p => finalsPass z j p) z

def Core.feed (x : Core) : Core := (x.feedArr 0).feedArr 1

/-- The pump of one core. -/
def feedPump (s : State) (n : ChanId) (k : Fin 2) : State :=
  if (s.chan n).working then s.updCh n fun c => c.updCore k Core.feed else s

end Sys2Proof.Machine
end

