-- ==== Sys2Proof/Machine/Passes.lean ====
section
/-! DEFINITION. Matrix commands (R369, R387, R560–R566, R708, R709): MPASS, STEP, DRAIN, CHAIN, WLOAD at issue, and the
swap of a WLOAD. -/

namespace Sys2Proof.Machine

/-! ### Checks -/

/-- A shape its partition does not permit (R303). -/
def Arr.shapeBad (a : Arr) (part logr : Nat) : Bool :=
  match a.partOf part with
  | some t => !bitOf t.shapes logr || decide (6 ≤ logr)
  | none => true

/-- A width other than the weights last swapped in (R566). -/
def Arr.widthBad (a : Arr) (part : Nat) (w4 : Bool) : Bool :=
  bitOf a.reg.wloaded part && bitOf a.reg.wwidth part != w4

/-- A row at or beyond r, or one marked twice (R709). -/
def rowsBad (p : Prof) : Bool :=
  (List.range 32).any fun i => ((pfPool p i || pfLoop p i) && decide (pfR p ≤ i)) || (pfPool p i && pfLoop p i)

/-- The input operand's blocks (R318, R562); R318 binds a pass without pool rows too. -/
def xbsBad (p : Prof) : Bool :=
  let rows := (pfPoolRows p).length
  let b := pfXbs p
  decide (b < pfE p / 4 ∨ 1024 < b) || pfE p * pfR p % b != 0 || rows * pfE p % b != 0

/-- The drip fields of a command with so many outputs to a vector (R351, R352). -/
def dripBad (x : Core) (j : Fin 2) (p : Prof) (cols : Nat) : List (Bool × Nat) :=
  let block := pfDdest p == 4 || pfDdest p == 5
  let clamp := pfAct p == 2 && (match f20Cmp (pfLO p) (pfHI p) with
    | none => true
    | some .gt => true
    | _ => false)
  [(decide (4 < pfAct p) || decide (6 < pfDdest p) || clamp || (block && decide (pfDbs p < 8 ∨ 1024 < pfDbs p)), rsDripForm),
   (block && cols % pfDbs p != 0, rsScale),
   (pfDdest p == 0 && !x.edge (2 * j.val), rsEdge), (pfDdest p == 1 && !x.edge (2 * j.val + 1), rsEdge)]

/-- The decay source of a DECAY pass (R345). -/
def decayBad (p : Prof) (cols : Nat) : Bool :=
  if pfFeed p then decide (32 < pfG p) || cols % pfG p != 0 else decide (1024 < pfDC p + cols)

/-- What both passes check first: profile, shape, rows, width, input. `rows` is the reason for rows. -/
def passBad (a : Arr) (h : Cmd) (p : Prof) (kind rows : Nat) : List (Bool × Nat) :=
  [(!profOk (a.profile (fld (h.w 0) 0 4)) kind || pfXaddr p % 32 != 0, rsFormat),
   (a.shapeBad (pfPart p) (pfLogr p), rsShape), (rowsBad p, rows), (a.widthBad (pfPart p) (pfW4 p), rsWidth),
   ((pfPoolRows p).length != 0 && decide (pfXstr p < 32 * (pfPoolRows p).length), rsFormat), (xbsBad p, rsScale)]

/-- MPASS (R330, R345, R362, R563). -/
def mpassBad (x : Core) (j : Fin 2) (h : Cmd) (p : Prof) : Option Nat :=
  let a := x.arr j
  let c := a.cols p
  let reach := pfB p + (h.vecs - 1) * pfStride p + c
  let m := pfMode p
  firstBad (passBad a h p 1 rsFormat ++
    [(decide (4 < m) || pw p 2 != 0 || pw p 3 != 0, rsFormat), (m == modeAinto && !x.edge (12 + j.val), rsEdge),
     (m == modeAinto && decide ((x.arr (other j)).accTop < reach), rsAccRange),
     (m != modeAinto && m != modeDirect && decide (a.accTop < reach), rsAccRange),
     (m == modeDecay && decayBad p c, rsDecayBase)] ++
    (if pfEmits p then dripBad x j p c else []))

/-- The looped rows of R708. -/
def loopBad (a : Arr) (p : Prof) : Bool :=
  let ls := (seqDescs a (pfSeq p)).filter (·.loop)
  let span := pfMode p == modeSpan
  let rows := ((List.range (pfR p)).filter (pfLoop p)) ++
    (if span then ((List.range (pfR p)).filter (pfSib p)).map (· + pfR p) else [])
  let l0 := loopRow a p
  (!rows.isEmpty && ls.isEmpty) || ls.any (fun d => d.lrow != l0) ||
  rows.any fun i => decide (i < l0 ∨ pfSlices p ≤ i - l0)

/-- A sibling partition that a SPAN cannot use (R392, R395, R709). -/
def spanBad (x : Core) (j : Fin 2) (p : Prof) : Bool :=
  let a := x.arr j
  let b := x.arr (other j)
  let same := match a.partOf (pfPart p), b.partOf (pfSibPart p) with
    | some t, some u => t.bands == u.bands && bitOf u.shapes (pfLogr p)
    | _, _ => false
  !b.cfg.used || !same || a.cfg.arrange != b.cfg.arrange || decide (a.accS < pfStride p + 32 * a.cols p) ||
  (List.range 32).any fun i => pfSib p i && decide (pfR p ≤ i)

/-- R369, R389, R392, R708, R709: what halts a STEP with STEP_FORM. -/
def stepForm (x : Core) (j : Fin 2) (h : Cmd) (p : Prof) : Bool :=
  let a := x.arr j
  let m := pfMode p
  (m != modeDirect && m != modeDecay && m != modeSpan) || decide (2 < pfBqCode p) || pfB p % pfE p != 0 ||
  pfHS p % pfE p != 0 || pfHL p % pfBQ p != 0 || decide (pfHS p < pfHL p) ||
  decide (a.cfg.stateElems < pfB p + h.slots * pfHS p) || decide (6 < pfNseq p) || loopBad a p ||
  (m == modeDecay && (pfNseq p != 0 || pw p 2 != 0 || pfHS p != a.cols p)) || (pfNseq p != 0 && pfDdest p != 0) ||
  (m == modeSpan && spanBad x j p)

/-! ### Step latency (R386, R387) -/

/-- The cc from which a drip group can be read. -/
def dripAvail (a : Arr) (p : Prof) (g : Nat) : Nat :=
  let base := (if pfMode p = modeSpan then 3 else 0) + (if pfAct p = 3 ∨ pfAct p = 4 then 4 else 2)
  if a.cfg.arrange then base + 5 + pfLogr p + g / 4 + 1 else base + pfR p + 32 + 3

/-- The schedule's place: the next issue, u, and the cc from which links can be read. -/
structure Sched where
  s     : Nat
  u     : Nat
  ready : List (Nat × Nat × Nat)  -- link, lane group, cc
  deriving DecidableEq, Repr

def Sched.issue (z : Sched) (a : Arr) (p : Prof) (d : ChainDesc) (k : Nat) : Sched :=
  let links := [0, 1, 2, 3].filter fun l => d.reads (5 + l)
  let s1 := (d.dripGroups k).foldl (fun m g => max m (dripAvail a p g)) z.s
  let s2 := (z.ready.filter fun r => links.contains r.1 && r.2.1 == k).foldl (fun m r => max m r.2.2) s1
  { s := s2 + 1
    u := if d.has opSTATE then max z.u (s2 + d.lat) else z.u
    ready := if d.lw then (d.link, k, s2 + d.lat + 1) :: z.ready.filter (fun r => !(r.1 == d.link && r.2.1 == k)) else z.ready }

/-- The step latency of R386. -/
def stepLat (a : Arr) (p : Prof) : Nat :=
  let z := (pfSeq p).foldl (fun z e => match a.chain e.desc with
    | some d => (List.range (e.last + 1 - e.first)).foldl (fun z i => z.issue a p d (e.first + i)) z
    | none => z) ({ s := 0, u := 0, ready := [] } : Sched)
  let sib := pfMode p == modeSpan && (List.range 32).any (pfSib p)
  z.u + 3 + (if sib then 1 else 0)

def latBad (a : Arr) (p : Prof) : Bool :=
  pfNseq p != 0 && decide ((if pfMode p = modeSpan then 96 else 64) < stepLat a p)

/-- STEP. -/
def stepBad (c : Chan) (x : Core) (j : Fin 2) (h : Cmd) (p : Prof) : Option Nat :=
  let a := x.arr j
  let cols := a.cols p
  (firstBad (passBad a h p 2 rsStepForm ++
    [(stepForm x j h p, rsStepForm),
     (pfMode p == modeSpan && (x.arr (other j)).widthBad (pfSibPart p) (pfW4 p), rsWidth),
     (pfMode p == modeSpan && !x.edge (12 + (other j).val), rsEdge), (pfMode p == modeDecay && decayBad p cols, rsDecayBase)] ++
    (if pfEmits p then dripBad x j p cols else []))).orElse fun _ =>
  (seqBad x j c.cfg.ufuncs (pfSeq p) (cols / 32) false).orElse fun _ =>
  firstBad [(pfNseq p != 0 && decide (a.cfg.stateElems < pfB p + (h.slots - 1) * pfHS p + seqReach a (pfSeq p)), rsAccRange),
            (latBad a p, rsStepLatency)]

/-! ### Passes at issue (R326, R561) -/

/-- STEP_STATUS.LAT of the latest STEP evaluated, halted or not; its low 8 bits (R387, R398, log 38). -/
def Arr.latSet (a : Arr) (p : Prof) : StepReg :=
  { a.stepReg with lat := BitVec.ofNat 8 (if pfNseq p = 0 then 0 else stepLat a p) }

/-- The feed job of a pass joins FEEDn's queue. -/
def passStart (s : State) (n : ChanId) (k j : Fin 2) (h : Cmd) (p : Prof) (isStep : Bool) : State :=
  let pass : Pass :=
    { order := h.order, isStep := isStep, prof := p, vecs := h.vecs, slots := h.slots, fedOn := false, fed := 0
      phase := .init, asked := false, lines := 0, buf := [], voidWs := [], initV := [], csel := [], mask := []
      entries := [], emitted := 0, finals := [], finalsOut := false, deliv := [], err := false }
  feedPump (s.updCh n fun c => (c.updQueue (feedQ k j) fun y => { y with waiting := y.waiting ++ [{ h with feed := some h.order }] }).updCore k
    fun x => x.updArr j fun a =>
      { a with
        passes := a.passes ++ [pass] })
    n k

/-- An MPASS or STEP at the head of its queue. -/
def passRow (s : State) (a : ArrId) (opc : Nat) (isStep : Bool) (bad : Chan → Core → Cmd → Prof → Option Nat) : State :=
  let n := arrChan a
  let k := arrCore a
  let j := arrLoc a
  let q := arrQ k j
  issueRow s n q opc fun t h =>
    let c := t.chan n
    let x := c.core k
    let r := x.arr j
    let p := h.prof r
    let lat (v : State) : State := if isStep then v.updArr a fun r => { r with stepReg := r.latSet p } else v
    let b := bad c x h p
    issueBy (if b = some rsStepLatency ∧ c.headFree q h = true ∧ c.tieWait q h = false then lat t else t) n q h b fun u =>
      if r.reg.faulted then issue (lat u) n q h true true
      else passStart (issue (lat u) n q h false false) n k j h p isStep

/-- MPASS. -/
def execMpass (a : ArrId) (s : State) : Out :=
  .next (passRow s a 10 false fun _ x h p => mpassBad x (arrLoc a) h p)

/-- STEP. -/
def execStep (a : ArrId) (s : State) : Out :=
  .next (passRow s a 11 true fun c x h p => stepBad c x (arrLoc a) h p)

/-! ### DRAIN and CHAIN (R349, R430, R565, R567) -/

/-- DRAIN. -/
def execDrain (a : ArrId) (s : State) : Out :=
  let n := arrChan a
  let k := arrCore a
  let j := arrLoc a
  let q := arrQ k j
  .next (issueRow s n q 14 fun t h =>
    let x := (t.chan n).core k
    let r := x.arr j
    let p := h.prof r
    let cnt := fld (h.w 1) 16 16 + 1
    let word := fld (h.w 1) 0 16
    let bad := firstBad ([(!profOk (r.profile (fld (h.w 0) 0 4)) 3, rsFormat), (decide (r.accTop < word + cnt), rsAccRange)] ++
      dripBad x j p cnt)
    issueBy t n q h bad fun u =>
      (issue u n q h false false).updCh n fun c => c.updCore k fun x => x.updArr j fun r =>
        { r with drains := r.drains ++ [{ order := h.order, word := word, left := cnt, done := 0, prof := p }] })

/-- The checks of a CHAIN (R425, R430, R453). -/
def chainBad (c : Chan) (x : Core) (j : Fin 2) (h : Cmd) (p : Prof) : Option Nat :=
  let a := x.arr j
  let seq := pfSeq p
  let normed := (seqDescs a seq).any fun d => d.has opNORM
  let reach := seqReach a seq
  (firstBad [(!profOk (a.profile (fld (h.w 0) 0 4)) 4, rsFormat),
             (pfNseq p == 0 || decide (6 < pfNseq p) || decide (16777215 < cfN p) || decide (16777215 < cfNL p), rsChainForm)]).orElse fun _ =>
  (seqBad x j c.cfg.ufuncs seq (cfGI p) true).orElse fun _ =>
  firstBad [(reach != 0 && decide (a.cfg.stateElems < pfB p + (cfItems h - 1) * pfHS p + reach), rsAccRange),
            (normed && decide (a.cfg.stateElems < cfStatw p + 3 * cfItems h), rsAccRange)]

/-- CHAIN. -/
def execChain (a : ArrId) (s : State) : Out :=
  let n := arrChan a
  let k := arrCore a
  let j := arrLoc a
  let q := gateQ k j
  .next (issueRow s n q 8 fun t h =>
    let c := t.chan n
    let x := c.core k
    let r := x.arr j
    let p := h.prof r
    issueBy t n q h (chainBad c x j h p) fun u =>
      (issue u n q h false false).updCh n fun c => c.updCore k fun x => x.updArr j fun r =>
        { r with chainRun := r.chainRun ++
          [{ order := h.order, prof := p, items := cfItems h, item := 0, entry := 0
             group := ((pfSeq p).head?.map (·.first)).getD 0, deliv := [], drip := none, isLocal := false
             started := false, sum := .fin 0, sq := .fin 0 }] })

/-! ### WLOAD (R319–R324, R565, R566) -/

/-- The checks of a WLOAD. -/
def wloadBad (a : Arr) (h : Cmd) : Option Nat :=
  let w0 := h.w 0
  let part := fld w0 0 3
  let bands := match a.partOf part with
    | some t => t.bands
    | none => 0
  let e := wloadE w0
  let r := wloadR w0
  let bs := wloadBS w0
  let c := 128 * bands / r
  firstBad [(fld (h.w 1) 0 19 % 128 != 0, rsFormat), (a.shapeBad part (fld w0 3 3), rsShape),
    (decide (bs < e / 4 ∨ 1024 < bs) || (if flag w0 7 then e * r % bs != 0 else c % bs != 0) ||
      decide (512 * bands < wloadCodes bands w0), rsScale),
    (a.passes.any (fun p => pfPart p.prof == part && pfW4 p.prof != flag w0 6), rsWidth)]

/-- The partition awaits a reload (R324). -/
def Arr.needReload (a : Arr) (part : Nat) : Arr := { a with reg := { a.reg with reload := setBit a.reg.reload part } }

/-- WLOAD: its staging part (R321). -/
def execWload (a : ArrId) (_ : Unit) (s : State) : Out :=
  let n := arrChan a
  let k := arrCore a
  let j := arrLoc a
  let q := arrQ k j
  .next (issueRow s n q 9 fun t h =>
    let x := (t.chan n).core k
    let r := x.arr j
    let w0 := h.w 0
    let part := fld w0 0 3
    issueBy t n q h (wloadBad r h) fun u =>
      if r.reg.faulted then issue u n q h true true
      else
        let off := fld (h.w 1) 0 19
        let len := wloadBytes ((r.partOf part).map (·.bands) |>.getD 0) w0
        let g : Staging :=
          { order := h.order, part := part, logr := fld w0 3 3, w4 := flag w0 6, col := flag w0 7, logbs := fld w0 8 4
            image := [], left := 0, parity := false }
        (loadIssue u n q h (clFeed j) off len).updCh n fun c => c.updCore k fun x => x.updArr j fun r =>
          { r with reg := { r.reg with staging := some g } })

/-- The image of a WLOAD is whole in the staging buffer. -/
def Arr.staged (r : Arr) (order : Nat) (bs : List Byte) : Arr :=
  { r with reg := { r.reg with staging := r.reg.staging.map fun g => if g.order = order then { g with image := bs } else g } }

/-- Staging that met a double error stops: the buffer is freed, and the partition awaits a reload (R506, R565). -/
def Arr.stagingLost (r : Arr) (h : Cmd) : Arr :=
  ({ r with reg := { r.reg with staging := none } } : Arr).needReload (fld (h.w 0) 0 3)

/-- The scale code of an element of stationary byte b of DPU (p, q) of a staged image: that of its block (R266, R267,
R319). A 4-bit byte holds two elements, of two rows of the tile (log 61). -/
def Staging.code (g : Staging) (bands p q b : Nat) (high : Bool) : Byte :=
  let e := if g.w4 then 64 else 32
  let r := 2 ^ g.logr
  let bs := 2 ^ g.logbs
  let c := 128 * bands / r
  let kk := e * (p % r) + (if g.w4 then 2 * b + high.toNat else b)
  let col := 32 * (p / r) + q
  let i := if g.col then kk / bs * c + col else kk * (c / bs) + col / bs
  g.image.getD (4096 * bands + i) 0

/-- Every DPU byte of a partition and its codes, written (R322). -/
def Arr.swapIn (a : Arr) (g : Staging) (t : Part) : Arr :=
  let base := 4096 * t.first
  let codes := (List.range (4 * t.bands)).flatMap fun p => (List.range 32).flatMap fun q =>
    (List.range 32).flatMap fun b => [g.code t.bands p q b false, g.code t.bands p q b true]
  { a with reg := { a.reg with
    weights := smSetList 0 a.reg.weights base (g.image.take (4096 * t.bands))
    wscale := smSetList 0 a.reg.wscale (2 * base) codes
    wwidth := putBit a.reg.wwidth g.part g.w4, wloaded := setBit a.reg.wloaded g.part
    reload := clrBit a.reg.reload g.part, staging := none
    swaps := if a.reg.hold then a.reg.swaps else wrapAdd a.reg.swaps 1 } }

/-- The vectors ahead of a WLOAD on its partition have entered and computed; those of a partition that awaits a reload
cannot, and do not hold the swap back (R322, R324, log 38). -/
def Arr.swapClear (a : Arr) (g : Staging) : Bool :=
  bitOf a.reg.reload g.part || !a.passes.any fun p => pfPart p.prof == g.part && decide (p.order < g.order) &&
    !(p.phase == .done && p.entries.isEmpty)

/-- WLOAD_SWAP: the swap of a staged WLOAD begins; its writes take 32 cc (R322, R323). `parity` says that the staging
buffer shows a parity error in them (R324). -/
def execWloadSwap (a : ArrId) (parity : Bool) (s : State) : Out :=
  .next (
    let r := s.arr a
    match r.reg.staging with
    | none => s
    | some g =>
      if r.reg.faulted || !r.swapClear g || g.image.isEmpty || g.left != 0 then s
      else s.updArr a fun x => { x with reg := { x.reg with staging := some { g with left := 32, parity := parity } } })

/-- One cc of a swap; with its last write the partition holds the new weights, and the WLOAD has ended (R322, R324,
R551, R565). -/
def swapTick (s : State) (a : ArrId) : State :=
  let n := arrChan a
  let r := s.arr a
  match r.reg.staging with
  | none => s
  | some g =>
    if g.left = 0 then s
    else if 1 < g.left then
      s.updArr a fun x => { x with reg := { x.reg with staging := some { g with left := g.left - 1 } } }
    else match r.partOf g.part with
      | none => s
      | some t =>
        let s1 := (s.updArr a fun x => x.swapIn g t).updCh n fun c => markIssued c (arrQ (arrCore a) (arrLoc a)) g.order false true
        if g.parity then
          raise (s1.updArr a fun x =>
            let y := x.needReload g.part
            { y with reg := { y.reg with parity := if y.reg.hold then y.reg.parity else satAdd y.reg.parity 1 } }) n
            { lvl := arrLvl a, cause := 0x42, cls := 1, info := BitVec.ofNat 32 g.part, addr := 0 }
        else s1

end Sys2Proof.Machine
end

