-- ==== Sys2Proof/Machine/Matrix.lean ====
section
/-! DEFINITION. The array datapath (chapters 08 and 09): vectors entering a partition, the drip stage,
accumulate-into. -/

namespace Sys2Proof.Machine

/-! ### Dot products (R264, R269, R299–R301) -/

/-- The 8-bit elements of bytes, or their nibbles, low first (R263). -/
def elemCodes (w4 : Bool) (bs : List Byte) : List Byte :=
  if w4 then bs.flatMap fun b => [b &&& 0x0F, b >>> 4] else bs

/-- A product's contribution: void under a void block (R268, R269). -/
def contrib (xw xx : Int) (ew ex : Byte) (x : Int) : Acc :=
  if ew = e8Void ∨ ex = e8Void then .void else prodContrib (xw * xx) (ew.toInt + ex.toInt - x)

/-- The dot product of one DPU with a slice; a zero row's is 0, whatever the weights (R312). -/
def dpuDot (a : Arr) (p : Prof) (row : Option Slice) (base : Nat) : Acc :=
  match row with
  | none => .fin 0
  | some sl =>
    let e := pfE p
    let ws := elemCodes (pfW4 p) (smGetList 0 a.reg.weights base 32)
    let cs := smGetList 0 a.reg.wscale (2 * base) 64
    let xs := elemCodes (pfW4 p) sl.bytes
    accSum ((List.range e).map fun k =>
      contrib ((pfWFmt p).value (ws.getD k 0)) ((pfXFmt p).value (xs.getD k 0)) (cs.getD (if pfW4 p then k else 2 * k) 0)
        (sl.codes.getD (4 * k / e) 0) (pfX p))

/-- The exact outputs of a vector on a partition that starts at physical row `row0`. -/
def partOut (a : Arr) (p : Prof) (row0 cols : Nat) (rows : List (Option Slice)) : List Acc :=
  let r := pfR p
  (List.range cols).map fun j =>
    accSum ((List.range r).map fun i => dpuDot a p (rows.getD i none) (1024 * (row0 + r * (j / 32) + i) + 32 * (j % 32)))

/-! ### Entry conditions (R304, R314, R322, R324, R371, R379, R385, R389) -/

/-- The earliest pass of a partition with vectors yet to enter. -/
def Arr.nextPass (a : Arr) (part : Nat) : Option Pass :=
  a.passes.find? fun p => pfPart p.prof == part && !(p.phase == .done && p.entries.isEmpty)

/-- First state entry of a slot, and whether two runs of entries overlap. -/
def slotBase (p : Prof) (slot : Nat) : Nat := pfB p + slot * pfHS p
def runsMeet (a n b m : Nat) : Bool := decide (a < b + m) && decide (b < a + n)

/-- A slot of a step pass has vectors yet to enter. -/
def Pass.slotLeft (q : Pass) (slot : Nat) : Bool :=
  let v := match q.entries with
    | e :: _ => e.v
    | [] => q.fed
  decide ((v + (slot + q.slots - v % q.slots) % q.slots) < q.vecs)

/-- An earlier pass, on whatever partition, has steps yet to enter on entries that a slot shares (R371). -/
def Arr.stepAhead (a : Arr) (p : Pass) (slot : Nat) : Bool :=
  a.passes.any fun q => q.isStep && decide (q.order < p.order) && (List.range q.slots).any fun t =>
    q.slotLeft t && runsMeet (slotBase p.prof slot) (pfHS p.prof) (slotBase q.prof t) (pfHS q.prof)

/-- Whether a step of another vector on the same entries has writes to make (R371, R389, R390). -/
def Arr.stepBusy (a : Arr) (p : Pass) (slot : Nat) : Bool :=
  let b := slotBase p.prof slot
  let n := pfHS p.prof
  let of (order slot : Nat) : Bool := a.passes.any fun q => q.order == order && q.isStep &&
    runsMeet b n (slotBase q.prof slot) (pfHS q.prof)
  let slotOf (order v : Nat) : Nat := match a.passes.find? fun q => q.order == order with
    | some q => v % q.slots
    | none => 0
  a.stepAhead p slot ||
  a.outs.any (fun o => !(o.order == p.order && pfMode p.prof == modeDecay) && of o.order (slotOf o.order o.v)) ||
  a.emits.any (fun o => (a.passes.any fun q => q.order == o.order && pfNseq q.prof != 0) && of o.order (slotOf o.order o.v)) ||
  a.streams.any (fun t => of t.order t.slot) || (a.clears.any fun c => runsMeet b n c.first c.count) ||
  a.acc.pend.any fun w => decide (a.accS ≤ w.word) && runsMeet b n (w.word - a.accS) 1

/-- Whether it is under way or a slice of those entries is being formed (R358). -/
def Arr.slotBusy (a : Arr) (p : Pass) (slot : Nat) : Bool :=
  a.stepBusy p slot || a.slices.any fun g => runsMeet (slotBase p.prof slot) (pfHS p.prof) (slotBase g.prof g.slot) (pfHS g.prof)

/-! ### The loop store (R378) -/

/-- The key of the slice that starts at a state entry, S4 or not. -/
def loopKey (e : Nat) (w4 : Bool) : Nat := 2 * (e / 32) + w4.toNat

/-- The slices that hold an entry of [e, e + n) become invalid. -/
def loopInvalid (m : SMap Slice) (e n : Nat) : SMap Slice :=
  m.filter fun x =>
    let f := 32 * (x.1 / 2)
    !(decide (f < e + n) && decide (e < f + (if x.1 % 2 = 1 then 64 else 32)))

/-- Slice n of the slot whose entries start at `base`, if valid. -/
def Arr.loopGet (a : Arr) (p : Prof) (base n : Nat) : Option Slice := smFind a.loopStore (loopKey (base + pfE p * n) (pfW4 p))

/-- That slice written; it is valid then, and nothing else holds its entries. -/
def loopPut (p : Prof) (base n : Nat) (m : SMap Slice) (sl : Slice) : SMap Slice :=
  smPut (loopInvalid m (base + pfE p * n) (pfE p)) (loopKey (base + pfE p * n) (pfW4 p)) sl

/-- Loop rows of a vector: logical row, slice number; the sibling's when `sib`. -/
def loopRows (a : Arr) (p : Prof) (sib : Bool) : List (Nat × Nat) :=
  let l0 := loopRow a p
  ((List.range (pfR p)).filter (if sib then pfSib p else pfLoop p)).map fun i => (i, (if sib then pfR p + i else i) - l0)

/-- Every loop row of a vector, SPAN's included. -/
def allLoopRows (a : Arr) (p : Prof) : List (Nat × Nat) :=
  loopRows a p false ++ (if pfMode p = modeSpan then loopRows a p true else [])

/-- Codes a vector takes from the decay feed (R345). -/
def feedNeed (p : Prof) (cols : Nat) : Nat := if pfMode p = modeDecay ∧ pfFeed p = true then cols / pfG p else 0

/-- An earlier pass still takes decay codes (R346). -/
def Arr.feedTaken (a : Arr) (p : Pass) : Bool :=
  a.passes.any fun q => decide (q.order < p.order) && decide (0 < feedNeed q.prof (a.cols q.prof)) &&
    !(q.phase == .done && q.entries.isEmpty)

/-- A partition takes vectors: not faulted, not awaiting a reload, no swap and no WLOAD ahead, none taken in this cc,
shape settled (R304, R306, R307, R322, R324). -/
def Arr.takes (a : Arr) (part order logr : Nat) : Bool :=
  !a.reg.faulted && !bitOf a.reg.reload part && !bitOf a.cc.entered part &&
  (match a.reg.staging with
   | some g => !(g.part == part && (decide (g.order < order) || g.left != 0))
   | none => true) &&
  (decide (fld (a.reg.logr.setWidth 32) (3 * part) 3 = logr) || !a.outs.any fun o => o.part == part)

/-! ### The emit buffer (R353) and freezes (R315, R393) -/

/-- Values held in the emit buffer: those bound for GATEn and not yet taken, those a write will emit, and those bound
for the pool. -/
def Core.emitFill (x : Core) (j : Fin 2) : Nat :=
  let a := x.arr j
  a.drip.emit.length + (a.streams.foldl (fun m t => if t.inGate then m else m + t.drip.length) 0) +
  (a.emits.foldl (fun m e => m + e.count) 0) +
  x.pool.acc.foldl (fun m b => match b.dest with
    | .drip i _ v => if i = j then m + v else m
    | _ => m) 0

/-- The drip stage can take the outputs of a vector. -/
def Core.outRoom (x : Core) (j : Fin 2) (o : OutVec) : Bool :=
  match (x.arr j).passes.find? fun p => p.order == o.order with
  | some p => !pfEmits p.prof || decide (x.emitFill j + o.vals.length ≤ 2048)
  | none => false

/-- The drip stage cannot accept a partition's outputs: the partition is frozen. -/
def Core.stuck (x : Core) (j : Fin 2) (part : Nat) : Bool :=
  match (x.arr j).outs.find? fun o => o.part == part with
  | some o => !x.outRoom j o
  | none => false

/-- So is the sibling's partition of a SPAN pass while its home partition is (R393). -/
def Core.frozen (x : Core) (j : Fin 2) (part : Nat) : Bool :=
  x.stuck j part || (x.arr (other j)).passes.any fun p =>
    pfMode p.prof == modeSpan && pfSibPart p.prof == part && x.stuck (other j) (pfPart p.prof)

/-- Everything but the decay feed holds for the next vector of a pass. -/
def entryReady (x : Core) (j : Fin 2) (p : Pass) (e : FeedEntry) : Bool :=
  let a := x.arr j
  let slot := e.v % p.slots
  let base := slotBase p.prof slot
  a.takes (pfPart p.prof) p.order (pfLogr p.prof) && !x.frozen j (pfPart p.prof) &&
  (pfMode p.prof != modeSpan ||
    ((x.arr (other j)).takes (pfSibPart p.prof) p.order (pfLogr p.prof) && !x.frozen (other j) (pfSibPart p.prof))) &&
  (!p.isStep || (!a.slotBusy p slot &&
    (e.code == cSTART || (allLoopRows a p.prof).all fun r => (a.loopGet p.prof base r.2).isSome)))

def entryFed (a : Arr) (p : Pass) : Bool :=
  let n := feedNeed p.prof (a.cols p.prof)
  n == 0 || (decide (n ≤ a.drip.feedQ.length) && !a.feedTaken p)

/-! ### VECTOR_ENTRY -/

/-- The slices of the rows of one array of a vector; none for a row of zeros (R312). -/
def entryRows (a : Arr) (p : Pass) (e : FeedEntry) (sib : Bool) : List (Option Slice) :=
  let base := slotBase p.prof (e.v % p.slots)
  let loops := loopRows a p.prof sib
  let pools := pfPoolRows p.prof
  (List.range (pfR p.prof)).map fun i =>
    match loops.find? fun l => l.1 == i with
    | some l => if e.code = cSTART then some (p.initSlice l.2) else a.loopGet p.prof base l.2
    | none =>
      if sib then none
      else match pools.zipIdx.find? fun u => u.1 == i with
        | some u => e.slices[u.2]?
        | none => none

/-- The words a START writes: the entries of its slot. -/
def startWords (a : Arr) (p : Pass) (e : FeedEntry) : List Nat :=
  if p.isStep && e.code == cSTART then (List.range (pfHS p.prof)).map fun i => a.accS + slotBase p.prof (e.v % p.slots) + i else []

/-- A START loads its slot: entries and loop slices (R375). -/
def startSlotState (a : Arr) (p : Pass) (slot : Nat) : Arr :=
  let b := slotBase p.prof slot
  let init := p.initV.map fun v => (f20ToAcc v (pfXS p.prof)).1
  let a1 := (List.range (pfHS p.prof)).foldl (fun a i =>
    a.accWrite (a.accS + b + i) [if i < pfHL p.prof then init.getD i (.fin 0) else .fin 0]) a
  { a1 with loopStore := (List.range (pfSlices p.prof)).foldl (fun m n => loopPut p.prof b n m (p.initSlice n)) a1.loopStore }

/-- Counts of a vector that enters (R327, R398). -/
def Arr.countEntry (a : Arr) (part logr : Nat) (step ending : Bool) : Arr :=
  let m := BitVec.ofNat 24 (7 * 2 ^ (3 * part))
  let r := { a.reg with
    logr := (a.reg.logr &&& ~~~m) ||| BitVec.ofNat 24 (logr * 2 ^ (3 * part))
    vecs := if a.reg.hold then a.reg.vecs else wrapAdd a.reg.vecs 1 }
  { a with
    cc := { a.cc with entered := setBit a.cc.entered part }
    reg := r
    stepReg := if step && !a.reg.hold then
        { a.stepReg with count := wrapAdd a.stepReg.count 1, ends := if ending then wrapAdd a.stepReg.ends 1 else a.stepReg.ends }
      else a.stepReg }

/-- The decay codes of a vector, popped from the feed or taken from the store (R345, R346). -/
def Arr.popCodes (a : Arr) (p : Prof) : Arr × List (Option (BitVec 17)) :=
  let n := feedNeed p (a.cols p)
  if n ≠ 0 then
    let cs := (List.range n).map fun i => if a.drip.feedVoid.contains i then none else some (a.drip.feedQ.getD i 0)
    ({ a with drip := { a.drip with
      feedQ := a.drip.feedQ.drop n, feedVoid := (a.drip.feedVoid.filter fun i => decide (n ≤ i)).map (· - n) } }, cs)
  else if pfMode p = modeDecay then (a, (List.range (a.cols p)).map fun i => some (smGet 0 a.drip.decay (pfDC p + i)))
  else (a, [])

def Core.firstRow (x : Core) (j : Fin 2) (part : Nat) : Nat :=
  match (x.arr j).partOf part with
  | some t => 4 * t.first
  | none => 0

/-- What the checkers saw of the home array, or of the sibling, makes its columns void (R324). -/
def obsVoids (obs : VecObs) (sib : Bool) : Bool :=
  match obs with
  | .weightParity b => b == sib
  | _ => false

/-- A vector enters: its outputs are formed (R301, R392) and wait for the drip stage. -/
def vectorIn (x : Core) (j : Fin 2) (p : Pass) (e : FeedEntry) (obs : VecObs) : Core :=
  let a := x.arr j
  let cols := a.cols p.prof
  let slot := e.v % p.slots
  let ending := e.code == cEND
  let span := pfMode p.prof == modeSpan
  let seen (sib : Bool) (l : List Acc) : List Acc := if obsVoids obs sib then l.map fun _ => .void else l
  let home := seen false (partOut a p.prof (x.firstRow j (pfPart p.prof)) cols (entryRows a p e false))
  let sib := if span then
      seen true (partOut (x.arr (other j)) p.prof (x.firstRow (other j) (pfSibPart p.prof)) cols (entryRows a p e true))
    else []
  let y := x.updArr j fun a =>
    let a1 := if p.isStep && e.code == cSTART then startSlotState a p slot else a
    let q := a1.popCodes p.prof
    let a2 := (q.1.setPass { p with entries := p.entries.tail }).countEntry (pfPart p.prof) (pfLogr p.prof) p.isStep ending
    { a2 with outs := a2.outs ++ [{ order := p.order, part := pfPart p.prof, v := e.v, vals := home, sib := sib
                                    codes := q.2, ending := ending }] }
  if span then y.updArr (other j) fun a => a.countEntry (pfSibPart p.prof) (pfLogr p.prof) false false else y

/-- A parity error of a vector on a partition (R324). -/
def weightError (s : State) (a : ArrId) (part : Nat) : State :=
  raise (s.updArr a fun x =>
    let y := x.needReload part
    { y with reg := { y.reg with parity := if y.reg.hold then y.reg.parity else satAdd y.reg.parity 1 } }) (arrChan a)
    { lvl := arrLvl a, cause := 0x42, cls := 1, info := BitVec.ofNat 32 part, addr := 0 }

/-- A residue mismatch in an array (R325). -/
def residueError (s : State) (a : ArrId) (col row : BitVec 5) (tree : Bool) : State :=
  raise (markFaulted s a) (arrChan a)
    { lvl := arrLvl a, cause := 0x40, cls := 3
      info := BitVec.ofNat 32 (col.toNat + row.toNat * 32 + tree.toNat * 1024), addr := 0 }

/-- VECTOR_ENTRY: the next vector of a partition enters when R314 and its pass allow it. -/
def execVectorEntry (a : ArrId) (part : Fin 8) (obs : VecObs) (see : AccSee) (s : State) : Out :=
  .next (
    let n := arrChan a
    let k := arrCore a
    let j := arrLoc a
    let x := (s.chan n).core k
    let r := x.arr j
    if !(s.chan n).working then s
    else match r.nextPass part.val with
    | none => s
    | some p =>
      match p.entries with
      | [] => s
      | e :: _ =>
        if !entryReady x j p e || !entryFed r p then s
        else
          let span := pfMode p.prof == modeSpan
          let s1 := feedPump (s.updCh n fun c => c.updCore k fun x => vectorIn x j p e obs) n k
          let s2 := match obs with
            | .clean => s1
            | .weightParity sib =>
              if !sib then weightError s1 a part.val
              else if span then weightError s1 (mkArr n k (other j)) (pfSibPart p.prof) else s1
            | .residue sib col row tree =>
              if !sib then residueError (s1.updArr a fun x => { x with outs := x.outs.dropLast }) a col row tree
              else if span then residueError s1 (mkArr n k (other j)) col row tree else s1
          accSeen s2 a [] (startWords r p e) see)

/-! ### The drip stage (R349–R355) -/

/-- Activations of R351. -/
def dripAct (a : Arr) (p : Prof) (v : F20) : F20 × Fl :=
  match pfAct p with
  | 1 => (f20MaxOf v 0, 0)
  | 2 => (f20Clamp v (pfLO p) (pfHI p), 0)
  | 3 => fnEval a.cfg.arrange .sig v
  | 4 => fnEval a.cfg.arrange .tanh v
  | _ => (f20Canon v, 0)

/-- Steps 1 to 3 of R350 for parameter offset j. -/
def dripValue (a : Arr) (p : Prof) (j : Nat) (v : Acc) : F20 × Fl :=
  let i := (pfDP p + j) % 1024
  let v0 := accToF20 v (pfX p)
  let v1 := f20Fma v0.1 (smGet 0 a.drip.scale i) (smGet 0 a.drip.bias i)
  let v2 := dripAct a p v1.1
  (v2.1, v0.2 ||| v1.2 ||| v2.2)

/-- Values counted by the histogram while it is enabled on their source (R290–R293). -/
def Hist.count (h : Hist) (src : Bool) (vals : List F20) : Hist :=
  if h.en && h.src == src then
    { h with bins := vals.foldl (fun m v => smSet 0 m (histBin v) (satAdd (smGet 0 m (histBin v)) 1)) h.bins }
  else h

def Drip.addFlags (d : Drip) (f : Fl) : Drip := { d with flags := d.flags ||| f.setWidth 6 }

/-- Pool writes of drip bytes that stand for `vals` values: each line holds the places of the values whose last byte it
writes (R353). -/
def dripWrites (j : Fin 2) (order off vals : Nat) (bs : List Byte) : List PoolAcc :=
  (lineWrites (clDrip j) off bs (.drip j order 0)).map fun a =>
    let hi := min bs.length (128 * (a.line + 1) - off)
    let lo := min bs.length (128 * a.line - off)
    { a with dest := .drip j order (hi * vals / bs.length - lo * vals / bs.length) }

/-- The pool bytes of values from emit index i on, by offset, with their flags (R352). -/
def dripBytes (p : Prof) (i : Nat) (vals : List F20) : List (Nat × List Byte) × Fl :=
  let da := (pw p 9).toNat
  let ea := (pw p 10).toNat
  let blocks (f : Fmt) : List Block := (blocksOf (pfDbs p) vals).map (blockF20 f)
  let fl (bs : List Block) : Fl := bs.foldl (fun m b => m ||| b.flags) 0
  match pfDdest p with
  | 2 => ([(da + 4 * i, padF20 vals)], 0)
  | 3 => ([(da + 5 * i / 2, f20Write true vals)], 0)
  | 4 => let bs := blocks .s8
         ([(da + i, bs.flatMap (·.codes)), (ea + i / pfDbs p, bs.map (·.scale))], fl bs)
  | 5 => let bs := blocks .s4
         ([(da + i / 2, packNibbles (bs.flatMap (·.codes))), (ea + i / pfDbs p, bs.map (·.scale))], fl bs)
  | 6 => let qs := vals.map fun v => f20ToQ16 v (pfQF p)
         ([(da + 2 * i, qs.flatMap fun q => natLe 2 q.1.toNat)], qs.foldl (fun m q => m ||| q.2) 0)
  | _ => ([], 0)

/-- Values emitted by a command: parameter offset `off`, emit index `i`; a STEP's values for GATEn go to its stream. -/
def dripEmit (x : Core) (j : Fin 2) (p : Prof) (order : Nat) (isStep : Bool) (off i : Nat) (vals : List Acc) : Core × List F20 :=
  let a := x.arr j
  let rs := vals.zipIdx.map fun v => dripValue a p (off + v.2) v.1
  let vs := rs.map (·.1)
  let out := dripBytes p i vs
  let y := x.updArr j fun a => { a with
    hist := a.hist.count false vs
    drip := a.drip.addFlags (rs.foldl (fun m v => m ||| v.2) out.2) }
  match pfDdest p with
  | 0 =>
    if isStep then (y, vs)
    else (y.updArr j fun a => { a with drip := { a.drip with
      emit := a.drip.emit ++ vs, runs := a.drip.runs ++ [(order, vs.length)] } }, vs)
  | 1 => ({ y with lane := y.lane.tilePut (fld (pw p 9) 0 3) (fld (pw p 9) 3 5) false i vs }, vs)
  | _ =>
    let ws := out.1.zipIdx.flatMap fun o => dripWrites j order o.1.1 (if o.2 = 0 then vs.length else 0) o.1.2
    ({ y with pool := { y.pool with acc := y.pool.acc ++ ws } }, vs)

/-- The word that column 0 of a vector is written to. -/
def outWord (a : Arr) (p : Pass) (v : Nat) : Nat :=
  if pfMode p.prof = modeSpan then pfStride p.prof + v % 32 * a.cols p.prof
  else if p.isStep then a.accS + slotBase p.prof (v % p.slots)
  else pfB p.prof + v * pfStride p.prof

/-- The words a vector reads the prior value of, and those it writes (R334). -/
def outWords (a : Arr) (p : Pass) (o : OutVec) : List Nat × List Nat :=
  let m := pfMode p.prof
  let ws := (List.range o.vals.length).map fun i => outWord a p o.v + i
  (if m = modeAcc ∨ m = modeDecay then ws else [], if m = modeDirect ∨ m = modeAinto then [] else ws)

/-- The contributions of a vector applied under its mode, its sibling's added (R281, R334, R335, R392). -/
def outWrite (a : Arr) (p : Pass) (o : OutVec) : Arr :=
  let m := pfMode p.prof
  let w0 := outWord a p o.v
  let g := if pfFeed p.prof then pfG p.prof else 1
  let b := o.vals.zipIdx.foldl (fun (b : Arr) v =>
    let prior := b.accGet (w0 + v.2)
    let base := if m = modeAcc then [prior]
      else if m = modeDecay then [match o.codes.getD (v.2 / g) (some 0) with
        | some d => accDecay prior d
        | none => .void]
      else []
    b.accWrite (w0 + v.2) (base ++ [v.1])) a
  b.accIntoRun w0 o.sib

/-! ### Values that leave the drip stage (R349, R353, R384) -/

/-- A SIPHON that borrows the gate pipe of an array has not completed (R402). -/
def Core.lent (x : Core) (j : Fin 2) : Bool :=
  (x.queues.getD (4 + j.val) Queue.empty).issued.any fun i => i.cmd.opc == 10

/-- Items in flight in the gate pipe: step items and CHAIN items together (R417). -/
def Arr.gateItems (a : Arr) : Nat := a.streams.countP (·.inGate) + a.chainRun.countP (·.started)

/-- GATEn takes the values of waiting streams out of the emit buffer, the earliest first, while it has room for items
and is not lent (R353, R385, R402, R417). -/
def Core.gateTake (x : Core) (j : Fin 2) : Core :=
  if x.lent j then x
  else x.updArr j fun a => { a with streams := (a.streams.foldl (fun (m : List Stream × Nat) t =>
    if t.inGate then (m.1 ++ [t], m.2)
    else if m.2 < 32 then (m.1 ++ [{ t with inGate := true }], m.2 + 1)
    else (m.1 ++ [t], m.2)) ([], a.gateItems)).1 }

/-- The values of a vector are emitted; those of a step with gate work are its stream's pre-activations. -/
def emitVec (x : Core) (j : Fin 2) (order v : Nat) (ending : Bool) (vals : List Acc) : Core :=
  match (x.arr j).passes.find? fun p => p.order == order with
  | none => x
  | some p =>
    let e := dripEmit x j p.prof order p.isStep 0 p.emitted vals
    (e.1.updArr j fun a =>
      let a1 := a.setPass { p with emitted := p.emitted + e.2.length }
      if p.isStep && pfNseq p.prof != 0 then
        { a1 with streams := a1.streams ++
          [{ order := order, slot := v % p.slots, v := v, ending := ending, drip := e.2.zipIdx.map (fun v => (v.2, v.1))
             entry := 0, group := ((pfSeq p.prof).head?.map (·.first)).getD 0, looped := [], inGate := false, stAt := 0 }] }
      else a1).gateTake j

/-- One vector's outputs received (R307, R308): written, sent to the sibling, emitted now or, for a write, in the cc
after it (R349). `cc` is the cc in progress. -/
def outReceive (x : Core) (j : Fin 2) (p : Pass) (o : OutVec) (cc : Nat) : Core :=
  let slot := o.v % p.slots
  let x1 := x.updArr j fun a => { a with
    outs := a.outs.erase o, cc := { a.cc with received := setBit a.cc.received o.part }
    passes := a.passes.map fun (q : Pass) => if q.order = p.order then { q with finals := match pfOpt p.prof 2 with
      | some at_ => if o.ending then
          let b := at_ + o.v / p.slots * finalLen p.slots + slot / 8
          smSet 0 q.finals b (setBit (smGet 0 q.finals b) (slot % 8)) else q.finals
      | none => q.finals } else q }
  let m := pfMode p.prof
  let x2 :=
    if m = modeAinto then
      x1.updArr (other j) fun a => { a with arrivals := a.arrivals ++
        [{ word := pfB p.prof + o.v * pfStride p.prof, vals := o.vals, src := none, peer := none, flits := 0, own := some p.order }] }
    else if m = modeDirect then
      if pfEmits p.prof then emitVec x1 j p.order o.v o.ending (o.vals.map fun v => accTotal [v]) else x1
    else
      let w0 := outWord (x1.arr j) p o.v
      x1.updArr j fun a =>
        let b := outWrite a p o
        if pfEmits p.prof then { b with emits := b.emits ++
          [{ order := p.order, v := o.v, word := w0, count := o.vals.length, ending := o.ending }] } else b
  if p.isStep && pfNseq p.prof == 0 && o.ending then
    x2.updArr j fun a => { a with
      clears := a.clears ++ [{ first := slotBase p.prof slot, count := pfHS p.prof, order := p.order, slot := slot, due := cc + 1 }]
      loopStore := loopInvalid a.loopStore (slotBase p.prof slot) (pfHS p.prof) }
  else x2

/-- Words a DRAIN takes at a time: 128, or one drip block (R349, R352). -/
def drainChunk (d : DrainRun) : Nat :=
  min d.left (if pfDdest d.prof = 4 ∨ pfDdest d.prof = 5 then max 128 (pfDbs d.prof) else 128)

def drainReceive (x : Core) (j : Fin 2) (d : DrainRun) : Core :=
  let n := drainChunk d
  let vals := (List.range n).map fun i => (x.arr j).accGet (d.word + i)
  let y := (dripEmit x j d.prof d.order false d.done d.done vals).1
  y.updArr j fun a => { a with
    cc := { a.cc with drew := true }
    drains := if d.left ≤ n then a.drains.tail else a.drains.map fun (e : DrainRun) =>
      if e.order = d.order then { e with word := e.word + n, left := e.left - n, done := e.done + n } else e }

/-- The vector whose outputs the drip stage takes next: the earliest, of those next on their partition, that it can
accept; a partition delivers one vector in a cc (R305, R307, R308, R315). -/
def Core.nextOut (x : Core) (j : Fin 2) : Option OutVec :=
  let a := x.arr j
  (a.outs.zipIdx.find? fun o => !bitOf a.cc.received o.1.part && x.outRoom j o.1 &&
    !(a.outs.take o.2).any fun u => u.part == o.1.part).map (·.1)

/-- The DRAIN whose words it takes next, behind the outputs of earlier passes. -/
def Core.nextDrain (x : Core) (j : Fin 2) : Option DrainRun :=
  let a := x.arr j
  match a.drains with
  | [] => none
  | d :: _ =>
    if a.cc.drew || a.outs.any (fun o => decide (o.order < d.order)) || decide (2048 < x.emitFill j + drainChunk d) then none
    else some d

/-- DRIP_RECEIVE: the drip stage takes a vector's outputs, or else the next words of a DRAIN, when its emit buffer has
room (R315, R353). -/
def execDripReceive (a : ArrId) (see : AccSee) (_ : Unit) (s : State) : Out :=
  .next (
    let n := arrChan a
    let k := arrCore a
    let j := arrLoc a
    let x := (s.chan n).core k
    let r := x.arr j
    if r.reg.faulted || !(s.chan n).working then s
    else match x.nextOut j with
    | some o =>
      (match r.passes.find? fun p => p.order == o.order with
      | none => s
      | some p =>
        let ws := outWords r p o
        let t := accReads s a ws.1 see
        let u := feedPump (t.updCh n fun c => c.updCore k fun x => outReceive x j p o (s.chan n).ctl.cc) n k
        accTags u a (ws.1 ++ ws.2) see)
    | none =>
      match x.nextDrain j with
      | none => s
      | some d =>
        let ws := (List.range (drainChunk d)).map fun i => d.word + i
        accTags ((accReads s a ws see).updCh n fun c => c.updCore k fun x => drainReceive x j d) a ws see)

/-! ### Accumulate-into (R333, R362) -/

/-- The words of a run that can be applied in the cc in progress: all of a pass's, 32 of DMA and peer arrivals
together. -/
def Arr.intoRoom (a : Arr) (v : Arrival) : Nat :=
  if v.own.isSome then v.vals.length else min (32 - a.cc.into) v.vals.length

/-- The first words of the oldest run that can be applied. -/
def Arr.intoNext (a : Arr) : Option (Arrival × Nat) :=
  (a.arrivals.find? fun v => 0 < a.intoRoom v || v.vals.isEmpty).map fun v => (v, a.intoRoom v)

/-- So many words of a run applied; the rest of it waits. -/
def Arr.intoApply (a : Arr) (v : Arrival) (k : Nat) : Arr :=
  let b : Arr := { a with
    cc := if v.own.isSome then a.cc else { a.cc with into := a.cc.into + k }
    arrivals := if v.vals.length ≤ k then a.arrivals.erase v
      else a.arrivals.map fun (u : Arrival) => if u = v then { v with word := v.word + k, vals := v.vals.drop k } else u }
  b.accIntoRun v.word (v.vals.take k)

/-- ACCUMULATE_INTO: arrivals reach the file. -/
def execAccumulateInto (a : ArrId) (see : AccSee) (s : State) : Out :=
  .next (
    let n := arrChan a
    match (s.arr a).intoNext with
    | none => s
    | some (v, k) =>
      let ws := (List.range k).map fun i => v.word + i
      let s1 := accTags ((accReads s a ws see).updArr a fun x => x.intoApply v k) a ws see
      match v.src, v.peer with
      | some id, _ => descDone s1 n id (8 * k)
      | none, some slot => if v.vals.length ≤ k then pieceLanded s1 n slot v.flits else s1
      | none, none => s1)

/-- ARR_CNT_CLEAR: ARR_CNT_CTRL.CLEAR (R327). -/
def execArrCntClear (a : ArrId) (s : State) : Out :=
  .next (hostWr s (.arrCntClear a) (arrBase a + 0x18) fun t => t.updArr a fun x =>
    if x.cfg.used then { x with reg := { x.reg with vecs := 0, feedstall := 0, bpstall := 0, parity := 0, swaps := 0 } } else x)

end Sys2Proof.Machine
end

