-- ==== Sys2Proof/Machine/Gate.lean ====
section
/-! DEFINITION. The gate pipe at work (chapters 10 and 12): priming, the issue of step work and of CHAIN commands with
all its effects, loop slices, END clears, and the clears of its counters. -/

namespace Sys2Proof.Machine

/-! ### Order of issues (R385, R431) -/

/-- The issue after (entry, lane group); none after the last. -/
def seqAfter (seq : List SeqEnt) (i k : Nat) : Option (Nat × Nat) :=
  match seq[i]? with
  | none => none
  | some e => if k < e.last then some (i, k + 1) else (seq[i + 1]?).map fun f => (i + 1, f.first)

/-- Every issue from one on. -/
def seqFrom (seq : List SeqEnt) : Option (Nat × Nat) → List (SeqEnt × Nat)
  | none => []
  | some (i, k) => ((seq.zipIdx).drop i).flatMap fun e =>
      let lo := if e.2 = i then k else e.1.first
      (List.range (e.1.last + 1 - lo)).map fun q => (e.1, lo + q)

/-- One issue at hand: an entry of a SEQ on a lane group of an item. -/
structure Work where
  order   : Nat
  owner   : Nat             -- the item, in the keys of its link registers
  isStep  : Bool
  prof    : List Word
  ix      : Nat
  k       : Nat
  ent     : SeqEnt
  desc    : ChainDesc
  groups  : List (List F20)
  base    : Nat
  ending  : Bool
  table   : Option ConstTab
  f       : Nat
  xc      : Int
  norm    : NormCtx
  sum     : Acc
  sq      : Acc
  isLocal : Bool
  deliv   : Nat
  deriving DecidableEq, Repr

def groupsOf (l : List F20) (n : Nat) : List (List F20) := (List.range n).map fun g => (l.drop (32 * g)).take 32

def noNorm : NormCtx := { entry := 0, n := 0, nl := 0, xn := 0, eps := 0, soft := false }

/-- The issue a stream is at. -/
def workStep (c : Chan) (x : Core) (j : Fin 2) (t : Stream) : Option Work :=
  let a := x.arr j
  match a.passes.find? fun p => p.order == t.order with
  | none => none
  | some p =>
    match (pfSeq p.prof)[t.entry]? with
    | none => none
    | some e => (a.chain e.desc).map fun d =>
      { order := t.order, owner := t.order * 2 ^ 26 + t.v, isStep := true, prof := p.prof, ix := t.entry, k := t.group
        ent := e, desc := d
        groups := groupsOf ((List.range (a.cols p.prof)).map fun i => smGet 0 t.drip i) (a.cols p.prof / 32)
        base := slotBase p.prof t.slot, ending := t.ending
        table := smFind c.cfg.consts ((p.csel.getD t.slot 0).toNat % 16), f := 15, xc := pfXS p.prof
        norm := noNorm, sum := .fin 0, sq := .fin 0, isLocal := false, deliv := smGet 0 p.deliv t.entry }

/-- A CHAIN with IN DRIP takes GI groups of drip values for every item (R431). -/
def ChainRun.takesDrip (r : ChainRun) : Bool := !cfTile r.prof

/-- A CHAIN still has drip values to take. -/
def ChainRun.wantsDrip (r : ChainRun) : Bool := r.takesDrip && !(r.item + 1 == r.items && r.drip.isSome)

/-- The drip groups of a CHAIN's item (R431). -/
def ChainRun.groups (x : Core) (r : ChainRun) : List (List F20) :=
  if cfTile r.prof then
    (List.range (cfGI r.prof)).map fun g =>
      let rho := r.item * cfGI r.prof + g
      smGetList 0 x.lane.tilesRead ((cfTI r.prof + rho / 32) % 8 * 1024 + rho % 32 * 32) 32
  else groupsOf (r.drip.getD []) (cfGI r.prof)

/-- The issue a CHAIN is at. -/
def workChain (c : Chan) (x : Core) (j : Fin 2) (r : ChainRun) : Option Work :=
  let a := x.arr j
  match (pfSeq r.prof)[r.entry]? with
  | none => none
  | some e => (a.chain e.desc).map fun d =>
    { order := r.order, owner := r.order * 2 ^ 26 + r.item, isStep := false, prof := r.prof, ix := r.entry, k := r.group
      ent := e, desc := d, groups := r.groups x, base := slotBase r.prof r.item, ending := false
      table := smFind c.cfg.consts (cfTable r.prof), f := cfF r.prof, xc := cfXC r.prof
      norm := { entry := cfStatw r.prof + 3 * r.item, n := cfN r.prof, nl := cfNL r.prof, xn := cfXN r.prof
                eps := cfEps r.prof, soft := c.cfg.norm }
      sum := r.sum, sq := r.sq, isLocal := r.isLocal, deliv := smGet 0 r.deliv r.entry }

/-! ### What an issue reads -/

/-- The key of a link register's lane. -/
def linkKey (owner k l lane : Nat) : Nat := ((owner * 32 + k) * 4 + l) * 32 + lane

/-- A link register of an item; a lane nothing has written reads a free value (R710, log 10). -/
def Arr.linkLanes (a : Arr) (owner k l free : Nat) : List F20 :=
  laneIx.map fun i => (smFind a.links (linkKey owner k l i)).getD (Config.freeF20 (free + 32 * l + i))

def Work.ctx (c : Chan) (x : Core) (j : Fin 2) (free : Nat) (w : Work) : IssueCtx :=
  { arr := x.arr j, tiles := x.lane.tilesRead, desc := w.desc, k := w.k, mask := w.ent.mask, groups := w.groups
    links := [0, 1, 2, 3].map fun l => (x.arr j).linkLanes w.owner w.k l free
    base := w.base, xs := pfXS w.prof, ending := w.ending, table := w.table, ufuncs := c.cfg.ufuncs, f := w.f
    xc := w.xc, norm := w.norm }

def Work.lastGroup (w : Work) : Bool := w.k == w.ent.last

/-- Bytes an issue adds to the end its chain delivers to; a GATHER delivers its pair alone, at the entry's last lane
group (R449). -/
def Work.len (w : Work) : Nat := if w.desc.gathers && !w.lastGroup then 0 else w.desc.recordLen

/-- The end an issue delivers to has no room for its result (R346, R571). -/
def Work.full (x : Core) (j : Fin 2) (w : Work) : Bool :=
  match w.desc.dest with
  | 2 => decide (2048 < (x.arr j).drip.feedQ.length + popcount w.ent.mask.toNat 32)
  | 3 => decide (8192 < (x.ends.gateL.get j).length + w.len)
  | 4 => decide (8192 < (x.ends.gateP.get j).length + w.len)
  | _ => false

/-! ### What an issue does -/

/-- A GATE_ flag byte: NV, NL and the four flags of R274. -/
def gateFlags (fl : Fl) (nl nv : Bool) : BitVec 6 := (putBit (putBit (fl.setWidth 6) 4 nl) 5 nv)

/-- Counters of an issue, which ARR_CNT_CTRL.HOLD stops (R455). -/
def Arr.countIssue (a : Arr) (loc voided notable : Nat) : Arr :=
  if a.reg.hold then a
  else { a with gate := { a.gate with
    issues := wrapAdd a.gate.issues 1, loc := satAdd a.gate.loc loc, voided := satAdd a.gate.voided voided
    notable := satAdd a.gate.notable notable } }

/-- State entries written by STATE stages and cleared or set by NORM, each in the cc after its stage; `cc` is that of
the issue (R356, R383, R428, R448, R449). -/
def Work.writes (w : Work) (r : IssueRes) (a : Arr) (cc : Nat) : List StageWrite :=
  let put (op word : Nat) (v : Acc) : StageWrite := { due := cc + w.desc.stageAt op + 1, order := w.order, word := word, val := v }
  let n := a.accS + w.norm.entry
  r.state.map (fun e => put opSTATE (a.accS + w.base + e.1) (a40Dec e.2.1)) ++
  (if w.lastGroup && w.desc.gathers then [put opNORM (n + 2) r.sq] else []) ++
  (if w.lastGroup && r.normed then [0, 1, 2].map fun i => put opNORM (n + i) (.fin 0) else [])

/-- The link register an issue writes, on its enabled lanes. -/
def Work.linkWrites (w : Work) (x : IssueCtx) (r : IssueRes) (a : Arr) : Arr :=
  if w.desc.lw then
    { a with links := (laneIx.filter x.on).foldl (fun m l =>
        smPut m (linkKey w.owner w.k w.desc.link l) (r.vals.getD l 0)) a.links }
  else a

/-- Codes pushed into the decay feed; a void one is marked by its place. -/
def Arr.feedPush (a : Arr) (l : List (Option (BitVec 17))) : Arr :=
  { a with drip := { a.drip with
    feedQ := a.drip.feedQ ++ l.map (·.getD 0)
    feedVoid := a.drip.feedVoid ++ (l.zipIdx.filter fun c => c.1.isNone).map fun c => a.drip.feedQ.length + c.2 } }

/-- Bytes appended to a gate pipe's end towards LAUNCH or PEER. -/
def Core.endPush (x : Core) (j : Fin 2) (peer : Bool) (bs : List Byte) : Core :=
  { x with ends :=
    if peer then { x.ends with gateP := x.ends.gateP.set j (x.ends.gateP.get j ++ bs) }
    else { x.ends with gateL := x.ends.gateL.set j (x.ends.gateL.get j ++ bs) } }

/-- The delivery of an issue, and the flags of its conversion (R426, R449). -/
def Work.deliver (w : Work) (x : IssueCtx) (r : IssueRes) (j : Fin 2) (y : Core) : Core × Fl :=
  match w.desc.dest with
  | 1 =>
    let row := (w.desc.tdrow + w.deliv) % 32
    ({ y with lane := (laneIx.filter x.on).foldl (fun (m : Lane) l =>
        m.tileWrite (1024 * w.desc.tdreg + 32 * row + l) (r.vals.getD l 0)) y.lane }, 0)
  | 2 => let d := x.decayCodes r; (y.updArr j fun a => a.feedPush d.1, d.2)
  | 3 => let d := x.record r; (y.endPush j false d.1, d.2)
  | 4 =>
    if w.desc.gathers then
      (if w.lastGroup then y.endPush j true (a40Bytes (a40Enc r.sum) ++ a40Bytes (a40Enc r.sq)) else y, 0)
    else let d := x.record r; (y.endPush j true d.1, d.2)
  | _ => (y, 0)

/-- The values at the end of a chain, before any CVT; a chain that is one CVT has the value that enters it (R290). -/
def Work.ends (w : Work) (x : IssueCtx) (r : IssueRes) : List F20 :=
  if w.desc.cvt.isSome && w.desc.stages.length == 1 then (x.cvtIn r).map fun v => f20Canon v.1 else r.vals

/-- Every effect of an issue but its place in the work. -/
def Work.apply (w : Work) (x : IssueCtx) (r : IssueRes) (j : Fin 2) (cc : Nat) (y : Core) : Core :=
  let d := w.deliver x r j y
  let on := laneIx.filter x.on
  d.1.updArr j fun a =>
    let b := w.linkWrites x r { a with acc := { a.acc with pend := a.acc.pend ++ w.writes r a cc } }
    let b1 : Arr := { b with
      cc := { b.cc with issued := true }
      hist := b.hist.count true (on.map fun l => (w.ends x r).getD l 0)
      gate := { b.gate with
        flags := b.gate.flags ||| gateFlags (r.flags ||| d.2) r.isLocal (decide (0 < r.voided))
        desc := BitVec.ofNat 6 w.ent.desc } }
    b1.countIssue (if r.isLocal then 1 else 0) (min 1 r.voided) r.notable

/-! ### Moving on -/

/-- The link registers of an item go with it (R382). -/
def Arr.dropLinks (a : Arr) (owner : Nat) : Arr := { a with links := a.links.filter fun e => e.1 / 4096 != owner }

/-- Looped elements an issue writes. -/
def loopedOf (a : Arr) (p : Prof) (e : SeqEnt) (k : Nat) : List Nat :=
  match a.chain e.desc with
  | some d => if d.loop then
      (d.stages.filter fun t => t.op == opSTATE).flatMap fun t =>
        ((laneIx.filter fun l => bitOf e.mask l).map fun l => 32 * (k + t.arg) + l).filter fun i => decide (i < pfHL p)
    else []
  | none => []

/-- A looped element of a slot as F20: what the step wrote, or its entry read through the STATE stage (R357). -/
def loopElem (a : Arr) (p : Prof) (slot : Nat) (looped : SMap F20) (i : Nat) : F20 × Fl :=
  match smFind looped i with
  | some v => (v, 0)
  | none => accToF20 (a.accGet (a.accS + slotBase p slot + i)) (pfXS p)

/-- The elements of loop slice n of a slot. -/
def sliceElems (p : Prof) (n : Nat) : List Nat :=
  (List.range (pfE p)).filterMap fun i => if pfE p * n + i < pfHL p then some (pfE p * n + i) else none

/-- The slices whose last looped write an issue of a stream makes (R357). -/
def Arr.loopReady (a : Arr) (w : Work) (t : Stream) : List Nat :=
  let seq := pfSeq w.prof
  let now := if t.ending then [] else loopedOf a w.prof w.ent w.k
  let future := (seqFrom seq (seqAfter seq t.entry t.group)).flatMap fun e => (loopedOf a w.prof e.1 e.2).map (· / pfE w.prof)
  (((t.looped.map (·.1)) ++ now).map fun e => e / pfE w.prof).eraseDups.filter fun n => !future.contains n

/-- The words of the elements of those slices that the step does not write, which are read (R357). -/
def Arr.loopReads (a : Arr) (w : Work) (t : Stream) : List Nat :=
  let now := if t.ending then [] else loopedOf a w.prof w.ent w.k
  ((a.loopReady w t).flatMap (sliceElems w.prof)).filterMap fun i =>
    if now.contains i || (smFind t.looped i).isSome then none else some (a.accS + slotBase w.prof t.slot + i)

/-- A stream moves on past an issue: slices whose last looped write is made go to the requantiser; at its end an END
step leaves its clear, two cc after its last STATE stage or in the cc after its last stage (R357, R376). -/
def Arr.streamNext (a : Arr) (w : Work) (r : IssueRes) (t : Stream) (cc : Nat) : Arr :=
  let seq := pfSeq w.prof
  let nx := seqAfter seq t.entry t.group
  let rest (u : Stream) : Bool := !(u.order == t.order && u.v == t.v)
  let lp := if w.desc.loop && !t.ending then
      r.state.foldl (fun m e => if e.1 < pfHL w.prof then smPut m e.1 e.2.2 else m) t.looped else t.looped
  let ready := a.loopReady w t
  let st := if r.state.isEmpty then t.stAt else max t.stAt (cc + w.desc.stageAt opSTATE)
  let elems := ready.map fun n => (n, (sliceElems w.prof n).map (loopElem a w.prof t.slot lp))
  let jobs : List SliceJob := elems.map fun e =>
    { order := t.order, slot := t.slot, n := e.1, prof := w.prof, vals := e.2.map (·.1) }
  let fl := (elems.flatMap (·.2)).foldl (fun m v => m ||| v.2) (0 : Fl)
  let a1 := { a with
    slices := a.slices ++ jobs
    gate := { a.gate with flags := a.gate.flags ||| fl.setWidth 6 }
    passes := a.passes.map fun (p : Pass) =>
      if p.order = t.order ∧ w.desc.dest = 1 then { p with deliv := smSet 0 p.deliv t.entry (smGet 0 p.deliv t.entry + 1) } else p }
  match nx with
  | some (i, k) =>
    { a1 with streams := a1.streams.map fun (u : Stream) => if rest u then u
        else { u with entry := i, group := k, stAt := st, looped := lp.filter fun e => !ready.contains (e.1 / pfE w.prof) } }
  | none =>
    let a2 := { a1 with streams := a1.streams.filter rest }.dropLinks w.owner
    if t.ending then
      { a2 with
        clears := a2.clears ++ [{ first := w.base, count := pfHS w.prof, order := t.order, slot := t.slot
                                  due := if st = 0 then cc + w.desc.lat + 1 else st + 2 }]
        loopStore := loopInvalid a2.loopStore w.base (pfHS w.prof) }
    else a2

/-- A CHAIN moves on past an issue; with its last item it has ended. -/
def Arr.chainNext (a : Arr) (w : Work) (r : IssueRes) (c : ChainRun) : Arr :=
  let seq := pfSeq w.prof
  let g := w.desc.gathers && w.lastGroup
  let c1 : ChainRun :=
    { c with
      sum := if g then .fin 0 else r.sum, sq := if g then .fin 0 else r.sq, isLocal := r.isLocal, started := true
      deliv := if w.desc.dest = 1 then smSet 0 c.deliv c.entry (smGet 0 c.deliv c.entry + 1) else c.deliv }
  let put (b : Arr) (d : ChainRun) : Arr :=
    { b with chainRun := b.chainRun.map fun (u : ChainRun) => if u.order = c.order then d else u }
  match seqAfter seq c.entry c.group with
  | some (i, k) => put a { c1 with entry := i, group := k }
  | none =>
    let b := a.dropLinks w.owner
    if c.items ≤ c.item + 1 then { b with chainRun := b.chainRun.filter fun u => u.order != c.order }
    else put b { c1 with item := c.item + 1, entry := 0, group := (seq.head?.map (·.first)).getD 0, drip := none
                         started := false, isLocal := false, sum := .fin 0, sq := .fin 0 }

/-! ### Choosing (R379, R385, R402, R417) -/

/-- The slice to prime next: its pass, its vector and the slice's number. -/
def Arr.primeNext (a : Arr) : Option (Pass × Nat × Nat) :=
  (a.passes.findSome? fun p =>
    match p.entries with
    | [] => none
    | e :: _ =>
      let slot := e.v % p.slots
      let first := match a.nextPass (pfPart p.prof) with
        | some q => q.order == p.order
        | none => false
      if p.isStep && e.code != cSTART && first && !a.stepBusy p slot then
        ((allLoopRows a p.prof).find? fun r =>
          let e := slotBase p.prof slot + pfE p.prof * r.2
          (a.loopGet p.prof (slotBase p.prof slot) r.2).isNone && !a.slices.any fun g => slotBase g.prof g.slot + pfE g.prof * g.n == e).map
            fun r => (p, slot, r.2)
      else none)

/-- The step work to issue: of the streams in flight whose destination has room, the one whose vector entered
earliest. -/
def stepPick (c : Chan) (x : Core) (j : Fin 2) : Option (Stream × Work) :=
  ((x.arr j).streams.filter (·.inGate)).findSome? fun t => match workStep c x j t with
    | some w => if w.full x j then none else some (t, w)
    | none => none

/-- An item takes its drip values at its first issue, out of the emit buffer (R431, R353). -/
def Arr.takeDrip (a : Arr) (r : ChainRun) : Arr :=
  if r.takesDrip && r.drip.isNone then
    let n := 32 * cfGI r.prof
    let runs := (a.drip.runs.foldl (fun (m : List (Nat × Nat) × Nat) u =>
      let k := min m.2 u.2
      (if u.2 ≤ k then m.1 else m.1 ++ [(u.1, u.2 - k)], m.2 - k)) (([] : List (Nat × Nat)), n)).1
    { a with
      drip := { a.drip with emit := a.drip.emit.drop n, runs := runs }
      chainRun := a.chainRun.map fun (u : ChainRun) => if u.order = r.order then { u with drip := some (a.drip.emit.take n) } else u }
  else a

/-- The CHAIN that can issue first, with the core after its item's drip values are taken; a new item needs room among
the items in flight (R417). -/
def chainPick (c : Chan) (x : Core) (j : Fin 2) : Option (Core × ChainRun × Work) :=
  let a := x.arr j
  a.chainRun.findSome? fun r =>
    let held := a.chainRun.any fun u => decide (u.order < r.order) && u.wantsDrip
    let need := r.takesDrip && r.drip.isNone
    if !r.started && decide (32 ≤ a.gateItems) then none
    else if need && (held || decide (a.drip.emit.length < 32 * cfGI r.prof)) then none
    else
      let y := x.updArr j fun b => b.takeDrip r
      ((y.arr j).chainRun.find? fun u => u.order == r.order).bind fun u =>
        match workChain c y j u with
        | some w => if w.full y j then none else some (y, u, w)
        | none => none

/-! ### GATE_ISSUE -/

/-- One issue of a chain, every stage of it; `more` are the words its work reads besides, and `next` moves its work
on. -/
def issueWork (s : State) (a : ArrId) (w : Work) (more : List Nat) (see : AccSee) (next : IssueRes → Arr → Arr) : State :=
  let n := arrChan a
  let k := arrCore a
  let j := arrLoc a
  let cc := (s.chan n).ctl.cc
  let ctx (t : State) : IssueCtx := w.ctx (t.chan n) ((t.chan n).core k) j t.free
  let base := (s.arr a).accS
  let reads := ((ctx s).entriesRead.map fun e => base + e) ++ more
  let s1 := accReads s a reads see
  let x := ctx s1
  let r := x.run w.sum w.sq w.isLocal
  let writes := (w.writes r (s1.arr a) cc).map (·.word)
  let s2 := s1.updCh n fun c => c.updCore k fun y => ((w.apply x r j cc y).updArr j (next r)).gateTake j
  let linked := [5, 6, 7, 8].any w.desc.reads
  let s3 := { s2 with free := if linked then s2.free + 128 else s2.free }
  accTags (feedPump (framePump s3 n) n k) a (reads ++ writes) see

/-- A prime: the slice's elements read through the STATE stage and sent to the requantiser (R379). -/
def primeIssue (s : State) (a : ArrId) (p : Pass) (slot n : Nat) (see : AccSee) : State :=
  let reads := (sliceElems p.prof n).map fun i => (s.arr a).accS + slotBase p.prof slot + i
  let s2 := (accReads s a reads see).updArr a fun r =>
    let vs := reads.map fun w => accToF20 (r.accGet w) (pfXS p.prof)
    let fl := vs.foldl (fun m v => m ||| v.2) (0 : Fl)
    let q : Arr := { r with
      cc := { r.cc with issued := true }
      slices := r.slices ++ [{ order := p.order, slot := slot, n := n, prof := p.prof, vals := vs.map (·.1) }]
      gate := { r.gate with flags := r.gate.flags ||| fl.setWidth 6 }
      stepReg := if r.reg.hold then r.stepReg else { r.stepReg with primes := satAdd r.stepReg.primes 1 } }
    q.countIssue 0 0 0
  accTags s2 a reads see

/-- GATE_ISSUE: one issue of the gate pipe, the only one of its cc: a prime, else step work, else a CHAIN (R379, R385,
R417). -/
def execGateIssue (a : ArrId) (see : AccSee) (_ _ : Unit) (s : State) : Out :=
  .next (
    let n := arrChan a
    let k := arrCore a
    let j := arrLoc a
    let c := s.chan n
    let x := c.core k
    let r := x.arr j
    let step := !x.lent j
    if !c.working || r.cc.issued then s
    else match (if step then r.primeNext else none) with
    | some (p, slot, i) => primeIssue s a p slot i see
    | none =>
      match (if step then stepPick c x j else none) with
      | some (t, w) => issueWork s a w (r.loopReads w t) see fun q b => b.streamNext w q t c.ctl.cc
      | none =>
        match chainPick c x j with
        | some (y, u, w) =>
          issueWork (s.updCh n fun c => c.setCore k y) a w [] see fun q b => b.chainNext w q u
        | none => s)

/-! ### Slices and clears (R357, R358, R360, R376) -/

/-- LOOP_SLICE_READY: the requantiser writes the oldest slice it forms into the loop store. -/
def execLoopSliceReady (a : ArrId) (s : State) : Out :=
  .next (match (s.arr a).slices with
    | [] => s
    | g :: t => s.updArr a fun r =>
      let q := requant g.prof g.vals
      { r with
        slices := t
        loopStore := loopPut g.prof (slotBase g.prof g.slot) g.n r.loopStore q.1
        drip := r.drip.addLoop q.2 })

/-- END_STATE_CLEAR: the entries of a slot whose END step has made its last state write are written 0, two cc after
that stage. -/
def execEndStateClear (a : ArrId) (see : AccSee) (s : State) : Out :=
  .next (
    let cc := (s.chan (arrChan a)).ctl.cc
    match (s.arr a).clears.find? fun c => decide (c.due ≤ cc) with
    | none => s
    | some c =>
      let ws := (List.range c.count).map fun i => (s.arr a).accS + c.first + i
      accTags (s.updArr a fun r => ws.foldl (fun (r : Arr) w => r.accWrite w [.fin 0]) { r with clears := r.clears.erase c })
        a ws see)

/-! ### Register clears (R398, R455) -/

/-- STEP_CLEAR: STEP_CTRL.CLEAR. -/
def execStepClear (a : ArrId) (s : State) : Out :=
  .next (hostWr s (.stepClear a) (arrBase a + 0x90) fun t => t.updArr a fun x =>
    if x.cfg.used then { x with stepReg := { x.stepReg with count := 0, primes := 0, ends := 0, gidle := 0 } } else x)

/-- GATE_CLEAR: GATE_CTRL.CLEAR. -/
def execGateClear (a : ArrId) (s : State) : Out :=
  .next (hostWr s (.gateClear a) (arrBase a + 0xD4) fun t => t.updArr a fun x =>
    if x.cfg.used then { x with gate := { x.gate with issues := 0, loc := 0, voided := 0, notable := 0 } } else x)

end Sys2Proof.Machine
end

