-- ==== Sys2Proof/Machine/SiphonOps.lean ====
section
/-! DEFINITION. Siphon passes (chapter 11): the SIPHON command, its sweeps, and the clear of its counters. -/

namespace Sys2Proof.Machine

/-- What R401 halts on, but for the pool's end (R543). -/
def siphonBad (x : SiphonOp) (a : Arr) : Bool :=
  decide (x.l < 2) || (x.tm && x.w % 32 != 0) || x.a % 128 != 0 || x.b % 128 != 0 ||
  x.stride % (if x.tm then 4 else 128) != 0 || decide (x.stride < x.rowBytes) || x.init == 3 || x.iaddr % 4 != 0 ||
  !a.cfg.used || decide (a.cfg.stateElems < x.sb + x.w) || runsMeet x.a x.bytes x.b x.bytes ||
  (x.init == 2 && (runsMeet x.a x.bytes x.iaddr x.initBytes || runsMeet x.b x.bytes x.iaddr x.initBytes))

/-! ### Values in the pool (R278, R403) -/

/-- The run that holds value (t, w) of a region, and the value's index in it. -/
def SiphonOp.place (x : SiphonOp) (base t w : Nat) : Nat × Nat :=
  if x.tm then (base + t * x.stride, w) else (base + w * x.stride, t)

/-- First byte and bytes of value i of a run. -/
def f20Span (pack : Bool) (at_ i : Nat) : Nat × Nat :=
  let p := f20Place pack i
  (at_ + p.1, p.2.1)

/-- Value i of a run in bytes that have been read; void when one of its words shows a double-bit error (R506). -/
def memF20 (mem : SMap Byte) (bads : List Nat) (pack : Bool) (at_ i : Nat) : F20 :=
  let q := f20Place pack i
  if (words64 (at_ + q.1) q.2.1).any fun w => bads.contains w then f20Void
  else BitVec.ofNat 20 (leNat (smGetList 0 mem (at_ + q.1) q.2.1) / 2 ^ q.2.2)

/-- Value i of a run of n written: its byte addresses, and the bytes with the values beside it kept; where it is the
run's last, the rest of its last byte is 0 (R278, R403). -/
def memPutF20 (mem : SMap Byte) (pack : Bool) (at_ n i : Nat) (v : F20) : List Nat × SMap Byte :=
  let q := f20Place pack i
  let lo := at_ + q.1
  let bs :=
    if pack then
      let old := leNat (smGetList 0 mem lo 3)
      let above := if i + 1 < n then old / 2 ^ (q.2.2 + 20) * 2 ^ (q.2.2 + 20) else 0
      natLe 3 (old % 2 ^ q.2.2 + v.toNat * 2 ^ q.2.2 + above)
    else natLe 4 v.toNat
  ((List.range bs.length).map fun b => lo + b, smSetList 0 mem lo bs)

/-! ### SIPHON -/

/-- h0 of every channel, with the flags of its conversions (R405). -/
def siphonInit (x : SiphonOp) (c : Core) (mem : SMap Byte) (bads : List Nat) : List (F20 × Fl) :=
  (List.range x.w).map fun w => match x.init with
    | 1 => let a := c.arr x.arr; accToF20 (a.accGet (a.accS + x.sb + w)) x.xs
    | 2 => (memF20 mem bads false x.iaddr w, 0)
    | _ => (0, 0)

def Arr.gateFlag (a : Arr) (fl : Fl) : Arr := { a with gate := { a.gate with flags := a.gate.flags ||| fl.setWidth 6 } }

/-! ### Sweeps (R399, R404–R407, R412) -/

/-- The positions a combine sweep writes, with their distance 2^d. -/
def SiphonOp.pairs (x : SiphonOp) (sweep : Nat) : List (Nat × Nat) :=
  let up := decide (sweep < x.d)
  let d := if up then sweep else 2 * x.d - 2 - sweep
  let first := if up then 2 ^ (d + 1) - 1 else 3 * 2 ^ d - 1
  (List.range x.l).filterMap fun j => if first + j * 2 ^ (d + 1) < x.l then some (first + j * 2 ^ (d + 1), 2 ^ d) else none

/-- The combine of R399. -/
def siphComb (a1 b1 a2 b2 : F20) : F20 × F20 × Fl :=
  let a := f20Mul a1 a2
  let b := f20Fma a2 b1 b2
  (a.1, b.1, a.2 ||| b.2)

/-- A sweep under way: the bytes it has read as it has changed them, the addresses it writes, its flags. -/
structure SweepSt where
  mem   : SMap Byte
  wrote : List Nat
  fl    : Fl
  deriving DecidableEq, Repr

/-- Values of a run. -/
def SiphonOp.runLen (x : SiphonOp) : Nat := if x.tm then x.w else x.l

def SiphonOp.get (x : SiphonOp) (bads : List Nat) (p : SweepSt) (base t w : Nat) : F20 :=
  memF20 p.mem bads x.pack (x.place base t w).1 (x.place base t w).2

def SiphonOp.put (x : SiphonOp) (p : SweepSt) (base t w : Nat) (v : F20) : SweepSt :=
  let r := memPutF20 p.mem x.pack (x.place base t w).1 x.runLen (x.place base t w).2 v
  { p with mem := r.2, wrote := p.wrote ++ r.1 }

/-- One combine of a channel. -/
def siphStep (x : SiphonOp) (bads : List Nat) (p : SweepSt) (i dist w : Nat) : SweepSt :=
  let r := siphComb (x.get bads p x.a (i - dist) w) (x.get bads p x.b (i - dist) w) (x.get bads p x.a i w) (x.get bads p x.b i w)
  let q := x.put (x.put p x.a i w r.1) x.b i w r.2.1
  { q with fl := q.fl ||| r.2.2 }

/-- One FMA of the apply sweep. -/
def siphApply (x : SiphonOp) (bads : List Nat) (h0 : List F20) (p : SweepSt) (t w : Nat) : SweepSt :=
  let r := f20Fma (x.get bads p x.a t w) (h0.getD w 0) (x.get bads p x.b t w)
  let q := x.put p x.b t w r.1
  { q with fl := q.fl ||| r.2 }

/-- A whole sweep on the bytes it has read, and its operations. -/
def siphSweep (x : SiphonOp) (h0 : List F20) (sweep : Nat) (mem : SMap Byte) (bads : List Nat) : SweepSt × Nat :=
  let p0 : SweepSt := { mem := mem, wrote := [], fl := 0 }
  if sweep + 1 < 2 * x.d then
    let ps := x.pairs sweep
    (ps.foldl (fun m i => (List.range x.w).foldl (fun m w => siphStep x bads m i.1 i.2 w) m) p0, ps.length * x.w)
  else
    ((List.range x.l).foldl (fun m t => (List.range x.w).foldl (fun m w => siphApply x bads h0 m t w) m) p0, x.l * x.w)

/-- The lines that hold a value a sweep reads, each once (R409). -/
def SiphonOp.lines (x : SiphonOp) (sweep : Nat) : List Nat :=
  let ts := if sweep + 1 < 2 * x.d then (x.pairs sweep).flatMap fun i => [i.1 - i.2, i.1] else List.range x.l
  (ts.flatMap fun t => (List.range x.w).flatMap fun w => [x.a, x.b].flatMap fun base =>
    let p := f20Span x.pack (x.place base t w).1 (x.place base t w).2
    wantLines p.1 p.2).eraseDups

/-- The reads of the next sweep asked for. -/
def siphAsk (x : SiphonOp) (y : Core) : Core :=
  let ls := x.lines y.siph.nextSweep
  ({ y with siph := { y.siph with left := ls.length, buf := [], bads := [] } } : Core).pend (lineReads clLane ls .siphIn)

/-- The initial states taken, with the flags of their conversions, and sweep 0 begins. -/
def siphPrime (x : SiphonOp) (y : Core) : Core :=
  let hs := siphonInit x y y.siph.buf y.siph.bads
  let z : Core := { y with siph := { y.siph with h0 := hs.map (·.1), primed := true, buf := [], bads := [] } }
  siphAsk x (z.updArr x.arr fun r => r.gateFlag (hs.foldl (fun m v => m ||| v.2) 0))

/-- SIPHON: it starts at the head of both its queues (R402); T6 and T7 then hold nothing of use (R462, log 10). Under
INIT POOL its initial states are read first (R405). -/
def execSiphon (c : CoreId) (see : AccSee) (s : State) : Out :=
  let n := coreChan c
  let k := coreLoc c
  let q := laneQ k
  .next (issueRow s n q 10 fun t h =>
    let x := siphonOf h.words
    let a := ((t.chan n).core k).arr x.arr
    let g := gateQ k x.arr
    issueBy t n q h (firstBad [(siphonBad x a, rsSiphonForm)]) fun u =>
      let u1 := issue u n q h false false
      let u2 := if x.borrows then issue u1 n (gateQ k x.arr) h false false else u1
      let ws := if x.init = 1 then (List.range x.w).map fun i => a.accS + x.sb + i else []
      let u3 := accSeen u2 (mkArr n k x.arr) ws [] see
      let free := u3.free
      let u4 := u3.updCh n fun d => d.updCore k fun y =>
        let ls := wantLines x.iaddr x.initBytes
        let z : Core := { y with
          siph := { y.siph with busy := true, gate := x.borrows, arr := x.arr == 1, sweep := 0, nextSweep := 0
                                run := some (h.order, h.words), h0 := [], primed := false, left := ls.length, buf := [], bads := [] }
          lane := if x.gates then { y.lane with
              tiles := smSetList 0 y.lane.tiles 6144 ((List.range 2048).map fun i => Config.freeF20 (free + i))
              upd := y.lane.upd.filter fun e => decide (e.1 < 6144) } else y.lane }
        if x.init = 2 then z.pend (lineReads clLane ls .siphIn) else siphPrime x z
      { u4 with free := if x.gates then free + 2048 else free })

/-- With GATES 1 the combines are shared out between LANE and GATEn in a way the spec leaves open: each flag goes to the
field of the one, of the other or of both (R408, R412, log 24). -/
def siphShare (gates : Bool) (free : Nat) (fl : Fl) : Fl × Fl :=
  if gates then
    let pick (sink : Nat) : Fl := [0, 1, 2, 3].foldl (fun m i =>
      if bitOf fl i && ((Config.freeByte (free + i)).toNat % 3 == sink || (Config.freeByte (free + i)).toNat % 3 == 2)
      then setBit m i else m) 0
    (pick 0, pick 1)
  else (fl, 0)

/-- The final states written by the STATE stage of GATEn (R406). -/
def siphonFinal (x : SiphonOp) (p : SweepSt) (bads : List Nat) (a : Arr) : Arr :=
  if !x.final then a
  else
    let hs := (List.range x.w).map fun w => f20ToAcc (x.get bads p x.b (x.l - 1) w) x.xs
    let b := hs.zipIdx.foldl (fun (b : Arr) v => b.accWrite (b.accS + x.sb + v.2) [v.1.1]) a
    ({ b with loopStore := loopInvalid b.loopStore x.sb x.w } : Arr).gateFlag (hs.foldl (fun m v => m ||| v.2) 0)

/-- A line of a SIPHON has arrived. -/
def siphTake (y : Core) (line : Nat) (data : List Byte) (bads : List Nat) : Core :=
  match y.siph.run with
  | none => y
  | some (_, ws) =>
    let z : Core := { y with siph := { y.siph with
      left := y.siph.left - 1, buf := smSetList 0 y.siph.buf (128 * line) data, bads := y.siph.bads ++ bads } }
    if z.siph.left = 0 && !z.siph.primed then siphPrime (siphonOf ws) z else z

def isSiphOut (a : PoolAcc) : Bool :=
  match a.dest with
  | .siphOut => true
  | _ => false

/-- Once every write of a sweep has been applied the next sweep begins, or the SIPHON has ended (R407). -/
def siphNext (c : Chan) (k : Fin 2) : Chan :=
  let y := c.core k
  match y.siph.run with
  | none => c
  | some (order, ws) =>
    let x := siphonOf ws
    if y.pool.acc.any isSiphOut then c
    else if y.siph.nextSweep < 2 * x.d then c.updCore k (siphAsk x)
    else
      let d := c.updCore k fun z => { z with siph := { z.siph with
        busy := false, gate := false, run := none, h0 := [], primed := false, nextSweep := 0, buf := [], bads := []
        passes := wrapAdd z.siph.passes 1 } }
      let e := markIssued d (laneQ k) order false true
      if x.borrows then markIssued e (gateQ k x.arr) order false true else e

/-- SIPHON_SWEEP: the sweep whose lines have arrived runs, and its writes are queued, a line each (R407, R409). -/
def execSiphonSweep (c : CoreId) (see : AccSee) (s : State) : Out :=
  let n := coreChan c
  let k := coreLoc c
  let y := (s.chan n).core k
  .next (match y.siph.run with
    | none => s
    | some (_, ws) =>
      let x := siphonOf ws
      if !(s.chan n).working || !y.siph.primed || y.siph.left != 0 || y.pool.acc.any isSiphOut || decide (2 * x.d ≤ y.siph.nextSweep) then s
      else
        let i := y.siph.nextSweep
        let r := siphSweep x y.siph.h0 i y.siph.buf y.siph.bads
        let fl := siphShare x.gates s.free r.1.fl
        let ws := maskedWrites clLane ((r.1.wrote.eraseDups).map fun a => (a, smGet 0 r.1.mem a)) .siphOut
        let s1 := s.updCh n fun d =>
          let d1 := d.updCore k fun z =>
            let z1 : Core := { z with
              siph := { z.siph with sweep := BitVec.ofNat 5 i, nextSweep := i + 1, ops := satAdd z.siph.ops r.2 }
              lane := { z.lane with flags := z.lane.flags ||| fl.1 } }
            let z2 := z1.updArr x.arr fun a => a.gateFlag fl.2
            (if i + 1 < 2 * x.d then z2 else z2.updArr x.arr (siphonFinal x r.1 y.siph.bads)).pend ws
          siphNext d1 k
        let a := y.arr x.arr
        let fin := if i + 1 = 2 * x.d ∧ x.final = true then (List.range x.w).map fun w => a.accS + x.sb + w else []
        accSeen { s1 with free := if x.gates then s1.free + 4 else s1.free } (mkArr n k x.arr) [] fin see)

/-- SIPH_CLEAR: SIPH_CTRL.CLEAR (R415). -/
def execSiphClear (c : CoreId) (s : State) : Out :=
  .next (hostWr s (.siphClear c) (coreBase c + 0x300C) fun t => t.updCore c fun x => { x with siph := { x.siph with passes := 0, ops := 0 } })

end Sys2Proof.Machine
end

