-- ==== Sys2Proof/Machine/Lane.lean ====
section
/-! DEFINITION. Lane processors (chapter 13): the instructions, LRUN and its checks, rounds with their outputs and
reductions, LLOAD, the summary, and the clear of the lane counters. -/

namespace Sys2Proof.Machine

/-! ### Instructions (R467–R469) -/

/-- A lane instruction. -/
structure LaneIns where
  op  : Nat
  d   : Nat
  a   : Nat
  b   : Nat
  c   : Nat
  out : Nat
  aux : Nat
  imm : F20
  deriving DecidableEq, Repr

def lfld (w : BitVec 64) (lo n : Nat) : Nat := w.toNat / 2 ^ lo % 2 ^ n

def laneIns (w : BitVec 64) : LaneIns :=
  { op := lfld w 0 6, d := lfld w 6 4, a := lfld w 10 5, b := lfld w 15 5, c := lfld w 20 5, out := lfld w 26 2
    aux := lfld w 32 12, imm := BitVec.ofNat 20 (lfld w 44 20) }

/-- Operands an OP uses. -/
def laneUses (op : Nat) : Nat :=
  if op = 0 then 0
  else if op = 0x01 ∨ op = 0x08 ∨ op = 0x0B ∨ op = 0x0C then 1
  else if op = 0x05 ∨ op = 0x0A then 3
  else 2

/-- A word that an LRUN may run (R478). -/
def laneWordOk (w : BitVec 64) : Bool :=
  let i := laneIns w
  let n := laneUses i.op
  let use (k v : Nat) : Bool := if k < n then decide (v ≤ 0x1A) else v == 0
  decide (i.op ≤ 0x18) && lfld w 25 1 == 0 && lfld w 28 4 == 0 && use 0 i.a && use 1 i.b && use 2 i.c &&
  (if i.op = 0x09 then decide (i.aux ≤ 7) else if i.op = 0x18 then decide (i.aux ≤ 5) else i.aux == 0) &&
  (i.op != 0 || i.out == 0)

/-! ### INT20 (R456, R469) -/

def int20 (v : Int) : F20 := BitVec.ofInt 20 v
def int20Min : Int := -524288
def int20Max : Int := 524287
def satInt20 (v : Int) : Int := max int20Min (min int20Max v)

/-- F2I. -/
def f20ToInt20 (v : F20) : F20 × Fl :=
  match f20Dec v with
  | .void => (0, flIV)
  | .inf s => (int20 (if s then int20Min else int20Max), flIV)
  | .fin m e =>
    let r := rneScale m e
    if satInt20 r ≠ r then (int20 (satInt20 r), flOF ||| flIX)
    else (int20 r, if r * pow2Den e = m * pow2Num e then 0 else flIX)

def ordCond (cond : Nat) (o : Ordering) : Bool :=
  match cond with
  | 0 => o == .eq
  | 1 => o != .eq
  | 2 => o == .lt
  | 3 => o != .gt
  | 4 => o == .gt
  | _ => o != .lt

def f20Finite (v : F20) : Bool :=
  match f20Dec v with
  | .fin _ _ => true
  | _ => false

/-- FCMP. VOID and FINITE name no operand: where A and B do not agree on them, `free` is the answer (log 25). -/
def laneFcmp (cond : Nat) (a b : F20) (free : Bool) : Bool :=
  match cond with
  | 6 => let x := f20Dec a == .void; let y := f20Dec b == .void; if x == y then x else free
  | 7 => if f20Finite a == f20Finite b then f20Finite a else free
  | _ => match f20Cmp a b with
    | none => cond == 1
    | some o => ordCond cond o

def laneBit (b : Bool) : F20 := if b then 1 else 0

/-- The result of an instruction, with its flags (R469). -/
def laneEval (i : LaneIns) (a b c : F20) (free : Bool) : F20 × Fl :=
  let sh := b.toNat % 32
  match i.op with
  | 0x01 => (a, 0)
  | 0x02 => f20Add a b
  | 0x03 => f20Add a (f20Neg b)
  | 0x04 => f20Mul a b
  | 0x05 => f20Fma a b c
  | 0x06 => (f20Min a b, 0)
  | 0x07 => (f20MaxOf a b, 0)
  | 0x08 => (f20Canon (if f20Dec a = .void then a else a &&& 0x7FFFF), 0)
  | 0x09 => (laneBit (laneFcmp i.aux a b free), 0)
  | 0x0A => (if c = 0 then b else a, 0)
  | 0x0B => f20ToInt20 a
  | 0x0C => roundDy a.toInt 0
  | 0x0D => (a + b, 0)
  | 0x0E => (a - b, 0)
  | 0x0F => (a * b, 0)
  | 0x10 => (a &&& b, 0)
  | 0x11 => (a ||| b, 0)
  | 0x12 => (a ^^^ b, 0)
  | 0x13 => (a <<< sh, 0)
  | 0x14 => (a.sshiftRight sh, 0)
  | 0x15 => (a >>> sh, 0)
  | 0x16 => (if a.toInt ≤ b.toInt then a else b, 0)
  | 0x17 => (if a.toInt ≤ b.toInt then b else a, 0)
  | 0x18 => (laneBit (ordCond i.aux (compare a.toInt b.toInt)), 0)
  | _ => (0, 0)

/-! ### LRUN -/

def Lane.word (l : Lane) (i : Nat) : BitVec 64 := smGet 0 l.store i
def Lane.prog (l : Lane) (h : Cmd) : List LaneIns := (List.range (lrunP h)).map fun i => laneIns (l.word (lrunStart h + i))

/-- TRANS only from row 0, and no element above 8,191 (R457, R478). -/
def strmBad (s : Strm) (n : Nat) : Bool :=
  match s with
  | .tile _ rho tr => (tr && rho != 0) || decide (8192 < n)
  | _ => false

/-- The checks of an LRUN (R478, R549). -/
def lrunBad (l : Lane) (h : Cmd) : Option Nat :=
  let n := lrunN h
  let p := l.prog h
  firstBad
    [((List.range 6).any (fun i => !strmOk (h.strmWord i) (decide (4 ≤ i))) || !strmOk (h.w 4) false, rsFormat),
     (decide (512 < lrunStart h + lrunP h) || decide (8 < lrunRop h) || (lrunQen h && lrunAxis h != 3) ||
      (List.range 6).any (fun i => strmBad (h.strm i) n) || strmBad (lrunDest h) (redCount (lrunAxis h) n) ||
      (List.range (lrunP h)).any (fun i => !laneWordOk (l.word (lrunStart h + i))) ||
      [1, 2, 3].any (fun o => decide (1 < p.countP fun i => i.out == o)), rsLaneForm)]

/-- The edges of the ends its outputs go to (R212). -/
def lrunEdge (x : Core) (h : Cmd) : Bool :=
  [4, 5].all fun i => match h.strm i with
    | .fin false => x.edge 10
    | .fin true => x.edge 11
    | _ => true

/-- Elements of a round. -/
def roundCount (n round : Nat) : Nat := min 64 (n - 64 * round)

/-- The bytes of a pool stream in a round. -/
def roundBytes (pack : Bool) (round cnt : Nat) : Nat × Nat :=
  if pack then (160 * round, f20Bytes true cnt) else (256 * round, 4 * cnt)

/-- The lines a round reads, each once (R475). -/
def laneLines (h : Cmd) (round : Nat) : List Nat :=
  ([0, 1, 2, 3].flatMap fun i => match h.strm i with
    | .pool a pack => let b := roundBytes pack round (roundCount (lrunN h) round); wantLines (a + b.1) b.2
    | _ => []).eraseDups

def LaneRun.cmd (r : LaneRun) : Cmd := { words := r.words, pusher := 0, addr := 0, repidx := 0, order := r.order, feed := none }

/-- The reads of the round at hand asked for: behind the writes of the rounds before it on each bank. -/
def Core.laneAsk (x : Core) : Core :=
  match x.lane.run with
  | none => x
  | some r =>
    let ls := laneLines r.cmd r.round
    ({ x with lane := { x.lane with run := some { r with left := ls.length, buf := [], bads := [] } } } : Core).pend
      (lineReads clLane ls .laneIn)

/-- A line of an LRUN has arrived. -/
def laneTake (x : Core) (line : Nat) (data : List Byte) (bads : List Nat) : Core :=
  { x with lane := { x.lane with run := x.lane.run.map fun r =>
    { r with left := r.left - 1, buf := smSetList 0 r.buf (128 * line) data, bads := r.bads ++ bads } } }

def isLaneOut (a : PoolAcc) : Bool :=
  match a.dest with
  | .laneOut => true
  | _ => false

/-- An LRUN has ended once its last round has run, its summary is written and its last line has been written (R475). -/
def laneEnd (c : Chan) (k : Fin 2) : Chan :=
  let x := c.core k
  match x.lane.run with
  | none => c
  | some r =>
    if r.done && x.lane.sumry.isNone && !x.pool.acc.any isLaneOut then
      markIssued (c.updCore k fun y => { y with lane := { y.lane with run := none, busy := false } }) (laneQ k) r.order false true
    else c

/-- LRUN. -/
def execLrun (c : CoreId) (s : State) : Out :=
  let n := coreChan c
  let k := coreLoc c
  let q := laneQ k
  .next (issueRow s n q 8 fun t h =>
    let x := (t.chan n).core k
    let bad := (lrunBad x.lane h).orElse fun _ => firstBad [(!lrunEdge x h, rsEdge)]
    issueBy t n q h bad fun u =>
      (issue u n q h false false).updCh n fun d => d.updCore k fun y =>
        Core.laneAsk { y with lane := { y.lane with
          busy := true, pc := 0, round := 0
          run := some { order := h.order, words := h.words, round := 0, v := [], contrib := [], left := 0, buf := [], bads := []
                        done := false } } })

/-- LLOAD: it waits until every earlier LANE command has completed (R476). -/
def execLload (c : CoreId) (_ : Unit) (s : State) : Out :=
  let n := coreChan c
  let k := coreLoc c
  let q := laneQ k
  .next (issueRow s n q 9 fun t h =>
    let first := fld (h.w 0) 0 9
    let cnt := fld (h.w 0) 9 9 + 1
    let off := fld (h.w 1) 0 19
    issueBy t n q h (firstBad [(off % 8 != 0 || decide (512 < first + cnt), rsFormat)]) fun u =>
      (loadIssue u n q h clLane off (8 * cnt)).updCh n fun d => d.updCore k fun x => { x with lane := { x.lane with busy := true } })

/-- The image of an LLOAD put in the program store. -/
def Lane.lloaded (l : Lane) (h : Cmd) (bs : List Byte) : Lane :=
  let ws := (List.range (fld (h.w 0) 9 9 + 1)).map fun i => BitVec.ofNat 64 (leNat ((bs.drop (8 * i)).take 8))
  { l with store := smSetList 0 l.store (fld (h.w 0) 0 9) ws, busy := false }

/-! ### A round (R465–R471) -/

/-- An input element; one of a stream the LRUN does not name is a free value (log 25). -/
def laneInput (x : Core) (r : LaneRun) (s : Strm) (e free : Nat) : F20 :=
  match s with
  | .tile t rho tr => smGet 0 x.lane.tilesRead (tileKey t rho tr e)
  | .pool a pack => memF20 r.buf r.bads pack a e
  | _ => Config.freeF20 free

structure LaneCtx where
  e    : Nat
  lane : Nat
  ins  : List F20
  k0   : F20
  k1   : F20
  free : Nat
  deriving DecidableEq, Repr

/-- An operand (R468). -/
def LaneCtx.operand (x : LaneCtx) (regs : List F20) (i : LaneIns) (code : Nat) : F20 :=
  if code < 16 then regs.getD code 0
  else match code with
    | 0x10 => x.ins.getD 0 0
    | 0x11 => x.ins.getD 1 0
    | 0x12 => x.ins.getD 2 0
    | 0x13 => x.ins.getD 3 0
    | 0x14 => i.imm
    | 0x15 => x.k0
    | 0x16 => x.k1
    | 0x17 => BitVec.ofNat 20 x.e
    | 0x18 => BitVec.ofNat 20 (x.e / 32 % 32)
    | 0x19 => BitVec.ofNat 20 (x.e % 32)
    | _ => 0

/-- What a lane has after some instructions of a round: its registers, its flags, its results by OUT. -/
structure LaneRes where
  regs : List F20
  fl   : Fl
  outs : List (Nat × F20)
  deriving DecidableEq, Repr

def LaneCtx.step (x : LaneCtx) (r : LaneRes) (p : LaneIns × Nat) : LaneRes :=
  let i := p.1
  if i.op = 0 then r
  else
    let free := (Config.freeByte (x.free + 64 * p.2 + x.lane)).toNat % 2 == 1
    let v := laneEval i (x.operand r.regs i i.a) (x.operand r.regs i i.b) (x.operand r.regs i i.c) free
    { regs := r.regs.set i.d v.1, fl := r.fl ||| v.2, outs := if i.out = 0 then r.outs else r.outs ++ [(i.out, v.1)] }

/-- One lane through the whole program. -/
def laneThrough (x : LaneCtx) (prog : List LaneIns) (regs : List F20) : LaneRes :=
  prog.zipIdx.foldl x.step { regs := regs, fl := 0, outs := [] }

/-- A program whose results rest on free values. -/
def progFree (h : Cmd) (prog : List LaneIns) : Bool :=
  prog.any (fun i => (i.op == 9 && decide (6 ≤ i.aux)) ||
    [i.a, i.b, i.c].any fun o => decide (0x10 ≤ o ∧ o ≤ 0x13) && (match h.strm (o - 0x10) with
      | .none => true
      | _ => false)) ||
  (lrunAxis h != 0 && prog.all fun i => i.out != 3)

/-- Every enabled lane of a round, in ascending order. -/
def laneRound (x : Core) (h : Cmd) (r : LaneRun) (free : Nat) : List LaneRes :=
  let prog := x.lane.prog h
  (List.range (roundCount (lrunN h) r.round)).map fun l =>
    let e := 64 * r.round + l
    laneThrough { e := e, lane := l, ins := [0, 1, 2, 3].map fun i => laneInput x r (h.strm i) e (free + 8192 + 64 * i + l)
                  k0 := (h.w 2).setWidth 20, k1 := (h.w 3).setWidth 20, free := free } prog
      ((List.range 16).map fun i => smGet 0 r.v (64 * i + l))

/-! ### Reductions (R472–R474) -/

def redIndex (axis e : Nat) : Nat :=
  match axis with
  | 1 => e / 32
  | 2 => 32 * (e / 1024) + e % 32
  | _ => 0

/-- The groups complete once every element below `done` of n has run: first index and one past the last. -/
def redReady (axis n before done : Nat) : Nat × Nat :=
  match axis with
  | 1 => (before / 32, ceilDiv done 32)
  | 2 => (32 * (before / 1024), if done = n then redCount 2 n else 32 * (done / 1024))
  | 3 => (0, if done = n then 1 else 0)
  | _ => (0, 0)

/-- The balanced tree of FSUM on a list of 2^depth values. -/
def treeSum : Nat → List F20 → F20 × Fl
  | 0, l => (f20Canon (l.headD 0), 0)
  | d + 1, l =>
    let a := treeSum d (l.take (2 ^ d))
    let b := treeSum d (l.drop (2 ^ d))
    let r := f20Add a.1 b.1
    (r.1, a.2 ||| b.2 ||| r.2)

/-- A reduction of one group: its element of RDEST, its summary word, its flags. -/
def reduce (rop : Nat) (l : List F20) : F20 × Word × Fl :=
  let ints := l.map fun v => v.toInt
  let count := l.countP fun v => v != 0
  let ofInt (lo hi v : Int) : F20 × Word × Fl := (int20 (satInt20 v), BitVec.ofInt 32 (max lo (min hi v)), 0)
  let ofF (r : F20 × Fl) : F20 × Word × Fl := (r.1, r.1.setWidth 32, r.2)
  match rop with
  | 0 => ofF (treeSum (clog2 l.length) l)
  | 1 => ofF (l.tail.foldl f20MaxOf (f20Canon (l.headD 0)), 0)
  | 2 => ofF (l.tail.foldl f20Min (f20Canon (l.headD 0)), 0)
  | 3 => ofInt (-2147483648) 2147483647 (ints.foldl (· + ·) 0)
  | 4 => ofInt int20Min int20Max (ints.foldl max (ints.headD 0))
  | 5 => ofInt int20Min int20Max (ints.foldl min (ints.headD 0))
  | 6 => (BitVec.ofNat 20 count, BitVec.ofNat 32 count, 0)
  | 7 => let b := decide (1 ≤ count); (laneBit b, if b then 1 else 0, 0)
  | _ => let b := count == l.length; (laneBit b, if b then 1 else 0, 0)

/-- Result r of a reduction; with no instruction that contributes it is a free value (log 25). -/
def redResult (h : Cmd) (contrib : List (Nat × F20)) (free r : Nat) : F20 × Word × Fl :=
  match (contrib.filter fun c => redIndex (lrunAxis h) c.1 == r).map (·.2) with
  | [] => (Config.freeF20 (free + r), (Config.freeF20 (free + r)).setWidth 32, 0)
  | l => reduce (lrunRop h) l

/-! ### What a round leaves -/

/-- Tile elements and pool bytes written by a round, in program order, and bytes for the two ends. -/
structure RoundOut where
  tiles : List (Nat × F20)
  pool  : List (Nat × List Byte)
  launch : List Byte
  peer   : List Byte
  deriving DecidableEq, Repr

/-- Values from element e0 on put into a stream; `ends` says that the stream's last element is among them. -/
def RoundOut.put (o : RoundOut) (s : Strm) (e0 : Nat) (vals : List F20) (ends : Bool) : RoundOut :=
  if vals.isEmpty then o
  else match s with
  | .none => o
  | .tile t rho tr => { o with tiles := o.tiles ++ vals.zipIdx.map fun v => (tileKey t rho tr (e0 + v.2), v.1) }
  | .pool a pack =>
    if pack then
      let b := packF20 vals
      let pad := if ends then f20Bytes true (e0 + vals.length) - (5 * e0 / 2 + b.length) else 0
      { o with pool := o.pool ++ [(a + 5 * e0 / 2, b ++ List.replicate pad 0)] }
    else { o with pool := o.pool ++ [(a + 4 * e0, padF20 vals)] }
  | .fin false => { o with launch := o.launch ++ padF20 vals }
  | .fin true => { o with peer := o.peer ++ padF20 vals }

/-- Elements written twice in one cc become void (R460). -/
def tileClash (same : Bool) (w : List (Nat × F20)) : List (Nat × F20) × Bool :=
  let twice := same && !(w.map (·.1)).Nodup
  (if twice then w.map fun e => if 1 < w.countP (fun f => f.1 == e.1) then (e.1, f20Void) else e else w, twice)

/-- The outputs of a round: D0 and D1 in the order of their instructions, then the reduction results. -/
def roundOut (h : Cmd) (prog : List LaneIns) (rs : List LaneRes) (round : Nat) (red : Nat × List F20) : RoundOut :=
  let n := lrunN h
  let ends := decide (n ≤ 64 * round + rs.length)
  let none : RoundOut := { tiles := [], pool := [], launch := [], peer := [] }
  let o := (prog.filter fun i => i.out == 1 || i.out == 2).foldl (fun (o : RoundOut) i =>
    o.put (h.strm (3 + i.out)) (64 * round) (rs.map fun r => ((r.outs.find? fun p => p.1 == i.out).map (·.2)).getD 0) ends) none
  o.put (lrunDest h) red.1 red.2 (decide (redCount (lrunAxis h) n ≤ red.1 + red.2.length))

/-- A round can run: its lines have arrived, the lines of the rounds before it have been written, and its ends have room
(R475, R571). -/
def laneReady (x : Core) (r : LaneRun) : Bool :=
  let h := r.cmd
  let cnt := roundCount (lrunN h) r.round
  let endBytes (peer : Bool) : Nat := 4 * cnt * [4, 5].countP fun i => h.strm i == .fin peer
  !r.done && r.left == 0 && !x.pool.acc.any isLaneOut &&
  (endBytes false == 0 || decide (x.ends.laneL.length + endBytes false ≤ 8192)) &&
  (endBytes true == 0 || decide (x.ends.laneP.length + endBytes true ≤ 8192))

/-- LANE_ROUND: the next round of the LRUN in progress; its output lines are queued, and the reads of the round after
it. -/
def execLaneRound (c : CoreId) (same : Bool) (_ : Unit) (s : State) : Out :=
  let n := coreChan c
  let k := coreLoc c
  let x := (s.chan n).core k
  .next (match x.lane.run with
    | none => s
    | some r =>
      let h := r.cmd
      if !(s.chan n).working || !laneReady x r then s
      else
        let cnt := roundCount (lrunN h) r.round
        let done := 64 * r.round + cnt
        let last := decide (lrunN h ≤ done)
        let prog := x.lane.prog h
        let free := s.free
        let rs := laneRound x h r free
        let add := rs.zipIdx.filterMap fun p => (p.1.outs.find? fun o => o.1 == 3).map fun o => (64 * r.round + p.2, o.2)
        let con := r.contrib ++ (if lrunAxis h = 0 then [] else add)
        let ready := redReady (lrunAxis h) (lrunN h) (64 * r.round) done
        let red := (List.range (ready.2 - ready.1)).map fun i => redResult h con (free + 4096) (ready.1 + i)
        let o := roundOut h prog rs r.round (ready.1, red.map (·.1))
        let t := tileClash same o.tiles
        let fl := red.foldl (fun m v => m ||| v.2.2) (rs.foldl (fun m v => m ||| v.fl) (0 : Fl))
        let v := rs.zipIdx.foldl (fun m p => p.1.regs.zipIdx.foldl (fun m q => smSet 0 m (64 * q.2 + p.2) q.1) m) r.v
        let ws := o.pool.flatMap fun w => lineWrites clLane w.1 w.2 .laneOut
        let sum := if last && lrunQen h then red.head?.map fun v => (lrunQ h, v.2.1) else none
        let s3 := s.updCh n fun d =>
          let d1 := d.updCore k fun z =>
            let l0 := (t.1.foldl (fun m w => smPut m w.1 w.2) ([] : SMap F20)).foldl (fun (m : Lane) w => m.tileWrite w.1 w.2) z.lane
            let l : Lane := { l0 with
              flags := z.lane.flags ||| fl
              clash := l0.clash || t.2
              round := BitVec.ofNat 10 r.round, pc := BitVec.ofNat 6 (lrunP h - 1)
              rounds := wrapAdd z.lane.rounds 1
              run := some { r with
                round := if last then r.round else r.round + 1, v := v, buf := [], bads := [], done := last
                contrib := con.filter fun e => decide (ready.2 ≤ redIndex (lrunAxis h) e.1) }
              sumry := if sum.isSome then sum else z.lane.sumry }
            let y := ({ z with lane := l, ends := { z.ends with laneL := z.ends.laneL ++ o.launch, laneP := z.ends.laneP ++ o.peer } } : Core).pend ws
            if last then y else y.laneAsk
          laneEnd d1 k
        let s4 := { s3 with free := if progFree h prog then s3.free + 16384 else s3.free }
        framePump s4 n)

/-- SUMMARY_WRITE: the summary of an LRUN reaches its q register, which is then pending for as many more as are to
come (R474). -/
def execSummaryWrite (c : CoreId) (s : State) : Out :=
  let n := coreChan c
  let k := coreLoc c
  .next (match ((s.chan n).core k).lane.sumry with
    | none => s
    | some (q, w) => s.updCh n fun d =>
      laneEnd (d.updCore k fun x =>
        { x with
          cc := { x.cc with r := { x.cc.r with
            q := smSet 0 x.cc.r.q q.val w, qpend := smSet 0 x.cc.r.qpend q.val (smGet 0 x.cc.r.qpend q.val - 1) } }
          lane := { x.lane with sumry := none } }) k)

/-- LANE_CLEAR: LANE_CTRL.CLEAR (R479). -/
def execLaneClear (c : CoreId) (s : State) : Out :=
  .next (hostWr s (.laneClear c) (coreBase c + 0x4014) fun t => t.updCore c fun x => { x with lane := { x.lane with rounds := 0, stall := 0 } })

end Sys2Proof.Machine
end

