-- ==== Sys2Proof/Machine/PoolRows.lean ====
section
/-! DEFINITION. The pool's wheel at work (chapter 14): the grants of one cc, the effects of a granted access, read data
reaching its client, the reads of descriptors that take their bytes from a pool, and the clear of the pool counter. -/

namespace Sys2Proof.Machine

/-! ### Grants (R486–R489, R706, R707) -/

def isRing (a : PoolAcc) : Bool :=
  match a.dest with
  | .ring _ _ _ => true
  | _ => false

/-- A line that a pass needs for its input (R707). -/
def isFeed (a : PoolAcc) : Bool :=
  match a.dest with
  | .feed _ _ => true
  | _ => false

def isHist (a : PoolAcc) : Bool :=
  match a.dest with
  | .hist _ => true
  | _ => false

/-- The access a client gets in a slot of a bank, its oldest there: a pass's input goes ahead of the other reads of its
feeder (R707), a ring write ahead of the other transfers (R662), a snapshot's line ahead of drip output (R296). -/
def Pool.pick (p : Pool) (client : BitVec 4) (bank : Nat) : Option PoolAcc :=
  let mine := p.acc.filter fun a => a.client == client && lineBank a.line == bank
  (mine.find? fun a => isFeed a || isRing a || isHist a).orElse fun _ => mine.head?

/-- A due snapshot holds back the drip output of its array on the banks of its lines until it is written (R296). -/
def Core.histWaits (x : Core) (client : BitVec 4) (bank : Nat) : Bool :=
  duoIx.any fun j => client == clDrip j && (x.arr j).hist.due &&
    (histLines x j (x.arr j).hist).any fun l => lineBank l == bank

def Pool.drop (p : Pool) (a : PoolAcc) : Pool := { p with acc := p.acc.erase a }

/-- A FINAL write that met a double error: its STEP completes with an error (R506). -/
def finalLost (s : State) (n : ChanId) (k j : Fin 2) (order : Nat) : State :=
  s.updCh n fun c => c.updCore k fun x => x.updArr j fun a =>
    { a with passes := a.passes.map fun (p : Pass) => if p.order = order then { p with err := true } else p }

/-- What a granted write is followed by; `hit` are the words it could not write. -/
def writeLanded (s : State) (n : ChanId) (k : Fin 2) (a : PoolAcc) (hit : List Nat) : State :=
  match a.dest with
  | .dma id _ len => descDone s n id len
  | .ring r e beats => ringLanded s n r e beats
  | .window slot flits => pieceLanded s n slot flits
  | .final j order => if hit.isEmpty then s else finalLost s n k j order
  | .ccStore => ccStored s (mkCore n k) hit
  | .laneOut => s.updCh n fun c => laneEnd c k
  | .siphOut => s.updCh n fun c => siphNext c k
  | _ => s

/-- A queued access granted. -/
def grantOne (s : State) (n : ChanId) (k : Fin 2) (a : PoolAcc) (f : BitVec 16 × BitVec 16) : State :=
  let r := poolPerform (s.updCh n fun c => c.updCore k fun x => { x with pool := x.pool.drop a }) n k a f
  if a.write.isSome then writeLanded r.1 n k a r.2 else r.1

/-- The host's pool access that waits for its slot: its core and the access (R491). -/
def State.hostAcc (s : State) : Option (CoreId × PoolAcc) :=
  let acc (addr : BitVec 24) (w : Option Word) : Option (CoreId × PoolAcc) :=
    match locate addr.toNat with
    | .pool c o => some (c, { client := clNarrow, line := o / 128, write := w.map (narrowBytes o), dest := .host o })
    | _ => none
  if s.eng.hostSt ≠ 0 then none
  else match s.eng.hostQ with
    | .hostPoolRead a _ :: _ => acc a none
    | .hostPoolWrite a v _ :: _ => acc a (some v)
    | .registerWrite a v :: _ => acc a (some v)
    | _ => none

/-- The host's access granted: a write has ended, one that meets a double error with code DATA (R62, R63). -/
def grantHost (s : State) (n : ChanId) (k : Fin 2) (a : PoolAcc) (f : BitVec 16 × BitVec 16) : State :=
  let r := poolPerform s n k a f
  let s1 := { r.1 with eng := { r.1.eng with hostSt := if a.write.isSome then 2 else 1 } }
  if a.write.isSome && !r.2.isEmpty then
    hostErr s1 (0x800000 + 0x80000 * (mkCore n k).val + (match a.dest with
      | .host o => o
      | _ => 0)) true hpData
  else s1

/-- One bank grants its slot's owner one access: in a NARROW slot the host's first (R487, R491). -/
def grantBank (s : State) (n : ChanId) (k : Fin 2) (b : Nat) (f : BitVec 16 × BitVec 16) : State :=
  let x := (s.chan n).core k
  let own := x.owner b ((s.chan n).ctl.cc % 16)
  match s.hostAcc.filter fun h => own == clNarrow && h.1 == mkCore n k && lineBank h.2.line == b with
  | some h => grantHost s n k h.2 f
  | none =>
    match x.pool.pick own b with
    | some a => if x.histWaits own b then s else grantOne s n k a f
    | none => s

/-- Every bank of a core's pool grants its slot's owner one access. -/
def grantCore (s : State) (n : ChanId) (k : Fin 2) (finds : List BankFind) : State :=
  (List.range 16).foldl (fun t b => grantBank t n k b (findsAt finds k b)) s

/-! ### Transfers out of a pool (R584, R589) -/

/-- The core a descriptor reads from. -/
def Desc.srcCore (d : Desc) : Fin 2 := if d.skind = 1 then 0 else 1

/-- Reads a descriptor has under way. -/
def Chan.readsOut (c : Chan) (id : Nat) : Nat :=
  duoIx.foldl (fun m k => m + (c.core k).pool.acc.countP (fun a => a.write.isNone && poolAccOf id a) +
    (c.core k).pool.rdq.countP fun r => match r.dest with
      | .dma i _ _ => i == id
      | _ => false) 0

/-- The next line read of a group: those to host memory and those to the inside each go in fetch order. -/
def Chan.poolRead (c : Chan) (out : Bool) : Option (Desc × Nat) :=
  match c.dma.descs.find? fun d => d.skind != 0 && ((d.dkind == 0) == out) && decide (d.reqPos < d.total) with
  | none => none
  | some d =>
    let p := d.reqPos
    if !c.fenceOk d || decide (16 ≤ c.readsOut d.id) || decide (4096 ≤ d.got.length) then none
    else some (d, min (d.len - p % d.len) (128 - d.srcAt p % 128))

/-- Line reads asked for while the group may ask, at most `fuel`. -/
def poolReads (n : ChanId) (out : Bool) : Nat → State → State
  | 0, s => s
  | f + 1, s =>
    match (s.chan n).poolRead out with
    | none => s
    | some (d, k) =>
      let a : PoolAcc := { client := clDma, line := d.srcAt d.reqPos / 128, write := none, dest := .dma d.id d.reqPos k }
      poolReads n out f (poolPend (s.updCh n fun c => updDesc c d.id fun e => { e with reqPos := e.reqPos + k }) n d.srcCore a)

/-! ### One cc of a channel -/

def Chan.headWaits (c : Chan) (q : QId) : Bool :=
  match (c.queue q).waiting with
  | [] => false
  | h :: _ => h.feed.isNone && !c.siphonCopy q h && c.sbWait q h (spanRanges (c.spans q h))

/-- POOL_SB.WAITQ of a core (R508). -/
def Chan.waitBits (c : Chan) (k : Fin 2) : BitVec 10 :=
  let own := (List.range 7).foldl (fun m i => if c.headWaits (stationQ k (Fin.ofNat 7 i)) then setBit m i else m) (0 : BitVec 10)
  putBit (putBit (putBit own 7 (c.headWaits Machine.dmaQ)) 8 (c.headWaits Machine.peerQ)) 9 (c.headWaits Machine.launchQ)

/-- The entry of a row, or the codes of a vector, is missing (R314, R346, R379). -/
def Core.starved (x : Core) (j : Fin 2) (part : Nat) : Bool :=
  let a := x.arr j
  match a.nextPass part with
  | none => false
  | some p => match p.entries with
    | [] => true
    | e :: _ => !entryFed a p || (p.isStep && e.code != cSTART &&
        (allLoopRows a p.prof).any fun r => (a.loopGet p.prof (slotBase p.prof (e.v % p.slots)) r.2).isNone)

/-- Counters of one array in one cc (R314, R315, R328, R388). -/
def Core.countArr (x : Core) (j : Fin 2) : Core :=
  let parts := List.range (x.arr j).cfg.parts.length
  let froze := if (x.arr j).reg.faulted then 0 else parts.countP fun p => x.frozen j p
  let starve := if (x.arr j).reg.faulted then 0 else parts.countP fun p => !x.frozen j p && x.starved j p
  x.updArr j fun a =>
    if a.reg.hold then a
    else { a with
      reg := { a.reg with feedstall := satAdd a.reg.feedstall starve, bpstall := satAdd a.reg.bpstall froze }
      stepReg := { a.stepReg with gidle := satAdd a.stepReg.gidle (if a.streams.any (·.inGate) && !a.cc.issued then 1 else 0) } }

/-- A run of LANE whose next round waits for a pool line (R475). -/
def Core.laneWaits (x : Core) : Bool :=
  match x.lane.run with
  | none => false
  | some r => r.left != 0 || x.pool.acc.any isLaneOut

/-- The next cc of an array: the updates of the last one are over, state writes made by stages in it land, the values of
words just written are emitted, and GATEn takes values (R332, R349, R353, R428). -/
def Core.nextCcArr (x : Core) (j : Fin 2) (cc : Nat) : Core :=
  let a := (x.arr j).accClose
  let now := a.acc.pend.filter fun w => decide (w.due ≤ cc)
  let b : Arr := { a with
    cc := .none, emits := []
    acc := { a.acc with pend := a.acc.pend.filter fun w => !decide (w.due ≤ cc) } }
  let y := x.updArr j fun _ => now.foldl (fun r w => r.accWrite w.word [w.val]) b
  (a.emits.foldl (fun z e => emitVec z j e.order e.v e.ending ((List.range e.count).map fun i => (b.accGet (e.word + i)))) y).gateTake j

/-- The next cc of a core. -/
def Core.nextCc (x : Core) (cc : Nat) : Core :=
  let y := (x.nextCcArr 0 cc).nextCcArr 1 cc
  { y with lane := { y.lane with upd := [] }, cc := { y.cc with psBy := [], cmp := y.cc.cmp - 1 } }

/-- Cairns at the start of a cc: nothing applied in it yet (R575). -/
def Cairns.nextCc (c : Cairns) : Cairns :=
  { c with cells := c.cells.filterMap fun e =>
      let x := { e.2 with applied := 0 }
      if x = Cairn.zero then none else some (e.1, x) }

/-- The counters of a channel in one cc (R475, R508, R611, R693). -/
def Chan.countCc (c : Chan) : Chan :=
  let wait (k : Fin 2) : Nat := if c.waitBits k = 0 then 0 else 1
  let still := c.still
  let drained := c.isDrained
  let core (k : Fin 2) (x : Core) : Core :=
    let y := (x.countArr 0).countArr 1
    { y with
      pool := { y.pool with sbstall := satAdd y.pool.sbstall (wait k) }
      lane := { y.lane with stall := satAdd y.lane.stall (if x.laneWaits then 1 else 0) } }
  let c1 := (c.updCore 0 (core 0)).updCore 1 (core 1)
  { c1 with
    crn := c1.crn.nextCc
    flt := { c1.flt with swCount := if still then BitVec.ofNat 13 (min 4096 (c.flt.swCount.toNat + 1)) else 0 }
    ctl := { c1.ctl with
      cc := c1.ctl.cc + 1
      drained := if drained then some (c1.ctl.drained.getD c1.ctl.cc) else none } }

/-- One cc of the swaps of a channel's arrays (R322). -/
def swapsTick (s : State) (n : ChanId) : State :=
  duoIx.foldl (fun t k => duoIx.foldl (fun u j => swapTick u (mkArr n k j)) t) s

/-- The end of a cc of a channel out of reset: grants, counts and what the cc leaves to the next, then reads of
transfers, pushes that have waited, and feed jobs (log 3). -/
def chanCc (s : State) (n : ChanId) (finds : List BankFind) : State :=
  if !(s.chan n).live then s
  else
    let s1 := grantCore (grantCore s n 0 finds) n 1 finds
    let s2 := (swapsTick (s1.updCh n Chan.countCc) n).updCh n fun c => c.updCores fun x => x.nextCc c.ctl.cc
    let s3 := poolReads n false 16 (poolReads n true 16 s2)
    let s4 := pushResume (pushResume s3 (mkCore n 0) false) (mkCore n 1) false
    feedPump (feedPump s4 n 0) n 1

/-! ### Read data (R489, R504–R506) -/

/-- A line of feed data. -/
def feedTake (s : State) (n : ChanId) (k j : Fin 2) (order line : Nat) (data : List Byte) (bads : List Nat) : State :=
  feedPump (s.updCh n fun c => c.updCore k fun x => x.updArr j fun a =>
    { a with passes := a.passes.map fun (p : Pass) =>
        if p.order = order then { p with
          buf := smSetList 0 p.buf (128 * line) data
          lines := p.lines - 1
          voidWs := p.voidWs ++ bads } else p }) n k

/-- The image of a load is whole and takes effect (R348, R464, R476, R558, R615, R646). -/
def loadDone (s : State) (n : ChanId) (k : Fin 2) (l : Load) : State :=
  let bs := smGetList 0 l.buf l.off l.len
  let j := qArr l.q
  let upd (g : Core → Core) : State := s.updCh n fun c => markIssued (c.updCore k g) l.q l.cmd.order false true
  let arr (g : Arr → Arr) : State := upd fun x => x.updArr j g
  match stationOf l.q, l.cmd.opc with
  | .feed, _ => upd fun x => x.tloaded l.cmd bs
  | .arr, 9 => s.updCh n fun c => c.updCore k fun x => x.updArr j fun a => a.staged l.cmd.order bs
  | .arr, 12 => arr fun a => a.dloaded l.cmd bs
  | .arr, 13 => arr fun a => a.dploaded l.cmd bs
  | .arr, _ => arr fun a => a.ploaded l.cmd bs
  | .launch, _ => frameFilled s n l.cmd.order bs
  | .peer, _ => pktFilled s n l.part bs
  | _, _ => upd fun x => { x with lane := x.lane.lloaded l.cmd bs }

/-- A load that met a double error in its image: nothing of it takes effect, and its command completes with an error
(R506, R565). -/
def loadLost (s : State) (n : ChanId) (k : Fin 2) (l : Load) : State :=
  let j := qArr l.q
  let mine (d : PoolDest) : Bool := d == .load l.id
  let s1 := s.updCh n fun c => c.updCore k fun x => { x with pool := { x.pool with
    acc := x.pool.acc.filter fun a => !mine a.dest
    rdq := x.pool.rdq.filter fun r => !mine r.dest } }
  let upd (g : Core → Core) : State := s1.updCh n fun c => markIssued (c.updCore k g) l.q l.cmd.order true true
  match stationOf l.q, l.cmd.opc with
  | .arr, 9 => upd fun x => x.updArr j fun a => a.stagingLost l.cmd
  | .launch, _ => frameLost s1 n l.cmd.order
  | .peer, _ => pktLost s1 n l.part l.cmd.order
  | .lane, _ => upd fun x => { x with lane := { x.lane with busy := false } }
  | _, _ => upd id

/-- A line of a load's image has arrived. -/
def loadTake (s : State) (n : ChanId) (k : Fin 2) (id line : Nat) (data : List Byte) (bads : List Nat) : State :=
  match ((s.chan n).core k).loads.find? fun l => l.id == id with
  | none => s
  | some l0 =>
    let l : Load := { l0 with left := l0.left - 1, buf := smSetList 0 l0.buf (128 * line) data }
    let lost := (words64 l.off l.len).any fun w => bads.contains w
    let s1 := s.updCh n fun c => c.updCore k fun x => { x with
      loads := if lost || l.left == 0 then x.loads.filter fun y => y.id != id
               else x.loads.map fun y => if y.id = id then l else y }
    if lost then loadLost s1 n k l else if l.left = 0 then loadDone s1 n k l else s1

/-- The data of the host's read arrives: its response (R61, R62, R506). -/
def hostTake (s : State) (c : CoreId) (off : Nat) (data : List Byte) (bads : List Nat) : State :=
  let s1 := { s with eng := { s.eng with hostSt := 2 } }
  if bads.contains (off / 8) then hostAnswer (hostErr s1 (0x800000 + 0x80000 * c.val + off) false hpData) hpData 0
  else hostAnswer s1 0 (BitVec.ofNat 32 (leNat ((data.drop (off % 128)).take 4)))

/-- The next line of read data reaches its client (R489). -/
def readData (s : State) (c : CoreId) : State :=
  let n := coreChan c
  let k := coreLoc c
  match ((s.chan n).core k).pool.rdq with
  | [] => s
  | r :: t =>
    let s1 := s.updCh n fun d => d.updCore k fun x => { x with pool := { x.pool with rdq := t } }
    match r.dest with
    | .feed j order => feedTake s1 n k j order r.line r.data r.bads
    | .dma id pos len =>
      (match (s1.chan n).dma.descs.find? fun d => d.id == id with
      | none => s1
      | some d =>
        let at_ := d.srcAt pos
        if (words64 at_ len).any fun w => r.bads.contains w then descFail s1 n id 6
        else descGot s1 n id pos ((r.data.drop (at_ % 128)).take len))
    | .load id => loadTake s1 n k id r.line r.data r.bads
    | .laneIn => s1.updCh n fun d => d.updCore k fun x => laneTake x r.line r.data r.bads
    | .siphIn => s1.updCh n fun d => d.updCore k fun x => siphTake x r.line r.data r.bads
    | .ccLoad rd off => ccLoaded s1 c rd off r.data r.bads
    | .host off => hostTake s1 c off r.data r.bads
    | _ => s1

/-- POOL_CLEAR: POOL_CTRL.CLEAR (R508). -/
def execPoolClear (c : CoreId) (s : State) : Out :=
  .next (hostWr s (.poolClear c) (coreBase c + 0x5014) fun t => t.updCore c fun x => { x with pool := { x.pool with sbstall := 0 } })

end Sys2Proof.Machine
end

