-- ==== Sys2Proof/Machine/Registers.lean ====
section
/-! DEFINITION. The host-visible registers (chapter 22): what a read of each returns. -/

namespace Sys2Proof.Machine

/-- A word from its fields, each a number at its lowest bit. -/
def packW (l : List (Nat × Nat)) : Word := BitVec.ofNat 32 (l.foldl (fun m f => m + f.2 * 2 ^ f.1) 0)

/-- A time of 10⁻⁵ · 2⁻³² ns units in units of `unit` of them, rounded as the hardware does (log 26). -/
def shown (v unit : Int) : Int := if v % unit = 0 then v / unit else if Config.showUp v then v / unit + 1 else v / unit

/-- A signed word that saturates. -/
def satWord (v : Int) : Word := BitVec.ofInt 32 (max (-2147483648) (min 2147483647 v))

/-! ### Engine registers -/

def SrvState.code : SrvState → Nat
  | .idle => 0
  | .open => 1
  | .validating => 2
  | .logging => 3
  | .pending => 4

/-- FLT_IRQ (R699). -/
def fltIrq (s : State) : BitVec 9 :=
  let f (v : BitVec 9) (p : Nat × Bool) : BitVec 9 := if p.2 then setBit v p.1 else v
  [(0, s.flt.valid), (1, s.hperr.valid), (2, s.clk.xselBad || s.clk.refFail || s.clk.refLost),
   (3, s.boot.fuseBad || s.boot.engFail || s.boot.chFail != 0), (4, s.srv.done), (5, s.log.fail),
   (6, s.tdc.held || s.tdc.refused), (7, s.thm.critFlag), (8, s.tdc.cap0 || s.tdc.cap1)].foldl f 0

/-- IRQ_ENG (R72, R696); 0 while PORST_N or ENGRST_N is held (R54, R186). -/
def irqEng (s : State) : Bool := s.eng.porst && s.eng.engrst && fltIrq s &&& s.flt.irqEn != 0

/-- The registers of one time domain (R600, R624). -/
def tdRead (x : Td) (o : Nat) : Word :=
  match o with
  | 0x00 => x.ns
  | 0x04 => x.latSec.setWidth 32
  | 0x08 => packW [(0, x.latSec.toNat / 2 ^ 32)]
  | 0x0C => x.latFrac
  | 0x10 => x.heldFrac.getD x.incFrac
  | 0x14 => packW [(0, x.incInt.toNat)]
  | 0x18 => x.adj
  | 0x1C => x.setNs
  | 0x20 => x.setSec.setWidth 32
  | 0x24 => packW [(0, x.setSec.toNat / 2 ^ 32)]
  | 0x28 => x.cap0Ns
  | 0x2C => x.cap0Sec
  | 0x30 => x.cap1Ns
  | 0x34 => x.cap1Sec
  | 0x38 => packW [(0, x.disc.toNat)]
  | _ => 0

/-- Identity, boot, port-error, clock, supply and thermal registers (R50, R51, R66, R67, R135, R138, R150, R151,
R157–R159, R189). -/
def engReadA (s : State) (o : Nat) : Word :=
  match o with
  | 0x0000 => packW [(16, 4), (8, s.eng.stepping.toNat), (0, 3)]
  | 0x0004 => packW [(16, s.eng.grade.toNat), (0, s.eng.arrays.toNat)]
  | 0x0008 =>
    let b := s.boot
    packW [(20, b.chFail.toNat), (19, b.engFail.toNat), (18, b.fuseBad.toNat), (14, b.survey.toNat), (12, b.log.toNat),
           (0, b.stage.toNat)]
  | 0x0040 =>
    let e := s.hperr
    packW [(24, e.more.toNat), (3, e.write.toNat), (1, e.code.toNat), (0, e.valid.toNat)]
  | 0x0044 => packW [(0, s.hperr.addr.toNat)]
  | 0x1000 =>
    let c := s.clk
    packW [(12, c.cpllLock.toNat), (11, c.mpllLock.toNat), (10, c.tpllLock.toNat), (9, c.pllFail.toNat),
           (8, c.refLost.toNat), (7, c.refFail.toNat), (6, c.refOk.toNat), (5, c.freqBad.toNat), (4, c.xselBad.toNat),
           (3, s.eng.refsel.toNat), (1, s.eng.xsel.toNat), (0, c.trimOk.toNat)]
  | 0x1004 => packW [(4, s.clk.obsDiv.toNat), (0, s.clk.obsSel.toNat)]
  | 0x2000 => packW [(8, s.pwr.pg.toNat), (0, s.pwr.maxOp.toNat)]
  | 0x2004 =>
    let p := s.pwr
    packW [(16, p.gated.toNat), (15, p.vack.toNat), (12, p.vreq.toNat), (8, p.thermOp.toNat), (0, demandOp s)]
  | 0x3000 => packW [(0, s.thm.avg.toNat)]
  | 0x3004 => packW [(16, s.thm.crit.toNat), (8, s.thm.lo.toNat), (0, s.thm.hi.toNat)]
  | 0x3008 => packW [(31, s.thm.critFlag.toNat), (0, s.thm.throttles.toNat)]
  | _ =>
    let x := s.thm.sens.getD ((o - 0x3010) / 4) .reset
    packW [(31, x.valid.toNat), (0, x.temp.toNat)]

/-- Common time registers and the calendar (R622–R624). -/
def engReadB (s : State) (o : Nat) : Word :=
  match o with
  | 0x4080 =>
    let t := s.tdc
    packW [(31, t.held.toNat), (30, (t.phi != 0).toNat), (29, t.refused.toNat), (9, t.cap1.toNat), (8, t.cap0.toNat),
           (0, t.ticksel.val)]
  | 0x4084 => packW [(0, s.tdc.ppsw.toNat)]
  | 0x4088 => satWord (shown s.tdc.phi (100000 * 2 ^ 24))
  | 0x408C => satWord (shown ((tdUnits s.td.c1 - tdUnits s.td.c0) * 100000) phiNs)
  | 0x40C0 => s.cal.offset
  | 0x40C4 => (calWords s).1
  | 0x40C8 => s.cal.time
  | 0x40CC => s.cal.ns
  | 0x40D0 => s.cal.setDate
  | 0x40D4 => s.cal.setTime
  | 0x40DC => packW [(31, s.cal.reject.toNat), (30, (calUtc s).isNone.toNat), (0, s.cal.reason.toNat)]
  | _ => 0

/-- Survey, logbook and fault registers (R223, R228, R247, R261, R699). -/
def engReadC (s : State) (o : Nat) : Word :=
  let v := s.srv
  match o with
  | 0x5004 =>
    packW [(21, v.done.toNat), (16, v.tries.toNat), (12, v.affected.toNat), (8, v.notReady.toNat), (4, v.result.toNat),
           (0, v.state.code)]
  | 0x5008 => packW [(0, v.retry.toNat)]
  | 0x500C => v.txn
  | 0x5010 => v.applyNs
  | 0x5014 => v.applySec.setWidth 32
  | 0x5018 => packW [(0, v.applySec.toNat / 2 ^ 32)]
  | 0x501C => BitVec.ofNat 32 (v.instant % 1000000000)
  | 0x5020 => BitVec.ofNat 32 (v.instant / 1000000000)
  | 0x5024 => packW [(0, v.instant / 1000000000 / 2 ^ 32 % 65536)]
  | 0x5028 => packW [(2, v.addr.toNat)]
  | 0x502C =>
    let off := 4 * v.addr.toNat
    BitVec.ofNat 32 (if v.state = .open then leNat (smGetList 0 s.txn.shadow off 4) else le (imageBytes s) off 4)
  | 0x5030 => packW [(0, v.len.toNat)]
  | 0x5040 => packW [(16, v.chkType.toNat), (0, v.chkReason.toNat)]
  | 0x5044 => packW [(0, v.chkPos.toNat)]
  | 0x6000 => packW [(0, s.log.base.toNat)]
  | 0x6004 => packW [(0, s.log.base.toNat / 2 ^ 32)]
  | 0x6008 => s.log.size
  | 0x600C => packW [(0, s.log.interval.toNat)]
  | 0x6010 =>
    let l := s.log
    packW [(24, l.dropped.toNat), (20, l.compacting.toNat), (19, l.half.toNat), (18, l.fail.toNat), (17, l.run.toNat),
           (0, l.fill.toNat)]
  | 0x6014 => s.log.next
  | 0x7000 =>
    let f := s.flt
    packW [(24, f.more.toNat), (8, f.cause.toNat), (7, f.fatal.toNat), (6, f.supply.toNat), (0, f.valid.toNat)]
  | 0x7004 => s.flt.info
  | 0x7010 => packW [(0, (fltIrq s).toNat)]
  | 0x7014 => packW [(0, s.flt.irqEn.toNat)]
  | _ => 0

def engRead (s : State) (o : Nat) : Word :=
  if o < 0x4000 then engReadA s o
  else if o < 0x4040 then tdRead s.td.c0 (o - 0x4000)
  else if o < 0x4080 then tdRead s.td.c1 (o - 0x4040)
  else if o < 0x5000 then engReadB s o
  else engReadC s o

/-- A histogram unit's registers (R297). -/
def histRead (h : Hist) (o : Nat) : Word :=
  match o with
  | 0x0 => packW [(31, h.en.toNat), (2, h.pool.toNat), (0, h.src.toNat)]
  | 0x4 => h.seq
  | 0x8 => packW [(1, h.sat.toNat), (0, h.ovr.toNat)]
  | 0xC => packW [(7, h.line.toNat)]
  | _ => packW [(0, (smGet 0 h.snap ((o - 0x100) / 4)).toNat)]

/-! ### Channel registers -/

def ChState.code : ChState → Nat
  | .reset => 0
  | .idle => 1
  | .armed => 2
  | .running => 3
  | .halted => 4
  | .lost => 5
  | .failed => 6
  | .gated => 7

/-- CH_IRQ (R700). -/
def chIrq (c : Chan) : BitVec 9 :=
  let f (v : BitVec 9) (p : Nat × Bool) : BitVec 9 := if p.2 then setBit v p.1 else v
  let arr (x : Core) : Bool := x.arrs.c0.flt.valid || x.arrs.c1.flt.valid
  [(0, c.flt.valid), (1, c.cores.c0.flt.valid || c.cores.c1.flt.valid), (2, arr c.cores.c0 || arr c.cores.c1),
   (3, c.port.bits != 0), (4, c.crn.valid), (5, c.dma.valid), (6, c.ctl.ovr), (7, c.peer.errValid),
   (8, c.peer.staleValid)].foldl f 0

/-- IRQ_CH[n] (R72, R696); 0 while a reset that covers the channel is held (R54, R186). -/
def irqCh (s : State) (n : ChanId) : Bool :=
  s.eng.porst && s.eng.engrst && bitOf s.eng.chrst n.val && chIrq (s.chan n) &&& (s.chan n).flt.irqEn != 0

/-- CH_QUAR.ARRAY: the arrays with a quarantine, those marked faulted (R29, R686). -/
def quarArrays (c : Chan) : Nat :=
  let b (x : Core) : Nat := x.arrs.c0.reg.faulted.toNat + 2 * x.arrs.c1.reg.faulted.toNat
  b c.cores.c0 + 4 * b c.cores.c1

/-- The control block of a channel (R103–R106, R149, R174, R625, R700). -/
def ctlRead (c : Chan) (o : Nat) : Word :=
  let f := c.flt
  match o with
  | 0x00 => packW [(4, c.ctl.state.code), (0, c.ctl.run.toNat)]
  | 0x40 => packW [(24, c.port.more.toNat), (0, c.port.bits.toNat)]
  | 0x44 => packW [(6, c.port.addr.toNat % 2 ^ 26)]
  | 0x48 =>
    packW [(31, c.port.valid.toNat), (20, c.port.status.toNat), (18, c.port.op.toNat), (0, c.port.addr.toNat / 2 ^ 26)]
  | 0x50 =>
    packW [(25, (decide (c.ctl.eff.toNat < c.ctl.freq.toNat)).toNat), (24, c.ctl.ramp.toNat), (16, c.ctl.eff.toNat),
           (0, c.ctl.freq.toNat)]
  | 0x60 => slotWord c
  | 0x64 => packW [(16, c.ctl.guard.toNat), (0, c.ctl.mu.toNat)]
  | 0x68 => c.ctl.commits
  | 0x6C => c.ctl.overruns
  | 0x70 => packW [(31, c.ctl.ovr.toNat), (30, c.ctl.gap.toNat), (0, c.ctl.slack.toNat)]
  | 0x80 => packW [(0, (chIrq c).toNat)]
  | 0x84 => packW [(0, f.irqEn.toNat)]
  | 0x90 =>
    packW [(24, f.more.toNat), (16, f.cause.toNat), (12, f.origin.toNat), (8, f.cls.toNat), (7, f.esc.toNat),
           (0, f.valid.toNat)]
  | 0x94 => f.info
  | 0x98 => packW [(0, f.tag.toNat)]
  | 0x9C => packW [(4, f.quar.toNat), (0, quarArrays c)]
  | 0xA0 => f.qwin
  | 0xA8 => packW [(31, c.still.toNat), (0, f.swCount.toNat)]
  | _ =>
    if 0x100 ≤ o then
      let e := f.dl.getD ((o - 0x100) / 8) (false, false, 0, 0)
      if o % 8 = 0 then packW [(31, e.1.toNat), (30, e.2.1.toNat), (0, e.2.2.1.toNat)] else packW [(0, e.2.2.2.toNat)]
    else 0

/-- SOURCES in effect of a cairn (R209, R210). -/
def Chan.cairnSources (c : Chan) (i : Nat) : Nat :=
  match smFind c.crn.cfg i with
  | some e => e.1.toNat
  | none => if c.live then 1 else 0

/-- Cairn and DMA registers (R582, R583, R597). -/
def crnRead (c : Chan) (o : Nat) : Word :=
  let m := c.dma
  match o with
  | 0x18000 =>
    let r := c.crn
    packW [(24, r.more.toNat), (16, r.kind.toNat), (13, r.cls.toNat), (11, r.valid.toNat), (0, r.cairn.toNat)]
  | 0x18004 => c.crn.deferd
  | 0x20000 =>
    packW [(31, (!m.xfers.isEmpty).toNat), (16, m.xfers.length % 128), (0, c.outstanding % 1024)]
  | 0x20004 => packW [(10, m.rem.toNat), (5, m.wr.toNat), (0, m.rd.toNat)]
  | 0x20008 => m.errWord
  | 0x2000C => packW [(5, m.errAddr.toNat / 32 % 2 ^ 27)]
  | 0x20010 => packW [(0, m.errAddr.toNat / 2 ^ 32)]
  | 0x20014 => m.granRd
  | 0x20018 => m.granWr
  | 0x2001C => m.granRem
  | 0x20020 => m.slotLost
  | 0x20024 => 0
  | _ =>
    let i := (o - 0x10000) / 8
    let x := c.cairn i
    if o % 8 = 0 then packW [(0, x.count.toNat)]
    else packW [(31, x.err.toNat), (30, x.under.toNat), (16, c.cairnSources i)]

/-- Launch and peer registers (R625, R655). -/
def peerRead (c : Chan) (o : Nat) : Word :=
  let p := c.peer
  match o with
  | 0x30000 => packW [(16, c.lch.frames.length), (0, (c.lch.frames.map fun f => f.data.length / 32).sum)]
  | 0x30004 => c.lch.sent
  | 0x30008 => packW [(16, c.lch.lateSent.toNat), (0, c.lch.dropped.toNat)]
  | 0x3000C => packW [(16, c.lch.voided.toNat), (0, c.lch.refused.toNat)]
  | 0x30010 => c.lch.slips
  | 0x30014 => packW [(0, c.lch.provRef.toNat)]
  | 0x40000 => p.node
  | 0x40004 =>
    let bits (f : Nat → Bool) : Nat := (List.range 8).foldl (fun m i => if f i then m + 2 ^ i else m) 0
    packW [(31, p.halted.toNat), (16, p.strangers.toNat), (8, bits c.timed), (0, bits c.usable)]
  | 0x40008 => packW [(0, p.coll.toNat)]
  | 0x4000C => p.dups
  | 0x40010 => packW [(16, p.voided.toNat), (0, p.held.toNat)]
  | 0x40014 =>
    packW [(24, p.errMore.toNat), (23, p.errValid.toNat), (16, p.errStatus.toNat), (11, p.errSide.toNat),
           (8, p.errEntry.val), (0, p.errWin.toNat)]
  | 0x40018 =>
    packW [(31, p.staleValid.toNat), (21, p.staleEntry.val), (16, p.staleWin.toNat), (0, p.staleTag.toNat)]
  | 0x4001C => packW [(16, p.staleLast.toNat), (0, p.staleFirst.toNat)]
  | _ =>
    if o < 0x40040 then 0
    else
      let x := c.part ((o - 0x40040) / 16)
      match o % 16 with
      | 0 => x.node
      | 4 => packW [(16, x.epoch.toNat), (8, x.ver.toNat), (4, x.pstate.toNat), (0, x.state.toNat)]
      | 8 => x.offset
      | _ => packW [(16, x.refused.toNat), (0, x.hellos.toNat)]

/-- A ring's registers (R665). -/
def ringRead (c : Chan) (r : Ring) (o : Nat) : Word :=
  match o with
  | 0 =>
    packW [(31, r.en.toNat), (30, (c.ringBad r).toNat), (24, r.type.toNat), (16, r.stream.toNat), (14, r.form.toNat),
           (10, r.logbs.toNat), (9, r.core.val)]
  | 4 => packW [(16, r.elines.toNat), (0, r.base.toNat)]
  | 8 => packW [(16, r.nent.toNat), (0, r.cairn.toNat)]
  | _ => packW [(16, r.frames.toNat), (0, r.next.toNat)]

/-- The radio port's registers (R665). -/
def rpRead (c : Chan) (o : Nat) : Word :=
  let p := c.rp
  match o with
  | 0x50000 => packW [(31, c.rpEn.toNat), (16, p.ocredit.toNat), (0, 128 - p.credits)]
  | 0x50004 => packW [(0, p.ix.toNat)]
  | 0x50008 => p.frames
  | 0x5000C => packW [(24, p.noMatch.toNat), (16, p.tooBig.toNat), (8, p.oType.toNat)]
  | 0x50010 => p.sent
  | 0x50014 => 0
  | _ =>
    if o < 0x50080 then ringRead c (p.rings.getD ((o - 0x50040) / 16) .reset) (o % 16)
    else
      let t := p.tmpls.getD ((o - 0x50080) / 16) .reset
      match o % 16 with
      | 0 => packW [(0, t.a.toNat)]
      | 4 => packW [(0, t.b.toNat)]
      | 8 => t.c
      | _ => t.d

def chRead (c : Chan) (o : Nat) : Word :=
  if o < 0x10000 then ctlRead c o
  else if o < 0x30000 then crnRead c o
  else if o < 0x50000 then peerRead c o
  else rpRead c o

/-! ### Core and array registers -/

/-- Control-core registers (R539). -/
def ccRead (x : Core) (o : Nat) : Word :=
  let c := x.cc
  let stalled : Bool := match c.stall with
    | some p => p.brk
    | none => false
  match o with
  | 0x1000 =>
    packW [(31, c.halt.toNat), (30, stalled.toNat), (29, c.list.toNat), (28, c.unchecked.toNat), (8, c.reason.toNat),
           (0, c.r.next.toNat)]
  | 0x1004 => c.haltAddr
  | 0x1008 => packW [(16, c.repIdx.toNat), (8, c.haltTag.toNat), (4, c.haltQ.toNat)]
  | 0x100C => c.base
  | 0x1010 => c.pushes
  | 0x1014 => c.replays
  | 0x1018 => packW [(16, c.trig.toNat), (0, c.tcairn.toNat)]
  | 0x101C => packW [(30, c.brkMode.toNat), (29, c.brkAct.toNat), (16, c.brkMask.toNat), (8, c.brkTag.toNat)]
  | 0x1020 => c.brkCount
  | 0x1024 => packW [(16, x.icache.misses.toNat), (8, x.icache.parity.toNat)]
  | _ =>
    if o < 0x1100 then
      let k := (o - 0x1080) / 8
      if o % 8 = 0 then smGet 0 c.selBase k else packW [(0, (smGet 0 c.selLen k).toNat)]
    else if o < 0x1180 then smGet 0 c.p ((o - 0x1100) / 4)
    else if o < 0x1200 then 0
    else if o < 0x1280 then c.xr (BitVec.ofNat 5 ((o - 0x1200) / 4))
    else if o < 0x12C0 then c.ar ((o - 0x1280) / 4)
    else if o < 0x1300 then smGet 0 c.r.ainc ((o - 0x12C0) / 4)
    else c.qr ((o - 0x1300) / 4)

/-- A LANE station with an LRUN or an LLOAD under way (R479). -/
def laneBusy (x : Core) : Bool :=
  x.lane.busy || ((x.queues.getD 6 Queue.empty).issued.any fun i =>
    !i.ended && decide (fld (i.cmd.words.getD 0 0) 20 4 = 9))

/-- Tile registers that incomplete commands have declared (R461). -/
def tileClaims (x : Core) (write : Bool) : Byte :=
  x.queues.foldl (fun m q => q.issued.foldl (fun m i => m ||| (if write then i.tilesW else i.tilesR)) m) 0

/-- A core's own registers (R415, R479, R508, R701); `quar` says that it is quarantined. -/
def coreRead (c : Chan) (k : Fin 2) (o : Nat) : Word :=
  let x := c.core k
  let f := x.flt
  if 0x1000 ≤ o ∧ o < 0x2000 then ccRead x o
  else
    match o with
    | 0x0 =>
      packW [(24, f.more.toNat), (16, f.cause.toNat), (8, f.cls.toNat), (7, f.esc.toNat), (6, f.arr.toNat),
             (0, f.valid.toNat)]
    | 0x4 => f.info
    | 0x8 =>
      packW [(31, (bitOf c.flt.quar k.val).toNat), (25, f.cmpbOff.toNat), (24, f.cmpaOff.toNat), (16, f.misses.toNat),
             (8, f.uncharged.toNat), (0, f.charges.toNat)]
    | 0x3000 =>
      let p := x.siph
      packW [(31, p.busy.toNat), (30, p.aborted.toNat), (29, p.gate.toNat), (28, p.arr.toNat), (0, p.sweep.toNat)]
    | 0x3004 => x.siph.passes
    | 0x3008 => x.siph.ops
    | 0x4000 => packW [(31, (laneBusy x).toNat), (16, x.lane.pc.toNat), (0, x.lane.round.toNat)]
    | 0x4004 => packW [(0, x.lane.flags.toNat)]
    | 0x4008 => x.lane.rounds
    | 0x400C => x.lane.stall
    | 0x4010 => packW [(31, x.lane.clash.toNat), (8, (tileClaims x true).toNat), (0, (tileClaims x false).toNat)]
    | 0x5000 => packW [(16, x.pool.corr.toNat), (8, x.pool.uncorr.toNat), (0, x.pool.valid.toNat)]
    | 0x5004 => poolEccAddr x.pool.client x.pool.word.toNat
    | 0x5008 => x.pool.sbstall
    | 0x500C => packW [(0, (c.waitBits k).toNat)]
    | 0x5010 => packW [(0, c.ctl.cc % 16)]
    | _ => 0

/-- Partitions with a pass that has vectors yet to enter (R327). -/
def arrBusy (a : Arr) : Nat :=
  (List.range 8).foldl (fun m p => if (a.nextPass p).isSome then m + 2 ^ p else m) 0

/-- An array's registers (R327, R368, R398, R455, R701); those of an array not in use read 0. -/
def arrRead (x : Core) (j : Fin 2) (o : Nat) : Word :=
  let a := x.arr j
  let r := a.reg
  let f := a.acc
  if !a.cfg.used then 0
  else
    match o with
    | 0x00 =>
      packW [(31, r.faulted.toNat), (30, a.cfg.arrange.toNat), (24, a.cfg.parts.length), (16, r.swapping.toNat),
             (8, r.reload.toNat), (0, arrBusy a)]
    | 0x04 => packW [(0, r.logr.toNat)]
    | 0x08 => r.vecs
    | 0x0C => r.feedstall
    | 0x10 => r.bpstall
    | 0x14 => packW [(16, r.parity.toNat), (0, r.swaps.toNat)]
    | 0x18 => packW [(1, r.hold.toNat)]
    | 0x40 =>
      packW [(31, f.tagErr.toNat), (30, f.clash.toNat), (16, (f.entries.any fun e => e.2.tag).toNat),
             (0, a.cfg.stateElems)]
    | 0x44 => f.gen
    | 0x48 => packW [(16, f.rollbacks.toNat), (0, (a.accClose.acc.overflows).toNat)]
    | 0x4C => packW [(16, f.corr.toNat), (8, f.uncorr.toNat), (0, f.eccValid.toNat)]
    | 0x50 => packW [(16, f.eccCopy.toNat), (0, f.eccWord.toNat)]
    | 0x54 => packW [(0, a.drip.flags.toNat)]
    | 0x58 => packW [(0, x.emitFill j)]
    | 0x80 => packW [(8, a.streams.countP (·.inGate)), (0, a.stepReg.lat.toNat)]
    | 0x84 => a.stepReg.count
    | 0x88 => packW [(16, a.stepReg.primes.toNat), (0, a.stepReg.ends.toNat)]
    | 0x8C => a.stepReg.gidle
    | 0xC0 => packW [(0, a.gate.flags.toNat)]
    | 0xC4 =>
      packW [(31, a.cfg.arrange.toNat), (8, a.chainRun.countP (·.started)),
             (0, a.gate.desc.toNat)]
    | 0xC8 => a.gate.issues
    | 0xCC => packW [(16, a.gate.loc.toNat), (0, a.gate.voided.toNat)]
    | 0xD0 => packW [(0, a.gate.notable.toNat)]
    | 0xE0 => packW [(24, a.flt.more.toNat), (16, a.flt.cause.toNat), (8, a.flt.cls.toNat), (0, a.flt.valid.toNat)]
    | 0xE4 => a.flt.info
    | _ => 0

/-- What a read of a register or of a pool word returns, ECC apart. -/
def regRead (s : State) : Loc → Word
  | .none => 0
  | .eng o => engRead s o
  | .hist a o => if (s.arr a).cfg.used then histRead (s.arr a).hist o else 0
  | .ch n o => chRead (s.chan n) o
  | .core c o => coreRead (s.chan (coreChan c)) (coreLoc c) o
  | .arr a o => arrRead ((s.chan (arrChan a)).core (arrCore a)) (arrLoc a) o
  | .pool c o => (s.core c).pool.narrow o

end Sys2Proof.Machine
end

