-- ==== Sys2Proof/Machine/HostPort.lean ====
section
/-! DEFINITION. Host-port target accesses as rows (chapters 02 and 22): a write to any register by the access types of
its fields (R11–R14), and the narrow pool debug window (R61, R62). -/

namespace Sys2Proof.Machine

/-- The state a row's effect leaves. -/
def ran (o : Out) (s : State) : State :=
  match o with
  | .next t => t
  | _ => s

/-- A row's effect when a bit written is 1. -/
def onBit (v : Word) (i : Nat) (f : State → Out) (s : State) : State := if bitOf v i then ran (f s) s else s

/-- Bits [31:0] or [47:32] of a 48-bit register. -/
def low48 (x : BitVec 48) (v : Word) : BitVec 48 := BitVec.ofNat 48 (x.toNat / 2 ^ 32 * 2 ^ 32 + v.toNat)
def high48 (x : BitVec 48) (v : Word) : BitVec 48 := BitVec.ofNat 48 (v.toNat % 65536 * 2 ^ 32 + x.toNat % 2 ^ 32)

/-- w1c: each 1 clears its bit (R11). -/
def w1c {n : Nat} (f : BitVec n) (v : Word) : BitVec n := f &&& ~~~(v.setWidth n)

/-! ### Engine registers -/

/-- ICACHE_CLEAR: CC_ICACHE.CLEAR (R539). -/
def execIcacheClear (c : CoreId) (s : State) : Out :=
  .next (hostWr s (.icacheClear c) (coreBase c + 0x1024) fun t => t.updCore c fun x =>
    { x with icache := { x.icache with misses := 0, parity := 0 } })

/-- PWR_CTRL: MAX_OP, then each channel's PG (R147, R150, R152, R153). -/
def pwrCtrl (s : State) (v : Word) : State :=
  let t := ran (execMaxOpWrite (v.setWidth 3) s) s
  allChans.foldl (fun u n => ran (if bitOf v (8 + n.val) then execPowerGate n u else execUngate n u) u) t

/-- Boot, port-error, clock, supply and thermal registers. -/
def engWriteA (s : State) (o : Nat) (v : Word) : State :=
  match o with
  | 0x0008 => onBit v 31 execGo s
  | 0x0040 => if bitOf v 0 then { s with hperr := .reset } else s
  | 0x1000 =>
    onBit v 31 execRetry
      { s with clk := { s.clk with refLost := s.clk.refLost && !bitOf v 8, freqBad := s.clk.freqBad && !bitOf v 5 } }
  | 0x1004 => ran (execClkObsWrite v s) s
  | 0x2000 => pwrCtrl s v
  | 0x3000 => { s with thm := { s.thm with avg := v.setWidth 3 } }
  | 0x3004 =>
    { s with thm := { s.thm with crit := v.extractLsb' 16 8, lo := v.extractLsb' 8 8, hi := v.extractLsb' 0 8 } }
  | 0x3008 => { s with thm := { s.thm with critFlag := s.thm.critFlag && !bitOf v 31 } }
  | _ => s

/-- The registers of a time domain; DISC is set before a step is requested (R601). -/
def tdWrite (s : State) (d : Fin 2) (o : Nat) (v : Word) : State :=
  let x := s.td.get d
  let put (y : Td) : State := { s with td := s.td.set d y }
  match o with
  | 0x10 => ran (execTdIncFracWrite d v s) s
  | 0x14 => ran (execTdIncIntWrite d v s) s
  | 0x18 => put { x with adj := v }
  | 0x1C => put { x with setNs := v }
  | 0x20 => put { x with setSec := low48 x.setSec v }
  | 0x24 => put { x with setSec := high48 x.setSec v }
  | 0x38 => onBit v 30 (execTdAdj d (bitOf v 29)) (onBit v 31 (execTdSet d (bitOf v 29)) (put { x with disc := bitOf v 0 }))
  | _ => s

/-- Common time registers and the calendar. -/
def engWriteB (s : State) (o : Nat) (v : Word) : State :=
  match o with
  | 0x4080 =>
    let t := s.tdc
    { s with tdc := { t with
      refused := t.refused && !bitOf v 29, cap1 := t.cap1 && !bitOf v 9, cap0 := t.cap0 && !bitOf v 8 } }
  | 0x4084 =>
    let w : Byte := v.setWidth 8
    onBit v 31 execForce { s with tdc := { s.tdc with ppsw := w, ppsOut := s.tdc.ppsOut && w != 0 } }
  | 0x40C0 => { s with cal := { s.cal with offset := v } }
  | 0x40D0 => { s with cal := { s.cal with setDate := v } }
  | 0x40D4 => { s with cal := { s.cal with setTime := v &&& 0x00FFFFFF } }
  | 0x40D8 => onBit v 31 (execCalSet (bitOf v 30)) s
  | 0x40DC => { s with cal := { s.cal with reject := s.cal.reject && !bitOf v 31 } }
  | _ => s

/-- SRV_CTRL: more than one command is none (R226). -/
def srvCtrl (s : State) (v : Word) : State :=
  match bitOf v 31, bitOf v 30, bitOf v 29 with
  | true, false, false => ran (execBegin (bitOf v 24) s) s
  | false, true, false => ran (execCommit (bitOf v 20) s) s
  | false, false, true => ran (execRollback s) s
  | _, _, _ => s

/-- A value LOG_SIZE takes (R248). -/
def logSizeOk (v : Nat) : Bool := v == 0 || (List.range 7).any fun i => v == 262144 * 2 ^ i

/-- LOG_CTRL: INTERVAL, then the commands from bit 31 down (log 27). -/
def logCtrl (s : State) (v : Word) : State :=
  onBit v 27 execLogHalt (onBit v 28 execTrim (onBit v 29 execCheckpoint (onBit v 30 execRestart (onBit v 31 execCompact
    { s with log := { s.log with interval := v.setWidth 16 } }))))

/-- FLT_ENG: VALID, SUPPLY (R695, R699). -/
def fltEngWrite (s : State) (v : Word) : State :=
  onBit v 6 execSupplyClear
    (if bitOf v 0 then { s with flt := { s.flt with valid := false, more := 0, cause := 0, info := 0 } } else s)

/-- Survey, logbook and fault registers; the window registers only while RUN is 0 (R249). -/
def engWriteC (s : State) (o : Nat) (v : Word) : State :=
  let r := s.srv
  let l := s.log
  match o with
  | 0x5000 => srvCtrl s v
  | 0x5004 => { s with srv := { r with done := r.done && !bitOf v 21 } }
  | 0x5008 => { s with srv := { r with retry := v.setWidth 4 } }
  | 0x5010 => { s with srv := { r with applyNs := v } }
  | 0x5014 => { s with srv := { r with applySec := low48 r.applySec v } }
  | 0x5018 => { s with srv := { r with applySec := high48 r.applySec v } }
  | 0x5028 => { s with srv := { r with addr := v.extractLsb' 2 20 } }
  | 0x502C => ran (execSrvDataWrite v s) s
  | 0x6000 => if l.run then s else { s with log := { l with base := low48 l.base (v &&& 0xFFFFF000) } }
  | 0x6004 => if l.run then s else { s with log := { l with base := high48 l.base v } }
  | 0x6008 => if l.run || !logSizeOk v.toNat then s else { s with log := { l with size := v } }
  | 0x600C => logCtrl s v
  | 0x7000 => fltEngWrite s v
  | 0x7014 => { s with flt := { s.flt with irqEn := v.setWidth 9 } }
  | _ => s

def engWrite (s : State) (o : Nat) (v : Word) : State :=
  if o < 0x4000 then engWriteA s o v
  else if o < 0x4040 then tdWrite s 0 (o - 0x4000) v
  else if o < 0x4080 then tdWrite s 1 (o - 0x4040) v
  else if o < 0x5000 then engWriteB s o v
  else engWriteC s o v

/-! ### Channel registers -/

/-- CH_PORTERR: MORE resets when the last bit is cleared (R103). -/
def PortErr.clear (p : PortErr) (v : Word) : PortErr :=
  let b := w1c p.bits v
  { p with bits := b, more := if b = 0 then 0 else p.more }

/-- The control block of a channel: RUN by the state before a RELEASE of the same write (R103–R106, R174, R625, R700).
-/
def ctlWrite (s : State) (n : ChanId) (o : Nat) (v : Word) : State :=
  match o with
  | 0x00 => onBit v 31 (execRelease n) (ran (if bitOf v 0 then execRunSet n s else execRunClear n s) s)
  | 0x40 => s.updCh n fun c => { c with port := c.port.clear v }
  | 0x48 =>
    s.updCh n fun c => if bitOf v 31 then { c with port := { c.port with valid := false, status := 0, op := 0, addr := 0 } } else c
  | 0x50 => tickWrite s n (chBase n + 0x50) v
  | 0x70 =>
    s.updCh n fun c => { c with ctl := { c.ctl with ovr := c.ctl.ovr && !bitOf v 31, gap := c.ctl.gap && !bitOf v 30 } }
  | 0x84 => s.updCh n fun c => { c with flt := { c.flt with irqEn := v.setWidth 9 } }
  | 0x90 =>
    s.updCh n fun c =>
      if bitOf v 0 then
        { c with flt := { c.flt with
          more := 0, cause := 0, origin := 0, cls := 0, esc := false, valid := false, info := 0, tag := 0 } }
      else c
  | 0x9C => ran (execQuarantineRelease n (v.extractLsb' 4 2) 0 s) s
  | 0xA0 => ran (execQuarantineRelease n 0 v s) s
  | 0xA4 => onBit v 31 (execDriverHalt n) s
  | _ => s

/-- CRN_CTLc: ERR and UNDER, then the doorbell (R582). -/
def crnCtl (s : State) (n : ChanId) (i : Nat) (v : Word) : State :=
  let t := s.updCh n fun c =>
    let x := c.cairn i
    c.setCairn i { x with err := x.err && !bitOf v 31, under := x.under && !bitOf v 30 }
  ran (execDoorbell n (BitVec.ofNat 11 i) (v.setWidth 8) t) t

/-- Cairn, DMA, launch, peer and radio registers (R582, R583, R597, R625, R655, R665). -/
def portWrite (s : State) (n : ChanId) (o : Nat) (v : Word) : State :=
  match o with
  | 0x18000 =>
    s.updCh n fun c => if bitOf v 11 then { c with crn := { c.crn with more := 0, kind := 0, cls := 0, valid := false, cairn := 0 } } else c
  | 0x18004 => s
  | 0x20008 =>
    s.updCh n fun c => if bitOf v 0 then
      { c with dma := { c.dma with more := 0, tag := 0, desc := 0, reason := 0, valid := false, errAddr := 0 } } else c
  | 0x20024 => onBit v 0 (execDmaClear n) s
  | 0x30018 => onBit v 0 (execLchClear n) s
  | 0x40000 => ran (execPeerNodeWrite n none v s) s
  | 0x40008 => tickWrite s n (chBase n + o) v
  | 0x40014 =>
    s.updCh n fun c => if bitOf v 23 then
      { c with peer := { c.peer with
        errMore := 0, errValid := false, errStatus := 0, errSide := false, errEntry := 0, errWin := 0 } } else c
  | 0x40018 =>
    s.updCh n fun c => if bitOf v 31 then
      { c with peer := { c.peer with
        staleValid := false, staleEntry := 0, staleWin := 0, staleTag := 0, staleLast := 0, staleFirst := 0 } } else c
  | 0x50004 => s.updCh n fun c => { c with rp := { c.rp with ix := c.rp.ix && !bitOf v 0 } }
  | 0x50014 => onBit v 0 (execRpClear n) s
  | _ =>
    if o < 0x18000 then (if o % 8 = 4 then crnCtl s n ((o - 0x10000) / 8) v else s)
    else if 0x40040 ≤ o ∧ o < 0x50000 then
      (if o % 16 = 0 then ran (execPeerNodeWrite n (some (Fin.ofNat 8 ((o - 0x40040) / 16))) v s) s else s)
    else if 0x50040 ≤ o then (if o < 0x50080 ∧ o % 16 = 12 then s else tickWrite s n (chBase n + o) v)
    else s

def chWrite (s : State) (n : ChanId) (o : Nat) (v : Word) : State :=
  if o < 0x10000 then ctlWrite s n o v else portWrite s n o v

/-! ### Core and array registers -/

/-- A core's registers (R415, R479, R508, R539, R701). -/
def coreWrite (s : State) (c : CoreId) (o : Nat) (v : Word) : State :=
  match o with
  | 0x0 =>
    s.updCore c fun x => if bitOf v 0 then
      { x with flt := { x.flt with more := 0, cause := 0, cls := 0, esc := false, arr := false, valid := false, info := 0 } } else x
  | 0x1018 => onBit v 31 (execCont c) (tickWrite s (coreChan c) (coreBase c + o) v)
  | 0x101C =>
    s.updCore c fun x => { x with cc := { x.cc with
      brkMode := v.extractLsb' 30 2, brkAct := bitOf v 29, brkMask := v.extractLsb' 16 8, brkTag := v.extractLsb' 8 8 } }
  | 0x1020 => s.updCore c fun x => { x with cc := { x.cc with brkCount := v } }
  | 0x1024 => onBit v 0 (execIcacheClear c) s
  | 0x3000 => s.updCore c fun x => { x with siph := { x.siph with aborted := x.siph.aborted && !bitOf v 30 } }
  | 0x300C => onBit v 0 (execSiphClear c) s
  | 0x4004 => s.updCore c fun x => { x with lane := { x.lane with flags := w1c x.lane.flags v } }
  | 0x4010 => s.updCore c fun x => { x with lane := { x.lane with clash := x.lane.clash && !bitOf v 31 } }
  | 0x4014 => onBit v 0 (execLaneClear c) s
  | 0x5000 =>
    s.updCore c fun x => if bitOf v 0 then { x with pool := { x.pool with valid := false, client := 0, word := 0 } } else x
  | 0x5014 => onBit v 0 (execPoolClear c) s
  | _ =>
    if 0x1080 ≤ o ∧ o < 0x1100 then tickWrite s (coreChan c) (coreBase c + o) v
    else if 0x1180 ≤ o ∧ o < 0x1200 then ran (execStagedParameterWrite c (BitVec.ofNat 5 ((o - 0x1180) / 4)) v s) s
    else s

/-- An array's registers; one not in use ignores writes (R327, R368, R398, R455, R701). -/
def arrWrite (s : State) (a : ArrId) (o : Nat) (v : Word) : State :=
  let upd (f : Arr → Arr) : State := s.updArr a f
  if !(s.arr a).cfg.used then s
  else
    match o with
    | 0x18 => onBit v 0 (execArrCntClear a) (upd fun x => { x with reg := { x.reg with hold := bitOf v 1 } })
    | 0x40 => upd fun x => { x with acc := { x.acc with clash := x.acc.clash && !bitOf v 30 } }
    | 0x4C =>
      upd fun x => if bitOf v 0 then { x with acc := { x.acc with eccValid := false, eccCopy := false, eccWord := 0 } } else x
    | 0x54 => upd fun x => { x with drip := { x.drip with flags := w1c x.drip.flags v } }
    | 0x90 => onBit v 0 (execStepClear a) s
    | 0xC0 => upd fun x => { x with gate := { x.gate with flags := w1c x.gate.flags v } }
    | 0xD4 => onBit v 0 (execGateClear a) s
    | 0xE0 => upd fun x => if bitOf v 0 then { x with flt := .reset } else x
    | _ => s

/-- A histogram block's registers (R297). -/
def histWrite (s : State) (a : ArrId) (o : Nat) (v : Word) : State :=
  if (s.arr a).cfg.used && (o == 0 || o == 0xC) then tickWrite s (arrChan a) (histBase a + o) v else s

/-! ### Accesses -/

/-- A host access to the narrow window takes its place at the narrow port (R61, R491). -/
def hostPend (s : State) (i : Instr) : State := { s with eng := { s.eng with hostQ := [i], hostSt := 0 } }

/-- What a write to a defined register or to the window does (R10–R14, R64). -/
def hostEffect (s : State) (addr : BitVec 24) (v : Word) : State :=
  match locate addr.toNat with
  | .none => s
  | .eng o => engWrite s o v
  | .hist a o => histWrite s a o v
  | .ch n o => chWrite s n o v
  | .core c o => coreWrite s c o v
  | .arr a o => arrWrite s a o v
  | .pool _ _ => hostPend s (.hostPoolWrite addr v)

/-- REGISTER_WRITE: a host write of a word at any address (R11, R60–R65). -/
def execRegisterWrite (addr : BitVec 24) (data : Word) (s : State) : Out :=
  .next (hostWr s (.registerWrite addr data) addr.toNat fun t => hostEffect t addr data)

/-- HOST_POOL_WRITE: the same access; at the narrow window it waits for its slot (R62, R485). -/
def execHostPoolWrite (addr : BitVec 24) (data : Word) (_ : Unit) (s : State) : Out :=
  .next (hostWr s (.hostPoolWrite addr data) addr.toNat fun t => hostEffect t addr data)

/-- HOST_POOL_READ: a host read of a word (R59–R63); at the narrow window it waits for its slot. At a register it
returns the register, with the latches of TDd_NS, CAL_DATE and SRV_DATA. -/
def execHostPoolRead (addr : BitVec 24) (_ : Unit) (s : State) : Out :=
  .next (
    let a := addr.toNat
    if a = 0x4000 then ran (execTdNsRead 0 s) s
    else if a = 0x4040 then ran (execTdNsRead 1 s) s
    else if a = 0x40C4 then ran (execCalDateRead s) s
    else if a = 0x502C then ran (execSrvDataRead s) s
    else
      match locate a with
      | .pool c o =>
        if !s.eng.hpReady then hostLater s (.hostPoolRead addr)
        else
          match hostCode s (.pool c o) with
          | some code => hostAnswer (hostErr s a false code) code 0
          | none => hostPend s (.hostPoolRead addr)
      | l => hostRd s (.hostPoolRead addr) a fun t => (t, regRead t l))

end Sys2Proof.Machine
end

