-- ==== Sys2Proof/Machine/Wheel.lean ====
section
/-! DEFINITION. The two rows of the wheel (chapter 14), after which the host accesses that waited behind an access of
the pool window take their turn (R58–R60). -/

namespace Sys2Proof.Machine

/-- The row of a host access. -/
def hostRow (i : Instr) (s : State) : State :=
  ran (match i with
    | .registerWrite a v => execRegisterWrite a v s
    | .hostPoolRead a u => execHostPoolRead a u s
    | .hostPoolWrite a v u => execHostPoolWrite a v u s
    | .retry => execRetry s
    | .go => execGo s
    | .doorbell n b k => execDoorbell n b k s
    | .clkObsWrite v => execClkObsWrite v s
    | .cont c => execCont c s
    | .stagedParameterWrite c i v => execStagedParameterWrite c i v s
    | .dmaClear n => execDmaClear n s
    | .driverHalt n => execDriverHalt n s
    | .quarantineRelease n c w => execQuarantineRelease n c w s
    | .stepClear a => execStepClear a s
    | .gateClear a => execGateClear a s
    | .icacheClear c => execIcacheClear c s
    | .laneClear c => execLaneClear c s
    | .lchClear n => execLchClear n s
    | .arrCntClear a => execArrCntClear a s
    | .peerNodeWrite n e v => execPeerNodeWrite n e v s
    | .poolClear c => execPoolClear c s
    | .rpClear n => execRpClear n s
    | .siphClear c => execSiphClear c s
    | .maxOpWrite v => execMaxOpWrite v s
    | .powerGate n => execPowerGate n s
    | .ungate n => execUngate n s
    | .supplyClear => execSupplyClear s
    | .begin e => execBegin e s
    | .commit w => execCommit w s
    | .rollback => execRollback s
    | .srvDataWrite v => execSrvDataWrite v s
    | .srvDataRead => execSrvDataRead s
    | .compact => execCompact s
    | .restart => execRestart s
    | .checkpoint => execCheckpoint s
    | .trim => execTrim s
    | .logHalt => execLogHalt s
    | .runSet n => execRunSet n s
    | .runClear n => execRunClear n s
    | .release n => execRelease n s
    | .tdSet d f => execTdSet d f s
    | .tdAdj d f => execTdAdj d f s
    | .tdIncFracWrite d v => execTdIncFracWrite d v s
    | .tdIncIntWrite d v => execTdIncIntWrite d v s
    | .tdNsRead d => execTdNsRead d s
    | .force => execForce s
    | .calSet f => execCalSet f s
    | .calDateRead => execCalDateRead s
    | _ => .next s) s

/-- Accesses that waited, in order, up to the next one that has to wait itself. -/
def hostDrain : List Instr → State → State
  | [], s => s
  | i :: t, s =>
    if s.eng.hpReady then hostDrain t (hostRow i s)
    else { s with eng := { s.eng with hostQ := s.eng.hostQ ++ i :: t } }

/-- The pool access in progress answers with a code of R62: its channel has gone into reset, or the wheel in effect no
longer gives NARROW a slot on its bank (log 59). -/
def hostBroken (s : State) : Option (BitVec 24 × Bool × BitVec 2) :=
  let look (a : BitVec 24) (w : Bool) : Option (BitVec 24 × Bool × BitVec 2) :=
    match locate a.toNat with
    | .pool c o =>
      if s.eng.hostSt = 0 then (hostCode s (.pool c o)).map fun k => (a, w, k)
      else if s.eng.hostSt = 1 ∧ (s.core c).pool.rdq.all (fun r => r.dest != .host o) then some (a, w, hpOffline)
      else none
    | _ => none
  match s.eng.hostQ with
  | .hostPoolRead a _ :: _ => look a false
  | .hostPoolWrite a _ _ :: _ => look a true
  | .registerWrite a _ :: _ => look a true
  | _ => none

/-- Once the access at the narrow port has ended, those behind it take their turn. -/
def hostPump (s : State) : State :=
  let s1 := match hostBroken s with
    | some (a, w, k) =>
      let t := hostErr { s with eng := { s.eng with hostSt := 2 } } a.toNat w k
      if w then t else hostAnswer t k 0
    | none => s
  if s1.eng.hostSt = 2 then
    hostDrain s1.eng.hostQ.tail { s1 with eng := { s1.eng with hostQ := [], hostSt := 0 } }
  else s1

/-- POOL_ACCESS_GRANT: the grants of one cc of a channel (R487); `finds` is what the banks' checks find (R504). -/
def execPoolAccessGrant (n : ChanId) (finds : List BankFind) (s : State) : Out := .next (hostPump (chanCc s n finds))

/-- POOL_READ_DATA: the line that arrives next reaches its client. -/
def execPoolReadData (c : CoreId) (_ : Unit) (s : State) : Out := .next (hostPump (readData s c))

/-- One cc of each channel out of reset, in channel order, and one cycle of every clock that CKOBS can show but the
time clock, whose cycles are TC_INCREMENT's: what a step does on an empty queue (log 3). -/
def ccAdvance (s : State) : State :=
  obsCycle (fun k => k != 3) (hostPump (allChans.foldl (fun t n => chanCc t n []) s))

end Sys2Proof.Machine
end

