-- ==== Sys2Proof/Machine/Dispatch.lean ====
section
/-! DEFINITION. One arm per command. -/

namespace Sys2Proof.Machine

/-- The command's effect on everything but the queue. -/
def exec (i : Instr) (s : State) : Host.Outcome State Fault Refusal :=
  match i with
  -- host port
  | .registerWrite addr data => Sys2Proof.Machine.execRegisterWrite addr data s
  | .hostPoolRead addr check => Sys2Proof.Machine.execHostPoolRead addr check s
  | .hostPoolWrite addr data check => Sys2Proof.Machine.execHostPoolWrite addr data check s
  -- initiator side
  | .initiatorReadCompletion ok data => Sys2Proof.Machine.execInitiatorReadCompletion ok data s
  | .initiatorWriteCompletion ok => Sys2Proof.Machine.execInitiatorWriteCompletion ok s
  | .initiatorTimeout write => Sys2Proof.Machine.execInitiatorTimeout write s
  -- memory ports
  | .mpResponse n tag status data => Sys2Proof.Machine.execMpResponse n tag status data s
  | .mpTimeout n tag => Sys2Proof.Machine.execMpTimeout n tag s
  | .snoop n granule => Sys2Proof.Machine.execSnoop n granule s
  | .memoryPortSlot n ready tag => Sys2Proof.Machine.execMemoryPortSlot n ready tag s
  -- radio frames in, rings
  | .grid n rxtime frame => Sys2Proof.Machine.execGrid n rxtime frame s
  | .sample n rxtime frame => Sys2Proof.Machine.execSample n rxtime frame s
  | .ringEntryWritten n r => Sys2Proof.Machine.execRingEntryWritten n r s
  | .radioOutboundCredit n => Sys2Proof.Machine.execRadioOutboundCredit n s
  -- peer port signals
  | .peerOutboundCredit n => Sys2Proof.Machine.execPeerOutboundCredit n s
  | .peerLinkUp n => Sys2Proof.Machine.execPeerLinkUp n s
  | .peerLinkDown n => Sys2Proof.Machine.execPeerLinkDown n s
  -- pulses, supply, power gates
  | .ppsCapture k => Sys2Proof.Machine.execPpsCapture k s
  | .ppsOutWidthEnd => Sys2Proof.Machine.execPpsOutWidthEnd s
  | .vackRise => Sys2Proof.Machine.execVackRise s
  | .vackFall => Sys2Proof.Machine.execVackFall s
  | .vackTimeout => Sys2Proof.Machine.execVackTimeout s
  | .pgackRise n => Sys2Proof.Machine.execPgackRise n s
  | .pgackFall n => Sys2Proof.Machine.execPgackFall n s
  | .pgackTimeout n => Sys2Proof.Machine.execPgackTimeout n s
  -- resets and test access port
  | .porstNFall => Sys2Proof.Machine.execPorstNFall s
  | .porstNRise refsel xsel mbistEn => Sys2Proof.Machine.execPorstNRise refsel xsel mbistEn s
  | .engrstNFall => Sys2Proof.Machine.execEngrstNFall s
  | .engrstNRise => Sys2Proof.Machine.execEngrstNRise s
  | .chrstNFall n => Sys2Proof.Machine.execChrstNFall n s
  | .chrstNRise n => Sys2Proof.Machine.execChrstNRise n s
  | .tapReset => Sys2Proof.Machine.execTapReset s
  | .idcode => Sys2Proof.Machine.execIdcode s
  | .bypass code => Sys2Proof.Machine.execBypass code s
  -- bring-up
  | .bootstrapStart => Sys2Proof.Machine.execBootstrapStart s
  | .fuseRead => Sys2Proof.Machine.execFuseRead s
  | .fuseReadEnd word => Sys2Proof.Machine.execFuseReadEnd word s
  | .missingEdge => Sys2Proof.Machine.execMissingEdge s
  | .stabilityCountEnd cycles => Sys2Proof.Machine.execStabilityCountEnd cycles s
  | .refFail => Sys2Proof.Machine.execRefFail s
  | .retry => Sys2Proof.Machine.execRetry s
  | .pllLock p => Sys2Proof.Machine.execPllLock p s
  | .pllLockTimeout p => Sys2Proof.Machine.execPllLockTimeout p s
  | .pllLossOfLock p => Sys2Proof.Machine.execPllLossOfLock p s
  | .memoryTestEnd chFail engFail => Sys2Proof.Machine.execMemoryTestEnd chFail engFail s
  | .clearPassEnd => Sys2Proof.Machine.execClearPassEnd s
  | .go => Sys2Proof.Machine.execGo s
  -- clocks, thermal, power
  | .clkObsWrite data => Sys2Proof.Machine.execClkObsWrite data s
  | .thermalSample k raw => Sys2Proof.Machine.execThermalSample k raw s
  | .averagingPeriodEnd => Sys2Proof.Machine.execAveragingPeriodEnd s
  | .rampEnd n => Sys2Proof.Machine.execRampEnd n s
  | .maxOpWrite v => Sys2Proof.Machine.execMaxOpWrite v s
  | .powerGate n => Sys2Proof.Machine.execPowerGate n s
  | .ungate n => Sys2Proof.Machine.execUngate n s
  -- channel start and ticks
  | .runSet n => Sys2Proof.Machine.execRunSet n s
  | .runClear n => Sys2Proof.Machine.execRunClear n s
  | .release n => Sys2Proof.Machine.execRelease n s
  | .firstTick tick => Sys2Proof.Machine.execFirstTick tick s
  | .slotTick n sees => Sys2Proof.Machine.execSlotTick n sees s
  | .tickGap n => Sys2Proof.Machine.execTickGap n s
  | .histogramPoolWrite a => Sys2Proof.Machine.execHistogramPoolWrite a s
  -- survey transactions
  | .begin empty => Sys2Proof.Machine.execBegin empty s
  | .commit now => Sys2Proof.Machine.execCommit now s
  | .rollback => Sys2Proof.Machine.execRollback s
  | .srvDataWrite data => Sys2Proof.Machine.execSrvDataWrite data s
  | .srvDataRead => Sys2Proof.Machine.execSrvDataRead s
  | .txnWrite type scope offset bytes => Sys2Proof.Machine.execTxnWrite type scope offset bytes s
  | .validationEnd => Sys2Proof.Machine.execValidationEnd s
  | .surveyBarrierSample => Sys2Proof.Machine.execSurveyBarrierSample s
  | .commonInstant => Sys2Proof.Machine.execCommonInstant s
  | .applyTimeReached => Sys2Proof.Machine.execApplyTimeReached s
  -- logbook
  | .logRecordWrite => Sys2Proof.Machine.execLogRecordWrite s
  | .compactionInterval => Sys2Proof.Machine.execCompactionInterval s
  | .compact => Sys2Proof.Machine.execCompact s
  | .restart => Sys2Proof.Machine.execRestart s
  | .checkpoint => Sys2Proof.Machine.execCheckpoint s
  | .trim => Sys2Proof.Machine.execTrim s
  | .logHalt => Sys2Proof.Machine.execLogHalt s
  -- time
  | .tdSet d force => Sys2Proof.Machine.execTdSet d force s
  | .tdAdj d force => Sys2Proof.Machine.execTdAdj d force s
  | .tdIncFracWrite d v => Sys2Proof.Machine.execTdIncFracWrite d v s
  | .tdIncIntWrite d v => Sys2Proof.Machine.execTdIncIntWrite d v s
  | .tdNsRead d => Sys2Proof.Machine.execTdNsRead d s
  | .tcIncrement => Sys2Proof.Machine.execTcIncrement s
  | .force => Sys2Proof.Machine.execForce s
  | .switchRecheck => Sys2Proof.Machine.execSwitchRecheck s
  | .calSet force => Sys2Proof.Machine.execCalSet force s
  | .calDateRead => Sys2Proof.Machine.execCalDateRead s
  | .frameLaunch n peer slipped => Sys2Proof.Machine.execFrameLaunch n peer slipped s
  -- peers
  | .peerHelloTimer n => Sys2Proof.Machine.execPeerHelloTimer n s
  | .partnerLost n i_ => Sys2Proof.Machine.execPartnerLost n i_ s
  | .hello n h engId fprint pstate epoch => Sys2Proof.Machine.execHello n h engId fprint pstate epoch s
  | .fprint n h fprint => Sys2Proof.Machine.execFprint n h fprint s
  | .timeRequest n h t1 res => Sys2Proof.Machine.execTimeRequest n h t1 res s
  | .timeReply n h res t1 t2 t4 => Sys2Proof.Machine.execTimeReply n h res t1 t2 t4 s
  | .writeWin n h b => Sys2Proof.Machine.execWriteWin n h b s
  | .accInto n h b => Sys2Proof.Machine.execAccInto n h b s
  | .ack n h win status epoch seq => Sys2Proof.Machine.execAck n h win status epoch seq s
  | .voidSlot n h tag => Sys2Proof.Machine.execVoidSlot n h tag s
  | .close n h reason => Sys2Proof.Machine.execClose n h reason s
  | .peerPacketSend n dma => Sys2Proof.Machine.execPeerPacketSend n dma s
  | .peerNodeWrite n entry v => Sys2Proof.Machine.execPeerNodeWrite n entry v s
  | .peerPortHalt n => Sys2Proof.Machine.execPeerPortHalt n s
  -- cairns, descriptors, pool
  | .doorbell n cairn amount => Sys2Proof.Machine.execDoorbell n cairn amount s
  | .pendingSumApply n cairn => Sys2Proof.Machine.execPendingSumApply n cairn s
  | .cairnWaitEvaluation n cairn => Sys2Proof.Machine.execCairnWaitEvaluation n cairn s
  | .descriptorCompletion n => Sys2Proof.Machine.execDescriptorCompletion n s
  | .poolAccessGrant n finds => Sys2Proof.Machine.execPoolAccessGrant n finds s
  | .poolReadData c check => Sys2Proof.Machine.execPoolReadData c check s
  -- control core
  | .add f rd rs1 rs2 => Sys2Proof.Machine.execAdd f rd rs1 rs2 s
  | .sub f rd rs1 rs2 => Sys2Proof.Machine.execSub f rd rs1 rs2 s
  | .and f rd rs1 rs2 => Sys2Proof.Machine.execAnd f rd rs1 rs2 s
  | .or f rd rs1 rs2 => Sys2Proof.Machine.execOr f rd rs1 rs2 s
  | .xor f rd rs1 rs2 => Sys2Proof.Machine.execXor f rd rs1 rs2 s
  | .sll f rd rs1 rs2 => Sys2Proof.Machine.execSll f rd rs1 rs2 s
  | .srl f rd rs1 rs2 => Sys2Proof.Machine.execSrl f rd rs1 rs2 s
  | .sra f rd rs1 rs2 => Sys2Proof.Machine.execSra f rd rs1 rs2 s
  | .mul f rd rs1 rs2 => Sys2Proof.Machine.execMul f rd rs1 rs2 s
  | .min f rd rs1 rs2 => Sys2Proof.Machine.execMin f rd rs1 rs2 s
  | .max f rd rs1 rs2 => Sys2Proof.Machine.execMax f rd rs1 rs2 s
  | .minu f rd rs1 rs2 => Sys2Proof.Machine.execMinu f rd rs1 rs2 s
  | .maxu f rd rs1 rs2 => Sys2Proof.Machine.execMaxu f rd rs1 rs2 s
  | .slt f rd rs1 rs2 => Sys2Proof.Machine.execSlt f rd rs1 rs2 s
  | .sltu f rd rs1 rs2 => Sys2Proof.Machine.execSltu f rd rs1 rs2 s
  | .addi f rd rs1 imm => Sys2Proof.Machine.execAddi f rd rs1 imm s
  | .andi f rd rs1 imm => Sys2Proof.Machine.execAndi f rd rs1 imm s
  | .ori f rd rs1 imm => Sys2Proof.Machine.execOri f rd rs1 imm s
  | .xori f rd rs1 imm => Sys2Proof.Machine.execXori f rd rs1 imm s
  | .slli f rd rs1 imm => Sys2Proof.Machine.execSlli f rd rs1 imm s
  | .srli f rd rs1 imm => Sys2Proof.Machine.execSrli f rd rs1 imm s
  | .srai f rd rs1 imm => Sys2Proof.Machine.execSrai f rd rs1 imm s
  | .slti f rd rs1 imm => Sys2Proof.Machine.execSlti f rd rs1 imm s
  | .lui f rd imm20 => Sys2Proof.Machine.execLui f rd imm20 s
  | .lw f rd rs1 imm check => Sys2Proof.Machine.execLw f rd rs1 imm check s
  | .sw f rd rs1 imm check => Sys2Proof.Machine.execSw f rd rs1 imm check s
  | .vaddH f rd rs1 rs2 => Sys2Proof.Machine.execVaddH f rd rs1 rs2 s
  | .vsubH f rd rs1 rs2 => Sys2Proof.Machine.execVsubH f rd rs1 rs2 s
  | .vminH f rd rs1 rs2 => Sys2Proof.Machine.execVminH f rd rs1 rs2 s
  | .vmaxH f rd rs1 rs2 => Sys2Proof.Machine.execVmaxH f rd rs1 rs2 s
  | .mova f ad rs1 => Sys2Proof.Machine.execMova f ad rs1 s
  | .setinc f ad rs1 => Sys2Proof.Machine.execSetinc f ad rs1 s
  | .rda f rd as => Sys2Proof.Machine.execRda f rd as s
  | .rdp f rd ps => Sys2Proof.Machine.execRdp f rd ps s
  | .pnext f pd rs1 => Sys2Proof.Machine.execPnext f pd rs1 s
  | .rdq f rd qs => Sys2Proof.Machine.execRdq f rd qs s
  | .qset f qd rs1 => Sys2Proof.Machine.execQset f qd rs1 s
  | .rep f rs1 imm => Sys2Proof.Machine.execRep f rs1 imm s
  | .nop f => Sys2Proof.Machine.execNop f s
  | .illegal f word => Sys2Proof.Machine.execIllegal f word s
  | .push f queue n guard subst words => Sys2Proof.Machine.execPush f queue n guard subst words s
  | .endList f => Sys2Proof.Machine.execEndList f s
  | .select f immf qi index => Sys2Proof.Machine.execSelect f immf qi index s
  | .replayStart c => Sys2Proof.Machine.execReplayStart c s
  | .cont c => Sys2Proof.Machine.execCont c s
  | .stagedParameterWrite c i_ v => Sys2Proof.Machine.execStagedParameterWrite c i_ v s
  -- station commands
  | .wait n q => Sys2Proof.Machine.execWait n q s
  | .signal n q => Sys2Proof.Machine.execSignal n q s
  | .signalApplied n q => Sys2Proof.Machine.execSignalApplied n q s
  | .barrier n q => Sys2Proof.Machine.execBarrier n q s
  | .tload a check => Sys2Proof.Machine.execTload a check s
  | .pload a check => Sys2Proof.Machine.execPload a check s
  | .wload a check => Sys2Proof.Machine.execWload a check s
  | .wloadSwap a parity => Sys2Proof.Machine.execWloadSwap a parity s
  | .mpass a => Sys2Proof.Machine.execMpass a s
  | .step a => Sys2Proof.Machine.execStep a s
  | .dload a check => Sys2Proof.Machine.execDload a check s
  | .dpload a check => Sys2Proof.Machine.execDpload a check s
  | .drain a => Sys2Proof.Machine.execDrain a s
  | .chain a => Sys2Proof.Machine.execChain a s
  | .lrun c => Sys2Proof.Machine.execLrun c s
  | .lload c check => Sys2Proof.Machine.execLload c check s
  | .siphon c see => Sys2Proof.Machine.execSiphon c see s
  | .xfer n => Sys2Proof.Machine.execXfer n s
  | .frame n check => Sys2Proof.Machine.execFrame n check s
  | .psend n check => Sys2Proof.Machine.execPsend n check s
  | .commandCompletion n q => Sys2Proof.Machine.execCommandCompletion n q s
  | .cmdTimeout n q => Sys2Proof.Machine.execCmdTimeout n q s
  -- array datapath
  | .vectorEntry a part obs see => Sys2Proof.Machine.execVectorEntry a part obs see s
  | .dripReceive a see check => Sys2Proof.Machine.execDripReceive a see check s
  | .accumulateInto a see => Sys2Proof.Machine.execAccumulateInto a see s
  | .gateIssue a see check written => Sys2Proof.Machine.execGateIssue a see check written s
  | .loopSliceReady a => Sys2Proof.Machine.execLoopSliceReady a s
  | .endStateClear a see => Sys2Proof.Machine.execEndStateClear a see s
  | .siphonSweep c see => Sys2Proof.Machine.execSiphonSweep c see s
  | .laneRound c same check => Sys2Proof.Machine.execLaneRound c same check s
  | .summaryWrite c => Sys2Proof.Machine.execSummaryWrite c s
  -- faults and recovery
  | .channelRollback n sees => Sys2Proof.Machine.execChannelRollback n sees s
  | .halt n sees => Sys2Proof.Machine.execHalt n sees s
  | .chLost n => Sys2Proof.Machine.execChLost n s
  | .lockstepChecking c obs => Sys2Proof.Machine.execLockstepChecking c obs s
  | .cmpSelftest c missed => Sys2Proof.Machine.execCmpSelftest c missed s
  | .deadlock n => Sys2Proof.Machine.execDeadlock n s
  | .driverHalt n => Sys2Proof.Machine.execDriverHalt n s
  | .quarantineRelease n cores wins => Sys2Proof.Machine.execQuarantineRelease n cores wins s
  | .supplyClear => Sys2Proof.Machine.execSupplyClear s
  -- counter clears
  | .arrCntClear a => Sys2Proof.Machine.execArrCntClear a s
  | .stepClear a => Sys2Proof.Machine.execStepClear a s
  | .siphClear c => Sys2Proof.Machine.execSiphClear c s
  | .gateClear a => Sys2Proof.Machine.execGateClear a s
  | .laneClear c => Sys2Proof.Machine.execLaneClear c s
  | .poolClear c => Sys2Proof.Machine.execPoolClear c s
  | .dmaClear n => Sys2Proof.Machine.execDmaClear n s
  | .lchClear n => Sys2Proof.Machine.execLchClear n s
  | .rpClear n => Sys2Proof.Machine.execRpClear n s
  | .icacheClear c => Sys2Proof.Machine.execIcacheClear c s
  -- malformed arrivals, end of ungating
  | .malformedRadioFrame n => Sys2Proof.Machine.execMalformedRadioFrame n s
  | .radioInboundOverrun n => Sys2Proof.Machine.execRadioInboundOverrun n s
  | .malformedPeerPacket n => Sys2Proof.Machine.execMalformedPeerPacket n s
  | .peerInboundOverrun n => Sys2Proof.Machine.execPeerInboundOverrun n s
  | .peerRxErr n => Sys2Proof.Machine.execPeerRxErr n s
  | .ungateResetRelease n => Sys2Proof.Machine.execUngateResetRelease n s

end Sys2Proof.Machine
end

