-- ==== Sys2Proof/Safety.lean ====
section
/-! DEFINITION. What claims speak of: safe runs, the legal values of the engine's registers, the canonical form of the
pools. -/

namespace Sys2Proof

open Sys2Proof.Machine

/-- The step from this state goes on. -/
def stepsOn (s : State) : Prop := ∃ t, step s = .next t

/-- `n` steps from this state all go on. -/
def safeFor : Nat → State → Prop
  | 0, _ => True
  | n + 1, s => ∃ t, step s = .next t ∧ safeFor n t

/-! ### The engine's registers -/

/-- The number of arrays an ENG_GRADE.ARRAYS mask enables. -/
def enabledCount (m : BitVec 16) : Nat := ((List.range 16).filter fun a => bitOf m a).length

/-- GRADE agrees with the number of set bits of ARRAYS (R53, R166), or nothing has been read from the fuses yet. -/
def gradeAgrees (e : Eng) : Prop :=
  (e.arrays = 0 ∧ (e.grade = 0 ∨ e.grade = 3)) ∨ (e.grade.toNat < 3 ∧ enabledCount e.arrays = 16 - 2 * e.grade.toNat)

/-- A domain counts nanoseconds below 10⁹, and a SET on its way loads such a value (R598, R601). -/
def Machine.Td.legal (t : Td) : Prop :=
  t.ns.toNat < 1000000000 ∧ ∀ sec ns, t.stepNext = some (.load sec ns) → ns.toNat < 1000000000

/-- What the engine's registers keep to in every state a step leads to from such a state. -/
structure Machine.State.Legal (s : State) : Prop where
  /-- FATAL_N is low exactly while FLT_ENG.FATAL is 1 (R672, R699). -/
  fatal : s.eng.fatalN = !s.flt.fatal
  /-- A response whose code is not OK carries data 0 (R63). -/
  answer : s.eng.rCode ≠ 0 → s.eng.rData = 0
  /-- ENG_HPERR and ENG_HPERR_ADDR are zero while no capture is held (R66). -/
  hperr : s.hperr.valid = false → s.hperr = HpErr.reset
  /-- FLT_ENG's MORE and CAUSE and FLT_ENG_INFO are zero while no capture is held (R699). -/
  capture : s.flt.valid = false → s.flt.more = 0 ∧ s.flt.cause = 0 ∧ s.flt.info = 0
  grade : gradeAgrees s.eng
  time : s.td.c0.legal ∧ s.td.c1.legal
  /-- VREQ, MAX_OP and the thermal ceiling name one of the five operating points (R139, R147, R156). -/
  op : s.pwr.vreq.toNat ≤ 4 ∧ s.pwr.maxOp.toNat ≤ 4 ∧ s.pwr.thermOp.toNat ≤ 4

/-- A later state that has the same commands waiting and is legal if the earlier one is. -/
structure Keeps (s t : State) : Prop where
  queue : t.pending = s.pending
  legal : s.Legal → t.Legal

/-! ### The pools -/

/-- The canonical form of a pool: offsets strictly rising, no byte listed that is zero (R480). -/
def Machine.Pool.wf (p : Pool) : Prop := smWf 0 0 p.mem = true

def Machine.Chan.poolsWf (c : Chan) : Prop := c.cores.c0.pool.wf ∧ c.cores.c1.pool.wf

/-- Every pool has it. -/
def Machine.State.poolsWf (s : State) : Prop :=
  s.ch.c0.poolsWf ∧ s.ch.c1.poolsWf ∧ s.ch.c2.poolsWf ∧ s.ch.c3.poolsWf

/-- Every pool and every channel's cairns are canonical and every core has its seven queues (R480, R541, R572). -/
def Machine.State.storesWf (s : State) : Prop :=
  s.poolsWf ∧ (∀ c : CoreId, (s.core c).queues.length = 7) ∧
  ∀ n : ChanId, smWf Cairn.zero 0 (s.chan n).crn.cells = true

/-! ### A control core that retires its next instruction -/

/-- The next `k` words of the list run: the replay runs, nothing holds the core, no narrow access is under way, the
words lie within the list and the code window, their lines are held and no word fails its parity check (R515, R522,
R526, R528–R530). -/
def ccReady (s : State) (f : Fetch) (k : Nat) : Prop :=
  let x := s.core f.core
  let ch := s.chan (coreChan f.core)
  ch.working = true ∧ x.cc.list = true ∧ x.cc.halt = false ∧ x.cc.stall = none ∧ x.ccBusy = false ∧ f.bad = none ∧
  x.cc.pos + k ≤ x.cc.len ∧
  ∀ i, i < k → x.cc.offset (x.cc.pos + i) + 4 ≤ ch.codeWin.2 ∧
    x.icache.lines.contains (ch.codeLine (x.cc.offset (x.cc.pos + i))) = true

/-- Their lines have been used, in order (R528). -/
def ccTouched (s : State) (f : Fetch) (k : Nat) : State :=
  s.updCore f.core fun y => { y with icache := (List.range k).foldl (fun ic i =>
    ic.touch ((s.chan (coreChan f.core)).codeLine (y.cc.offset (y.cc.pos + i)))) y.icache }

/-- The state after an instruction of `k` words has retired with the effect `g` on the core's registers: nothing else
changes but the use of its lines, the position in the list, and what the checking core has yet to compare. -/
def ccDone (s : State) (f : Fetch) (k : Nat) (g : Cc → Cc) : State :=
  updCc (ccTouched s f k) f.core fun c => { g c with pos := c.pos + k, qwait := none, cmp := 2 }

/-- The fetch of a control-core instruction. -/
def Instr.fetch : Instr → Option Fetch
  | .add f _ _ _ => some f
  | .sub f _ _ _ => some f
  | .and f _ _ _ => some f
  | .or f _ _ _ => some f
  | .xor f _ _ _ => some f
  | .sll f _ _ _ => some f
  | .srl f _ _ _ => some f
  | .sra f _ _ _ => some f
  | .mul f _ _ _ => some f
  | .min f _ _ _ => some f
  | .max f _ _ _ => some f
  | .minu f _ _ _ => some f
  | .maxu f _ _ _ => some f
  | .slt f _ _ _ => some f
  | .sltu f _ _ _ => some f
  | .addi f _ _ _ => some f
  | .andi f _ _ _ => some f
  | .ori f _ _ _ => some f
  | .xori f _ _ _ => some f
  | .slli f _ _ _ => some f
  | .srli f _ _ _ => some f
  | .srai f _ _ _ => some f
  | .slti f _ _ _ => some f
  | .lui f _ _ => some f
  | .lw f _ _ _ => some f
  | .sw f _ _ _ => some f
  | .vaddH f _ _ _ => some f
  | .vsubH f _ _ _ => some f
  | .vminH f _ _ _ => some f
  | .vmaxH f _ _ _ => some f
  | .mova f _ _ => some f
  | .setinc f _ _ => some f
  | .rda f _ _ => some f
  | .rdp f _ _ => some f
  | .pnext f _ _ => some f
  | .rdq f _ _ => some f
  | .qset f _ _ => some f
  | .rep f _ _ => some f
  | .nop f => some f
  | .illegal f _ => some f
  | .push f _ _ _ _ _ => some f
  | .endList f => some f
  | .select f _ _ _ => some f
  | _ => none

/-- The encoding of an instruction of the control core, a PUSH's words left out (R512, R513). -/
def Instr.ccWord : Instr → Option Word
  | .add _ d a b => some (encR 0x01 d a b)
  | .sub _ d a b => some (encR 0x02 d a b)
  | .and _ d a b => some (encR 0x03 d a b)
  | .or _ d a b => some (encR 0x04 d a b)
  | .xor _ d a b => some (encR 0x05 d a b)
  | .sll _ d a b => some (encR 0x06 d a b)
  | .srl _ d a b => some (encR 0x07 d a b)
  | .sra _ d a b => some (encR 0x08 d a b)
  | .mul _ d a b => some (encR 0x09 d a b)
  | .min _ d a b => some (encR 0x0A d a b)
  | .max _ d a b => some (encR 0x0B d a b)
  | .minu _ d a b => some (encR 0x0C d a b)
  | .maxu _ d a b => some (encR 0x0D d a b)
  | .slt _ d a b => some (encR 0x0E d a b)
  | .sltu _ d a b => some (encR 0x0F d a b)
  | .addi _ d a i => some (encI 0x10 d a i)
  | .andi _ d a i => some (encI 0x11 d a i)
  | .ori _ d a i => some (encI 0x12 d a i)
  | .xori _ d a i => some (encI 0x13 d a i)
  | .slli _ d a i => some (encI 0x14 d a i)
  | .srli _ d a i => some (encI 0x15 d a i)
  | .srai _ d a i => some (encI 0x16 d a i)
  | .slti _ d a i => some (encI 0x17 d a i)
  | .lui _ d i => some (encU 0x18 d i)
  | .lw _ d a i => some (encI 0x19 d a i)
  | .sw _ d a i => some (encI 0x1A d a i)
  | .vaddH _ d a b => some (encR 0x1C d a b)
  | .vsubH _ d a b => some (encR 0x1D d a b)
  | .vminH _ d a b => some (encR 0x1E d a b)
  | .vmaxH _ d a b => some (encR 0x1F d a b)
  | .mova _ d a => some (encR 0x20 (d.setWidth 5) a 0)
  | .setinc _ d a => some (encR 0x21 (d.setWidth 5) a 0)
  | .rda _ d a => some (encR 0x22 d (a.setWidth 5) 0)
  | .rdp _ d a => some (encR 0x23 d a 0)
  | .pnext _ d a => some (encR 0x24 d a 0)
  | .rdq _ d a => some (encR 0x25 d (a.setWidth 5) 0)
  | .qset _ d a => some (encR 0x26 (d.setWidth 5) a 0)
  | .rep _ a i => some (encI 0x28 0 a i)
  | .nop _ => some (encR 0x2F 0 0 0)
  | .push _ q n g b _ => some (encP q n g b)
  | .endList _ => some (encS 0x38 0 false 0)
  | .select _ m q i => some (encS 0x39 q m i)
  | .illegal _ w => some w
  | _ => none

/-- The next word of the list is the encoding of a control-core instruction. -/
def ccHolds (s : State) (i : Instr) : Prop :=
  ∃ f w, i.fetch = some f ∧ i.ccWord = some w ∧ ccWords s f.core 1 = [w]

/-- An x register of the core. -/
def ccX (s : State) (f : Fetch) (i : BitVec 5) : Word := (s.core f.core).cc.xr i

/-- The instruction of one word retires and writes `v` to x(rd). -/
def ccPut (s : State) (f : Fetch) (rd : BitVec 5) (v : Word) : Out := .next (ccDone s f 1 fun c => c.xw rd v)

/-- The word at the position is fetched by a core that runs: whatever the instruction, at most 14 words from there on
lie within the list. -/
def ccAt (s : State) (c : CoreId) : Prop :=
  let x := (s.core c).cc
  (s.chan (coreChan c)).working = true ∧ x.list = true ∧ x.halt = false ∧ x.stall = none ∧ (s.core c).ccBusy = false ∧
    x.pos + 14 ≤ x.len

/-! ### A station command that issues -/

/-- The command `h` of opcode `o` stands at the head of a queue, `rest` behind it; its words have the form of its
layout, and nothing else holds the queue (R402, R541–R544). -/
structure CmdAt (s : State) (n : ChanId) (q : QId) (o : Nat) (h : Cmd) (rest : List Cmd) : Prop where
  working : (s.chan n).working = true
  head : ((s.chan n).queue q).waiting = h :: rest
  own : h.feed = none
  copy : (s.chan n).siphonCopy q h = false
  free : (s.chan n).gateHeld q = false
  pops : (s.chan n).feedStopped q = false
  code : h.opc = o
  form : ∃ l, layoutOf (stationOf q) o (h.w 1) = some l ∧ h.formOk l = true

/-- Its entry among the issued commands of its queue: the ranges and the tile registers it declares are live. -/
def issuedAs (s : State) (n : ChanId) (q : QId) (h : Cmd) (ended failed : Bool) : Issued :=
  { cmd := h, ranges := (s.chan n).ranges q h, tilesR := ((s.chan n).tiles q h).1, tilesW := ((s.chan n).tiles q h).2
    ended := ended, failed := failed }

/-- Between two states the head of one queue has issued as `i`; every other queue is as it was. -/
def headIssued (c d : Chan) (q : QId) (rest : List Cmd) (i : Issued) : Prop :=
  d.queue q = { waiting := rest, issued := (c.queue q).issued ++ [i] } ∧ ∀ r, r ≠ q → d.queue r = c.queue r

/-- The checks of a row find no error. -/
def noErrors : AccSee := { finds := [], par := [] }

/-- A core that has asked for an image: a load of the command, and a read of each of its lines by the client. -/
def askedFor (x : Core) (q : QId) (h : Cmd) (client : BitVec 4) (part off len : Nat) : Core :=
  { x with
    loads := x.loads ++ [{ id := x.loadNext, q := q, cmd := h, part := part, off := off, len := len
                           left := (wantLines off len).length, buf := [] }]
    loadNext := x.loadNext + 1
    pool := { x.pool with acc := x.pool.acc ++ (wantLines off len).map fun l =>
      { client := client, line := l, write := none, dest := .load x.loadNext } } }

/-- The last line of a load arrives, and no word of its image is in double error. -/
def lastLine (x : Core) (r : PoolRd) (rest : List PoolRd) (l : Load) : Prop :=
  x.pool.rdq = r :: rest ∧ r.dest = .load l.id ∧ x.loads.find? (fun y => y.id == l.id) = some l ∧ l.left = 1 ∧
  ∀ w, w ∈ words64 l.off l.len → w ∉ r.bads

/-- What becomes of the issued command of a load: its work has ended, and it fails or not. -/
def issuedEnds (y : Queue) (order : Nat) (failed : Bool) : Queue :=
  { y with issued := y.issued.map fun i =>
    if i.cmd.order = order then { i with failed := i.failed || failed, ended := true } else i }

/-- The image as it then stands whole. -/
def Machine.Load.image (l : Load) (r : PoolRd) : List Byte := smGetList 0 (smSetList 0 l.buf (128 * r.line) r.data) l.off l.len

/-- The core without that line and that load. -/
def loadTaken (x : Core) (rest : List PoolRd) (l : Load) : Core :=
  { x with pool := { x.pool with rdq := rest }, loads := x.loads.filter fun y => y.id != l.id }

/-! ### Cairns -/

/-- One more increment of the cc in progress is among the four that are applied (R575). -/
def Machine.Cairn.takes (x : Cairn) : Prop := x.applied + x.sums.countP (· != 0) < 4

/-! ### The end of a cc -/

/-- Nothing but the grants has an effect at the end of a cc: no push stands and no swap is staged. -/
def quietCc (c : Chan) : Prop := ∀ k j : Fin 2, (c.core k).cc.stall = none ∧ ((c.core k).arr j).reg.staging = none

/-- No access of the host's pool window is under way or waits. -/
def hostIdle (s : State) : Prop := s.eng.hostQ = [] ∧ s.eng.hostSt = 0

/-! ### Ticks -/

/-- No held contribution waits and no cairn counts ticks, so that a tick's own effects stand alone. -/
def quietTick (c : Chan) : Prop := c.peers.holds = [] ∧ ∀ e, e ∈ c.crn.cfg → bitOf e.2.1 3 = false

end Sys2Proof
end

