-- ==== Sys2Proof/WellFormed.lean ====
section
/-! DEFINITION. Which commands can come about at all: the lengths of the byte lists an event brings with it. A command
that fails the check stops with the fault illFormed. -/

namespace Sys2Proof

/-- 64 bytes: one granule (R68, R74). -/
def granuleLen (d : List Byte) : Bool := d.length == 64

/-- A radio frame is whole 32-byte beats, at least its two header beats (R90, R657). -/
def frameLen (d : List Byte) : Bool := decide (64 ≤ d.length) && d.length % 32 == 0

/-- The payload of a data packet: a multiple of `u` bytes, at least one unit and at most 4,096 (R632). -/
def payloadLen (u : Nat) (d : List Byte) : Bool :=
  decide (u ≤ d.length) && decide (d.length ≤ 4096) && d.length % u == 0

/-- Size of the shadow store (R227). -/
def shadowBytes : Nat := 0x400000

/-- The check. Every command without a byte or word list is well formed. -/
def Instr.wf : Instr → Bool
  | .initiatorReadCompletion _ d => granuleLen d
  | .mpResponse _ _ _ d => granuleLen d || d.isEmpty
  | .grid _ _ f => frameLen f
  | .sample _ _ f => frameLen f
  | .writeWin _ _ b => payloadLen 4 b.payload
  | .accInto _ _ b => payloadLen 8 b.payload
  | .push _ _ n _ _ ws => ws.length == n.toNat
  | .txnWrite _ _ _ bs => !bs.isEmpty
  | _ => true

end Sys2Proof
end

