-- ==== Sys2Proof/Certificates/Slice0/Obligations.lean ====
section
/-! DEFINITION. The statements for the provers. -/

open Sys2Proof Sys2Proof.Machine

/-! ### Number formats -/

/-- R281, R282: what one cc makes of a word: void beats all, infinities of both signs are void, an infinity beats the
finite inputs, and finite inputs are added exactly and checked once, in whatever order they come; decay by a code scales
a finite word with one rounding to the nearest integer, ties to even, never above its magnitude. -/
def Obligations.AccumulatedWords : Prop :=
  (∀ l : List Acc,
    (.void ∈ l → accTotal l = .void) ∧
    (.pinf ∈ l → .ninf ∈ l → accTotal l = .void) ∧
    (.void ∉ l → .pinf ∈ l → .ninf ∉ l → accTotal l = .pinf) ∧
    (.void ∉ l → .ninf ∈ l → .pinf ∉ l → accTotal l = .ninf) ∧
    (∀ vs : List Int, l = vs.map .fin →
      (vs.sum.natAbs ≤ 2 ^ 39 - 2 → accTotal l = .fin vs.sum) ∧
      (2 ^ 39 - 2 < vs.sum → accTotal l = .pinf) ∧ (vs.sum < -(2 ^ 39 - 2) → accTotal l = .ninf)) ∧
    ∀ l', l.Perm l' → accTotal l' = accTotal l) ∧
  (∀ (v : Int) (d : BitVec 17),
    let f : Int := min d.toNat 65536
    (∃ r, accDecay (.fin v) d = .fin r ∧ (2 * (65536 * r - v * f)).natAbs ≤ 65536 ∧
      ((2 * (65536 * r - v * f)).natAbs = 65536 → r % 2 = 0) ∧ r.natAbs ≤ v.natAbs ∧ (65536 ≤ d.toNat → r = v)) ∧
    accDecay .void d = .void ∧ accDecay .pinf d = (if d = 0 then .void else .pinf) ∧
    accDecay .ninf d = if d = 0 then .void else .ninf)

/-- R286, R287: a block of finite values takes the smallest scale that holds its largest magnitude, every element the
nearest integer under it, limited to Qmin and Qmax, and IX says that an element is not exact; a block with a void or an
infinite value is void, IV saying that an infinity was there. A finite F20 value is n · 2^−74 for an integer n. -/
def Obligations.BlockConversion : Prop :=
  ∀ (f : Fmt) (vs : List F20),
    let b := blockF20 f vs
    let n (c : F20) : Int := numMant (f20Dec c) * 2 ^ (numExp (f20Dec c) + 74).toNat
    let mag (c : F20) : Nat := if f.signed then (n c).natAbs else (n c).toNat
    let big := (vs.map mag).foldl max 0
    let e := b.scale.toInt
    let q (c : F20) : Int := min (max (rneScale (n c) (-74 - e)) f.qmin) f.qmax
    b.codes.length = vs.length ∧
    ((∀ c, c ∈ vs → numIsFin (f20Dec c) = true) →
      -127 ≤ e ∧ rneScale big (-74 - e) ≤ f.qmax ∧ (∀ x : Int, -127 ≤ x → x < e → f.qmax < rneScale big (-74 - x)) ∧
      (big = 0 → e = -127) ∧ (big ≠ 0 → -127 < e ∧ e < 127) ∧
      (∀ (i : Nat) (c : F20), vs[i]? = some c → ∃ x, b.codes[i]? = some x ∧ f.value x = q c) ∧
      (b.flags = 0 ∨ b.flags = flIX) ∧
      (b.flags = flIX ↔ ∃ c, c ∈ vs ∧ q c * 2 ^ (e + 127).toNat ≠ n c * 2 ^ 53)) ∧
    ((∃ c, c ∈ vs ∧ numIsFin (f20Dec c) = false) →
      b.scale = 0x80 ∧ (∀ x, x ∈ b.codes → x = 0) ∧
      b.flags = if vs.any (fun c => numIsInf (f20Dec c)) then flIV else 0)

/-- R273, R276, R291: no operation delivers a negative zero or a void of another code than 0x7_F800, and a negative zero
acts as +0; MIN and MAX give void for a void operand and else an operand that bounds both; a comparison with a void
operand holds for NE alone and none raises a flag; a value is counted in the bin of its biased exponent when normal,
else of its class. -/
def Obligations.F20Results : Prop :=
  (∀ (a b c r : F20), r ∈ [(f20Add a b).1, (f20Mul a b).1, (f20Fma a b c).1, f20Min a b, f20MaxOf a b, f20Canon a, f20Neg a] →
    r ≠ 0x80000 ∧ (f20Dec r = .void → r = 0x7F800)) ∧
  (∀ a b c : F20, f20Add 0x80000 b = f20Add 0 b ∧ f20Mul 0x80000 b = f20Mul 0 b ∧ f20Fma 0x80000 b c = f20Fma 0 b c ∧
    f20Fma a b 0x80000 = f20Fma a b 0 ∧ f20Cmp 0x80000 b = f20Cmp 0 b ∧ f20Cmp 0x80000 0 = some .eq ∧ f20Cmp 0 0 = some .eq ∧ f20Canon 0x80000 = 0 ∧
    (f20Exp a = 127 → f20Frac a ≠ 0 → f20Dec a = .void)) ∧
  (∀ (a b : F20) (free : Bool),
    (f20Dec a = .void ∨ f20Dec b = .void → f20Min a b = 0x7F800 ∧ f20MaxOf a b = 0x7F800 ∧
      ∀ cond, cond < 6 → laneFcmp cond a b free = decide (cond = 1)) ∧
    (∀ (i : LaneIns) (c : F20), i.op = 9 → (laneEval i a b c free).2 = 0) ∧
    (f20Dec a ≠ .void → f20Dec b ≠ .void →
      (f20Min a b = f20Canon a ∨ f20Min a b = f20Canon b) ∧ (f20MaxOf a b = f20Canon a ∨ f20MaxOf a b = f20Canon b) ∧
      f20Cmp (f20Min a b) a ≠ some .gt ∧ f20Cmp (f20Min a b) b ≠ some .gt ∧
      f20Cmp (f20MaxOf a b) a ≠ some .lt ∧ f20Cmp (f20MaxOf a b) b ≠ some .lt)) ∧
  (∀ c : F20,
    (1 ≤ f20Exp c → f20Exp c ≤ 126 → histBin c = f20Exp c) ∧ (c = 0 ∨ c = 0x80000 → histBin c = 128) ∧
    (f20Exp c = 0 → f20Frac c ≠ 0 → histBin c = 129) ∧ (c = 0x7F000 ∨ c = 0xFF000 → histBin c = 130) ∧
    (f20Dec c = .void → histBin c = 131) ∧ histBin c ≠ 0 ∧ histBin c ≠ 127 ∧ histBin c < 132)

/-! ### Control core -/

/-- R513: the register-register instructions; RD alone changes, with x0 ignoring the write (R510), the word's line is
used and the position moves on. R513: the instructions on the two signed 16-bit halves, modulo 2¹⁶. R513: the immediate
instructions, IMM sign-extended, shifts by IMM[4:0], and LUI. Each completes where the word fetched is its encoding. -/
def Obligations.ScalarArithmetic : Prop :=
  ∀ (s : State) (f : Fetch) (rd a b : BitVec 5) (imm : BitVec 16) (up : BitVec 20),
     ccReady s f 1 → (s.core f.core).cc.rep = none →
     let x := ccX s f a
     let y := ccX s f b
     let z : Word := BitVec.ofInt 32 imm.toInt
     let k := y.toNat % 32
     let m := imm.toNat % 32
     let hi (w : Word) : Int := (w.extractLsb' 16 16).toInt
     let lo (w : Word) : Int := (w.extractLsb' 0 16).toInt
     let puts (i : Instr) (v : Word) : Prop := ccHolds s i → exec i s = ccPut s f rd v
     let both (i : Instr) (op : Int → Int → Int) : Prop :=
       puts i (BitVec.ofInt 16 (op (hi x) (hi y)) ++ BitVec.ofInt 16 (op (lo x) (lo y)))
     puts (.add f rd a b) (BitVec.ofNat 32 (x.toNat + y.toNat)) ∧
     puts (.sub f rd a b) (BitVec.ofInt 32 (x.toInt - y.toInt)) ∧
     puts (.and f rd a b) (x &&& y) ∧ puts (.or f rd a b) (x ||| y) ∧ puts (.xor f rd a b) (x ^^^ y) ∧
     puts (.sll f rd a b) (BitVec.ofNat 32 (x.toNat * 2 ^ k)) ∧
     puts (.srl f rd a b) (BitVec.ofNat 32 (x.toNat / 2 ^ k)) ∧
     puts (.sra f rd a b) (BitVec.ofInt 32 (x.toInt / 2 ^ k)) ∧
     puts (.mul f rd a b) (BitVec.ofNat 32 (x.toNat * y.toNat)) ∧
     puts (.min f rd a b) (BitVec.ofInt 32 (min x.toInt y.toInt)) ∧
     puts (.max f rd a b) (BitVec.ofInt 32 (max x.toInt y.toInt)) ∧
     puts (.minu f rd a b) (BitVec.ofNat 32 (min x.toNat y.toNat)) ∧
     puts (.maxu f rd a b) (BitVec.ofNat 32 (max x.toNat y.toNat)) ∧
     puts (.slt f rd a b) (if x.toInt < y.toInt then 1 else 0) ∧
     puts (.sltu f rd a b) (if x.toNat < y.toNat then 1 else 0) ∧
     both (.vaddH f rd a b) (· + ·) ∧ both (.vsubH f rd a b) (· - ·) ∧ both (.vminH f rd a b) min ∧
     both (.vmaxH f rd a b) max ∧
     puts (.addi f rd a imm) (BitVec.ofInt 32 (x.toInt + imm.toInt)) ∧
     puts (.andi f rd a imm) (x &&& z) ∧ puts (.ori f rd a imm) (x ||| z) ∧ puts (.xori f rd a imm) (x ^^^ z) ∧
     puts (.slli f rd a imm) (BitVec.ofNat 32 (x.toNat * 2 ^ m)) ∧
     puts (.srli f rd a imm) (BitVec.ofNat 32 (x.toNat / 2 ^ m)) ∧
     puts (.srai f rd a imm) (BitVec.ofInt 32 (x.toInt / 2 ^ m)) ∧
     puts (.slti f rd a imm) (if x.toInt < imm.toInt then 1 else 0) ∧
     puts (.lui f rd up) (BitVec.ofNat 32 (up.toNat * 2 ^ 12))

/-- R513, R523, R520, R474: the moves between the register classes, each changing its destination alone; RDQ and QSET on
a q register that is not pending; REP sets the count of the PUSH that follows; a value PNEXT stages stands unless the
host or DMA wrote the same parameter in this cc. Each completes where the word fetched is its encoding. R514, R485: LW
and SW at RS1 + IMM, where that is a word of the core's own pool, ask for one narrow access of it and stand; at another
address they halt the core. The word an LW asked for retires it with the little-endian value of its four bytes, and one
in double error halts the core. -/
def Obligations.CoreMoves : Prop :=
  (∀ (s : State) (f : Fetch) (rd rs : BitVec 5) (n : BitVec 4) (q : BitVec 3) (imm : BitVec 16),
     ccReady s f 1 → (s.core f.core).cc.rep = none →
     let c := (s.core f.core).cc
     let x := ccX s f rs
     let goes (i : Instr) (o : Out) : Prop := ccHolds s i → exec i s = o
     let sets (i : Instr) (g : CcRegs → CcRegs) : Prop := goes i (.next (ccDone s f 1 fun c => { c with r := g c.r }))
     sets (.mova f n rs) (fun r => { r with a := smSet 0 r.a n.toNat x }) ∧
     sets (.setinc f n rs) (fun r => { r with ainc := smSet 0 r.ainc n.toNat x }) ∧
     goes (.rda f rd n) (ccPut s f rd (smGet 0 c.r.a n.toNat)) ∧
     goes (.rdp f rd rs) (ccPut s f rd (smGet 0 c.p rs.toNat)) ∧
     (smGet 0 c.psBy rd.toNat = 0 → goes (.pnext f rd rs) (.next (ccDone s f 1 fun c => { c with
       ps := smSet 0 c.ps rd.toNat x, psBy := smSet 0 c.psBy rd.toNat 0 }))) ∧
     (0 < smGet 0 c.psBy rd.toNat → goes (.pnext f rd rs) (.next (ccDone s f 1 id))) ∧
     (c.r.pends q.toNat = false → goes (.rdq f rd q) (ccPut s f rd (smGet 0 c.r.q q.toNat))) ∧
     (c.r.pends q.toNat = false → sets (.qset f q rs) (fun r => { r with q := smSet 0 r.q q.toNat x })) ∧
     goes (.nop f) (.next (ccDone s f 1 id)) ∧
     (imm ≠ 0 → goes (.rep f 0 imm) (.next (ccDone s f 1 fun c => { c with rep := some imm.toNat }))) ∧
     (x.toNat < 65536 → goes (.rep f rs 0) (.next (ccDone s f 1 fun c => { c with rep := some x.toNat })))) ∧
  (∀ (s : State) (f : Fetch) (rd rs : BitVec 5) (imm : BitVec 16), ccReady s f 1 → (s.core f.core).cc.rep = none →
     let addr := (ccX s f rs + BitVec.ofInt 32 imm.toInt).toNat
     let v := ccX s f rd
     let asks (write : Option (List (Nat × Byte))) (dest : PoolDest) : Out :=
       .next ((ccTouched s f 1).updCore f.core fun y => { y with pool := { y.pool with
         acc := y.pool.acc ++ [{ client := clNarrow, line := addr / 128, write := write, dest := dest }] } })
     (ccHolds s (.lw f rd rs imm) →
       (addr % 4 = 0 ∧ addr < 0x80000 → exec (.lw f rd rs imm) s = asks none (.ccLoad rd addr)) ∧
       (addr % 4 ≠ 0 ∨ 0x80000 ≤ addr → exec (.lw f rd rs imm) s = .next (ccHalt (ccTouched s f 1) f.core 0x07))) ∧
     (ccHolds s (.sw f rd rs imm) →
       (addr % 4 = 0 ∧ addr < 0x80000 → exec (.sw f rd rs imm) s = asks (some [(addr, v.extractLsb' 0 8),
         (addr + 1, v.extractLsb' 8 8), (addr + 2, v.extractLsb' 16 8), (addr + 3, v.extractLsb' 24 8)]) .ccStore) ∧
       (addr % 4 ≠ 0 ∨ 0x80000 ≤ addr → exec (.sw f rd rs imm) s = .next (ccHalt (ccTouched s f 1) f.core 0x07)))) ∧
  (∀ (s : State) (c : CoreId) (r : PoolRd) (rest : List PoolRd) (rd : BitVec 5) (off : Nat),
     (s.core c).pool.rdq = r :: rest → r.dest = .ccLoad rd off → s.eng.hostQ = [] → s.eng.hostSt = 0 →
     let byte (i : Nat) : Byte := r.data.getD (off % 128 + i) 0
     let taken (y : Core) : Core := { y with pool := { y.pool with rdq := rest } }
     (off / 8 ∉ r.bads → exec (.poolReadData c) s = .next (s.updCore c fun y => { taken y with cc :=
       { y.cc.xw rd (byte 3 ++ byte 2 ++ byte 1 ++ byte 0) with pos := y.cc.pos + 1, qwait := none, cmp := 2 } })) ∧
     (off / 8 ∈ r.bads → exec (.poolReadData c) s = .next (ccHalt (s.updCore c taken) c 0x08)))

/-- R525, R526: END and SELECT end the replay; SELECT sets the next-list index, at most 15. R474: RDQ, QSET and a SELECT
by register stall on a pending q register: they write nothing and do not move on. -/
def Obligations.ReplayEnds : Prop :=
  ∀ (s : State) (f : Fetch) (rd rs : BitVec 5) (q : BitVec 3) (index : BitVec 4),
     ccReady s f 1 → (s.core f.core).cc.rep = none →
     let c := (s.core f.core).cc
     let goes (i : Instr) (o : Out) : Prop := ccHolds s i → exec i s = o
     let ends (next : BitVec 4) : Out :=
       .next (ccDone s f 1 fun c => { c with list := false, r := { c.r with next := next } })
     let stalls (i : Instr) : Prop := goes i (.next (updCc (ccTouched s f 1) f.core fun c => { c with qwait := some q }))
     goes (.endList f) (ends c.r.next) ∧ goes (.select f true 0 index) (ends index) ∧
     (c.r.pends q.toNat = false →
       goes (.select f false q 0) (ends (BitVec.ofNat 4 (min (smGet 0 c.r.q q.toNat).toNat 15)))) ∧
     (c.r.pends q.toNat = true → stalls (.rdq f rd q) ∧ stalls (.qset f q rs) ∧ stalls (.select f false q 0))

/-- R522, R526, R530, R538: whatever the instruction, a core whose position has reached the end of its list halts with
LIST_END, and one whose next word lies outside the code window halts with CODE_RANGE. R528, R529: whatever the
instruction, a word whose line is not held is not run: the miss is counted, its line and those of the next two that lie
in the list are requested; a word that fails its parity check is not run either: its line is invalidated, counted and
announced. The core's registers stay as they are. R537, R538: a word that is no instruction halts its core with reason
ILLEGAL at its own address, and orders the channel's halt. -/
def Obligations.WordsNotRun : Prop :=
  (∀ (s : State) (i : Instr) (f : Fetch), i.fetch = some f → i.wf = true →
     let c := (s.core f.core).cc
     let ch := s.chan (coreChan f.core)
     (ch.working = true → c.list = true → c.halt = false → c.stall = none → (s.core f.core).ccBusy = false → c.len ≤ c.pos →
       exec i s = .next (ccHalt s f.core 0x04)) ∧
     (ccAt s f.core → ch.codeWin.2 < c.base.toNat + 4 * c.pos + 4 → exec i s = .next (ccHalt s f.core 0x06))) ∧
  (∀ (s : State) (i : Instr) (f : Fetch), i.fetch = some f → i.wf = true → ccAt s f.core →
     let n := coreChan f.core
     let x := s.core f.core
     let ch := s.chan n
     let g (j : Nat) : BitVec 42 := ch.codeLine (x.cc.base.toNat + 4 * (x.cc.pos + j))
     (∀ j, j < 14 → x.cc.base.toNat + 4 * (x.cc.pos + j) + 4 ≤ ch.codeWin.2) →
     (x.icache.lines.contains (g 0) = false → fillUnderWay s f.core (g 0) = false →
       ∃ t, exec i s = .next t ∧ (t.core f.core).cc = x.cc ∧ (t.core f.core).pool = x.pool ∧
         (t.core f.core).icache.misses = satAdd x.icache.misses 1 ∧ (t.core f.core).icache.wait = some (g 0) ∧
         ∃ l, (t.core f.core).icache.wants = x.icache.wants ++ g 0 :: l ∧ l.length ≤ 2) ∧
     ((∀ j, j < 14 → x.icache.lines.contains (g j) = true) → f.bad = some 0 →
       exec i s = .next ((s.updCh n fun c => { c with mp := { c.mp with
           answers := c.mp.answers ++ [(true, false, g 0)] } }).updCore f.core fun y =>
         { y with icache := { y.icache with
           lines := y.icache.lines.filter (· != g 0), code := y.icache.code.filter fun e => e.1 / 16 != (g 0).toNat
           parity := satAdd y.icache.parity 1 } }))) ∧
  (∀ (s : State) (f : Fetch) (w : Word), ccReady s f 1 → (s.core f.core).cc.rep = none → ccHolds s (.illegal f w) →
     ccLegal w = false →
     (s.core f.core).flt.valid = false → ∃ t, exec (.illegal f w) s = .next t ∧
       let c := (s.core f.core).cc
       let d := (t.core f.core).cc
       d.halt = true ∧ d.reason = 0x01 ∧ d.haltAddr = BitVec.ofNat 32 (c.base.toNat + 4 * c.pos) ∧
       d.r = c.r ∧ d.p = c.p ∧ d.ps = c.ps ∧ d.pos = c.pos ∧
       (t.chan (coreChan f.core)).flt.haltOrder.isSome = true ∧
       (t.core f.core).pool = (s.core f.core).pool)

/-- R516–R520: a PUSH whose guard, if it has one, lets it pass, whose selectors are of a legal form, which meets no
breakpoint and finds room, enters its command at the end of its queue (a SIPHON that uses a gate pipe in that queue
too, where that queue is there); it is counted and the a registers named with PI advance once. R519: a PUSH whose
guard holds it back enters nothing and is not counted; its PI advances still take place. R535: CONT makes the push
that stands at a breakpoint, without testing it again, when its queue has room; the core goes on behind it. The order
of a PUSH's checks is the model's reading (log 20). -/
def Obligations.Pushes : Prop :=
  (∀ (s : State) (f : Fetch) (queue n : BitVec 4) (guard : BitVec 5) (subst : BitVec 13) (words ws : List Word) (q : QId),
     let c := (s.core f.core).cc
     let ch := s.chan (coreChan f.core)
     let k := coreLoc f.core
     words.length = n.toNat → 1 ≤ n.toNat → n.toNat ≤ 13 → subst.toNat < 2 ^ n.toNat →
     (guard = 0 ∨ (bitOf guard 4 = true ∧ c.r.pends (guard.toNat % 8) = false ∧
       ((smGet 0 c.r.q (guard.toNat % 8) ≠ 0) ↔ bitOf guard 3 = false))) →
     ccReady s f (n.toNat + 1) → ccWords s f.core (n.toNat + 1) = encP queue n guard subst :: words → c.rep = none → (s.core f.core).queues.length = 7 →
     pushQueue k queue = some q → pushWords c subst words = some ws → ch.present q = true →
     c.brkMode ≠ 1 → c.brkMode ≠ 2 → pushRoom ch k q (ws.getD 0 0) = true →
     ∃ t, exec (.push f queue n guard subst words) s = .next t ∧
       let d := (t.core f.core).cc
       let cmd : Cmd :=
         { words := ws, pusher := k, addr := BitVec.ofNat 32 (c.base.toNat + 4 * c.pos), repidx := 0, order := ch.serial
           feed := none }
       (∀ r, ((t.chan (coreChan f.core)).queue r).waiting =
         (ch.queue r).waiting ++ if r = q ∨ (siphonGate k q (ws.getD 0 0)).filter ch.present = some r then [cmd] else []) ∧
       (∀ r, ((t.chan (coreChan f.core)).queue r).issued = (ch.queue r).issued) ∧
       (t.chan (coreChan f.core)).serial = ch.serial + 1 ∧
       d.pushes = BitVec.ofNat 32 (c.pushes.toNat + 1) ∧ d.pos = c.pos + n.toNat + 1 ∧
       d.r.a = (pushAdvance c subst words).r.a ∧ d.r.x = c.r.x ∧ d.r.q = c.r.q ∧ d.p = c.p ∧ d.ps = c.ps ∧
       (t.core f.core).pool = (s.core f.core).pool ∧ (∀ m, m ≠ coreChan f.core → t.chan m = s.chan m)) ∧
  (∀ (s : State) (f : Fetch) (queue n : BitVec 4) (guard : BitVec 5) (subst : BitVec 13) (words ws : List Word) (q : QId),
     let c := (s.core f.core).cc
     words.length = n.toNat → 1 ≤ n.toNat → n.toNat ≤ 13 → subst.toNat < 2 ^ n.toNat →
     bitOf guard 4 = true → c.r.pends (guard.toNat % 8) = false →
     ((smGet 0 c.r.q (guard.toNat % 8) ≠ 0) ↔ bitOf guard 3 = true) →
     ccReady s f (n.toNat + 1) → ccWords s f.core (n.toNat + 1) = encP queue n guard subst :: words → c.rep = none →
     pushQueue (coreLoc f.core) queue = some q → pushWords c subst words = some ws →
     exec (.push f queue n guard subst words) s =
       .next (ccDone s f (n.toNat + 1) fun c => { c with r := { c.r with a := (pushAdvance c subst words).r.a } })) ∧
  (∀ (s : State) (c : CoreId) (st : PushStall) (ws : List Word) (q : QId),
     let x := (s.core c).cc
     let ch := s.chan (coreChan c)
     s.eng.hpReady = true → ch.working = true → x.halt = false → x.stall = some st → st.brk = true → st.left = 1 →
     (s.core c).queues.length = 7 →
     pushQueue (coreLoc c) st.queue = some q → pushWords x st.subst st.words = some ws → ch.present q = true →
     pushRoom ch (coreLoc c) q (ws.getD 0 0) = true →
     ∃ t, exec (.cont c) s = .next t ∧
       let d := (t.core c).cc
       let cmd : Cmd :=
         { words := ws, pusher := coreLoc c, addr := BitVec.ofNat 32 (x.base.toNat + 4 * x.pos), repidx := st.repidx
           order := ch.serial, feed := none }
       (∀ r, ((t.chan (coreChan c)).queue r).waiting =
         (ch.queue r).waiting ++ if r = q ∨ (siphonGate (coreLoc c) q (ws.getD 0 0)).filter ch.present = some r then [cmd] else []) ∧
       d.stall = none ∧ d.pushes = BitVec.ofNat 32 (x.pushes.toNat + 1) ∧ d.pos = x.pos + st.words.length + 1 ∧
       d.r.x = x.r.x ∧ d.r.q = x.r.q ∧ (t.core c).pool = (s.core c).pool ∧
       (∀ m, m ≠ coreChan c → t.chan m = s.chan m))

/-- R522–R524, R540: a replay start under TRIG 1 that stands on a cairn with a count takes 1 from it and begins the list
of the next-list index, the staged parameters live. R523: a host write to CC_PSi of a channel out of reset writes the
staged value alone, also as a rollback keeps it, and over DMA and PNEXT in the same cc. -/
def Obligations.ReplaysBegin : Prop :=
  (∀ (s : State) (c : CoreId),
     let n := coreChan c
     let x := s.core c
     let i := x.cc.tcairn.toNat
     startStands s c = true → ((s.chan n).cairn i).count ≠ 0 →
     let next := x.cc.r.next.toNat
     let len := (smGet 0 x.cc.selLen next).toNat
     exec (.replayStart c) s =
       .next ((updCc (s.updCh n fun h => h.setCairn i { h.cairn i with count := (h.cairn i).count - 1 }) c fun y =>
         { y with
           p := y.ps, base := smGet 0 y.selBase next, len := len, pos := 0, list := decide (len ≠ 0), pushes := 0
           replays := BitVec.ofNat 32 (y.replays.toNat + 1), rep := none, stall := none, qwait := none }).updCore c fun y =>
             { y with icache := { y.icache with wait := none } })) ∧
  (∀ (s : State) (c : CoreId) (i : BitVec 5) (v : Word),
     s.eng.hpReady = true → (s.chan (coreChan c)).live = true →
     smGet 0 (s.core c).cc.psBy i.toNat ≤ 2 →
     exec (.stagedParameterWrite c i v) s = .next (updCc s c fun x => { x with
       ps := smSet 0 x.ps i.toNat v, psCommit := smSet 0 x.psCommit i.toNat v, psBy := smSet 0 x.psBy i.toNat 2 }))

/-- R512: every instruction's word is OP with its fields at the places of its format; a word other than an ILLEGAL one
is that of one instruction only, the words of a PUSH aside; and the words that are no ILLEGAL are those with every
unused field 0: a REP gives its count in one of its two fields, a PUSH without a guard and the unused half of a SELECT
are 0. -/
def Obligations.CoreEncodings : Prop :=
  (∀ (f : Fetch) (d a b : BitVec 5) (imm : BitVec 16) (up : BitVec 20) (n m : BitVec 4) (q : BitVec 3) (im : Bool)
     (subst : BitVec 13) (words : List Word),
     let word (v : Nat) (i : Instr) : Prop := i.ccWord = some (BitVec.ofNat 32 v)
     let rr (p : Instr × Nat) : Prop := word (p.2 + 64 * d.toNat + 2048 * a.toNat + 65536 * b.toNat) p.1
     let ri (p : Instr × Nat) : Prop := word (p.2 + 64 * d.toNat + 2048 * a.toNat + 65536 * imm.toNat) p.1
     (∀ p, p ∈ [(Instr.add f d a b, 0x01), (.sub f d a b, 0x02), (.and f d a b, 0x03), (.or f d a b, 0x04),
       (.xor f d a b, 0x05), (.sll f d a b, 0x06), (.srl f d a b, 0x07), (.sra f d a b, 0x08), (.mul f d a b, 0x09),
       (.min f d a b, 0x0A), (.max f d a b, 0x0B), (.minu f d a b, 0x0C), (.maxu f d a b, 0x0D), (.slt f d a b, 0x0E),
       (.sltu f d a b, 0x0F), (.vaddH f d a b, 0x1C), (.vsubH f d a b, 0x1D), (.vminH f d a b, 0x1E),
       (.vmaxH f d a b, 0x1F)] → rr p) ∧
     (∀ p, p ∈ [(Instr.addi f d a imm, 0x10), (.andi f d a imm, 0x11), (.ori f d a imm, 0x12), (.xori f d a imm, 0x13),
       (.slli f d a imm, 0x14), (.srli f d a imm, 0x15), (.srai f d a imm, 0x16), (.slti f d a imm, 0x17),
       (.lw f d a imm, 0x19), (.sw f d a imm, 0x1A)] → ri p) ∧
     word (0x18 + 64 * d.toNat + 4096 * up.toNat) (.lui f d up) ∧
     word (0x20 + 64 * n.toNat + 2048 * a.toNat) (.mova f n a) ∧ word (0x21 + 64 * n.toNat + 2048 * a.toNat) (.setinc f n a) ∧
     word (0x22 + 64 * d.toNat + 2048 * n.toNat) (.rda f d n) ∧ word (0x23 + 64 * d.toNat + 2048 * a.toNat) (.rdp f d a) ∧
     word (0x24 + 64 * d.toNat + 2048 * a.toNat) (.pnext f d a) ∧ word (0x25 + 64 * d.toNat + 2048 * q.toNat) (.rdq f d q) ∧
     word (0x26 + 64 * q.toNat + 2048 * a.toNat) (.qset f q a) ∧
     word (0x28 + 2048 * a.toNat + 65536 * imm.toNat) (.rep f a imm) ∧ word 0x2F (.nop f) ∧
     word (0x30 + 64 * n.toNat + 1024 * m.toNat + 16384 * d.toNat + 524288 * subst.toNat) (.push f n m d subst words) ∧
     word 0x38 (.endList f) ∧
     word (0x39 + 64 * q.toNat + (if im then 512 else 0) + 1024 * n.toNat) (.select f im q n)) ∧
  (∀ (i k : Instr) (f : Fetch) (w : Word), i.ccWord = some w → k.ccWord = some w → i.fetch = some f → k.fetch = some f →
     (∀ v, i ≠ .illegal f v ∧ k ≠ .illegal f v) →
     i = k ∨ ∃ q n g b u v, i = .push f q n g b u ∧ k = .push f q n g b v) ∧
  (∀ w, ccLegal w = true ↔ ∃ i : Instr, i.ccWord = some w ∧ (∀ f v, i ≠ .illegal f v) ∧
     (∀ f a imm, i = .rep f a imm → a = 0 ∨ imm = 0) ∧ (∀ f q n g b u, i = .push f q n g b u → g = 0 ∨ bitOf g 4 = true) ∧
     (∀ f im q n, i = .select f im q n → if im then q = 0 else n = 0))

/-! ### Host port -/

/-- R62: an unaligned address, an address outside every block, a register of a channel in reset or power-gated outside
its control block, and a window word in a bank without a NARROW slot each give their code. R59, R63, R65: an access that
meets a code changes nothing but the capture of ENG_HPERR, which keeps the first and counts the further ones; a read
answers data 0 with that code. -/
def Obligations.HostErrors : Prop :=
  (∀ (s : State) (n : ChanId) (c : CoreId) (a : ArrId) (addr o : Nat),
     (addr % 4 ≠ 0 → hostCode s (locate addr) = some hpDecode) ∧
     (0xC00000 ≤ addr → hostCode s (locate addr) = some hpDecode) ∧
     (0x500000 ≤ addr → addr < 0x800000 → hostCode s (locate addr) = some hpDecode) ∧
     ((s.chan n).live = false → chReg o = true → 0x10000 ≤ o → o < 0x80000 →
       hostCode s (locate (chBase n + o)) = some hpOffline) ∧
     ((s.chan (coreChan c)).live = false → coreReg o = true → o < 0x2000 ∨ 0x2200 ≤ o → o < 0x40000 →
       hostCode s (locate (coreBase c + o)) = some hpOffline) ∧
     ((s.chan (arrChan a)).live = false → arrReg o = true → o < 0x100 → hostCode s (locate (arrBase a + o)) = some hpOffline) ∧
     (o % 4 = 0 → o < 0x80000 → (s.chan (coreChan c)).live = false →
       hostCode s (locate (0x800000 + 0x80000 * c.val + o)) = some hpOffline) ∧
     (o % 4 = 0 → o < 0x80000 → (s.chan (coreChan c)).live = true → (s.core c).hasSlot clNarrow (o / 128 % 16) = false →
       hostCode s (locate (0x800000 + 0x80000 * c.val + o)) = some hpDecode)) ∧
  (∀ (s : State) (addr : BitVec 24) (data : Word) (code : BitVec 2),
     s.eng.hpReady = true → hostCode s (locate addr.toNat) = some code →
     let held (write : Bool) : HpErr :=
       if s.hperr.valid then { s.hperr with more := BitVec.ofNat 8 (min (s.hperr.more.toNat + 1) 255) }
       else { more := 0, write := write, code := code, valid := true, addr := addr }
     exec (.registerWrite addr data) s = .next { s with hperr := held true } ∧
     exec (.hostPoolWrite addr data) s = .next { s with hperr := held true } ∧
     exec (.hostPoolRead addr) s =
       .next { s with hperr := held false, eng := { s.eng with rValid := true, rData := 0, rCode := code } })

/-- R60, R61, R485, R491: a read or a write of a window word that meets no code waits at the narrow port. In a NARROW
slot of the word's bank it is granted: a write changes its four bytes alone and has ended, a read's line is on its
way, and its data answer the little-endian word at the offset. R62, R506: where that word is in double error a read
answers DATA with data 0, captured; a write has no effect and is captured. R50, R59: reads of ENG_ID answer BLOCK,
STEP and PEER_VER; reads of CC_Xi of a channel out of reset answer x(i). They change the response alone. -/
def Obligations.HostWindow : Prop :=
  (∀ (s : State) (c : CoreId) (o : Nat) (data : Word),
     let addr : BitVec 24 := BitVec.ofNat 24 (0x800000 + 0x80000 * c.val + o)
     let waits (i : Instr) : Out := .next { s with eng := { s.eng with hostQ := [i], hostSt := 0 } }
     s.eng.hpReady = true → (s.chan (coreChan c)).live = true → o % 4 = 0 → o < 0x80000 →
     (s.core c).hasSlot clNarrow (o / 128 % 16) = true →
     exec (.hostPoolRead addr) s = waits (.hostPoolRead addr) ∧
     exec (.hostPoolWrite addr data) s = waits (.hostPoolWrite addr data) ∧
     exec (.registerWrite addr data) s = waits (.hostPoolWrite addr data)) ∧
  (∀ (s : State) (c : CoreId) (o : Nat) (data : Word),
     let n := coreChan c
     let ch := s.chan n
     let p := (s.core c).pool
     let addr : BitVec 24 := BitVec.ofNat 24 (0x800000 + 0x80000 * c.val + o)
     let captured (write : Bool) : HpErr :=
       if s.hperr.valid then { s.hperr with more := satAdd s.hperr.more 1 }
       else { more := 0, write := write, code := hpData, valid := true, addr := addr }
     let done : Eng := { s.eng with hostQ := [], hostSt := 0 }
     ch.live = true → quietCc ch → (∀ k, (ch.core k).pool.acc = []) → o % 4 = 0 → o < 0x80000 → s.eng.hostSt = 0 →
     (s.core c).owner (o / 128 % 16) (ch.ctl.cc % 16) = clNarrow →
     (s.eng.hostQ = [.hostPoolRead addr] → o / 8 ∉ p.bad → ∃ t, exec (.poolAccessGrant n []) s = .next t ∧
       t.eng = { s.eng with hostSt := 1 } ∧ (t.core c).pool.mem = p.mem ∧
       (t.core c).pool.rdq = (p.rdqPut { client := clNarrow, line := o / 128, data := smGetList 0 p.mem (128 * (o / 128)) 128
                                         bads := [], due := ch.ctl.cc + (if 8 ≤ o / 128 % 16 then 6 else 3)
                                         dest := .host o }).rdq) ∧
     (s.eng.hostQ = [.hostPoolWrite addr data] → o / 8 ∉ p.bad → ∃ t, exec (.poolAccessGrant n []) s = .next t ∧
       t.eng = done ∧ (t.core c).pool.mem = smSetList 0 p.mem o (natLe 4 data.toNat) ∧ t.hperr = s.hperr) ∧
     (s.eng.hostQ = [.hostPoolWrite addr data] → o / 8 ∈ p.bad → (s.core c).flt.valid = false →
       ∃ t, exec (.poolAccessGrant n []) s = .next t ∧ t.eng = done ∧ (t.core c).pool.mem = p.mem ∧
         t.hperr = captured true)) ∧
  (∀ (s : State) (c : CoreId) (o : Nat) (r : PoolRd) (rest : List PoolRd),
     let addr : BitVec 24 := BitVec.ofNat 24 (0x800000 + 0x80000 * c.val + o)
     let byte (i : Nat) : Byte := r.data.getD (o % 128 + i) 0
     let answers (w : Word) (code : BitVec 2) : State := { s.updCore c fun y => { y with pool := { y.pool with rdq := rest } } with
       eng := { s.eng with hostQ := [], hostSt := 0, rValid := true, rData := w, rCode := code } }
     (s.core c).pool.rdq = r :: rest → r.dest = .host o → s.eng.hostSt = 1 → s.eng.hostQ = [.hostPoolRead addr] →
     o < 0x80000 →
     (o / 8 ∉ r.bads → exec (.poolReadData c) s = .next (answers (byte 3 ++ byte 2 ++ byte 1 ++ byte 0) 0)) ∧
     (o / 8 ∈ r.bads → exec (.poolReadData c) s = .next { answers 0 hpData with hperr :=
       if s.hperr.valid then { s.hperr with more := satAdd s.hperr.more 1 }
       else { more := 0, write := false, code := hpData, valid := true, addr := addr } })) ∧
  (∀ (s : State) (c : CoreId) (i : Fin 32), s.eng.hpReady = true → (s.chan (coreChan c)).live = true →
     let answer (w : Word) : Out := .next { s with eng := { s.eng with rValid := true, rData := w, rCode := 0 } }
     exec (.hostPoolRead 0) s = answer (BitVec.ofNat 32 (0x40000 + s.eng.stepping.toNat * 256 + 3)) ∧
     exec (.hostPoolRead (BitVec.ofNat 24 (coreBase c + 0x1200 + 4 * i.val))) s =
       answer ((s.core c).cc.xr (BitVec.ofNat 5 i.val)))

/-- R10, R11, R64: a write changes the free fields of the register it is addressed to and nothing else. R11, R64: a
write to a register whose fields the host cannot write changes nothing. -/
def Obligations.RegisterWrites : Prop :=
  (∀ (s : State) (n : ChanId) (c : CoreId) (d : Fin 2) (v : Word),
     s.eng.hpReady = true → (s.chan (coreChan c)).live = true →
     let wr (a : Nat) (t : State) : Prop := exec (.registerWrite (BitVec.ofNat 24 a) v) s = .next t
     let td (x : Td) : State := { s with td := s.td.set d x }
     let x := s.td.get d
     wr 0x3000 { s with thm := { s.thm with avg := v.extractLsb' 0 3 } } ∧
     wr 0x3004 { s with thm := { s.thm with
       hi := v.extractLsb' 0 8, lo := v.extractLsb' 8 8, crit := v.extractLsb' 16 8 } } ∧
     wr (0x4018 + 0x40 * d.val) (td { x with adj := v }) ∧ wr (0x401C + 0x40 * d.val) (td { x with setNs := v }) ∧
     wr 0x40C0 { s with cal := { s.cal with offset := v } } ∧ wr 0x40D0 { s with cal := { s.cal with setDate := v } } ∧
     wr 0x40D4 { s with cal := { s.cal with setTime := v } } ∧
     wr 0x5008 { s with srv := { s.srv with retry := v.extractLsb' 0 4 } } ∧
     wr 0x5010 { s with srv := { s.srv with applyNs := v } } ∧
     wr 0x5028 { s with srv := { s.srv with addr := v.extractLsb' 2 20 } } ∧
     wr 0x7014 { s with flt := { s.flt with irqEn := v.extractLsb' 0 9 } } ∧
     wr (chBase n + 0x84) (s.updCh n fun h => { h with flt := { h.flt with irqEn := v.extractLsb' 0 9 } }) ∧
     wr (coreBase c + 0x101C) (s.updCore c fun y => { y with cc := { y.cc with
       brkMode := v.extractLsb' 30 2, brkAct := v.getLsbD 29, brkMask := v.extractLsb' 16 8, brkTag := v.extractLsb' 8 8 } }) ∧
     wr (coreBase c + 0x1020) (s.updCore c fun y => { y with cc := { y.cc with brkCount := v } })) ∧
  (∀ (s : State) (n : ChanId) (v : Word), s.eng.hpReady = true →
     ∀ a, a ∈ [0x0, 0x4, 0x44, 0x4004, 0x4044, 0x40C4, 0x500C, 0x6010, 0x6014, 0x7004, 0x7010, chBase n + 0x44,
       chBase n + 0x60, chBase n + 0x64, chBase n + 0x80, chBase n + 0x94, chBase n + 0x98] →
       exec (.registerWrite (BitVec.ofNat 24 a) v) s = .next s)

/-- R11, R66, R583, R597, R699–R701: a 1 written to the VALID of a capture clears the capture whole and nothing else; a
0 leaves it. R327, R398, R415, R455, R475, R508, R539, R597, R625, R665: each clear sets its own counters to 0 and
leaves everything else. -/
def Obligations.Clears : Prop :=
  (∀ (s : State) (n : ChanId) (c : CoreId) (a : ArrId),
     s.eng.hpReady = true → (s.chan n).live = true → (s.chan (coreChan c)).live = true →
     (s.chan (arrChan a)).live = true → (s.arr a).cfg.used = true →
     let wr (x : Nat) (v : Word) : Out := exec (.registerWrite (BitVec.ofNat 24 x) v) s
     wr 0x40 1 = .next { s with hperr := { more := 0, write := false, code := 0, valid := false, addr := 0 } } ∧
     wr 0x40 0 = .next s ∧
     wr 0x7000 1 = .next { s with flt := { s.flt with valid := false, more := 0, cause := 0, info := 0 } } ∧
     wr (chBase n + 0x90) 1 = .next (s.updCh n fun h => { h with flt := { h.flt with
       more := 0, cause := 0, origin := 0, cls := 0, esc := false, valid := false, info := 0, tag := 0 } }) ∧
     wr (chBase n + 0x18000) 0x800 = .next (s.updCh n fun h => { h with crn := { h.crn with
       more := 0, kind := 0, cls := 0, valid := false, cairn := 0 } }) ∧
     wr (chBase n + 0x20008) 1 = .next (s.updCh n fun h => { h with dma := { h.dma with
       more := 0, tag := 0, desc := 0, reason := 0, valid := false, errAddr := 0 } }) ∧
     wr (coreBase c) 1 = .next (s.updCore c fun y => { y with flt := { y.flt with
       more := 0, cause := 0, cls := 0, esc := false, arr := false, valid := false, info := 0 } }) ∧
     wr (arrBase a + 0xE0) 1 =
       .next (s.updArr a fun y => { y with flt := { more := 0, cause := 0, cls := 0, valid := false, info := 0 } })) ∧
  (∀ (s : State) (n : ChanId) (c : CoreId) (a : ArrId),
     s.eng.hpReady = true → (s.chan n).live = true → (s.chan (coreChan c)).live = true →
     (s.chan (arrChan a)).live = true → (s.arr a).cfg.used = true →
     exec (.arrCntClear a) s = .next (s.updArr a fun x => { x with reg := { x.reg with
       vecs := 0, feedstall := 0, bpstall := 0, parity := 0, swaps := 0 } }) ∧
     exec (.stepClear a) s = .next (s.updArr a fun x => { x with stepReg := { x.stepReg with
       count := 0, primes := 0, ends := 0, gidle := 0 } }) ∧
     exec (.gateClear a) s = .next (s.updArr a fun x => { x with gate := { x.gate with
       issues := 0, loc := 0, voided := 0, notable := 0 } }) ∧
     exec (.siphClear c) s = .next (s.updCore c fun x => { x with siph := { x.siph with passes := 0, ops := 0 } }) ∧
     exec (.laneClear c) s = .next (s.updCore c fun x => { x with lane := { x.lane with rounds := 0, stall := 0 } }) ∧
     exec (.poolClear c) s = .next (s.updCore c fun x => { x with pool := { x.pool with sbstall := 0 } }) ∧
     exec (.icacheClear c) s = .next (s.updCore c fun x => { x with icache := { x.icache with misses := 0, parity := 0 } }) ∧
     exec (.dmaClear n) s = .next (s.updCh n fun h => { h with dma := { h.dma with
       granRd := 0, granWr := 0, granRem := 0, slotLost := 0 } }) ∧
     exec (.lchClear n) s = .next (s.updCh n fun h => { h with lch := { h.lch with
       sent := 0, lateSent := 0, dropped := 0, voided := 0, refused := 0, slips := 0, provRef := 0 } }) ∧
     exec (.rpClear n) s = .next (s.updCh n fun h => { h with rp := { h.rp with
       frames := 0, noMatch := 0, tooBig := 0, oType := 0, sent := 0 } }))

/-! ### Resets, bring-up, clocks -/

/-- R54, R122, R125, R117, R160: PORST_N's rise samples the straps, the bootstrap oscillator starts, the fuse read
begins; each leaves the rest. R117, R162, R164–R166: the end of the fuse read takes over the arrays, the grade and the
trims of a word whose check byte, grade and placement hold, and step 4 begins, or under XSEL 0b11 bring-up stops (R123);
any other word stops bring-up with every array off (log 57).
R168–R173: the memory test or the clear pass ends step 6 with every memory at zero, and GO without a logbook lifts every
channel that nothing holds in reset into IDLE. -/
def Obligations.BringUp : Prop :=
  (∀ (s : State) (refsel mbist : Bool) (xsel : BitVec 2),
     (s.eng.porst = false → exec (.porstNRise refsel xsel mbist) s = .next { s with
       eng := { s.eng with porst := true, refsel := refsel, xsel := xsel, mbistEn := mbist }
       boot := { s.boot with stage := 1 }, clk := { s.clk with xselBad := decide (xsel = 3) } }) ∧
     (s.eng.porst = true → s.boot.stage = 1 → s.boot.bootOn = false →
       exec .bootstrapStart s = .next { s with boot := { s.boot with bootOn := true, trim := 0x20 } }) ∧
     (s.boot.bootOn = true → s.boot.stage = 1 → exec .fuseRead s = .next { s with
       boot := { s.boot with stage := 2, fuseBusy := true }, eng := { s.eng with fuseCk := true, fuseLd := true } })) ∧
  (∀ (s : State) (w : BitVec 128), s.boot.fuseBusy = true → s.eng.engrst = true →
     ∃ t, exec (.fuseReadEnd w) s = .next t ∧
       t.eng.fuseCk = false ∧ t.eng.fuseLd = false ∧ t.eng.hpUp = true ∧ t.boot.fuseBusy = false ∧ t.ch = s.ch ∧
       t.flt = s.flt ∧ t.pwr = s.pwr ∧
       (fuseOk w = true →
         t.eng.arrays = w.extractLsb' 0 16 ∧ t.eng.grade = w.extractLsb' 16 2 ∧ t.boot.trim = w.extractLsb' 18 6 ∧
         t.clk.trimOk = true ∧ t.boot.fuseBad = s.boot.fuseBad ∧
         (s.eng.xsel ≠ 3 → t.boot.stage = 3 ∧ t.boot.counting = true) ∧
         (s.eng.xsel = 3 → t.boot.stage = 0xF ∧ t.boot.counting = false) ∧
         (∀ (k : Nat) (x : Sens), s.thm.sens[k]? = some x →
           t.thm.sens[k]? = some { x with trim := w.extractLsb' (8 * k + 24) 8 })) ∧
       (fuseOk w = false →
         t.eng.arrays = 0 ∧ t.eng.grade = 3 ∧ t.boot.fuseBad = true ∧ t.boot.stage = 0xF ∧ t.thm = s.thm)) ∧
  (∀ (s : State) (chFail : BitVec 4),
     (s.boot.stage = 5 → s.eng.mbistEn = false → ∃ t, exec .clearPassEnd s = .next t ∧
       t.boot = { s.boot with stage := 6 } ∧ t.eng = s.eng ∧ t.txn.shadow = [] ∧ t.log.engQ = [] ∧
       ∀ n : ChanId, t.log.chQ.get n = [] ∧ t.chan n = (s.chan n).clearMem) ∧
     (s.boot.stage = 5 → s.eng.mbistEn = true → ∃ t, exec (.memoryTestEnd chFail false) s = .next t ∧
       t.boot.stage = 6 ∧ t.boot.chFail = s.boot.chFail ||| chFail ∧ t.eng.mbistDone = true ∧
       (t.eng.mbistPass = true ↔ chFail = 0) ∧ t.txn.shadow = [] ∧ t.log.engQ = [] ∧
       ∀ n : ChanId, t.log.chQ.get n = [] ∧ t.chan n =
         let c := (s.chan n).clearMem
         if bitOf chFail n.val then { c with ctl := { c.ctl with state := .failed } } else c) ∧
     (∀ (n : ChanId) (k j : Fin 2), let x := ((s.chan n).clearMem.core k)
       x.pool.mem = [] ∧ x.pool.bad = [] ∧ x.lane.tiles = [] ∧ x.lane.store = [] ∧ x.icache.lines = [] ∧
       (x.arr j).reg.weights = [] ∧ (x.arr j).acc.scratch = [] ∧ (x.arr j).acc.entries = [] ∧
       (s.chan n).clearMem.crn.cells = []) ∧
     (s.boot.stage = 5 → s.eng.mbistEn = true → ∃ t, exec (.memoryTestEnd chFail true) s = .next t ∧
       t.boot.stage = 0xF ∧ t.boot.engFail = true ∧ t.eng.mbistPass = false) ∧
     (s.eng.hpReady = true → s.boot.stage = 6 → s.log.size = 0 → s.flt.fatal = false → ∃ t, exec .go s = .next t ∧
       t.boot.stage = 9 ∧ t.boot.survey = 0 ∧ t.boot.log = 0 ∧
       ∀ n : ChanId, bitOf s.boot.chFail n.val = false → bitOf s.eng.chrst n.val = true → bitOf s.pwr.gated n.val = false →
         bitOf s.pwr.gating n.val = false → bitOf s.pwr.ungating n.val = false → (t.chan n).ctl.state = .idle))

/-- R128–R131, R133: the end of a stability count in its window starts the six PLLs, one outside it counts again; a
reference that never settles stops bring-up, and RETRY starts the count anew; a missing edge once the reference is
good is an engine error. R133, R134, R694: a PLL that locks is marked, and the last one to lock ends step 5; one that
does not lock before step 10 stops bring-up, one that does not lock later and one whose lock is lost are the engine
error PLL; the loss of a core PLL halts its channel. The core PLL of a gated channel stays stopped and is not waited
for (R152, log 51). -/
def Obligations.Clocks : Prop :=
  (∀ (s : State) (cycles : Nat),
     (s.boot.counting = true → refInWindow s.eng.xsel s.clk.trimOk cycles = true →
       let clk : Clk := { s.clk with refOk := true, pllOn := 0x3F &&& ~~~((s.pwr.gated &&& ~~~s.pwr.ungating).setWidth 6) }
       exec (.stabilityCountEnd cycles) s = .next { s with
         clk := clk, boot := { s.boot with counting := false, stage := if allLocked clk then 5 else 4 } }) ∧
     (s.boot.counting = true → refInWindow s.eng.xsel s.clk.trimOk cycles = false →
       exec (.stabilityCountEnd cycles) s = .next { s with clk := { s.clk with freqBad := true } }) ∧
     (s.boot.counting = true → exec .refFail s = .next { s with
       clk := { s.clk with refFail := true }, boot := { s.boot with stage := 0xF, counting := false } }) ∧
     (s.eng.hpReady = true → s.clk.refFail = true → exec .retry s = .next { s with
       clk := { s.clk with refFail := false }, boot := { s.boot with stage := 3, counting := true } }) ∧
     (s.clk.refOk = true → s.flt.valid = false → ∃ t, exec .missingEdge s = .next t ∧
       t.clk = { s.clk with refLost := true } ∧ t.flt = { s.flt with valid := true, cause := 0x82, info := 0, more := 0 } ∧
       t.ch = s.ch)) ∧
  (∀ (s : State) (p : Pll) (n : ChanId),
     (bitOf s.clk.pllOn (pllBit p) = true → s.clk.locked p = false → ∃ t, exec (.pllLock p) s = .next t ∧
       t.clk = s.clk.setLock p true ∧ (t.tdc.running = true ↔ s.tdc.running = true ∨ p = .time) ∧
       (s.boot.stage = 4 → t.boot.stage = if allLocked t.clk then 5 else 4)) ∧
     (s.eng.engrst = true → bitOf s.clk.pllOn (pllBit p) = true → s.clk.locked p = false → s.flt.valid = false →
       ∃ t, exec (.pllLockTimeout p) s = .next t ∧ t.clk = { s.clk with pllFail := true } ∧
         t.boot.stage = (if s.boot.stage = 9 then 9 else 0xF) ∧ t.flt.cause = 0x83 ∧ t.flt.valid = true) ∧
     (s.clk.mpllLock = true → s.boot.stage = 9 → s.flt.valid = false → ∃ t, exec (.pllLossOfLock .mem) s = .next t ∧
       t.clk = { s.clk with mpllLock := false } ∧ t.flt.cause = 0x83 ∧ t.flt.valid = true) ∧
     (bitOf s.clk.cpllLock n.val = true → s.boot.stage = 9 → (s.chan n).live = true → (s.chan n).flt.valid = false →
       ∃ t, exec (.pllLossOfLock (.core n)) s = .next t ∧ bitOf t.clk.cpllLock n.val = false ∧
         (t.chan n).flt.cause = 0x55 ∧ (t.chan n).flt.cls = 4 ∧ (t.chan n).flt.haltOrder.isSome = true ∧
         ∀ m, m ≠ n → t.chan m = s.chan m))

/-- R54, R56, R181, R184–R188: PORST_N's fall returns the block to its reset values, inputs apart; ENGRST_N's fall keeps
the fuses' results and returns the engine's registers to reset; CHRST_N's fall holds a live channel in reset.
What the resets leave of registers the rules do not name is the model's reading (log 29). -/
def Obligations.Resets : Prop :=
  ∀ (s : State) (n : ChanId),
    (∃ t, exec .porstNFall s = .next t ∧ t.boot = Boot.reset ∧ t.clk = Clk.reset ∧ t.thm = Thm.reset ∧ t.td = ⟨.reset, .reset⟩ ∧
      t.srv = Srv.reset ∧ t.log = Log.reset ∧ t.flt = FltEng.reset ∧ t.hperr = HpErr.reset ∧ t.eng.porst = false ∧
      t.eng.engrst = s.eng.engrst ∧ t.eng.chrst = s.eng.chrst ∧ t.pwr.vack = s.pwr.vack ∧ t.pwr.pgack = s.pwr.pgack ∧
      ∀ m, (t.chan m).ctl = ChCtl.reset ∧ (t.chan m).cores = ⟨.reset, .reset⟩) ∧
    (s.eng.engrst = true → ∃ t, exec .engrstNFall s = .next t ∧ t.eng.engrst = false ∧ t.eng.grade = s.eng.grade ∧
      t.eng.arrays = s.eng.arrays ∧ t.boot.trim = s.boot.trim ∧ t.boot.chFail = s.boot.chFail ∧ t.eng.hpReady = false ∧
      t.clk.cpllLock = s.clk.cpllLock ∧ t.td = ⟨.reset, .reset⟩ ∧ t.srv = Srv.reset ∧ t.log = Log.reset ∧
      t.flt = FltEng.reset ∧ t.hperr = HpErr.reset ∧ ∀ m, (t.chan m).live = false) ∧
    (s.eng.engrst = false → s.eng.porst = true → s.clk.trimOk = true → s.boot.stage = 0 → s.clk.refOk = false →
      exec .engrstNRise s = .next { s with
        eng := { s.eng with engrst := true, fuseCk := s.boot.fuseBusy, hpUp := true }
        tdc := { s.tdc with running := s.clk.tpllLock }
        boot := { s.boot with stage := 3, counting := true } }) ∧
    ((s.chan n).live = true → ∃ t, exec (.chrstNFall n) s = .next t ∧ (t.chan n).ctl.state = .reset ∧
      bitOf t.eng.chrst n.val = false) ∧
    ((s.chan n).ctl.state = .reset → s.boot.stage = 9 → bitOf s.boot.chFail n.val = false → s.flt.fatal = false →
      bitOf s.pwr.gated n.val = false → bitOf s.pwr.gating n.val = false → bitOf s.pwr.ungating n.val = false →
      ∃ t, exec (.chrstNRise n) s = .next t ∧ (t.chan n).ctl.state = .idle ∧ bitOf t.eng.chrst n.val = true)

/-- R115, R116, R187: reset of the test access port brings its controller to Test-Logic-Reset and selects the 32-bit
IDCODE; an instruction scanned in through the controller, from any of its states, leaves it in Shift-DR with the
register of that instruction captured: the IDCODE for the code 0x01, the BYPASS bit 0 for every other. There TDO shows
bit 0, and a TCK cycle with TMS 0 shifts the register by one bit towards it, TDI entering at its top. -/
def Obligations.TestAccessPort : Prop :=
  ∀ (s : State) (code : Byte) (tdi : Bool),
    let id : Word := BitVec.ofNat 32 (s.eng.stepping.toNat % 16 * 2 ^ 28 + 0x4000 + s.tap.mfr.toNat * 2 + 1)
    let tap (st : TapState) (ir : Byte) (dr : Word) : State :=
      { s with tap := { st := st, ir := ir, irSh := ir, tdr := dr, mfr := s.tap.mfr } }
    exec .tapReset s = .next (tap .testLogicReset 0x01 id) ∧
    exec .idcode s = .next (tap .shiftDr 0x01 id) ∧
    (code = 0x01 → exec (.bypass code) s = exec .idcode s) ∧
    (code ≠ 0x01 → exec (.bypass code) s = .next (tap .shiftDr code 0)) ∧
    (s.tap.st = .shiftDr → s.tdo = some (bitOf s.tap.tdr 0) ∧
      tapClock false tdi s = { s with tap := { s.tap with tdr :=
        if s.tap.ir = 0x01 then s.tap.tdr >>> 1 ||| (if tdi then 0x80000000 else 0) else if tdi then 1 else 0 } }) ∧
    (s.tap.st ≠ .shiftDr → s.tap.st ≠ .shiftIr → s.tdo = none)

/-! ### Supply and thermal -/

/-- R135, R136: a write of CLK_OBS takes DIV and SEL; CKOBS stays low for what is left of its period, counted in the
clock it showed, and then restarts from its high phase: ⌈D/2⌉ cycles high and ⌊D/2⌋ low under the divisor D; it is low
while the selected clock is stopped. R155: a thermal sample is the reading plus the sensor's trim. R156, R157, R159:
at the end of an averaging period every sensor with enough samples shows their truncated mean, where it lies in TEMP's
range; the hottest one moves the thermal ceiling: to OP0 with the engine error THERMAL at CRIT, one point down at HI,
which is counted, one up below LO. A period that ends hot acts each time, and a mean is truncated towards zero (log
31). -/
def Obligations.Thermal : Prop :=
  (∀ (s : State) (data : Word) (k : Fin 6) (raw : BitVec 11),
     (s.eng.hpReady = true → ∃ t, exec (.clkObsWrite data) s = .next t ∧
       t = { s with clk := { s.clk with
         obsDiv := data.extractLsb' 4 12, obsSel := data.extractLsb' 0 4, obsCnt := 0
         obsLeft := t.clk.obsLeft, obsOld := t.clk.obsOld } } ∧
       (s.clk.obsLeft = 0 → obsRuns s s.clk.obsSel.toNat = true →
         t.clk.obsLeft = s.clk.obsDiv.toNat + 1 - s.clk.obsCnt ∧ t.clk.obsOld = s.clk.obsSel) ∧
       (s.clk.obsLeft = 0 → obsRuns s s.clk.obsSel.toNat = false → t.clk.obsLeft = 0) ∧
       (0 < s.clk.obsLeft → t.clk.obsLeft = s.clk.obsLeft ∧ t.clk.obsOld = s.clk.obsOld ∧ t.ckobs = false)) ∧
     (s.ckobs = true ↔ s.clk.obsLeft = 0 ∧ obsRuns s s.clk.obsSel.toNat = true ∧
       s.clk.obsCnt < (s.clk.obsDiv.toNat + 2) / 2) ∧
     (s.clk.obsLeft = 0 → obsRuns s s.clk.obsSel.toNat = true →
       obsCycle (fun _ => true) s = { s with clk := { s.clk with obsCnt := (s.clk.obsCnt + 1) % (s.clk.obsDiv.toNat + 1) } }) ∧
     (0 < s.clk.obsLeft → obsRuns s s.clk.obsOld.toNat = true →
       obsCycle (fun _ => true) s = { s with clk := { s.clk with obsLeft := s.clk.obsLeft - 1 } }) ∧
     (s.boot.bootOn = true → ∀ x, s.thm.sens[k.val]? = some x →
       let y : Sens := { x with samples := (raw.toInt + x.trim.toInt) :: x.samples.take 127 }
       exec (.thermalSample k raw) s = .next { s with thm := { s.thm with sens := s.thm.sens.set k.val y } })) ∧
  (∀ (s : State), s.boot.bootOn = true → s.pwr.thermOp.toNat ≤ 4 →
     let n := 2 ^ s.thm.avg.toNat
     ∃ t, exec .averagingPeriodEnd s = .next t ∧ t.td = s.td ∧ t.thm.sens.length = s.thm.sens.length ∧
       (∀ (k : Nat) (x : Sens), s.thm.sens[k]? = some x →
         (x.samples.length < n → t.thm.sens[k]? = some x) ∧
         (n ≤ x.samples.length → ∃ v : BitVec 11, t.thm.sens[k]? = some { x with valid := true, temp := v } ∧
           let m := (x.samples.take n).sum.tdiv n
           (-1024 ≤ m ∧ m ≤ 1023 → v.toInt = m))) ∧
       let hot := (hottest t.thm.sens).2
       (∀ x, x ∈ t.thm.sens → x.temp.toInt ≤ hot) ∧
       (s.thm.sens ≠ [] → ∃ k x, t.thm.sens[k]? = some x ∧ x.temp.toInt = hot ∧
         (4 * (s.thm.crit.toNat : Int) ≤ hot → s.flt.valid = false →
           t.flt.valid = true ∧ t.flt.cause = 0x84 ∧ t.flt.info = BitVec.ofNat 32 (k + x.temp.toNat * 65536))) ∧
       (4 * (s.thm.crit.toNat : Int) ≤ hot → t.thm.critFlag = true ∧ t.pwr.thermOp = 0) ∧
       (hot < 4 * s.thm.crit.toNat → 4 * (s.thm.hi.toNat : Int) ≤ hot →
         t.pwr.thermOp.toNat = s.pwr.thermOp.toNat - 1 ∧ t.thm.critFlag = s.thm.critFlag ∧ t.flt = s.flt ∧
         t.thm.throttles = if s.pwr.thermOp = 0 then s.thm.throttles else satAdd s.thm.throttles 1) ∧
       (hot < 4 * s.thm.crit.toNat → hot < 4 * s.thm.hi.toNat → hot < 4 * s.thm.lo.toNat → hot < 4 * s.thm.hi.toNat - 4 →
         t.pwr.thermOp.toNat = min 4 (s.pwr.thermOp.toNat + 1) ∧ t.thm.throttles = s.thm.throttles) ∧
       (hot < 4 * s.thm.crit.toNat → hot < 4 * s.thm.hi.toNat →
         4 * (s.thm.lo.toNat : Int) ≤ hot ∨ 4 * (s.thm.hi.toNat : Int) - 4 ≤ hot →
         t.pwr = s.pwr ∧ t.thm.critFlag = s.thm.critFlag))

/-- R110–R112, R142, R148, R694, R695: VACK's rise ends a change of the level; its fall during one is awaited; its fall
at another time and its absence 1 ms after the change are a supply fault, which holds the ceiling at the lower of the
two levels, or at that of an earlier fault where that is lower still, until SUPPLY is cleared. R140–R145: after a change
of a request or the ceiling every ticking channel keeps its code; a gated one takes the lower of its FREQ and the
ceiling's maximum; another takes it at once when that is not above what it runs at or when the level already carries it,
else it keeps its code. VREQ is one of its old value and the demand, and nothing but the channels' code and ramp and the
request changes.
A channel keeps its code while a higher level is awaited, and a gated one does not: the model's reading (log 28). -/
def Obligations.Supply : Prop :=
  (∀ (s : State),
     (s.pwr.waitVack = true → exec .vackRise s = .next (resupply { s with pwr := { s.pwr with vack := true, waitVack := false } })) ∧
     (s.pwr.vack = true → s.pwr.waitVack = true → exec .vackFall s = .next { s with pwr := { s.pwr with vack := false } }) ∧
     (s.pwr.vack = true → s.pwr.waitVack = false → s.flt.valid = false → ∃ t, exec .vackFall s = .next t ∧
       t.pwr.vack = false ∧ (∃ o, t.pwr.supplyOp = some o ∧ o.toNat = (match s.pwr.supplyOp with
         | some p => min p.toNat s.pwr.vreq.toNat
         | none => s.pwr.vreq.toNat)) ∧ t.flt.supply = true ∧ t.flt.valid = true ∧ t.flt.cause = 0x80 ∧
       t.flt.info = BitVec.ofNat 32 (s.pwr.vreq.toNat + 16 * s.pwr.vreq.toNat + 256)) ∧
     (s.pwr.waitVack = true → s.pwr.supplyOp = none → s.flt.valid = false → ∃ t, exec .vackTimeout s = .next t ∧
       (∃ o, t.pwr.supplyOp = some o ∧ o.toNat = min s.pwr.vreqOld.toNat s.pwr.vreq.toNat) ∧ t.flt.supply = true ∧
       t.flt.cause = 0x80 ∧ t.flt.info = BitVec.ofNat 32 (s.pwr.vreqOld.toNat + 16 * s.pwr.vreq.toNat)) ∧
     (s.eng.hpReady = true → exec .supplyClear s = .next (resupply { s with
       flt := { s.flt with supply := false }
       pwr := { s.pwr with supplyOp := none, waitVack := s.pwr.waitVack && !s.pwr.vack } })) ∧
     (∀ v : BitVec 3, s.eng.hpReady = true → v.toNat ≤ 4 →
       exec (.maxOpWrite v) s = .next (resupply { s with pwr := { s.pwr with maxOp := v } })) ∧
     (∀ v : BitVec 3, s.eng.hpReady = true → 4 < v.toNat → exec (.maxOpWrite v) s = .next s)) ∧
  (∀ (s : State) (n : ChanId),
     let t := resupply s
     let c := s.chan n
     let want := min c.ctl.freq.toNat (opCode (ceilingOp s.pwr))
     t.chan n = { c with ctl := { c.ctl with eff := (t.chan n).ctl.eff, ramp := (t.chan n).ctl.ramp } } ∧
     (c.ticking = true → t.chan n = c) ∧
     (c.ticking = false → bitOf s.pwr.gated n.val = true → (t.chan n).ctl.eff.toNat = want ∧ (t.chan n).ctl.ramp = c.ctl.ramp) ∧
     (c.ticking = false → bitOf s.pwr.gated n.val = false →
       ((t.chan n).ctl.eff.toNat = if want < c.ctl.eff.toNat ∨ codeOp want ≤ s.pwr.level then want else c.ctl.eff.toNat)) ∧
     (t.pwr = s.pwr ∨ t.pwr = { s.pwr with vreqOld := s.pwr.vreq, vreq := BitVec.ofNat 3 (demandOp t), waitVack := true }) ∧
     (s.pwr.vack = false ∨ s.pwr.waitVack = true → t.pwr = s.pwr))

/-- R82, R113, R132, R152–R154, R170, R179: the steps of power gating and ungating; PGREQ changes only while the time
PLL is locked, and a FAILED channel stays FAILED while it is not gated. -/
def Obligations.PowerGates : Prop :=
  ∀ (s : State) (n : ChanId),
    (s.eng.hpReady = true → bitOf s.pwr.pg n.val = false → bitOf s.pwr.ungating n.val = false →
      ∃ t, exec (.powerGate n) s = .next t ∧ bitOf t.pwr.pg n.val = true ∧ bitOf t.pwr.gating n.val = true ∧
        (t.chan n).ctl.state = (if bitOf s.boot.chFail n.val then .failed else .reset) ∧
        ((s.chan n).mp.reqs = [] → s.clk.tpllLock = true → bitOf t.pwr.pgreq n.val = true) ∧
        (s.clk.tpllLock = false → t.pwr.pgreq = s.pwr.pgreq) ∧
        ∀ m, m ≠ n → t.chan m = s.chan m) ∧
    (bitOf s.pwr.gating n.val = true → bitOf s.pwr.pgreq n.val = true → bitOf s.pwr.pgHeld n.val = false →
      ∃ t, exec (.pgackRise n) s = .next t ∧ bitOf t.pwr.gated n.val = true ∧ bitOf t.pwr.gating n.val = false ∧
        bitOf t.pwr.pgack n.val = true ∧ bitOf t.clk.pllOn n.val = false ∧ (t.chan n).ctl.state = .gated) ∧
    (s.eng.hpReady = true → bitOf s.pwr.pg n.val = true → bitOf s.pwr.gating n.val = false →
      ∃ t, exec (.ungate n) s = .next t ∧ bitOf t.pwr.pg n.val = false ∧
        (s.clk.tpllLock = true → bitOf t.pwr.pgreq n.val = false) ∧ (s.clk.tpllLock = false → t.pwr.pgreq = s.pwr.pgreq) ∧
        bitOf t.pwr.ungating n.val = true ∧ bitOf t.clk.pllOn n.val = true ∧ t.ch = s.ch) ∧
    (bitOf s.pwr.ungating n.val = true → bitOf s.pwr.gated n.val = true →
      ∃ t, exec (.pgackFall n) s = .next t ∧ bitOf t.pwr.gated n.val = false ∧ bitOf t.pwr.pgack n.val = false ∧
        (t.chan n).ctl.state = (if bitOf s.boot.chFail n.val then .failed else .reset)) ∧
    (bitOf s.pwr.ungating n.val = true → bitOf s.pwr.gated n.val = false → bitOf s.pwr.pgreq n.val = false →
      bitOf s.pwr.pgack n.val = false → bitOf s.clk.cpllLock n.val = true → bitOf s.pwr.pgHeld n.val = false →
      bitOf s.boot.chFail n.val = false → s.flt.fatal = false → s.boot.stage = 9 → bitOf s.eng.chrst n.val = true →
      bitOf s.pwr.gating n.val = false →
      ∃ t, exec (.ungateResetRelease n) s = .next t ∧ bitOf t.pwr.ungating n.val = false ∧ (t.chan n).ctl.state = .idle ∧
        ∀ k : Fin 2, ((t.chan n).core k).pool.mem = []) ∧
    (bitOf s.pwr.pgreq n.val ≠ bitOf s.pwr.pgack n.val → s.flt.valid = false →
      ∃ t, exec (.pgackTimeout n) s = .next t ∧ t.flt.cause = 0x81 ∧ t.flt.valid = true ∧
        t.flt.info = BitVec.ofNat 32 (n.val + 16 * (bitOf s.pwr.pgreq n.val).toNat) ∧ t.ch = s.ch ∧ t.pwr = s.pwr) ∧
    ((s.chan n).ctl.ramp = true → ∃ t, exec (.rampEnd n) s = .next t ∧
      t.chan n = { s.chan n with ctl := { (s.chan n).ctl with ramp := false } } ∧ ∀ m, m ≠ n → t.chan m = s.chan m)

/-! ### Channel start, ticks -/

/-- R174–R178, R180: RUN arms an idle active channel, its clearing disarms an armed one and is noted by a running one;
RELEASE returns a halted or lost channel to IDLE with its registers reset and its part of the survey kept. -/
def Obligations.ChannelControl : Prop :=
  ∀ (s : State) (n : ChanId), s.eng.hpReady = true →
    let c := s.chan n
    let ctl (g : ChCtl → ChCtl) : Out := .next (s.setChan n { c with ctl := g c.ctl })
    (c.ctl.state = .idle → c.cfg.active = true → exec (.runSet n) s = ctl fun x => { x with state := .armed, run := true }) ∧
    (c.ctl.state = .idle → c.cfg.active = false → exec (.runSet n) s = .next s) ∧
    (c.ctl.state = .armed → exec (.runClear n) s = ctl fun x => { x with state := .idle, run := false }) ∧
    (c.ctl.state = .running → exec (.runClear n) s = ctl fun x => { x with runOff := true }) ∧
    (c.ctl.state = .halted ∨ c.ctl.state = .lost → s.flt.fatal = false → s.boot.stage = 9 →
      bitOf s.boot.chFail n.val = false → bitOf s.eng.chrst n.val = true → bitOf s.pwr.gated n.val = false →
      bitOf s.pwr.gating n.val = false → bitOf s.pwr.ungating n.val = false → ∃ t, exec (.release n) s = .next t ∧
        let d := t.chan n
        d.ctl.state = .idle ∧ d.flt = ChFlt.reset ∧ d.port = PortErr.reset ∧ d.lch = Lch.reset ∧ d.crn.cells = [] ∧
        d.crn.cfg = c.crn.cfg ∧ d.cfg = c.cfg ∧ d.ctl.overruns = 0 ∧ d.ctl.commits = 0 ∧ t.flt = s.flt)

/-- R176, R609, R614, R580, R340: at its first tick an armed channel runs, in the slot that τ lies in; every tag clears,
every cairn is recorded, nothing is committed; a core under TRIG 0 begins its list. -/
def Obligations.FirstTick : Prop :=
  ∀ (s : State) (n : ChanId) (sees : List ArrSee), (s.chan n).ctl.state = .armed → quietTick (s.chan n) →
    (∀ e, e ∈ sees → e.see.par = []) →
    ∃ t, exec (.firstTick (n, sees)) s = .next t ∧
      let c := s.chan n
      let d := t.chan n
      let len := 1000000 / 2 ^ c.ctl.mu.toNat
      let at_ := tauNs s / len * len
      d.ctl.state = .running ∧ d.ctl.tauS = at_ ∧ d.ctl.sfn = BitVec.ofNat 10 (at_ / 10000000) ∧
      d.ctl.slot = BitVec.ofNat 8 (at_ % 10000000 / len) ∧ d.ctl.commits = c.ctl.commits ∧ d.ctl.overruns = c.ctl.overruns ∧
      d.crn.cells = mapCairns (fun x => { x with record := x.count, outside := 0 }) c.crn.cells ∧
      (∀ k j : Fin 2, ((d.core k).arr j).acc.entries = mapEntries (fun e => { e with tag := false }) ((c.core k).arr j).acc.entries ∧
        ((d.core k).arr j).acc.gen = ((c.core k).arr j).acc.gen) ∧
      (∀ k : Fin 2, (c.core k).cc.trig = false → (c.core k).cfg.used = true → (c.core k).cc.halt = false →
        bitOf c.flt.quar k.val = false → bitOf c.flt.unquar k.val = false →
        (d.core k).cc.p = (c.core k).cc.ps ∧ (d.core k).cc.pos = 0 ∧
        (d.core k).cc.replays = BitVec.ofNat 32 ((c.core k).cc.replays.toNat + 1)) ∧
      t.td = s.td ∧ t.srv = s.srv ∧ ∀ m, m ≠ n → t.chan m = s.chan m

/-- R611, R340, R527, R580, R609: a tick of a slot that can commit counts it, clears every tag, records the cores'
registers and the cairns, and begins the next slot; no overrun is counted. R612: the gap before a tick holds back replay
starts, and is noted when the slot is not drained. -/
def Obligations.TickCommits : Prop :=
  (∀ (s : State) (n : ChanId) (sees : List ArrSee), (s.chan n).ctl.state = .running → (s.chan n).canCommit = true → quietTick (s.chan n) →
     (s.chan n).tickPend = [] → (s.chan n).lch.frames = [] → (s.chan n).ctl.runOff = false → (s.chan n).ctl.switched = none → (∀ e, e ∈ sees → e.see.par = []) →
     ∃ t, exec (.slotTick n sees) s = .next t ∧
       let c := s.chan n
       let d := t.chan n
       d.ctl.state = .running ∧ d.ctl.commits = BitVec.ofNat 32 (c.ctl.commits.toNat + 1) ∧ d.ctl.overruns = c.ctl.overruns ∧
       d.ctl.tauS = tickInstant s n ∧
       d.crn.cells = mapCairns (fun x => { x with record := x.count, outside := 0 }) c.crn.cells ∧
       (∀ k : Fin 2, (d.core k).cc.saved = (c.core k).cc.r ∧ (d.core k).cc.psCommit = (c.core k).cc.ps ∧
         (d.core k).cc.r = (c.core k).cc.r) ∧
       (∀ k j : Fin 2, ((c.core k).arr j).cfg.used = true →
         ((d.core k).arr j).acc.entries = mapEntries (fun e => { e with tag := false }) ((c.core k).arr j).acc.entries ∧
         ((d.core k).arr j).acc.gen = BitVec.ofNat 32 (((c.core k).arr j).acc.gen.toNat + 1) ∧
         ((d.core k).arr j).acc.scratch = ((c.core k).arr j).acc.scratch) ∧
       t.td = s.td ∧ t.srv = s.srv) ∧
  (∀ (s : State) (n : ChanId), (s.chan n).ctl.state = .running → (s.chan n).ctl.inGap = false →
     let c := s.chan n
     exec (.tickGap n) s =
       .next (s.setChan n { c with ctl := { c.ctl with inGap := true, gap := c.ctl.gap || !c.isDrained } }))

/-- R611, R341, R527, R581: a tick of a slot that cannot commit counts an overrun and rolls the slot back: state entries
written in it read as before, the cores' registers and the cairns return to the recorded values, every queue is empty.
-/
def Obligations.TickOverruns : Prop :=
  ∀ (s : State) (n : ChanId) (sees : List ArrSee), (s.chan n).ctl.state = .running → (s.chan n).isDrained = false → quietTick (s.chan n) →
    (s.chan n).tickPend = [] → (s.chan n).ctl.runOff = false → (s.chan n).flt.rolled = false →
    (s.chan n).flt.haltOrder = none → (s.chan n).flt.lostOrder = false →
    (s.chan n).ctl.switched = none → (∀ e, e ∈ sees → e.see.par = []) →
    ∃ t, exec (.slotTick n sees) s = .next t ∧
      let c := s.chan n
      let d := t.chan n
      d.ctl.state = .running ∧ d.ctl.commits = c.ctl.commits ∧ d.ctl.ovr = true ∧
      d.ctl.overruns = satAdd c.ctl.overruns 1 ∧ d.ctl.tauS = tickInstant s n ∧
      d.crn.cells = mapCairns Cairn.rollback c.crn.cells ∧
      (∀ k : Fin 2, (d.core k).cc.r.x = (c.core k).cc.saved.x ∧ (d.core k).cc.r.a = (c.core k).cc.saved.a ∧
        (d.core k).cc.r.next = (c.core k).cc.saved.next ∧ (d.core k).cc.r.qpend = []) ∧
      (∀ k j : Fin 2, ((c.core k).arr j).cfg.used = true →
        ((d.core k).arr j).acc.entries =
          mapEntries (fun e => if e.tag then { e with cur := !e.cur, tag := false } else e) ((c.core k).arr j).acc.entries ∧
        ((d.core k).arr j).acc.rollbacks = satAdd ((c.core k).arr j).acc.rollbacks 1 ∧
        ((d.core k).arr j).acc.gen = ((c.core k).arr j).acc.gen) ∧
      (∀ q, (d.queue q).waiting = [] ∧ (d.queue q).issued = [])

/-- R295, R296: the snapshot that is due is written by one drip access for each of its five lines whose bank has a drip
slot of the array: its 128 bytes of the snapshot; a bank without one gets none. -/
def Obligations.HistogramWrite : Prop :=
  ∀ (s : State) (a : ArrId),
    let h := (s.arr a).hist
    let core : CoreId := mkCore (arrChan a) (arrCore a)
    let x := s.core core
    (h.due = false → exec (.histogramPoolWrite a) s = .next s) ∧
    (h.due = true → ∃ t, exec (.histogramPoolWrite a) s = .next t ∧ (t.arr a).hist = { h with due := false } ∧
      (t.core core).pool = { x.pool with acc := x.pool.acc ++
        (([0, 1, 2, 3, 4] : List Nat).filter fun i => x.hasSlot (clDrip (arrLoc a)) ((h.line.toNat + i) % 16)).map fun i =>
          { client := clDrip (arrLoc a), line := h.line.toNat + i
            write := some ((List.range 128).map fun b => (128 * (h.line.toNat + i) + b, h.bytes.getD (128 * i + b) 0))
            dest := .hist (arrLoc a) } } ∧
      ∀ m, m ≠ arrChan a → t.chan m = s.chan m)

/-! ### Faults and recovery -/

/-- R39, R666, R673–R677: an error that meets a free capture of its level is captured there, with one FAULT record;
class 2 and 3 order a rollback, class 4 the halt, and nothing else of the channel changes.
One record for an error that is captured is the model's reading (log 19). -/
def Obligations.ErrorRaised : Prop :=
  ∀ (s : State) (n : ChanId) (cause cls : Nat) (info : Word) (addr : Nat),
    let c := s.chan n
    1 ≤ cls → cls ≤ 4 → cause < 256 → c.live = true → c.flt.valid = false → inInterval c = false → s.log.fail = false →
    let t := raise s n { lvl := .chan, cause := cause, cls := cls, info := info, addr := addr }
    let f := (t.chan n).flt
    f.valid = true ∧ f.cause = BitVec.ofNat 8 cause ∧ f.cls = BitVec.ofNat 3 cls ∧ f.origin = 0 ∧ f.info = info ∧ f.more = 0 ∧
    f.tag = slotTag s n ∧ f.esc = false ∧ (f.rbOrder = true ↔ c.flt.rbOrder = true ∨ cls = 2 ∨ cls = 3) ∧
    (cls = 4 → f.haltOrder.isSome = true) ∧ (cls ≠ 4 → f.haltOrder = c.flt.haltOrder) ∧ f.lostOrder = c.flt.lostOrder ∧
    t.chan n = { c with flt := f } ∧ t.eng = s.eng ∧ t.flt = s.flt ∧ (∀ m, m ≠ n → t.chan m = s.chan m) ∧
    ∃ r, t.log.chQ.get n = s.log.chQ.get n ++ [r] ∧ r.kind = 0x03 ∧ r.src = BitVec.ofNat 8 n.val ∧ r.payload.length = 40

/-- R667, R341, R527, R550, R581: an ordered rollback between ticks discards the channel's commands and returns state
entries, registers and cairns to the last commit; the channel goes on. -/
def Obligations.RollbackActs : Prop :=
  ∀ (s : State) (n : ChanId) (sees : List ArrSee),
    let c := s.chan n
    (∀ e, e ∈ sees → e.see.par = []) → c.live = true → c.flt.rbOrder = true → c.flt.haltOrder = none → c.flt.lostOrder = false →
    ∃ t, exec (.channelRollback n sees) s = .next t ∧
      let d := t.chan n
      d.flt.rbOrder = false ∧ d.flt.rolled = true ∧ d.ctl.state = c.ctl.state ∧ d.ctl.commits = c.ctl.commits ∧
      d.ctl.overruns = c.ctl.overruns ∧ d.crn.cells = mapCairns Cairn.rollback c.crn.cells ∧
      (∀ q, (d.queue q).waiting = [] ∧ (d.queue q).issued = []) ∧
      (∀ k : Fin 2, (d.core k).cc.r.x = (c.core k).cc.saved.x ∧ (d.core k).cc.r.a = (c.core k).cc.saved.a ∧
        (d.core k).cc.list = false ∧ (d.core k).cc.p = (c.core k).cc.p ∧
        ((c.core k).siph.run = none → (d.core k).pool.mem = (c.core k).pool.mem)) ∧
      (∀ k j : Fin 2, ((d.core k).arr j).acc.entries =
          mapEntries (fun e => if e.tag then { e with cur := !e.cur, tag := false } else e) ((c.core k).arr j).acc.entries ∧
        ((d.core k).arr j).acc.scratch = ((c.core k).arr j).acc.scratch ∧ ((d.core k).arr j).passes = []) ∧
      ∀ m, m ≠ n → t.chan m = s.chan m

/-- R537, R669, R670: an ordered halt rolls the slot back, stops both cores, the one that caused it with its reason, and
leaves the channel HALTED; CH_LOST holds it. R556, R691–R693: a channel that has been still for 4,096 cc halts with
DEADLOCK, and CH_DLk names each wait that stands. -/
def Obligations.ChannelStops : Prop :=
  (∀ (s : State) (n : ChanId) (reason : Byte) (who : Option (Fin 2)) (sees : List ArrSee),
     let c := s.chan n
     c.live = true → (∀ e, e ∈ sees → e.see.par = []) →
     (c.flt.haltOrder = some (reason, who) → c.flt.lostOrder = false → ∃ t, exec (.halt n sees) s = .next t ∧
       let d := t.chan n
       d.ctl.state = .halted ∧ d.flt.haltOrder = none ∧ d.ctl.runOff = false ∧ d.tickPend = [] ∧
       (∀ k : Fin 2, (d.core k).cc.halt = true ∧ ((c.core k).cc.halt = false →
         (d.core k).cc.reason = if who = none ∨ who = some k then reason else 0)) ∧
       (∀ q, (d.queue q).waiting = [] ∧ (d.queue q).issued = []) ∧ ∀ m, m ≠ n → t.chan m = s.chan m) ∧
     (c.flt.lostOrder = true → ∃ t, exec (.chLost n) s = .next t ∧ (t.chan n).ctl.state = .lost ∧
       (∀ q, ((t.chan n).queue q).waiting = [] ∧ ((t.chan n).queue q).issued = []) ∧ ∀ m, m ≠ n → t.chan m = s.chan m)) ∧
  (∀ (s : State) (n : ChanId),
     let c := s.chan n
     c.still = true → c.flt.haltOrder = none → c.flt.valid = false → inInterval c = false →
     ∃ t, exec (.deadlock n) s = .next t ∧
       let f := (t.chan n).flt
       f.swCount = 4096 ∧ f.valid = true ∧ f.cause = 0x34 ∧ f.cls = 4 ∧ f.info = BitVec.ofNat 32 c.standing.length ∧
       f.haltOrder = some (0x34, none) ∧ f.dl.length = 19 ∧
       (∀ x : Nat × Bool × BitVec 17 × BitVec 24, x.1 < 19 → c.standing.find? (fun y => y.1 == x.1) = some x →
         f.dl[x.1]? = some (true, x.2.1, x.2.2.1, x.2.2.2)) ∧
       (t.chan n).cores = c.cores ∧ ∀ m, m ≠ n → t.chan m = s.chan m)

/-- R681–R687: both comparators flagging is CORE_MISMATCH: it is charged, and a second charge quarantines the core with
the class raised to 3; a self-test that found its mismatch ends, and one that missed it is CMP_SELFTEST. R690, R700: the
driver halts an armed or running channel with DRIVER_HALT; ones written to CH_QUAR.CORE and CH_QWIN release cores and
windows at once while no tick is generated. -/
def Obligations.UnitsOutOfUse : Prop :=
  (∀ (s : State) (c : CoreId) (stage : BitVec 2) (output : Bool) (offset : Word),
     let n := coreChan c
     let k := coreLoc c
     let f := (s.core c).flt
     (s.chan n).live = true → f.valid = false → inInterval (s.chan n) = false → f.cmpaOff = false → f.cmpbOff = false →
     (∃ t, exec (.lockstepChecking c ⟨true, true, false, stage, output, offset⟩) s = .next t ∧
       let g := (t.core c).flt
       g.valid = true ∧ g.cause = 0x30 ∧ g.info = offset ∧ g.charges = satAdd f.charges 1 ∧
       g.cls = (if f.charges = 0 then 2 else 3) ∧ (t.chan n).flt.rbOrder = true ∧
       (bitOf (t.chan n).flt.quar k.val = true ↔ bitOf (s.chan n).flt.quar k.val = true ∨ f.charges ≠ 0) ∧
       (t.core c).pool = (s.core c).pool) ∧
     ((s.chan n).ctl.state = .running → f.testing = true →
       exec (.cmpSelftest c 0) s = .next (s.updCore c fun x => { x with flt := { x.flt with testing := false } })) ∧
     ((s.chan n).ctl.state = .running → f.testing = true → ∃ t, exec (.cmpSelftest c 1) s = .next t ∧
       let g := (t.core c).flt
       g.testing = false ∧ g.valid = true ∧ g.cause = 0x33 ∧ g.info = 1 ∧ g.misses = satAdd f.misses 1 ∧ g.cmpbOff = false ∧
       (g.cmpaOff = true ↔ (s.chan n).cfg.selftest = true) ∧ g.cls = (if (s.chan n).cfg.selftest then 1 else 4))) ∧
  (∀ (s : State) (n : ChanId) (cores : BitVec 2) (wins : Word),
     let c := s.chan n
     s.eng.hpReady = true →
     (c.ctl.state = .armed ∨ c.ctl.state = .running → c.flt.valid = false → inInterval c = false →
       ∃ t, exec (.driverHalt n) s = .next t ∧ (t.chan n).flt.cause = 0x56 ∧ (t.chan n).flt.cls = 4 ∧
         (t.chan n).flt.haltOrder.isSome = true ∧ (t.chan n).cores = c.cores ∧ ∀ m, m ≠ n → t.chan m = s.chan m) ∧
     (c.ticking = false → c.flt.unquar = 0 → ∃ t, exec (.quarantineRelease n cores wins) s = .next t ∧
       (t.chan n).flt.qwin = c.flt.qwin &&& ~~~wins ∧ (t.chan n).flt.quar = c.flt.quar &&& ~~~cores ∧
       (∀ k : Fin 2, bitOf cores k.val = true → bitOf c.flt.quar k.val = true → ((t.chan n).core k).flt.charges = 0) ∧
       ∀ m, m ≠ n → t.chan m = s.chan m) ∧
     (c.ticking = true → exec (.quarantineRelease n cores wins) s = .next (s.setChan n { c with flt := { c.flt with
       qwin := c.flt.qwin &&& ~~~wins, unquar := c.flt.unquar ||| (cores &&& c.flt.quar) } })))

/-! ### Survey and logbook -/

/-- R227, R228, R231, R232, R237, R244: BEGIN opens a transaction on a copy of the image, the data window and txn-access
writes change its shadow, COMMIT closes it for validation, ROLLBACK ends it and keeps the image.
A command with no transaction to act on changes nothing (log 4). -/
def Obligations.SurveyTransaction : Prop :=
  ∀ (s : State) (empty now : Bool) (data : Word) (type scope : BitVec 16) (offset : Nat) (bytes : List Byte) (x : Sec),
    s.eng.hpReady = true →
    let v := s.srv
    let img := if empty then [] else imageBytes s
    let at_ (i : Nat) : Byte := smGet 0 s.txn.shadow (4 * v.addr.toNat + i)
    (v.state = .idle → exec (.begin empty) s = .next { s with
      srv := { v with state := .open, txn := v.txn + 1, result := 0, notReady := 0, affected := 0, tries := 0
                      len := BitVec.ofNat 23 img.length }
      txn := { Txn.reset with image := s.txn.image, shadow := smSetList 0 [] 0 img } }) ∧
    (v.state ≠ .idle → exec (.begin empty) s = .next s) ∧
    (v.state = .open → exec (.srvDataWrite data) s = .next { s with
      srv := { v with addr := v.addr + 1, len := BitVec.ofNat 23 (max v.len.toNat (4 * v.addr.toNat + 4)) }
      txn := { s.txn with shadow := smSetList 0 s.txn.shadow (4 * v.addr.toNat) (natLe 4 data.toNat) } }) ∧
    (v.state = .open → exec .srvDataRead s = .next { s with
      srv := { v with addr := v.addr + 1 }
      eng := { s.eng with rValid := true, rData := at_ 3 ++ at_ 2 ++ at_ 1 ++ at_ 0, rCode := 0 } }) ∧
    (v.state = .open → (imgSecs (shadowImage s)).1.find? (fun y => y.type == type.toNat && y.scope == scope.toNat) = some x →
      offset + bytes.length ≤ x.blen → (x.body.drop offset).take bytes.length ≠ bytes → bytes ≠ [] →
      exec (.txnWrite type scope offset bytes) s = .next { s with txn := { s.txn with
        shadow := smSetList 0 s.txn.shadow (x.off + 12 + offset) bytes, txnWrote := true
        dirty := if s.txn.dirty.contains (x.type, x.scope) then s.txn.dirty else s.txn.dirty ++ [(x.type, x.scope)] } }) ∧
    (v.state = .open → v.applyNs.toNat < 1000000000 → s.log.fail = false →
      exec (.commit now) s = .next { s with
        srv := { v with state := .validating }
        txn := { s.txn with
          shadow := if s.txn.txnWrote then smSetList 0 [] 0 (reseal (shadowImage s) s.txn.dirty) else s.txn.shadow
          applyNs := if now then none else some (v.applySec.toNat * 1000000000 + v.applyNs.toNat) } }) ∧
    (v.state ≠ .idle → s.txn.committing = false → s.txn.ready = none → ∃ t, exec .rollback s = .next t ∧
      t.srv = { v with state := .idle, result := 2, done := true } ∧ t.txn.image = s.txn.image ∧ t.txn.shadow = [] ∧
      t.ch = s.ch ∧ t.td = s.td)

/-- R222, R233–R242, R246, R247: validation ends in REJECTED with the finding, TOO_BIG, LOGGING, or without a logbook in
PENDING; the sample notes which affected channels are ready; at the common instant the image takes effect if none stands
against it, else the attempt is counted and set again after it or given up.
What falls together is ordered as in log 23. -/
def Obligations.SurveyTakesEffect : Prop :=
  ∀ (s : State),
    let v := s.srv
    let img := shadowImage s
    let hit (n : ChanId) : Bool := bitOf v.affected n.val
    let bad (r : BitVec 4) (n : ChanId) : Bool := hit n && (!bitOf r n.val || bitOf s.txn.cancelled n.val ||
      ((s.chan n).ticking && !(s.chan n).canCommit))
    let planned : Prop := v.state = .pending ∧ s.txn.planned = true
    let inEffect (t : State) : Prop := t.txn.image = some img ∧ t.srv.instant = v.instant ∧ t.srv.tries = satAdd v.tries 1 ∧
      (∀ n : ChanId, (t.chan n).cfg = (imgOf img).chCfg n.val) ∧
      (s.log.size = 0 → t.srv.state = .idle ∧ t.srv.result = 1 ∧ t.srv.done = true) ∧
      (s.log.size ≠ 0 → t.srv.state = .pending ∧ t.txn.committing = true)
    (∀ reason type pos, v.state = .validating → imgFail img (imgEnv s) = some (reason, type, pos) →
      exec .validationEnd s = .next { s with srv := { v with
        state := .open, result := 3, done := true, chkType := BitVec.ofNat 16 type, chkReason := BitVec.ofNat 8 reason
        chkPos := BitVec.ofNat 22 pos } }) ∧
    (v.state = .validating → imgFail img (imgEnv s) = none → s.log.fail = false → ∃ t, exec .validationEnd s = .next t ∧
      t.srv.chkReason = 0 ∧ t.ch = s.ch ∧ t.txn.image = s.txn.image ∧
      (s.log.size ≠ 0 → 3 * s.log.halfRecs < 8 * (imgNrec img + 4) → t.srv.state = .open ∧ t.srv.result = 4) ∧
      (s.log.size ≠ 0 → 8 * (imgNrec img + 4) ≤ 3 * s.log.halfRecs → t.srv.state = .logging ∧
        t.srv.affected = affectedBy (imageBytes s) img) ∧
      (s.log.size = 0 → t.srv.state = .pending ∧ t.txn.planned = true ∧ t.srv.affected = affectedBy (imageBytes s) img ∧
        ((∀ n : ChanId, (s.chan n).ticking = false) →
          t.srv.instant = max (tauCeil s + 2000) (s.txn.applyNs.getD 0) ∧ t.txn.slotLen = 0))) ∧
    (planned → s.txn.slotLen ≠ 0 → s.txn.ready = none → ∃ m, exec .surveyBarrierSample s = .next { s with txn := { s.txn with
        ready := some m, cancelled := 0 } } ∧ ∀ n : ChanId, bitOf m n.val = (hit n && (s.chan n).ready)) ∧
    (∀ r, planned → s.txn.ready = some r → (∀ n, bad r n = false) → ∃ t, exec .commonInstant s = .next t ∧ inEffect t) ∧
    (∀ r, planned → s.txn.ready = some r → (∃ n, bad r n = true) → s.txn.rbHeld = false → ∃ t,
      exec .commonInstant s = .next t ∧
      (∀ n : ChanId, bitOf t.srv.notReady n.val = bad r n) ∧ t.srv.tries = satAdd v.tries 1 ∧
      (v.tries.toNat = v.retry.toNat → t.srv.state = .idle ∧ t.srv.result = 5 ∧ t.txn.image = s.txn.image ∧ t.ch = s.ch) ∧
      (v.tries.toNat < v.retry.toNat → ∀ n, hit n = true → (s.chan n).ticking = true →
        t.srv.state = .pending ∧ t.txn.image = s.txn.image ∧ t.ch = s.ch ∧ t.txn.ready = none ∧
        v.instant < t.srv.instant ∧ t.srv.instant % t.txn.slotLen = 0 ∧ slotNs (s.chan n).ctl.mu.toNat ≤ t.txn.slotLen)) ∧
    (planned → s.txn.slotLen = 0 → (∀ n, hit n = true → (s.chan n).ticking = false) → ∃ t,
      exec .applyTimeReached s = .next t ∧ inEffect t)

/-- R38, R249–R257, R261: a record is issued with the next SEQ into the half in use; a compaction writes a snapshot into
the other half; the commands of LOG_CTRL.
Records queue while RUN is 0 too (log 18). -/
def Obligations.LogbookWriter : Prop :=
  ∀ (s : State) (r : LogRec) (rest : List LogRec),
    let l := s.log
    let log (x : Log) : Out := .next { s with log := x }
    let begun (t : State) : Prop := t.log.compacting = true ∧ t.log.snapHalf = (!l.half) ∧ t.log.snapFirst = l.next ∧
      t.log.snapshot.length = imgNrec (imageBytes s) + 3 ∧ t.log.trigger = false ∧ t.log.inflight = l.inflight ∧
      t.log.half = l.half ∧ t.log.fill = l.fill ∧ t.srv = s.srv ∧ t.ch = s.ch
    let rec_ (kind : Byte) (payload : List Byte) : LogRec :=
      { kind := kind, src := 0x0F, sec := (s.td.get 0).sec, ns := (s.td.get 0).ns, payload := payload }
    (logReady s = true → l.compacting = false → l.trigger = false → s.srv.state ≠ .logging → l.fill.toNat < l.halfRecs →
      l.engQ = r :: rest → isFatalRec r = false → ∃ t, exec .logRecordWrite s = .next t ∧
      t.log.inflight = l.inflight ++ [(if r.kind = 0x02 then .commit (BitVec.ofNat 32 (le r.payload 0 4)) else .plain,
        l.granule l.half l.fill.toNat, recBytes l.next r)] ∧
      t.log.next = l.next + 1 ∧ t.log.fill = l.fill + 1 ∧ t.log.engQ = rest ∧ t.log.chQ = l.chQ ∧ t.srv = s.srv ∧
      t.ch = s.ch) ∧
    (l.interval ≠ 0 → l.run = true → l.compacting = false → srvBusy s = false → l.size ≠ 0 →
      ∃ t, exec .compactionInterval s = .next t ∧ begun t) ∧
    (s.eng.hpReady = true → l.run = true → l.compacting = false → srvBusy s = false → l.size ≠ 0 →
      ∃ t, exec .compact s = .next t ∧ begun t) ∧
    (s.eng.hpReady = true → l.run = true → l.compacting = true ∨ srvBusy s = true →
      exec .compact s = log { l with trigger := true }) ∧
    (s.eng.hpReady = true → s.boot.stage = 9 → l.size ≠ 0 → ∃ t, exec .restart s = .next t ∧ t.log.fail = false ∧
      t.log.run = true ∧ t.log.compacting = true ∧ t.log.snapHalf = false ∧ t.log.next = l.next ∧ t.ch = s.ch) ∧
    (s.eng.hpReady = true → l.size = 0 → exec .restart s = log { l with fail := false }) ∧
    (s.eng.hpReady = true → l.fail = false → exec .checkpoint s = log { l with engQ := l.engQ ++ [rec_ 0x05
      (natLe 4 s.thm.throttles.toNat ++ natLe 4 (s.chan 0).ctl.overruns.toNat ++ natLe 4 (s.chan 1).ctl.overruns.toNat ++
       natLe 4 (s.chan 2).ctl.overruns.toNat ++ natLe 4 (s.chan 3).ctl.overruns.toNat ++ natLe 4 (s.chan 0).peer.dups.toNat ++
       natLe 4 (s.chan 1).peer.dups.toNat ++ natLe 4 (s.chan 2).peer.dups.toNat ++ natLe 4 (s.chan 3).peer.dups.toNat ++
       natLe 4 0)] }) ∧
    (s.eng.hpReady = true → l.fail = false → exec .trim s = log { l with engQ := l.engQ ++ [rec_ 0x04
      (natLe 8 (s.td.get 0).inc ++ natLe 8 (s.td.get 1).inc ++ natLe 4 s.cal.offset.toNat ++ List.replicate 20 0)] }) ∧
    (s.eng.hpReady = true → l.fail = true →
      exec .checkpoint s = log { l with dropped := satAdd l.dropped 1 } ∧ exec .trim s = log { l with dropped := satAdd l.dropped 1 }) ∧
    (s.eng.hpReady = true → l.run = true → l.inflight ≠ [] → exec .logHalt s = log { l with haltReq := true }) ∧
    (s.eng.hpReady = true → l.run = true → l.inflight = [] → ∃ t, exec .logHalt s = .next t ∧ t.log.run = false ∧
      t.log.compacting = false ∧ t.log.engQ = l.engQ ∧ t.log.chQ = l.chQ ∧ t.log.next = l.next ∧ t.ch = s.ch)

/-- R68–R71, R246, R256, R258, R259: a completed write leaves the queue and brings about what it was for: the end of a
commit, the switch of halves; a failed one, or one not answered in time, stops the logbook and a transaction under way.
A record read in recovery is kept and the next one asked for; a failed read ends recovery without a survey.
Late completions are counted off (log 33). -/
def Obligations.InitiatorAnswers : Prop :=
  ∀ (s : State) (d : LogDest) (g : BitVec 42) (b data : List Byte) (rest : List (LogDest × BitVec 42 × List Byte)),
    let l := s.log
    let failed (t : State) : Prop := t.log.fail = true ∧ t.log.run = false ∧ t.log.compacting = false ∧
      t.log.inflight = rest ∧ (srvBusy s = true → t.srv.state = .idle ∧ t.srv.result = 6 ∧ t.srv.done = true) ∧ t.ch = s.ch
    let unread (t : State) : Prop := t.boot.stage = 9 ∧ t.boot.log = 3 ∧ t.boot.survey = 0 ∧ t.log.fail = true ∧
      t.log.run = false ∧ t.recov.reading = none ∧ t.recov.got = []
    (l.inflight = (d, g, b) :: rest → l.haltReq = false → s.flt.fatal = false → s.recov.lateW = 0 → s.recov.staleW = 0 →
      (d = .plain → exec (.initiatorWriteCompletion true) s = .next { s with log := { l with inflight := rest } }) ∧
      (d = .commit s.srv.txn → s.txn.committing = true → ∃ t, exec (.initiatorWriteCompletion true) s = .next t ∧
        t.srv.state = .idle ∧ t.srv.result = 1 ∧ t.log.inflight = rest ∧ t.txn.image = s.txn.image ∧ t.ch = s.ch) ∧
      (∀ k, d = .commit k → k ≠ s.srv.txn → exec (.initiatorWriteCompletion true) s = .next { s with
        log := { l with inflight := rest } }) ∧
      (d = .marker → l.compacting = true → l.trigger = false → exec (.initiatorWriteCompletion true) s = .next { s with
        log := { l with inflight := rest, compacting := false, half := l.snapHalf
                        fill := BitVec.ofNat 17 (l.next - l.snapFirst).toNat } }) ∧
      (∃ t, exec (.initiatorWriteCompletion false) s = .next t ∧ failed t) ∧
      (∃ t, exec (.initiatorTimeout true) s = .next t ∧ failed t ∧ t.recov.lateW = 1)) ∧
    (0 < s.recov.lateW → exec (.initiatorWriteCompletion true) s = .next { s with recov := { s.recov with
      lateW := s.recov.lateW - 1 } }) ∧
    (data.length = 64 → s.recov.lateR = 0 → s.recov.staleR = 0 → s.recov.got = [] → s.recov.reading = some 0 →
      0 < l.halfRecs → exec (.initiatorReadCompletion true data) s = .next { s with recov := { s.recov with
        got := [(0, data)], reading := some l.halfRecs } }) ∧
    (∀ i, data.length = 64 → s.recov.lateR = 0 → s.recov.staleR = 0 → s.recov.reading = some i →
      (∃ t, exec (.initiatorReadCompletion false data) s = .next t ∧ unread t) ∧
      (∃ t, exec (.initiatorTimeout false) s = .next t ∧ unread t ∧ t.recov.lateR = 1))

/-! ### Time -/

/-- R598–R601, R606–R608: a tc takes over a new increment, adds the increment to each domain, carries out a step that
waits, and moves φ towards 0 by 10⁻⁵ of the followed domain's increment. R602: PPS_OUT rises in the tc in which the
followed domain's seconds change. SET and ADJ of a domain that no tick time follows wait for the next tc; those of the
followed one act at once within TD_SWITCH_MAX; beyond it they are refused, or forced: φ is 0 then, and every running
channel ticks next at its first tick instant at least half a slot away. INC_FRAC is held, INC_INT takes the held
fraction with it, and a read of NS latches the rest. When a step of an unfollowed domain acts is the model's reading
(log 30). -/
def Obligations.TimeDomains : Prop :=
  ∀ (s : State) (d : Fin 2) (force : Bool) (w : Word),
    let x := s.td.get d
    let put (y : Td) : State := { s with td := s.td.set d y }
    let total (t : Td) : Int := ((t.sec.toNat * 1000000000 + t.ns.toNat : Nat) : Int) * 2 ^ 32 + t.frac.toNat
    let wrap : Int := 2 ^ 48 * 1000000000 * 2 ^ 32
    let incs : BitVec 2 × Word := x.incNext.getD (x.incInt, x.incFrac)
    let inc : Nat := incs.1.toNat * 2 ^ 32 + incs.2.toNat
    let followed : Prop := d = s.tdc.ticksel ∧ ∃ n : ChanId, (s.chan n).ctl.state = .running
    let max_ : Int := s.tdMax * 100000 * 2 ^ 32
    let forced (t : State) : Prop := t.tdc = { s.tdc with phi := 0 } ∧
      ∀ n : ChanId, ((s.chan n).ctl.state ≠ .running → t.chan n = s.chan n) ∧
        ((s.chan n).ctl.state = .running → (s.chan n).ctl.mu.toNat ≤ 4 → ∃ a : Nat,
          t.chan n = { s.chan n with ctl := { (s.chan n).ctl with forcedTick := some a } } ∧
          let len := 1000000 / 2 ^ (s.chan n).ctl.mu.toNat
          let from_ : Int := 2 * total (t.td.get d) + len * 2 ^ 32
          a % len = 0 ∧ from_ ≤ 2 * a * 2 ^ 32 ∧ 2 * ((a : Int) - len) * 2 ^ 32 < from_)
    (s.tdc.running = true → s.clk.tpllLock = true → ∃ t, exec .tcIncrement s = .next t ∧
      ((t.td.get d).incInt, (t.td.get d).incFrac) = incs ∧ (t.td.get d).incNext = none ∧ (t.td.get d).stepNext = none ∧
      (x.stepNext = none →
        (total (t.td.get d) - (total x + inc)) % wrap = 0 ∧ (t.td.get d).ns.toNat < 1000000000) ∧
      (∀ a, x.stepNext = some (.add a) →
        (total (t.td.get d) - (total x + inc + a * 2 ^ 32)) % wrap = 0 ∧ (t.td.get d).ns.toNat < 1000000000) ∧
      (∀ sec ns, x.stepNext = some (.load sec ns) →
        (t.td.get d).sec = sec ∧ (t.td.get d).ns = ns ∧ (t.td.get d).frac = 0) ∧
      (d = s.tdc.ticksel →
        t.tdc.phi = (if 0 ≤ s.tdc.phi then max 0 (s.tdc.phi - inc) else min 0 (s.tdc.phi + inc)) ∧
        t.tdc.lastSec = (t.td.get d).sec ∧
        (t.tdc.ppsOut = true ↔ s.tdc.ppsw ≠ 0 ∧ (s.tdc.ppsOut = true ∨ (t.td.get d).sec ≠ s.tdc.lastSec))) ∧
      t.tdc.ticksel = s.tdc.ticksel ∧ t.ch = s.ch ∧ t.srv = s.srv) ∧
    (s.eng.hpReady = true →
      exec (.tdIncFracWrite d w) s = .next (put { x with heldFrac := some w }) ∧
      (w.setWidth 2 ≠ (0 : BitVec 2) → exec (.tdIncIntWrite d w) s =
        .next (put { x with heldFrac := none, incNext := some (w.setWidth 2, x.heldFrac.getD x.incFrac) })) ∧
      (w.setWidth 2 = (0 : BitVec 2) → exec (.tdIncIntWrite d w) s = .next (put { x with heldFrac := none })) ∧
      exec (.tdNsRead d) s = .next { put { x with latSec := x.sec, latFrac := x.frac } with
        eng := { s.eng with rValid := true, rData := x.ns, rCode := 0 } } ∧
      (s.tdc.running = false → exec (.tdSet d force) s = .next s ∧ exec (.tdAdj d force) s = .next s) ∧
      (s.tdc.running = true → x.setNs.toNat < 1000000000 → ¬ followed →
        exec (.tdSet d force) s = .next (put { x with stepNext := some (.load x.setSec x.setNs) })) ∧
      (s.tdc.running = true → 1000000000 ≤ x.setNs.toNat → exec (.tdSet d force) s = .next s) ∧
      (s.tdc.running = true → ¬ followed →
        exec (.tdAdj d force) s = .next (put { x with stepNext := some (.add x.adj.toInt) })) ∧
      (s.tdc.running = true → x.setNs.toNat < 1000000000 → followed →
        let y : Td := { x with sec := x.setSec, ns := x.setNs, frac := 0 }
        let by_ := (total y - total x) * 100000
        (-max_ ≤ s.tdc.phi + by_ → s.tdc.phi + by_ ≤ max_ → exec (.tdSet d force) s =
          .next { put y with tdc := { s.tdc with phi := s.tdc.phi + by_ } }) ∧
        (s.tdc.phi + by_ < -max_ ∨ max_ < s.tdc.phi + by_ →
          exec (.tdSet d false) s = .next { s with tdc := { s.tdc with refused := true } } ∧
          ∃ t, exec (.tdSet d true) s = .next t ∧ t.td = s.td.set d y ∧ forced t)) ∧
      (s.tdc.running = true → followed →
        let by_ := x.adj.toInt * 2 ^ 32 * 100000
        let added (t : State) : Prop := ∃ sec ns, t.td = s.td.set d { x with sec := sec, ns := ns } ∧ ns.toNat < 1000000000 ∧
          (total (t.td.get d) - total x - x.adj.toInt * 2 ^ 32) % wrap = 0
        (-max_ ≤ s.tdc.phi + by_ → s.tdc.phi + by_ ≤ max_ → ∃ t, exec (.tdAdj d force) s = .next t ∧ added t ∧
          t.tdc = { s.tdc with phi := s.tdc.phi + by_ } ∧ t.ch = s.ch) ∧
        (s.tdc.phi + by_ < -max_ ∨ max_ < s.tdc.phi + by_ →
          exec (.tdAdj d false) s = .next { s with tdc := { s.tdc with refused := true } } ∧
          ∃ t, exec (.tdAdj d true) s = .next t ∧ added t ∧ forced t)))

/-- R602, R605, R607, R622, R623: a pulse is captured from both domains; a held switch takes place when it fits, or is
forced, when every running channel ticks next at its first tick instant at least half a slot away; the calendar's date
and time of day, 0 outside its range, are latched at a read of CAL_DATE; CAL_SET asks for a SET of TD0 to a valid date
that the steps of R606 allow, and is else rejected. A row with nothing to do changes nothing (log 4); of several reasons
the first of the table is given (log 30). -/
def Obligations.PulsesAndCalendar : Prop :=
  ∀ (s : State) (force : Bool),
    let c := s.tdc
    let h := c.heldTo
    let anyRun : Prop := ∃ n : ChanId, (s.chan n).ctl.state = .running
    let gap := tdDelta s h
    let max_ : Int := s.tdMax * 100000 * 2 ^ 32
    let date := s.cal.setDate
    let time := s.cal.setTime
    let y := fld date 16 16
    let m := fld date 8 8
    let sec : Int := (calDays y m (fld date 0 8) * 86400 + fld time 16 8 * 3600 + fld time 8 8 * 60 + fld time 0 8 : Nat) -
      s.cal.offset.toInt
    let valid : Prop := 1970 ≤ y ∧ y ≤ 9999 ∧ 1 ≤ m ∧ m ≤ 12 ∧ 1 ≤ fld date 0 8 ∧ fld date 0 8 ≤ monthDays y m ∧
      fld time 16 8 ≤ 23 ∧ fld time 8 8 ≤ 59 ∧ fld time 0 8 ≤ 59
    let total (t : Td) : Int := ((t.sec.toNat * 1000000000 + t.ns.toNat : Nat) : Int) * 2 ^ 32 + t.frac.toNat
    let utc : Int := (s.td.c0.sec.toNat : Int) + s.cal.offset.toInt
    let rejected : Cal := { s.cal with reject := true }
    let reject (r : BitVec 3) : Out := .next { s with cal := { rejected with reason := r } }
    (c.running = true → s.clk.tpllLock = true →
      exec (.ppsCapture 0) s = .next { s with
        td := ⟨{ s.td.c0 with cap0Ns := s.td.c0.ns, cap0Sec := s.td.c0.sec.setWidth 32 },
               { s.td.c1 with cap0Ns := s.td.c1.ns, cap0Sec := s.td.c1.sec.setWidth 32 }⟩
        tdc := { c with cap0 := true } } ∧
      exec (.ppsCapture 1) s = .next { s with
        td := ⟨{ s.td.c0 with cap1Ns := s.td.c0.ns, cap1Sec := s.td.c0.sec.setWidth 32 },
               { s.td.c1 with cap1Ns := s.td.c1.ns, cap1Sec := s.td.c1.sec.setWidth 32 }⟩
        tdc := { c with cap1 := true } }) ∧
    exec .ppsOutWidthEnd s = .next { s with tdc := { c with ppsOut := false } } ∧
    (s.eng.hpReady = true → exec .force s = .next (if c.held then { s with tdc := { c with forced := true } } else s)) ∧
    (c.held = true → c.running = true → s.clk.tpllLock = true →
      (¬ anyRun → exec .switchRecheck s = .next { s with tdc := { c with
        ticksel := h, phi := 0, held := false, forced := false } }) ∧
      (anyRun → -max_ ≤ gap → gap ≤ max_ → exec .switchRecheck s = .next { s with tdc := { c with
        ticksel := h, phi := gap, held := false, forced := false } }) ∧
      (anyRun → gap < -max_ ∨ max_ < gap → c.forced = false → exec .switchRecheck s = .next s) ∧
      (anyRun → gap < -max_ ∨ max_ < gap → c.forced = true → ∃ t, exec .switchRecheck s = .next t ∧
        t.tdc = { c with ticksel := h, phi := 0, held := false, forced := false } ∧ t.td = s.td ∧
        ∀ n : ChanId, ((s.chan n).ctl.state ≠ .running → t.chan n = s.chan n) ∧
          ((s.chan n).ctl.state = .running → (s.chan n).ctl.mu.toNat ≤ 4 → ∃ a : Nat,
            t.chan n = { s.chan n with ctl := { (s.chan n).ctl with forcedTick := some a } } ∧
            let len := 1000000 / 2 ^ (s.chan n).ctl.mu.toNat
            let from_ : Int := 2 * total (s.td.get h) + len * 2 ^ 32
            a % len = 0 ∧ from_ ≤ 2 * a * 2 ^ 32 ∧ 2 * ((a : Int) - len) * 2 ^ 32 < from_))) ∧
    (s.eng.hpReady = true → ∃ t, exec .calDateRead s = .next t ∧ t.cal.ns = s.td.c0.ns ∧ t.eng.rData = t.cal.date ∧
      t.eng.rValid = true ∧ t.eng.rCode = 0 ∧ t.td = s.td ∧ (utc < 0 ∨ 253402300799 < utc → t.cal.date = 0 ∧ t.cal.time = 0) ∧
      (0 ≤ utc → utc ≤ 253402300799 →
        let u := utc.toNat % 86400
        t.cal.time = BitVec.ofNat 32 (u / 3600 * 65536 + u / 60 % 60 * 256 + u % 60) ∧
        ∃ yy mm dd, t.cal.date = BitVec.ofNat 32 (yy * 65536 + mm * 256 + dd) ∧ 1 ≤ mm ∧ mm ≤ 12 ∧ 1 ≤ dd ∧ dd ≤ monthDays yy mm ∧
          calDays yy mm dd = utc.toNat / 86400)) ∧
    (s.eng.hpReady = true → c.running = true →
      (¬ valid → exec (.calSet force) s = reject 1) ∧
      (valid → s.td.c0.disc = true → exec (.calSet force) s = reject 2) ∧
      (valid → s.td.c0.disc = false → sec < 0 ∨ (2 : Int) ^ 48 ≤ sec → exec (.calSet force) s = reject 3) ∧
      (valid → s.td.c0.disc = false → 0 ≤ sec → sec < 2 ^ 48 → ¬ (c.ticksel = 0 ∧ anyRun) →
        exec (.calSet force) s = .next { s with
          td := { s.td with c0 := { s.td.c0 with stepNext := some (.load (BitVec.ofInt 48 sec) 0) } } }) ∧
      (valid → s.td.c0.disc = false → 0 ≤ sec → sec < 2 ^ 48 → c.ticksel = 0 → anyRun →
        let x : Td := { s.td.c0 with sec := BitVec.ofInt 48 sec, ns := 0, frac := 0 }
        let phi := c.phi + (total x - total s.td.c0) * 100000
        (-max_ ≤ phi → phi ≤ max_ → exec (.calSet force) s =
          .next { s with td := { s.td with c0 := x }, tdc := { c with phi := phi } }) ∧
        (phi < -max_ ∨ max_ < phi →
          exec (.calSet false) s = .next { s with tdc := { c with refused := true }, cal := { rejected with reason := 4 } } ∧
          ∃ t, exec (.calSet true) s = .next t ∧ t.td = { s.td with c0 := x } ∧ t.tdc = { c with phi := 0 } ∧ t.cal = s.cal)))

/-! ### Memory ports, cairns, pools -/

/-- R79–R82, R84, R87, R103, R104, R528, R594: an answered request leaves the list: a store counts towards its
descriptor, a code fill's line enters its set, the least recently used of four leaving with a notice; a failed one
sets its bit of CH_PORTERR and, the first time, CH_MPERR_ADDR; a timeout retires the tag; a tag not outstanding is an
error of its own; a snoop invalidates and says whether the line was held; a slot of the frame issues its class's next
request, is lost when there is none, and stays while the port is not ready.
The order of fetches and what a slot with nothing to issue does are the model's reading (log 4, log 33). -/
def Obligations.MemoryPorts : Prop :=
  ∀ (s : State) (n : ChanId) (r : MpReq) (tag : Byte) (status : BitVec 2) (data : List Byte) (g : BitVec 42),
    bitOf s.pwr.gating n.val = false → bitOf s.pwr.ungating n.val = false → data.length = 64 →
    let c := s.chan n
    let put (h : Chan) : Out := .next (s.setChan n h)
    let rest := c.mp.reqs.filter fun x => x.tag != tag
    let flag (b : Nat) (p : PortErr) : PortErr :=
      if bitOf p.bits b then { p with more := satAdd p.more 1 } else { p with bits := setBit p.bits b }
    let first (st : BitVec 2) (p : PortErr) : PortErr :=
      if p.valid then p else { p with valid := true, status := st, op := r.op, addr := r.granule }
    (c.mp.reqs.find? (fun x => x.tag == tag) = some r → r.stale = false →
      (∀ id pos len, r.purpose = .store id pos len → exec (.mpResponse n tag 0 data) s = put { c with
        mp := { c.mp with reqs := rest }
        dma := { c.dma with descs := c.dma.descs.map fun d => if d.id = id then { d with donePos := d.donePos + len } else d } }) ∧
      (r.purpose = .dropped → exec (.mpResponse n tag status data) s = put { c with mp := { c.mp with reqs := rest } }) ∧
      (∀ k, r.purpose = .code k false →
        (∃ t, exec (.mpResponse n tag 0 data) s = .next t ∧ (t.chan n).mp.reqs = rest ∧
          let i := ((t.chan n).core k).icache
          let old := (c.core k).icache
          let set := old.lines.filter fun l => l.toNat % 256 == r.granule.toNat % 256
          i.lines.getLast? = some r.granule ∧ (i.wait = if old.wait = some r.granule then none else old.wait) ∧
          (set.length < 4 → i.lines = old.lines.filter (· != r.granule) ++ [r.granule] ∧ (t.chan n).mp.answers = c.mp.answers) ∧
          (∀ l, 4 ≤ set.length → set.head? = some l → l ∉ i.lines.dropLast ∧
            (t.chan n).mp.answers = c.mp.answers ++ [(true, false, l)]) ∧
          ((t.chan n).core k).cc = (c.core k).cc ∧ ((t.chan n).core k).pool = (c.core k).pool ∧ ∀ m, m ≠ n → t.chan m = s.chan m) ∧
        ((c.core k).icache.wait ≠ some r.granule →
          (status ≠ 0 → exec (.mpResponse n tag status data) s = put { c with
            mp := { c.mp with reqs := rest }
            port := first (if status = 2 then 2 else 1) (flag (if status = 2 then 1 else 0) c.port) }) ∧
          exec (.mpTimeout n tag) s = put { c with
            mp := { c.mp with reqs := rest, retired := c.mp.retired.filter (fun x => x.tag != tag) ++
              [{ tag := tag, quiet := false, free := false }] }
            port := first 3 (flag 2 c.port) }))) ∧
    (c.mp.reqs.find? (fun x => x.tag == tag) = none → c.live = true →
      (c.mp.retired.find? (fun x => x.tag == tag) = none →
        exec (.mpResponse n tag status data) s = put { c with port := flag 3 c.port }) ∧
      (∀ y, c.mp.retired.find? (fun x => x.tag == tag) = some y → exec (.mpResponse n tag status data) s =
        if y.quiet then .next s else put { c with port := flag 4 c.port })) ∧
    (c.live = true → ∃ t hit, exec (.snoop n g) s = .next t ∧
      (t.chan n).mp.answers = c.mp.answers ++ [(false, hit, g)] ∧
      (∀ k : Fin 2, ((t.chan n).core k).icache.lines = (c.core k).icache.lines.filter (· != g) ∧
        ((t.chan n).core k).pool = (c.core k).pool ∧ ((t.chan n).core k).cc = (c.core k).cc) ∧
      ((∃ k : Fin 2, (c.core k).icache.lines.contains g = true) → hit = true) ∧
      ((∀ k : Fin 2, (c.core k).icache.lines.contains g = false) → (∀ x, x ∈ c.mp.reqs → x.granule ≠ g) → hit = false)) ∧
    (∀ (ready : Bool) (cls : Fin 3), c.live = true → s.clk.mpllLock = true → c.dma.frame[c.dma.ptr.val]? = some cls →
      (∀ x, c.fetching = some x → 0 < x.part ∨ c.inWindow false x.burstAddr (32 * x.burstLen) = true) →
      (∀ d, c.remoteDesc = some d → c.usable d.remote.2.2.val = true) →
      (∀ x, x ∈ c.mp.reqs → x.stale = false) → c.mp.reqs.length < 256 →
      let next := if cls = 0 then readCand c else if cls = 1 then writeCand c else remoteCand c
      (next = none → exec (.memoryPortSlot n ready tag) s = put { c with dma := { c.dma with
        ptr := c.dma.ptr + 1, slotLost := satAdd c.dma.slotLost 1 } }) ∧
      (∀ x, next = some x →
        exec (.memoryPortSlot n false tag) s = .next s ∧
        (c.mp.tagFree tag = true → ∃ t, exec (.memoryPortSlot n true tag) s = .next t ∧
          (t.chan n).mp.reqs = c.mp.reqs ++ [{ tag := tag, op := x.op, granule := BitVec.ofNat 42 x.granule, mask := x.mask
                                               data := x.data, purpose := x.purpose, stale := false }] ∧
          (t.chan n).dma.ptr = c.dma.ptr + 1 ∧ (t.chan n).dma.slotLost = c.dma.slotLost ∧
          (cls = 0 → (t.chan n).dma.granRd = BitVec.ofNat 32 (c.dma.granRd.toNat + 1)) ∧
          (cls = 1 → (t.chan n).dma.granWr = BitVec.ofNat 32 (c.dma.granWr.toNat + 1)) ∧
          (cls = 2 → (t.chan n).dma.granRem = BitVec.ofNat 32 (c.dma.granRem.toNat + 1)) ∧
          ∀ m, m ≠ n → t.chan m = s.chan m)))

/-- R553, R573–R576, R578, R581, R590: a doorbell's increment is applied and counts as an outside event, or joins its
class's pending sum where four others come before it in the cc, the sums that still wait among them; one that would pass
2²⁴ − 1, or whose class is off, is captured and raises CAIRN. A pending sum is applied in a later cc unless four
increments have been; a WAIT whose COUNT is there subtracts it and completes; a descriptor that is done counts its XFER
down and raises its cairn. -/
def Obligations.CairnEvents : Prop :=
  ∀ (s : State) (n : ChanId) (b : BitVec 11) (amount : Byte),
    let c := s.chan n
    let i := b.toNat
    let x := c.cairn i
    let door := exec (.doorbell n b amount) s
    let on (cls : Nat) : Bool := bitOf (c.crnCfg i).1 cls
    let put (h : Chan) : Out := .next (s.setChan n h)
    c.live = true → smWf Cairn.zero 0 c.crn.cells = true →
    (s.eng.hpReady = true → amount ≠ 0 →
      (on 5 = true → x.takes → x.count.toNat + amount.toNat < 2 ^ 24 → door = put (c.setCairn i { x with
        count := BitVec.ofNat 24 (x.count.toNat + amount.toNat), applied := x.applied + 1, outside := x.outside + amount.toNat })) ∧
      (on 5 = true → ¬ x.takes → ∃ t, door = .next t ∧
        (t.chan n).crn.deferd = satAdd c.crn.deferd 1 ∧ ((t.chan n).cairn i).count = x.count ∧
        (∀ v, x.sums[5]? = some v → ((t.chan n).cairn i).sums[5]? =
          some (BitVec.ofNat 24 (min (v.toNat + amount.toNat) (2 ^ 24 - 1))))) ∧
      (on 5 = true → x.takes → 2 ^ 24 ≤ x.count.toNat + amount.toNat → c.crn.valid = false → c.flt.valid = false →
        ∃ t, door = .next t ∧ ((t.chan n).cairn i).count = 0xFFFFFF ∧ ((t.chan n).cairn i).err = true ∧
        (t.chan n).crn.valid = true ∧ (t.chan n).crn.kind = 1 ∧ (t.chan n).crn.cls = 5 ∧ (t.chan n).crn.cairn = b ∧
        (t.chan n).flt.cause = 0x51) ∧
      (on 5 = false → c.crn.valid = false → c.flt.valid = false → ∃ t, door = .next t ∧ (t.chan n).crn.cells = c.crn.cells ∧
        (t.chan n).crn.valid = true ∧ (t.chan n).crn.kind = 2 ∧ (t.chan n).crn.cls = 5 ∧ (t.chan n).crn.cairn = b ∧
        (t.chan n).flt.cause = 0x51 ∧ (t.chan n).flt.cls = 1)) ∧
    (∀ v : BitVec 24, x.sums = [v, 0, 0, 0, 0, 0] → v ≠ 0 → x.count.toNat + v.toNat < 2 ^ 24 →
      ∃ t, exec (.pendingSumApply n b) s = .next t ∧ (∀ j, j ≠ i → (t.chan n).cairn j = c.cairn j) ∧ t.flt = s.flt ∧
        (t.chan n).cairn i = if x.applied < 4 then
          { x with count := BitVec.ofNat 24 (x.count.toNat + v.toNat), applied := x.applied + 1, sums := [0, 0, 0, 0, 0, 0] }
          else x) ∧
    (∀ (q : QId) (h : Cmd), c.headWait q = some h → waitCairn h = i →
      (∀ r h', r ≠ q → c.headWait r = some h' → waitCairn h' ≠ i) → (∀ k : Fin 2, startStands s (mkCore n k) = false) →
      ∃ t, exec (.cairnWaitEvaluation n b) s = .next t ∧ (∀ j, j ≠ i → (t.chan n).cairn j = c.cairn j) ∧
        (∀ r, r ≠ q → (t.chan n).queue r = c.queue r) ∧ ((t.chan n).queue q).issued = (c.queue q).issued ∧
        (waitCount h ≤ x.count.toNat →
          (t.chan n).cairn i = { x with count := BitVec.ofNat 24 (x.count.toNat - waitCount h) } ∧
          ((t.chan n).queue q).waiting = (c.queue q).waiting.tail) ∧
        (x.count.toNat < waitCount h →
          (t.chan n).cairn i = x ∧ ((t.chan n).queue q).waiting = (c.queue q).waiting)) ∧
    (∀ d : Desc, c.dma.descs.find? (fun e => decide (e.total ≤ e.donePos)) = some d →
      let c1 : Chan := { c with dma := { c.dma with
        descs := c.dma.descs.filter fun e => e.id != d.id
        xfers := c.dma.xfers.map fun y => if y.order = d.order then { y with left := y.left - 1 } else y } }
      (d.cen = false → exec (.descriptorCompletion n) s = put c1) ∧
      (d.cen = true → d.cairn.toNat = i → on 1 = true → x.takes → x.count.toNat + 1 < 2 ^ 24 →
        exec (.descriptorCompletion n) s = put (c1.setCairn i { x with
          count := BitVec.ofNat 24 (x.count.toNat + 1), applied := x.applied + 1 })))

/-- R484–R489, R296, R504–R506, R514: a client is granted its access in a slot it owns on the bank, and in no other: a
read's line goes on its way, 3 cc from a near bank and 6 from a far one; a masked write changes its bytes alone, and an
SW retires with it; drip output of an array whose snapshot is due waits. Every word a read corrects is counted; one in
double error is counted, captured and raised, and the line says so. The line reaches the feed job that asked for it.
The cc ends with the row (log 3). -/
def Obligations.PoolTraffic : Prop :=
  ∀ (s : State) (c : CoreId),
    let n := coreChan c
    let k := coreLoc c
    let ch := s.chan n
    let x := s.core c
    let p := x.pool
    (∀ a, ch.live = true → hostIdle s → quietCc ch → p.acc = [a] → (ch.core (other k)).pool.acc = [] →
      let bank := a.line % 16
      let owned : Prop := x.owner bank (ch.ctl.cc % 16) = a.client ∧ x.histWaits a.client bank = false
      let finds (single double : BitVec 16) : List BankFind :=
        [{ core := k, bank := Fin.ofNat 16 bank, single := single, double := double }]
      let line (bads : List Nat) : PoolRd :=
        { client := a.client, line := a.line, data := smGetList 0 p.mem (128 * a.line) 128, bads := bads
          due := ch.ctl.cc + (if 8 ≤ bank then 6 else 3), dest := a.dest }
      (¬ owned → ∃ t, exec (.poolAccessGrant n []) s = .next t ∧ (t.chan n).ctl.cc = ch.ctl.cc + 1 ∧
        (t.core c).pool.mem = p.mem ∧ (t.core c).pool.rdq = p.rdq ∧ a ∈ (t.core c).pool.acc) ∧
      (∀ m, owned → a.write = none → (∀ w, w ∈ a.checks → w ∉ p.bad) →
        ∃ t, exec (.poolAccessGrant n (finds m 0)) s = .next t ∧ (t.chan n).ctl.cc = ch.ctl.cc + 1 ∧
          (t.core c).pool.mem = p.mem ∧ (t.core c).pool.rdq = (p.rdqPut (line [])).rdq ∧
          (t.core c).pool.corr = satAdd p.corr (a.checks.countP fun w => bitOf m (w % 16)) ∧
          ∀ m, m ≠ n → t.chan m = s.chan m) ∧
      (∀ w, owned → a.write = none → a.ofCc = false → w ∈ lineWords a.line → w ∈ a.checks → p.bad = [] → p.valid = false →
        x.flt.valid = false → ∃ t, exec (.poolAccessGrant n (finds 0 (setBit 0 (w % 16)))) s = .next t ∧
          (t.core c).pool.mem = p.mem ∧ (t.core c).pool.rdq = (p.rdqPut (line [w])).rdq ∧
          (t.core c).pool.uncorr = satAdd p.uncorr 1 ∧ (t.core c).pool.valid = true ∧ (t.core c).pool.client = a.client ∧
          (t.core c).pool.word = BitVec.ofNat 16 w ∧ (t.core c).flt.cause = 0x48 ∧ (t.core c).flt.cls = 1) ∧
      (∀ bs, owned → a.write = some bs → p.bad = [] →
        a.dest = .ccStore ∨ (∃ j, a.dest = .hist j) ∨ (∃ j o v, a.dest = .drip j o v) →
        ∃ t, exec (.poolAccessGrant n []) s = .next t ∧ (t.core c).pool.rdq = p.rdq ∧
          (t.core c).pool.mem = bs.foldl (fun m b => smSet 0 m b.1 b.2) p.mem ∧
          (a.dest = .ccStore → (t.core c).cc = { x.cc with pos := x.cc.pos + 1, qwait := none, cmp := 1, psBy := [] }) ∧
          ∀ m, m ≠ n → t.chan m = s.chan m)) ∧
    (∀ r rest (j : Fin 2) (o : Nat) (f : Pass), hostIdle s → p.rdq = r :: rest → r.dest = .feed j o →
      (x.arr j).passes = [f] → f.order = o → f.fedOn = true → f.asked = true → 2 ≤ f.lines → f.phase ≠ .done →
      f.code (f.fed % f.slots) ≠ 2 →
      ∃ t, exec (.poolReadData c) s = .next t ∧ (t.core c).pool.rdq = rest ∧ (t.core c).pool.mem = p.mem ∧
        ((t.core c).arr j).passes = [{ f with buf := smSetList 0 f.buf (128 * r.line) r.data, lines := f.lines - 1
                                              voidWs := f.voidWs ++ r.bads }] ∧ ∀ m, m ≠ n → t.chan m = s.chan m)

/-! ### Radio, launch, peers -/

/-- R92, R93, R95, R96, R660–R662: a frame without a credit sets RP_OVERRUN and a malformed one RP_MALFORM; another goes
to the first ring that takes it, as the line writes of its next entry, and spends a credit for each of its beats, or is
counted where none takes it or where it is too big; a written entry is counted and raises
the ring's cairn; a credit is spent by a waiting beat, else held.
When a ring counts its entry is the model's reading (log 35). -/
def Obligations.RadioPort : Prop :=
  ∀ (s : State) (n : ChanId) (rxtime : BitVec 64) (frame : List Byte) (r : Fin 4),
    let c := s.chan n
    let put (h : Chan) : Out := .next (s.setChan n h)
    let rp (p : Rp) : Out := put { c with rp := p }
    let flagged (b : Nat) : PortErr :=
      if bitOf c.port.bits b then { c.port with more := satAdd c.port.more 1 } else { c.port with bits := setBit c.port.bits b }
    let flag (b : Nat) : Out := put { c with port := flagged b }
    let arrive (o : Out) : Prop := (hdrF frame 0 1 ≠ 2 → exec (.grid n rxtime frame) s = o) ∧
      (hdrF frame 0 1 ≠ 1 → exec (.sample n rxtime frame) s = o)
    let takes (x : Ring) : Bool := x.en && !c.ringBad x && x.type.toNat == hdrF frame 0 1 && x.stream.toNat == hdrF frame 1 1
    let writes (d : Chan) (k : Fin 2) : List PoolAcc :=
      (d.core k).pool.acc ++ (d.rp.inq.filter fun y => y.1 == k).map (·.2)
    c.rpEn = true → 64 ≤ frame.length → frame.length % 32 = 0 →
    (c.rp.credits = 0 → arrive (flag 10)) ∧
    (c.rp.credits ≠ 0 → frameBad frame = true → arrive (flag 9)) ∧
    (c.rp.credits ≠ 0 → frameBad frame = false → (∀ x, x ∈ c.rp.rings → takes x = false) →
      arrive (rp { c.rp with noMatch := satAdd c.rp.noMatch 1 })) ∧
    (∀ x, c.rp.credits ≠ 0 → frameBad frame = false → c.rp.rings[r.val]? = some x → takes x = true →
      (∀ (i : Nat) (y : Ring), i < r.val → c.rp.rings[i]? = some y → takes y = false) →
      let body := ringBody x.form x.logbs.toNat (hdrF frame 2 1 % 16) (frame.drop 32) (frameV frame)
      let e := x.next.toNat % (x.nent.toNat + 1)
      (x.elines.toNat < 1 + ceilDiv body.1.length 128 → arrive (rp { c.rp with tooBig := satAdd c.rp.tooBig 1 })) ∧
      (1 + ceilDiv body.1.length 128 ≤ x.elines.toNat → ∃ t, arrive (.next t) ∧
        (t.chan n).rp.rings[r.val]? = some { x with next := BitVec.ofNat 4 ((e + 1) % (x.nent.toNat + 1)) } ∧
        (t.chan n).rp.noMatch = c.rp.noMatch ∧ (t.chan n).port = c.port ∧
        writes (t.chan n) x.core = writes c x.core ++ (ringWrites x r c.rp.serial e (frame.length / 32 - 1)
          (frame.take 32 ++ natLe 8 rxtime.toNat ++ List.replicate 88 0 ++ body.1)).map (·.2) ∧
        (t.chan n).rp.serial = c.rp.serial + 1 ∧ (t.chan n).rp.credits = c.rp.credits - frame.length / 32 ∧
        ∀ m, m ≠ n → t.chan m = s.chan m)) ∧
    (∀ x, c.rp.rings[r.val]? = some x → 0 < x.due → bitOf (c.crnCfg x.cairn.toNat).1 2 = true →
      (c.cairn x.cairn.toNat).takes → (c.cairn x.cairn.toNat).count.toNat + 1 < 2 ^ 24 →
      ∃ t, exec (.ringEntryWritten n r) s = .next t ∧
        (t.chan n).rp.frames = BitVec.ofNat 32 (c.rp.frames.toNat + 1) ∧
        (t.chan n).rp.rings[r.val]? = some { x with due := x.due - 1, frames := BitVec.ofNat 16 (x.frames.toNat + 1) } ∧
        ((t.chan n).cairn x.cairn.toNat).count = BitVec.ofNat 24 ((c.cairn x.cairn.toNat).count.toNat + 1) ∧
        (t.chan n).cores = c.cores) ∧
    (c.rp.owed ≠ 0 → exec (.radioOutboundCredit n) s = rp { c.rp with owed := c.rp.owed - 1 }) ∧
    (c.rp.owed = 0 → exec (.radioOutboundCredit n) s = rp { c.rp with ocredit := satAdd c.rp.ocredit 1 }) ∧
    exec (.malformedRadioFrame n) s = flag 9 ∧ exec (.radioInboundOverrun n) s = flag 10

/-- R616–R620, R652, R663: of the due frames of a destination the one with the earliest launch time leaves, the first
completed on ties: by the radio with its header filled in, or as timed packets; a frame of another type, or to a partner
that takes no timed traffic, is dropped and counted.
Beats without a credit are owed (log 35); with no frame due nothing changes (log 4). -/
def Obligations.FrameLaunch : Prop :=
  ∀ (s : State) (n : ChanId) (peer slipped : Bool) (f : Frame),
    let c := s.chan n
    let due (g : Frame) : Prop := g ∈ c.lch.frames ∧ g.elig = true ∧ g.peer = peer ∧ (g.late = true ∨ frameDue s g = true)
    let bs := radioBytes c f
    let gone (t : State) : Prop := (t.chan n).lch.frames = c.lch.frames.filter (fun g => !(g.whole && g.serial == f.serial)) ∧
      (t.chan n).cores = c.cores ∧ ∀ m, m ≠ n → t.chan m = s.chan m
    let counted (t : State) : Prop := (t.chan n).lch.sent = BitVec.ofNat 32 (c.lch.sent.toNat + 1) ∧
      (t.chan n).lch.lateSent = (if f.late then satAdd c.lch.lateSent 1 else c.lch.lateSent) ∧
      (t.chan n).lch.slips = (if slipped && !f.late then satAdd c.lch.slips 1 else c.lch.slips) ∧
      (f.cen = true → bitOf (c.crnCfg f.cairn.toNat).1 4 = true → (c.cairn f.cairn.toNat).takes →
        (c.cairn f.cairn.toNat).count.toNat + 1 < 2 ^ 24 →
        ((t.chan n).cairn f.cairn.toNat).count = BitVec.ofNat 24 ((c.cairn f.cairn.toNat).count.toNat + 1))
    c.live = true → due f →
    (∀ g, due g → g ≠ f → f.time < g.time ∨ (f.time = g.time ∧ f.serial < g.serial)) →
    (peer = false → c.rp.ocredit ≠ 0 → c.rp.owed = 0 → 3 ≤ (bs.getD 0 0).toNat → (bs.getD 0 0).toNat ≤ 5 →
      ∃ t, exec (.frameLaunch n peer slipped) s = .next t ∧ gone t ∧ counted t ∧
        (t.chan n).rp.lastOut = bs ∧ (t.chan n).rp.sent = BitVec.ofNat 32 (c.rp.sent.toNat + 1) ∧
        (t.chan n).rp.ocredit.toNat + min (bs.length / 32) c.rp.ocredit.toNat = c.rp.ocredit.toNat ∧
        (t.chan n).rp.owed = bs.length / 32 - c.rp.ocredit.toNat) ∧
    (peer = false → c.rp.ocredit ≠ 0 → c.rp.owed = 0 → (bs.getD 0 0).toNat < 3 ∨ 5 < (bs.getD 0 0).toNat →
      ∃ t, exec (.frameLaunch n peer slipped) s = .next t ∧ gone t ∧ (t.chan n).rp.oType = satAdd c.rp.oType 1 ∧
        (t.chan n).lch.sent = c.lch.sent) ∧
    (peer = false → c.rp.ocredit = 0 ∨ c.rp.owed ≠ 0 → exec (.frameLaunch n peer slipped) s = .next s) ∧
    (peer = true → c.timed ((f.data.getD 1 0).toNat % 8) = true →
      c.peers.pathFree = false ∨ (∃ p, p ∈ c.peers.out ∧ p.sent = false ∧ p.body.timed = true) →
      exec (.frameLaunch n peer slipped) s = .next s) ∧
    (peer = true → c.timed ((f.data.getD 1 0).toNat % 8) = true → c.peers.pathFree = true →
      (∀ p, p ∈ c.peers.out → p.sent = true ∨ p.body.timed = false) → ∃ t, exec (.frameLaunch n peer slipped) s = .next t ∧
      gone t ∧ counted t ∧ (t.chan n).peers.out = c.peers.out ++ framePackets c f) ∧
    (peer = true → c.timed ((f.data.getD 1 0).toNat % 8) = false → ∃ t, exec (.frameLaunch n peer slipped) s = .next t ∧
      gone t ∧ (t.chan n).lch.refused = satAdd c.lch.refused 1 ∧ (t.chan n).peers = c.peers)

/-- R93–R96, R98, R100, R101, R502, R626, R627, R653: credits, the link's two edges, packets the port rejects, its
halt, and a change of an identity, which sets the partners it affects DOWN. A port that is down takes no packet (log
34). -/
def Obligations.PeerPort : Prop :=
  ∀ (s : State) (n : ChanId) (i : Fin 8) (v : Word) (x : CtlPkt) (rest : List CtlPkt),
    let c := s.chan n
    let put (h : Chan) : Out := .next (s.setChan n h)
    let peers (p : PeerSt) : Out := put { c with peers := p }
    let flagged (b : Nat) : PortErr :=
      if bitOf c.port.bits b then { c.port with more := satAdd c.port.more 1 } else { c.port with bits := setBit c.port.bits b }
    let down (t : State) : Prop := ∀ j : Fin 8, ((t.chan n).part j.val).state = 0
    c.live = true →
    (c.peers.linkUp = true → c.peers.owed ≠ 0 →
      exec (.peerOutboundCredit n) s = peers { c.peers with owed := c.peers.owed - 1 }) ∧
    (c.peers.linkUp = true → c.peers.owed = 0 → c.peers.ctl = x :: rest →
      exec (.peerOutboundCredit n) s = peers { c.peers with ctl := rest, gone := c.peers.gone ++ [x] }) ∧
    (c.peers.linkUp = true → c.peers.owed = 0 → c.peers.ctl = [] →
      exec (.peerOutboundCredit n) s = peers { c.peers with ocredit := satAdd c.peers.ocredit 1 }) ∧
    (c.peers.linkUp = false → exec (.peerLinkUp n) s = peers { c.peers with linkUp := true, ocredit := 0, owed := 0 }) ∧
    (c.peers.linkUp = true → ∃ t, exec (.peerLinkDown n) s = .next t ∧ (t.chan n).peers.linkUp = false ∧
      (t.chan n).peers.ocredit = 0 ∧ (t.chan n).peers.owed = 0 ∧ (t.chan n).peers.ctl = [] ∧ (t.chan n).port = flagged 8 ∧
      down t ∧ ∀ m, m ≠ n → t.chan m = s.chan m) ∧
    (c.peers.linkUp = true →
      exec (.malformedPeerPacket n) s = put { c with port := flagged 5 } ∧
      exec (.peerInboundOverrun n) s = put { c with port := flagged 6 } ∧
      exec (.peerRxErr n) s = put { c with port := flagged 7 }) ∧
    (∀ (k : Fin 2) (a : PoolAcc) (slot flits : Nat), a ∈ (c.core k).pool.acc → a.client = 7 → a.dest = .window slot flits →
      (c.core k).hasSlot 7 (a.line % 16) = false → c.peer.halted = false → c.flt.valid = false → inInterval c = false →
      (∀ p, p ∈ c.peers.out → p.sent = false) → ∃ t, exec (.peerPortHalt n) s = .next t ∧
        (t.chan n).peer.halted = true ∧ down t ∧ (t.chan n).flt.cause = 0x53 ∧ (t.chan n).flt.cls = 3 ∧
        (t.chan n).flt.rbOrder = true ∧ (t.chan n).cores = c.cores) ∧
    (s.eng.hpReady = true →
      (c.peer.node ≠ v → ∃ t, exec (.peerNodeWrite n none v) s = .next t ∧ (t.chan n).peer.node = v ∧ down t) ∧
      (c.peer.node = v → exec (.peerNodeWrite n none v) s = .next s) ∧
      ((c.part i.val).node ≠ v → i.val < c.peers.parts.length → ∃ t, exec (.peerNodeWrite n (some i) v) s = .next t ∧
        (t.chan n).part i.val = { Partner.reset with
          node := v, epoch := (c.part i.val).epoch, refused := (c.part i.val).refused, hellos := (c.part i.val).hellos } ∧
        (t.chan n).peer.node = c.peer.node ∧ ∀ j : Fin 8, j ≠ i → (t.chan n).part j.val = c.part j.val))

/-- R629–R641: a packet from no partner is counted as a stranger's, one of another version is malformed; HELLO, FPRINT,
TIME and CLOSE change what is known of the partner, and with it the state R636 gives it; the timer sends a HELLO and a
TIME request to every partner; a silent partner is LOST.
The rounding of an odd half nanosecond is free (log 21). -/
def Obligations.Partners : Prop :=
  ∀ (s : State) (n : ChanId) (i : Fin 8) (h : PktHdr) (id : Word) (fp t1 t4 : BitVec 64) (pstate reason : Byte)
    (epoch : BitVec 16) (res : BitVec 24) (t2 : Word),
    let c := s.chan n
    let p := c.part i.val
    let put (h : Chan) : Out := .next (s.setChan n h)
    let after (t : State) : Partner := (t.chan n).part i.val
    let rated (off : Word) : BitVec 3 := if 100 < off.toInt.natAbs then 3 else 2
    let all : List Instr := [.fprint n h fp, .timeRequest n h t1 res, .timeReply n h res t1 t2 t4, .close n h reason]
    let malformed : PortErr :=
      if bitOf c.port.bits 5 then { c.port with more := satAdd c.port.more 1 } else { c.port with bits := setBit c.port.bits 5 }
    let overrun : PortErr :=
      if bitOf c.port.bits 6 then { c.port with more := satAdd c.port.more 1 } else { c.port with bits := setBit c.port.bits 6 }
    let arrives : Prop := c.peers.credits ≠ 0
    let heard : Prop := p.closed = false ∧ 2 ≤ p.hisVer.toNat ∧ ∃ l, p.lastHello = some l ∧ tauNs s ≤ l + 3000000
    c.peerUp = true → h.dnode = c.peer.node →
    (¬ arrives → ∀ y, y ∈ Instr.hello n h id fp pstate epoch :: all → exec y s = put { c with port := overrun }) ∧
    (arrives → c.entryOf h.snode = none → ∀ y, y ∈ Instr.hello n h id fp pstate epoch :: all →
      exec y s = put { c with peer := { c.peer with strangers := satAdd c.peer.strangers 1 } }) ∧
    (arrives → c.entryOf h.snode = some i → h.ver ≠ p.ver → ∀ y, y ∈ all → exec y s = put { c with port := malformed }) ∧
    (arrives → c.entryOf h.snode = some i → i.val < c.peers.parts.length → ∃ t, exec (.hello n h id fp pstate epoch) s = .next t ∧
      let q := after t
      q.hisVer = h.ver ∧ q.ver = (if h.ver.toNat < 3 then h.ver else 3) ∧ q.pstate = pstate.setWidth 3 ∧ q.hisFp = fp ∧
      q.hisEpoch = epoch ∧ q.hellos = BitVec.ofNat 16 (p.hellos.toNat + 1) ∧ q.lastHello = some (tauNs s) ∧ q.closed = false ∧
      q.state = if h.ver.toNat < 2 then 5 else if fp ≠ surveyFp s then 4 else if p.measured = false then 1 else rated p.offset) ∧
    (arrives → c.entryOf h.snode = some i → h.ver = p.ver → i.val < c.peers.parts.length →
      (heard → ∃ t, exec (.fprint n h fp) s = .next t ∧ (after t).hisFp = fp ∧ (after t).hellos = p.hellos ∧
        (after t).state = if fp ≠ surveyFp s then 4 else if p.measured = false then 1 else rated p.offset) ∧
      (c.peers.ocredit ≠ 0 → c.peers.ctl = [] → exec (.timeRequest n h t1 res) s = put { c with peers := { c.peers with
        ocredit := c.peers.ocredit - 1
        gone := c.peers.gone ++ [{ type := 0x03, ver := p.ver, dest := p.node
                                   body := [1] ++ natLe 3 res.toNat ++ natLe 8 t1.toNat ++ natLe 4 (tauNs s) ++ [0, 0, 0, 0] }] } }) ∧
      (heard → p.hisFp = surveyFp s →
        let a := (t2 - t1.setWidth 32).toInt
        let twice := 2 * a - (t4 - t1).toInt + res.toNat
        ∀ half : Int, twice = 2 * half → -(2 ^ 31) ≤ half → half < 2 ^ 31 → ∃ t, exec (.timeReply n h res t1 t2 t4) s = .next t ∧
          (after t).offset = BitVec.ofInt 32 half ∧ (after t).measured = true ∧ (after t).state = rated (BitVec.ofInt 32 half)) ∧
      (∃ t, exec (.close n h reason) s = .next t ∧ (after t).state = 0 ∧ (after t).closed = true ∧ (after t).node = p.node)) ∧
    (c.entryUsed i.val = true → p.state ≠ 0 → i.val < c.peers.parts.length → ∃ t, exec (.partnerLost n i) s = .next t ∧
      (after t).state = 6 ∧ (after t).node = p.node ∧ ∀ j : Fin 8, j ≠ i → (t.chan n).part j.val = c.part j.val) ∧
    (16 ≤ c.peers.ocredit.toNat → c.peers.ctl = [] → ∃ t l, exec (.peerHelloTimer n) s = .next t ∧
      let used := ([0, 1, 2, 3, 4, 5, 6, 7] : List Nat).filter c.entryUsed
      (t.chan n).peers.gone = c.peers.gone ++ l ∧
      l.map (fun y => (y.type, y.dest)) =
        used.map (fun j => ((0x01 : Byte), (c.part j).node)) ++ used.map (fun j => ((0x03 : Byte), (c.part j).node)) ∧
      (t.chan n).peers.ocredit.toNat + 2 * used.length = c.peers.ocredit.toNat)

/-- R632, R642–R651: arriving data is refused, acknowledged again, held, or applied as a job; an ACK completes or fails
its packet; VOID_SLOT voids what its sender's slot brought; a data packet leaves numbered and stamped. -/
def Obligations.PeerData : Prop :=
  ∀ (s : State) (n : ChanId) (i : Fin 8) (h : PktHdr) (b : DataBody) (w : PeerWin) (q : OutPkt),
    let c := s.chan n
    let p := c.part i.val
    let put (h : Chan) : Out := .next (s.setChan n h)
    let key := i.val * 32 + b.core.val * 16 + b.win.toNat
    let win : BitVec 5 := BitVec.ofNat 5 (b.win.toNat + 16 * b.core.val)
    let ackOf (st : Byte) : CtlPkt := { type := 0x06, ver := p.ver, dest := p.node, body :=
      [BitVec.ofNat 8 (b.win.toNat + 16 * b.core.val), st] ++ natLe 2 b.epoch.toNat ++ natLe 4 b.seq.toNat ++ List.replicate 12 0 }
    let both (g : Out → Prop) : Prop :=
      (b.payload.length % 4 = 0 → g (exec (.writeWin n h b) s)) ∧ (b.payload.length % 8 = 0 → g (exec (.accInto n h b) s))
    let fits : Prop := ¬ (3 ≤ p.ver.toNat ∧ b.epoch ≠ p.epoch) ∧ (p.state = 2 ∨ p.state = 3) ∧
      bitOf c.flt.qwin (16 * b.core.val + b.win.toNat) = false ∧ c.window b.core b.win = some w
    let fresh : Prop := seqNewer b.seq (smGet 0 c.peers.lastSeen key) = true
    let slot := c.peers.winSlot
    let job : WinJob := { slot := slot, core := b.core, win := b.win, cairn := w.cairn, tag := b.tag
                          first := b.offset.toNat / 128, last := pktLast b / 128, peer := some (i, b.epoch, b.seq) }
    let seen (t : State) : Prop := (t.chan n).peers.lastSeen = smSet 0 c.peers.lastSeen key b.seq
    let writes (d : Chan) : List PoolAcc :=
      (d.core b.core).pool.acc ++ (d.peers.inq.filter fun y => y.core == b.core).filterMap (·.acc)
    let runs (d : Chan) : List Arrival := ((d.core b.core).arr (winArr w)).arrivals ++
      ((d.peers.inq.filter fun y => y.core == b.core).filterMap (·.run)).filterMap fun y => if y.1 = winArr w then some y.2 else none
    c.peerUp = true → h.dnode = c.peer.node → c.entryOf h.snode = some i → h.ver = p.ver →
    (c.peers.credits ≠ 0 → 8 ≤ b.payload.length → b.payload.length ≤ 4096 →
      (c.window b.core b.win = none → c.peer.errValid = false → i.val < c.peers.parts.length → c.peers.ocredit ≠ 0 →
        c.peers.ctl = [] → both fun out => ∃ t, out = .next t ∧
          ((t.chan n).part i.val).refused = satAdd p.refused 1 ∧ (t.chan n).peer = { c.peer with
            errMore := 0, errValid := true, errStatus := 2, errSide := true, errEntry := i, errWin := win } ∧
          (t.chan n).peers.gone = c.peers.gone ++ [ackOf 2] ∧ (t.chan n).cores = c.cores) ∧
      (fits → ¬ fresh → c.peers.ocredit ≠ 0 → c.peers.ctl = [] → both fun out => out = put { c with
        peer := { c.peer with dups := satAdd c.peer.dups 1 }
        peers := { c.peers with ocredit := c.peers.ocredit - 1, gone := c.peers.gone ++ [ackOf 1] } }) ∧
      (fits → fresh → b.coll = false → (b.timed = true → p.state = 2) →
        (b.payload.length % 4 = 0 → w.kind = 0 → pktLast b < w.length → ∃ t, exec (.writeWin n h b) s = .next t ∧ seen t ∧
          (t.chan n).peers.winJobs = c.peers.winJobs ++ [job] ∧
          writes (t.chan n) = writes c ++ (pktPieces b w slot).filterMap (·.acc) ∧
          (t.chan n).peers.gone = c.peers.gone) ∧
        (b.payload.length % 8 = 0 → w.kind ≠ 0 → pktLast b < 8 * w.length →
          w.offset + pktLast b / 8 < ((c.core b.core).arr (winArr w)).accTop → ∃ t, exec (.accInto n h b) s = .next t ∧ seen t ∧
          (t.chan n).peers.winJobs = c.peers.winJobs ++ [job] ∧
          runs (t.chan n) = runs c ++ (pktPieces b w slot).filterMap fun y => y.run.map (·.2))) ∧
      (fits → fresh → b.coll = true → p.state = 2 → b.payload.length % 8 = 0 → w.kind ≠ 0 → pktLast b < 8 * w.length →
        w.offset + pktLast b / 8 < ((c.core b.core).arr (winArr w)).accTop → b.tag ≠ slotTag s n → c.peers.holds.length < 16 →
        ∃ t, exec (.accInto n h b) s = .next t ∧ seen t ∧ (t.chan n).peer = { c.peer with held := satAdd c.peer.held 1 } ∧
          (t.chan n).peers.holds = c.peers.holds ++ [{ entry := i, body := b, dead := false }] ∧ (t.chan n).cores = c.cores)) ∧
    (∀ (wb status : Byte) (epoch : BitVec 16) (seq : Word), c.peers.credits ≠ 0 →
      c.peers.out.find? (fun y => y.sent && y.entry == i && (BitVec.ofNat 5 (y.body.win.toNat + 16 * y.body.core.val)).toNat == wb.toNat &&
        y.body.epoch == epoch && y.body.seq == seq) = some q →
      let out := c.peers.out.filter fun y => y.serial != q.serial
      (∀ id, q.dma = some id → status = 0 ∨ status = 1 → exec (.ack n h wb status epoch seq) s = put { c with
        peers := { c.peers with out := out }
        dma := { c.dma with descs := c.dma.descs.map fun d => if d.id = id then { d with donePos := d.donePos + q.len } else d } }) ∧
      (q.dma = none → q.psend = none → status ≠ 0 → status ≠ 1 → c.peer.errValid = false →
        exec (.ack n h wb status epoch seq) s = put { c with
          peers := { c.peers with out := out }
          peer := { c.peer with errMore := 0, errValid := true, errStatus := status.setWidth 4, errSide := false, errEntry := q.entry
                                errWin := BitVec.ofNat 5 (q.body.win.toNat + 16 * q.body.core.val) } })) ∧
    (∀ tag : BitVec 16, c.peers.credits ≠ 0 → ∃ t, exec (.voidSlot n h tag) s = .next t ∧
      (t.chan n).peers.holds = c.peers.holds.filter (fun y => !(y.entry == i && y.body.tag == tag)) ∧
      (t.chan n).peers.ledger = c.peers.ledger.filter (fun e => !(e.1 / 32 == i.val && e.2.1 == tag)) ∧
      (∀ count first last, c.peers.holds = [] → c.peers.ledger = [(key, tag, count, first, last)] →
        c.window b.core b.win = some w → w.kind = 0 → count < (c.cairn w.cairn).count.toNat → c.peer.staleValid = false →
        ((t.chan n).cairn w.cairn).count = BitVec.ofNat 24 ((c.cairn w.cairn).count.toNat - count) ∧
        (t.chan n).peer.staleValid = true ∧ (t.chan n).peer.staleTag = tag ∧ (t.chan n).peer.staleEntry = i ∧
        (t.chan n).peer.staleWin = win)) ∧
    (∀ dma : Bool, c.peers.pathFree = false → exec (.peerPacketSend n dma) s = .next s) ∧
    (∀ dma : Bool, c.peers.out.find? (fun y => !y.sent && y.dma.isSome == dma) = some q → q.wait = false → q.ends = none →
      q.body.coll = false → q.split = false → c.usable q.entry.val = true → (c.peers.out.filter (·.sent)).length < 64 → c.peers.pathFree = true →
      let dst := c.part q.entry.val
      let k := q.entry.val * 32 + q.body.core.val * 16 + q.body.win.toNat
      let seq := smGet 0 c.peers.sendSeq k + 1
      exec (.peerPacketSend n dma) s = put { c with peers := { c.peers with
        out := c.peers.out.flatMap fun y => if y.serial = q.serial then [{ q with sent := true, body := { q.body with
          epoch := if 3 ≤ dst.ver.toNat then dst.hisEpoch else 0, seq := seq, tag := slotTag s n } }] else [y]
        sendSeq := smSet 0 c.peers.sendSeq k seq
        ocredit := c.peers.ocredit - BitVec.ofNat 8 (min (1 + ceilDiv q.len 32) c.peers.ocredit.toNat)
        owed := 1 + ceilDiv q.len 32 - min (1 + ceilDiv q.len 32) c.peers.ocredit.toNat
        sentTo := setBit c.peers.sentTo q.entry.val } })

/-! ### Stations -/

/-- R539, R546, R553–R555, R574, R673: a WAIT takes its COUNT off its cairn or stands; a SIGNAL applies its increment,
at once when nothing earlier of its queue is under way and else once everything earlier has completed; a BARRIER
leaves once no queue of its MASK holds an earlier command; the oldest command of a queue completes once its work has
ended, with CMD_ERROR if it has failed. Fields 0 where they must not be, and a WAIT on a cairn that its queue does not
own, halt the core, as does a head that has stood for the command timeout; a SIPHON's is answered for LANE. -/
def Obligations.QueueCommands : Prop :=
  ∀ (s : State) (n : ChanId) (q : QId),
    let c := s.chan n
    let iss := (c.queue q).issued
    let put (d : Chan) : Out := .next (s.setChan n d)
    let queue (y : Queue) : Chan := c.updQueue q fun _ => y
    let raised (d : Chan) (h : Cmd) : Chan := d.setCairn (signalCairn h) { c.cairn (signalCairn h) with
      count := BitVec.ofNat 24 ((c.cairn (signalCairn h)).count.toNat + signalAmount h)
      applied := (c.cairn (signalCairn h)).applied + 1 }
    let raises (h : Cmd) : Prop := bitOf (c.crnCfg (signalCairn h)).1 0 = true ∧ (c.cairn (signalCairn h)).takes ∧
      (c.cairn (signalCairn h)).count.toNat + signalAmount h < 2 ^ 24
    (∀ h rest, CmdAt s n q 1 h rest →
      let x := c.cairn (waitCairn h)
      let owned := bitOf (c.crnCfg (waitCairn h)).2 q.val
      (waitCount h = 0 → exec (.wait n q) s = .next (cmdHalt s n q h 0x10)) ∧
      (0 < waitCount h → owned = false → exec (.wait n q) s = .next (cmdHalt s n q h 0x1E)) ∧
      (0 < waitCount h → owned = true → waitCount h ≤ x.count.toNat → exec (.wait n q) s =
        put ((queue { waiting := rest, issued := iss }).setCairn (waitCairn h)
          { x with count := BitVec.ofNat 24 (x.count.toNat - waitCount h) })) ∧
      (owned = true → x.count.toNat < waitCount h → exec (.wait n q) s = .next s)) ∧
    (∀ h rest, CmdAt s n q 2 h rest →
      (signalAmount h = 0 → exec (.signal n q) s = .next (cmdHalt s n q h 0x10)) ∧
      (0 < signalAmount h → iss ≠ [] → exec (.signal n q) s =
        put (queue { waiting := rest, issued := iss ++ [issuedAs s n q h false false] })) ∧
      (0 < signalAmount h → iss = [] → raises h → exec (.signal n q) s = put (raised (queue { waiting := rest, issued := [] }) h))) ∧
    (∀ x more, iss = x :: more → isSignal x.cmd = true → raises x.cmd →
      exec (.signalApplied n q) s = put (raised (queue { c.queue q with issued := more }) x.cmd)) ∧
    (∀ h rest, CmdAt s n q 3 h rest →
      (c.barrierOn h ≠ [] → exec (.barrier n q) s = .next s) ∧
      (c.barrierOn h = [] → exec (.barrier n q) s =
        put (queue { waiting := rest, issued := if iss = [] then [] else iss ++ [issuedAs s n q h true false] }))) ∧
    (∀ x more, iss = x :: more → isSignal x.cmd = false →
      (c.workEnded q x = false → exec (.commandCompletion n q) s = .next s) ∧
      (c.workEnded q x = true → (c.flt.valid = true → 1 ≤ c.flt.cls.toNat) →
        (q = launchQ → ∀ f, f ∈ c.lch.frames → f.order = x.cmd.order → f.whole = true) →
        ∃ t, exec (.commandCompletion n q) s = .next t ∧
        (t.chan n).queue q = { c.queue q with issued := more } ∧ (∀ r, r ≠ q → (t.chan n).queue r = c.queue r) ∧
        (x.failed = false → c.passErr q x = false → (t.chan n).flt = c.flt) ∧
        (x.failed = true ∨ c.passErr q x = true → c.flt.valid = false → (t.chan n).flt.valid = true ∧ (t.chan n).flt.cause = 0x52 ∧
          (t.chan n).flt.cls = 1 ∧ (t.chan n).flt.info = BitVec.ofNat 32 (q.val + x.cmd.tag.toNat * 65536)))) ∧
    (∀ h rest, (c.queue q).waiting = h :: rest → c.working = true → c.cfg.cmdTimeout ≠ 0 → h.feed = none → isWait h = false →
      (c.core h.pusher).cc.halt = false → (c.core h.pusher).flt.valid = false →
      ∃ t, exec (.cmdTimeout n q) s = .next t ∧
        let x := (t.chan n).core h.pusher
        x.cc.halt = true ∧ x.cc.reason = 0x21 ∧ x.cc.haltAddr = h.addr ∧ x.cc.repIdx = h.repidx ∧ x.cc.haltTag = h.tag ∧
        (c.siphonCopy q h = false → x.cc.haltQ = queueCode q) ∧
        (∀ k, c.siphonCopy q h = true → qCore q = some k → x.cc.haltQ = queueCode (laneQ k)) ∧
        x.flt.cause = 0x21 ∧ x.flt.cls = 4 ∧ (t.chan n).flt.haltOrder.isSome = true ∧
        ∀ r, (t.chan n).queue r = c.queue r)

/-- R278, R283, R348, R464, R476, R506, R545, R558: a load that is kept back stays; one that can issue and passes its
checks issues and asks for each line of its image once; one that fails a check halts its core. A line that arrives is
kept; with the last one the load has ended, its store is written and nothing else of its core changes; a line that shows
a word of the image in double error ends the load as failed and writes nothing.
Content is checked when the command issues, after its waits (log 7). -/
def Obligations.Loads : Prop :=
  (∀ (s : State) (a : ArrId) (k : CoreId) (h : Cmd) (rest : List Cmd),
    let n := arrChan a
    let fq := feedQ (arrCore a) (arrLoc a)
    let aq := arrQ (arrCore a) (arrLoc a)
    let w0 := h.w 0
    let off := fld (h.w 1) 0 19
    let cnt := fld w0 0 10 + 1
    let base := fld w0 10 10
    let row (i : Instr) (n : ChanId) (k : Fin 2) (q : QId) (good : Prop) (tiles : Byte) (y : Core → Core) : Prop :=
      let c := s.chan n
      c.tiles q h = (0, tiles) ∧
      (c.headFree q h = false ∨ c.tieWait q h = true → exec i s = .next s) ∧
      (c.headFree q h = true → c.tieWait q h = false →
        (¬ good → exec i s = .next (cmdHalt s n q h 0x10)) ∧
        (good → spansPast (c.spans q h) = true → exec i s = .next (cmdHalt s n q h 0x1D)) ∧
        (good → spansPast (c.spans q h) = false → ∃ t, exec i s = .next t ∧
          headIssued c (t.chan n) q rest (issuedAs s n q h false false) ∧
          { (t.chan n).core k with queues := (c.core k).queues } = y (c.core k) ∧
          (t.chan n).core (other k) = c.core (other k) ∧ ∀ m, m ≠ n → t.chan m = s.chan m))
    let feeds (i : Instr) (q : QId) (good : Prop) (tiles : Byte) (len : Nat) : Prop :=
      row i n (arrCore a) q good tiles fun x => askedFor x q h (clFeed (arrLoc a)) 0 off len
    (CmdAt s n fq 8 h rest → feeds (.tload a) fq (off % 4 = 0 ∧ (flag w0 17 = true → fld (h.w 1) 19 5 = 0))
      (tileSet (fld w0 14 3) (fld (h.w 1) 19 5) (fld w0 0 13 + 1)) (f20Bytes (flag w0 13) (fld w0 0 13 + 1))) ∧
    (CmdAt s n aq 8 h rest → feeds (.pload a) aq (off % 128 = 0 ∧ fld w0 0 4 + fld w0 4 4 + 1 ≤ 16) 0 (128 * (fld w0 4 4 + 1))) ∧
    (CmdAt s n aq 12 h rest → feeds (.dload a) aq (off % 128 = 0 ∧ base + cnt ≤ 1024) 0 (4 * cnt)) ∧
    (CmdAt s n aq 13 h rest → feeds (.dpload a) aq (off % 128 = 0 ∧ base + cnt ≤ 1024) 0 (8 * cnt)) ∧
    (CmdAt s (coreChan k) (laneQ (coreLoc k)) 9 h rest →
      row (.lload k) (coreChan k) (coreLoc k) (laneQ (coreLoc k)) (off % 8 = 0 ∧ fld w0 0 9 + fld w0 9 9 + 1 ≤ 512) 0 fun x =>
        let y := askedFor x (laneQ (coreLoc k)) h clLane 0 off (8 * (fld w0 9 9 + 1))
        { y with lane := { y.lane with busy := true } })) ∧
  (∀ (s : State) (a : ArrId) (r : PoolRd) (rest : List PoolRd) (l : Load), hostIdle s →
    let n := arrChan a
    let c := s.chan n
    let j := arrLoc a
    let x := c.core (arrCore a)
    let core := mkCore n (arrCore a)
    let w0 := l.cmd.w 0
    let base := fld w0 10 10
    let cnt := fld w0 0 10 + 1
    let img := l.image r
    let z := loadTaken x rest l
    let drip (g : Drip → Drip) : Core := z.updArr j fun y => { y with drip := g y.drip }
    let goes (queue : Queue → Queue) (y : Core) : Prop := ∃ t, exec (.poolReadData core) s = .next t ∧
      (t.chan n).queue l.q = queue (c.queue l.q) ∧ (∀ q, q ≠ l.q → (t.chan n).queue q = c.queue q) ∧
      { (t.chan n).core (arrCore a) with queues := x.queues } = y ∧
      (t.chan n).core (other (arrCore a)) = c.core (other (arrCore a)) ∧ ∀ m, m ≠ n → t.chan m = s.chan m
    let lands := goes fun y => issuedEnds y l.cmd.order false
    (lastLine x r rest l →
      (l.q = feedQ (arrCore a) j →
        let vals := (List.range (fld w0 0 13 + 1)).map (f20Of (flag w0 13) img)
        lands { z with lane := z.lane.tilePut (fld w0 14 3) (fld (l.cmd.w 1) 19 5) (flag w0 17) 0 vals }) ∧
      (l.q = arrQ (arrCore a) j → l.cmd.opc = 8 → lands (z.updArr j fun y => { y with
        profiles := smSetList 0 y.profiles (32 * fld w0 0 4) (wordsLe img) })) ∧
      (l.q = arrQ (arrCore a) j → l.cmd.opc = 12 → lands (drip fun d => { d with
        decay := smSetList 0 d.decay base ((wordsLe img).map (BitVec.setWidth 17)) })) ∧
      (l.q = arrQ (arrCore a) j → l.cmd.opc = 13 → lands (drip fun d => { d with
        scale := smSetList 0 d.scale base (((List.range (2 * cnt)).map (f20Of false img)).take cnt)
        bias := smSetList 0 d.bias base (((List.range (2 * cnt)).map (f20Of false img)).drop cnt) })) ∧
      (l.q = laneQ (arrCore a) → lands { z with lane := { z.lane with
        busy := false
        store := smSetList 0 z.lane.store (fld w0 0 9) ((List.range (fld w0 9 9 + 1)).map fun i =>
          BitVec.ofNat 64 (leNat ((img.drop (8 * i)).take 8))) } })) ∧
    (x.pool.rdq = r :: rest → r.dest = .load l.id → x.loads.find? (fun y => y.id == l.id) = some l →
      (2 ≤ l.left → (∀ w, w ∈ words64 l.off l.len → w ∉ r.bads) → goes id { x with
        pool := { x.pool with rdq := rest }
        loads := x.loads.map fun y =>
          if y.id = l.id then { l with left := l.left - 1, buf := smSetList 0 l.buf (128 * r.line) r.data } else y }) ∧
      ((∃ w, w ∈ words64 l.off l.len ∧ w ∈ r.bads) →
        l.q = feedQ (arrCore a) j ∨ l.q = arrQ (arrCore a) j ∧ l.cmd.opc ∈ [8, 12, 13] ∨ l.q = laneQ (arrCore a) →
        goes (fun y => issuedEnds y l.cmd.order true) { z with
          pool := { z.pool with acc := z.pool.acc.filter fun y => y.dest != .load l.id, rdq := rest.filter fun y => y.dest != .load l.id }
          lane := if l.q = laneQ (arrCore a) then { z.lane with busy := false } else z.lane })))

/-- R326, R387, R398, R545, R561, R562, R565, R709: an MPASS or a STEP that is kept back stays; one that can issue and
passes its checks issues, its pass is there with the profile the command's words give it and its feed job stands in the
feeder's queue; on an array marked faulted it ends at once with an error; one that fails a check halts its core. A
STEP's latency shows in STEP_STATUS once it has been evaluated, also where it halts. The accumulator file, the pool and
the outputs under way stay.
Content is checked when the command issues, after its waits (log 7). -/
def Obligations.PassesBegin : Prop :=
  ∀ (s : State) (a : ArrId) (h : Cmd) (rest : List Cmd), s.storesWf →
    let n := arrChan a
    let c := s.chan n
    let x := c.core (arrCore a)
    let j := arrLoc a
    let r := x.arr j
    let p := h.prof r
    let q := arrQ (arrCore a) j
    let fq := feedQ (arrCore a) j
    let begins (o : Out) (isStep : Bool) (bad : Option Nat) (tiles : Byte × Byte) : Prop :=
      let late (y : Arr) : Arr := if isStep then { y with stepReg := { y.stepReg with
        lat := BitVec.ofNat 8 (if pfNseq p = 0 then 0 else stepLat r p) } } else y
      c.tiles q h = tiles ∧
      (c.headFree q h = false ∨ c.tieWait q h = true → o = .next s) ∧
      (c.headFree q h = true → c.tieWait q h = false →
        (∀ e, bad = some e → o = .next (cmdHalt (if e = 0x19 then s.updArr a late else s) n q h e)) ∧
        (bad = none → spansPast (c.spans q h) = true → o = .next (cmdHalt s n q h 0x1D)) ∧
        (bad = none → spansPast (c.spans q h) = false → (∀ f, f ∈ r.passes → f.order ≠ h.order) → ∃ t, o = .next t ∧
          let y := (t.chan n).core (arrCore a)
          (r.reg.faulted = true → headIssued c (t.chan n) q rest (issuedAs s n q h true true) ∧
            { y with queues := x.queues } = x.updArr j late) ∧
          (r.reg.faulted = false → (t.chan n).queue q =
              { waiting := rest, issued := (c.queue q).issued ++ [issuedAs s n q h false false] } ∧
            (∃ f, f ∈ (y.arr j).passes ∧ f.order = h.order ∧ f.isStep = isStep ∧ f.prof = p ∧ f.vecs = h.vecs ∧
              f.slots = h.slots ∧ f.emitted = 0) ∧
            ({ h with feed := some h.order } ∈ ((t.chan n).queue fq).waiting ∨
              ∃ i, i ∈ ((t.chan n).queue fq).issued ∧ i.cmd = { h with feed := some h.order }) ∧
            (y.arr j).acc = r.acc ∧ (y.arr j).outs = r.outs ∧ (y.arr j).reg = r.reg ∧
            (y.arr j).stepReg = (late r).stepReg ∧ (y.arr (other j)).acc = (x.arr (other j)).acc ∧
            y.pool.mem = x.pool.mem ∧ y.lane = x.lane ∧ y.cc = x.cc) ∧
          (∀ m, m ≠ n → t.chan m = s.chan m) ∧ t.flt = s.flt))
    (CmdAt s n q 10 h rest → begins (exec (.mpass a) s) false (mpassBad x j h p)
      (0, if pfEmits p then dripTiles p (h.vecs * r.cols p) else 0)) ∧
    (CmdAt s n q 11 h rest → begins (exec (.step a) s) true (stepBad c x j h p)
      ((seqTiles r (pfSeq p)).1, (seqTiles r (pfSeq p)).2 ||| if pfEmits p then dripTiles p (h.vecs * r.cols p) else 0))

/-- R349, R400–R405, R430, R461, R462, R478, R545, R567: a DRAIN, a CHAIN, an LRUN or a SIPHON that is kept back
stays; one that fails a check halts its core; else it issues and enters the station's work with the words and the
profile it was pushed with, and nothing else of its core changes: an LRUN asks for the lines of its first round; a
SIPHON, issued in each queue it holds, takes its initial states and asks for the lines of its first sweep, or first
for its initial states where they lie in the pool. Content is checked when the command issues, after its waits (log
7). -/
def Obligations.StationWork : Prop :=
  (∀ (s : State) (a : ArrId) (k : CoreId) (h : Cmd) (rest : List Cmd),
     let n := arrChan a
     let c := s.chan n
     let x := c.core (arrCore a)
     let j := arrLoc a
     let r := x.arr j
     let p := h.prof r
     let aq := arrQ (arrCore a) j
     let gq := gateQ (arrCore a) j
     let cnt := fld (h.w 1) 16 16 + 1
     let row (o : Out) (n : ChanId) (k : Fin 2) (q : QId) (bad : Option Nat) (tiles : Byte × Byte) (y : Core → Core) : Prop :=
       let c := s.chan n
       c.tiles q h = tiles ∧
       (c.headFree q h = false ∨ c.tieWait q h = true → o = .next s) ∧
       (c.headFree q h = true → c.tieWait q h = false →
         (∀ e, bad = some e → o = .next (cmdHalt s n q h e)) ∧
         (bad = none → spansPast (c.spans q h) = true → o = .next (cmdHalt s n q h 0x1D)) ∧
         (bad = none → spansPast (c.spans q h) = false → ∃ t, o = .next t ∧
           headIssued c (t.chan n) q rest (issuedAs s n q h false false) ∧
           { (t.chan n).core k with queues := (c.core k).queues } = y (c.core k) ∧
           (t.chan n).core (other k) = c.core (other k) ∧ ∀ m, m ≠ n → t.chan m = s.chan m))
     (CmdAt s n aq 14 h rest → row (exec (.drain a) s) n (arrCore a) aq
       (if profOk (r.profile (fld (h.w 0) 0 4)) 3 = false then some 0x10
        else if r.accTop < fld (h.w 1) 0 16 + cnt then some 0x15 else firstBad (dripBad x j p cnt))
       (0, dripTiles p cnt) fun y => y.updArr j fun b => { b with
         drains := b.drains ++ [{ order := h.order, word := fld (h.w 1) 0 16, left := cnt, done := 0, prof := p }] }) ∧
     (CmdAt s n gq 8 h rest → row (exec (.chain a) s) n (arrCore a) gq (chainBad c x j h p)
       ((seqTiles r (pfSeq p)).1 ||| (if cfTile p then tileSet (cfTI p) 0 (32 * cfItems h * cfGI p) else 0),
         (seqTiles r (pfSeq p)).2) fun y => y.updArr j fun b => { b with
         chainRun := b.chainRun ++ [{ order := h.order, prof := p, items := fld (h.w 1) 0 16 + 1, item := 0, entry := 0
                                      group := ((pfSeq p).head?.map (·.first)).getD 0, deliv := [], drip := none
                                      isLocal := false, started := false, sum := .fin 0, sq := .fin 0 }] }) ∧
     (let m := coreChan k
      let q := laneQ (coreLoc k)
      let ls := laneLines h 0
      CmdAt s m q 8 h rest → row (exec (.lrun k) s) m (coreLoc k) q
       ((lrunBad (s.core k).lane h).orElse fun _ => if lrunEdge (s.core k) h then none else some 0x14)
       ([0, 1, 2, 3].foldl (fun m i => m ||| strmTiles (h.strm i) (lrunN h)) 0,
         [4, 5].foldl (fun m i => m ||| strmTiles (h.strm i) (lrunN h)) (strmTiles (lrunDest h) (redCount (lrunAxis h) (lrunN h))))
       fun y => { y with
         lane := { y.lane with
           busy := true, pc := 0, round := 0
           run := some { order := h.order, words := h.words, round := 0, v := [], contrib := [], left := ls.length, buf := []
                         bads := [], done := false } }
         pool := { y.pool with acc := y.pool.acc ++ lineReads clLane ls .laneIn } })) ∧
  (∀ (s : State) (k : CoreId) (h : Cmd) (rest : List Cmd),
     let n := coreChan k
     let c := s.chan n
     let y := s.core k
     let q := laneQ (coreLoc k)
     let x := siphonOf h.words
     let b := y.arr x.arr
     let g := gateQ (coreLoc k) x.arr
     let o := exec (.siphon k noErrors) s
     let ls := if x.init = 2 then wantLines x.iaddr x.initBytes else x.lines 0
     CmdAt s n q 10 h rest → c.tiles q h = (if x.gates then (0xC0, 0xC0) else (0, 0)) ∧
     (c.headFree q h = false ∨ c.tieWait q h = true → o = .next s) ∧
     (c.headFree q h = true → c.tieWait q h = false →
      (siphonBad x b = true → o = .next (cmdHalt s n q h 0x1A)) ∧
      (siphonBad x b = false → spansPast (c.spans q h) = true → o = .next (cmdHalt s n q h 0x1D)) ∧
      (siphonBad x b = false → spansPast (c.spans q h) = false → y.cfg.used = true → y.queues.length = 7 →
       ∃ t, o = .next t ∧
         let z := t.core k
         (t.chan n).queue q = { waiting := rest, issued := (c.queue q).issued ++ [issuedAs s n q h false false] } ∧
         (t.chan n).queue g = (if x.borrows then { waiting := (c.queue g).waiting.tail, issued := (c.queue g).issued ++
           [{ cmd := h, ranges := [], tilesR := 0, tilesW := 0, ended := false, failed := false }] } else c.queue g) ∧
         (x.borrows = true → ((c.queue g).waiting.head?.map (·.order)) = some h.order) ∧
         z.siph = { y.siph with
           busy := true, gate := x.borrows, arr := x.arr == 1, sweep := 0, nextSweep := 0, run := some (h.order, h.words)
           h0 := if x.init = 2 then [] else (List.range x.w).map fun w =>
             if x.init = 1 then (accToF20 (b.accGet (b.accS + x.sb + w)) x.xs).1 else 0
           primed := decide (x.init ≠ 2), left := ls.length, buf := [], bads := [] } ∧
         z.pool = { y.pool with acc := y.pool.acc ++ lineReads clLane ls .siphIn } ∧
         (x.gates = false → z.lane = y.lane) ∧ (z.arr x.arr).acc = b.acc ∧ z.arr (other x.arr) = y.arr (other x.arr) ∧
         z.cc = y.cc ∧ ∀ m, m ≠ n → t.chan m = s.chan m)))

/-- R319–R324, R506, R545, R565, R566, R673: a WLOAD that is kept back stays; one that fails a check halts its core; one
that can issue asks for its image and holds the staging buffer; on an array marked faulted it ends with an error. The
image is staged once it is whole; one with a word in double error frees the buffer and leaves the partition awaiting a
reload. Its swap begins once every earlier vector of the partition has entered and takes 32 cc; with the last it writes
every stationary byte of the partition and the scale codes of its elements, is counted and ends the command; one with a
parity error leaves the partition awaiting a reload and raises WEIGHT_PARITY.
Content is checked when the command issues (log 7); a partition that awaits a reload does not hold the swap back
(log 38); the two elements of a 4-bit byte each take their own block's code (log 61). -/
def Obligations.WeightLoads : Prop :=
  ∀ (s : State) (a : ArrId),
    let n := arrChan a
    let c := s.chan n
    let k := arrCore a
    let x := c.core k
    let j := arrLoc a
    let r := x.arr j
    let q := arrQ k j
    let o := exec (.wload a) s
    (∀ h rest, CmdAt s n q 9 h rest →
      let w0 := h.w 0
      let off := fld (h.w 1) 0 19
      (c.headFree q h = false ∨ c.tieWait q h = true → o = .next s) ∧
      (c.headFree q h = true → c.tieWait q h = false →
        (∀ e, wloadBad r h = some e → o = .next (cmdHalt s n q h e)) ∧
        (wloadBad r h = none → spansPast (c.spans q h) = true → o = .next (cmdHalt s n q h 0x1D)) ∧
        (∀ t, wloadBad r h = none → spansPast (c.spans q h) = false → r.partOf (fld w0 0 3) = some t → ∃ u, o = .next u ∧
          headIssued c (u.chan n) q rest (issuedAs s n q h r.reg.faulted r.reg.faulted) ∧
          { (u.chan n).core k with queues := x.queues } = (if r.reg.faulted then x
            else (askedFor x q h (clFeed j) 0 off (wloadBytes t.bands w0)).updArr j fun b => { b with reg := { b.reg with
              staging := some { order := h.order, part := fld w0 0 3, logr := fld w0 3 3, w4 := flag w0 6, col := flag w0 7
                                logbs := fld w0 8 4, image := [], left := 0, parity := false } } }) ∧
          (u.chan n).core (other k) = c.core (other k) ∧ ∀ m, m ≠ n → u.chan m = s.chan m))) ∧
    (∀ (l : Load) (y : PoolRd) (rest : List PoolRd), hostIdle s → l.q = q → l.cmd.opc = 9 →
      (∀ g, lastLine x y rest l → r.reg.staging = some g → g.order = l.cmd.order →
        ∃ u, exec (.poolReadData (mkCore n k)) s = .next u ∧ u.chan n = c.setCore k ((loadTaken x rest l).updArr j fun b =>
          { b with reg := { b.reg with staging := some { g with image := l.image y } } })) ∧
      ((∃ w, w ∈ words64 l.off l.len ∧ w ∈ y.bads) → x.pool.rdq = y :: rest → y.dest = .load l.id →
        x.loads.find? (fun z => z.id == l.id) = some l → ∃ u, exec (.poolReadData (mkCore n k)) s = .next u ∧
          (u.chan n).queue q = issuedEnds (c.queue q) l.cmd.order true ∧ (u.arr a).reg = { r.reg with
            staging := none, reload := setBit r.reg.reload (fld (l.cmd.w 0) 0 3) } ∧
          ∀ m, m ≠ n → u.chan m = s.chan m)) ∧
    (∀ parity : Bool,
      (r.reg.staging = none → exec (.wloadSwap a parity) s = .next s) ∧
      (∀ g, r.reg.staging = some g →
        let early (f : Pass) : Prop := pfPart f.prof = g.part ∧ f.order < g.order ∧ ¬(f.phase = .done ∧ f.entries = [])
        (r.reg.faulted = true ∨ g.image = [] ∨ g.left ≠ 0 ∨ (bitOf r.reg.reload g.part = false ∧ ∃ f, f ∈ r.passes ∧ early f) →
          exec (.wloadSwap a parity) s = .next s) ∧
        (r.reg.faulted = false → g.image ≠ [] → g.left = 0 → (bitOf r.reg.reload g.part = true ∨ ∀ f, f ∈ r.passes → ¬early f) →
          exec (.wloadSwap a parity) s = .next (s.updArr a fun b => { b with reg := { b.reg with
            staging := some { g with left := 32, parity := parity } } })))) ∧
    (∀ g t, c.live = true → hostIdle s → (∀ i : Fin 2, (c.core i).cc.stall = none ∧ (c.core i).pool.acc = []) →
      (∀ b, arrChan b = n → b ≠ a → (s.arr b).reg.staging = none) → r.reg.staging = some g → r.partOf g.part = some t →
      r.flt.valid = false →
      let bands := List.range (4 * t.bands)
      ∃ u, exec (.poolAccessGrant n []) s = .next u ∧
        let w := (u.arr a).reg
        w.faulted = r.reg.faulted ∧ (x.pool.mem = ((u.chan n).core k).pool.mem) ∧ (∀ m, m ≠ n → u.chan m = s.chan m) ∧
        (g.left = 0 → w.staging = some g ∧ w.weights = r.reg.weights) ∧
        (2 ≤ g.left → w.staging = some { g with left := g.left - 1 } ∧ w.weights = r.reg.weights ∧ w.wscale = r.reg.wscale) ∧
        (g.left = 1 →
          w.staging = none ∧ w.weights = smSetList 0 r.reg.weights (4096 * t.first) (g.image.take (4096 * t.bands)) ∧
          w.wscale = smSetList 0 r.reg.wscale (8192 * t.first) (bands.flatMap fun d => (List.range 32).flatMap fun col =>
            (List.range 32).flatMap fun b => [g.code t.bands d col b false, g.code t.bands d col b true]) ∧
          w.wwidth = putBit r.reg.wwidth g.part g.w4 ∧ w.wloaded = setBit r.reg.wloaded g.part ∧
          w.swaps = (if r.reg.hold then r.reg.swaps else BitVec.ofNat 16 (r.reg.swaps.toNat + 1)) ∧
          (∀ i, i ∈ ((u.chan n).queue q).issued → i.cmd.order = g.order → i.ended = true) ∧
          (g.parity = false → w.reload = clrBit r.reg.reload g.part ∧ w.parity = r.reg.parity ∧ (u.arr a).flt = r.flt) ∧
          (g.parity = true → w.reload = setBit (clrBit r.reg.reload g.part) g.part ∧
            w.parity = (if r.reg.hold then r.reg.parity else satAdd r.reg.parity 1) ∧ (u.arr a).flt.cause = 0x42 ∧
            (u.arr a).flt.cls = 1 ∧ (u.arr a).flt.info = BitVec.ofNat 32 g.part)))

/-- R506, R545, R546, R568–R570, R587, R615, R619, R632, R646, R647: an XFER, a FRAME or a PSEND that is kept back
stays; a length or an edge that is not permitted halts the core. An XFER joins the engine's transfers. A FRAME takes
what its end holds or asks for its range of a pool, and has ended once it holds its bytes; when it completes its frame
belongs to the slot in progress, and a provisional one becomes eligible or, under CHANNEL.PROV 0, is counted. A PSEND
becomes packets of at most 4,096 bytes, each with its part of the data and its offset in the window; one without a
configured partner fails with none. Data that shows a double error ends its command as failed. Content is checked when
the command issues, after its waits (log 7). -/
def Obligations.Transfers : Prop :=
  ∀ (s : State) (n : ChanId) (h : Cmd) (rest : List Cmd),
    let c := s.chan n
    let w0 := h.w 0
    let len := fld (h.w 3) 16 16
    let src := fld w0 3 2
    let k : Fin 2 := Fin.ofNat 2 (fld w0 5 1)
    let pk : Fin 2 := Fin.ofNat 2 (fld (h.w 4) 19 1)
    let goes (o : Out) (p : Chan → Prop) : Prop := ∃ t, o = .next t ∧ p (t.chan n) ∧ ∀ m, m ≠ n → t.chan m = s.chan m
    let row (o : Out) (q : QId) (bad : Option Nat) (good : Prop) : Prop :=
      (c.headFree q h = false ∨ c.tieWait q h = true → o = .next s) ∧
      (c.headFree q h = true → c.tieWait q h = false →
        (∀ e, bad = some e → o = .next (cmdHalt s n q h e)) ∧
        (bad = none → spansPast (c.spans q h) = true → o = .next (cmdHalt s n q h 0x1D)) ∧
        (bad = none → spansPast (c.spans q h) = false → good))
    (CmdAt s n dmaQ 8 h rest → row (exec (.xfer n) s) dmaQ none (goes (exec (.xfer n) s) fun d =>
      headIssued c d dmaQ rest (issuedAs s n dmaQ h false false) ∧ d.cores = c.cores ∧ d.mp = c.mp ∧
      d.dma = { c.dma with xfers := c.dma.xfers ++
        [{ order := h.order, tag := h.tag, count := fld w0 0 9 + 1, addr := fld (h.w 1) 0 32 + fld (h.w 2) 0 16 * 2 ^ 32
           ranges := [h.w 3, h.w 4], burst := 0, part := 0, got := [], waiting := 0, bad := false, left := fld w0 0 9 + 1 }] })) ∧
    (CmdAt s n launchQ 8 h rest →
      let f (data : List Byte) : Frame :=
        { order := h.order, domain := Fin.ofNat 2 (fld w0 0 1), peer := flag w0 1, prov := flag w0 2
          src := BitVec.ofNat 2 src, cen := flag w0 6, cairn := BitVec.ofNat 11 (fld w0 7 11), ns := h.w 1
          sec := BitVec.ofNat 48 (fld (h.w 2) 0 32 + fld (h.w 3) 0 16 * 2 ^ 32), len := 32 * len, core := k, data := data
          elig := false, late := false, sfn := 0, slot := 0, serial := 0, whole := false }
      let held := (c.core k).endL src
      row (exec (.frame n) s) launchQ
        (if len = 0 ∨ 32768 < len then some 0x10
         else if src < 3 ∧ (c.core k).edge (if src = 2 then 10 else 6 + src) = false then some 0x14 else none)
        ((∀ g, g ∈ c.lch.frames → g.order ≠ h.order ∧ (g.whole = true ∨ g.src = 3)) →
         (∀ i, i ∈ c.launchQ.issued → i.cmd.order ≠ h.order) →
          (src < 3 → goes (exec (.frame n) s) fun d =>
            headIssued c d launchQ rest (issuedAs s n launchQ h (decide (32 * len ≤ held.length)) false) ∧
            d.lch = { c.lch with frames := c.lch.frames ++ [f (held.take (32 * len))] } ∧
            d.core k = (c.core k).setEndL src (held.drop (32 * len)) ∧ d.core (other k) = c.core (other k)) ∧
          (src = 3 → goes (exec (.frame n) s) fun d =>
            headIssued c d launchQ rest (issuedAs s n launchQ h false false) ∧
            d.lch = { c.lch with frames := c.lch.frames ++ [f []] } ∧
            d.core pk = askedFor (c.core pk) launchQ h clDma 0 (fld (h.w 4) 0 19) (32 * len) ∧
            d.core (other pk) = c.core (other pk)))) ∧
    (∀ (i : Fin 2) (l : Load) (y : PoolRd) (more : List PoolRd), hostIdle s →
      let x := c.core i
      let z := loadTaken x more l
      let row (p : Chan → Prop) : Prop := goes (exec (.poolReadData (mkCore n i)) s) p
      (lastLine x y more l →
        (l.q = launchQ → row fun d => d.core i = z ∧ d.queue launchQ = issuedEnds (c.queue launchQ) l.cmd.order false ∧
          d.lch = { c.lch with frames := c.lch.frames.map fun g =>
            if g.order = l.cmd.order ∧ g.whole = false then { g with data := l.image y } else g }) ∧
        (l.q = peerQ → row fun d => d = { c.setCore i z with peers := { c.peers with out := c.peers.out.map fun p =>
          if p.serial = l.part then { p with wait := false, body := { p.body with payload := l.image y } } else p } })) ∧
      (x.pool.rdq = y :: more → y.dest = .load l.id → x.loads.find? (fun v => v.id == l.id) = some l →
        (∃ w, w ∈ words64 l.off l.len ∧ w ∈ y.bads) →
        (l.q = launchQ → row fun d => d.queue launchQ = issuedEnds (c.queue launchQ) l.cmd.order true ∧
          d.lch = { c.lch with frames := c.lch.frames.filter fun g => !(g.order == l.cmd.order && !g.whole) }) ∧
        (l.q = peerQ → row fun d => d.peers = { c.peers with out := c.peers.out.filter fun p => p.serial != l.part } ∧
          ∀ u, u ∈ (d.queue peerQ).issued → u.cmd.order = l.cmd.order → u.failed = true))) ∧
    (∀ (x : Issued) (more : List Issued) (g : Frame), (c.queue launchQ).issued = x :: more → isSignal x.cmd = false → x.ended = true →
      x.failed = false → c.lch.frames.find? (fun y => y.order == x.cmd.order && !y.whole) = some g →
      (∀ y, y ∈ c.lch.frames → y.whole = true → y.serial ≠ c.lch.serial) →
      let done : Frame := { g with whole := true, serial := c.lch.serial, sfn := c.ctl.sfn, slot := c.ctl.slot }
      let put (v : Frame) (l : Lch) : Prop := goes (exec (.commandCompletion n launchQ) s) fun d =>
        d.queue launchQ = { waiting := (c.queue launchQ).waiting, issued := more } ∧ d.cores = c.cores ∧ d.flt = c.flt ∧
        d.lch = { l with serial := c.lch.serial + 1, frames := c.lch.frames.map fun y =>
          if y.order = x.cmd.order ∧ y.whole = false then v else y }
      (g.prov = false → put done c.lch) ∧
      (g.prov = true → c.cfg.prov = false → put done { c.lch with provRef := satAdd c.lch.provRef 1 }) ∧
      (g.prov = true → c.cfg.prov = true → frameLate s done = false → put { done with elig := true, late := false } c.lch)) ∧
    (CmdAt s n peerQ 8 h rest →
      let src := fld w0 6 2
      let k : Fin 2 := Fin.ofNat 2 (fld w0 8 1)
      let entry : Fin 8 := Fin.ofNat 8 (fld (h.w 2) 20 3)
      let len := fld (h.w 3) 0 24
      let off := fld (h.w 1) 0 19
      let coll := flag w0 5 && flag w0 4
      let win := BitVec.ofNat 4 (fld w0 0 4)
      let core : Fin 2 := Fin.ofNat 2 (fld (h.w 2) 19 1)
      let parts := List.range ((len + 4095) / 4096)
      let size (i : Nat) : Nat := min 4096 (len - 4096 * i)
      row (exec (.psend n) s) peerQ (if src < 3 ∧ (c.core k).edge (if src = 2 then 11 else 8 + src) = false then some 0x14 else none)
        ((coll = true ∨ c.entryUsed entry.val = true → goes (exec (.psend n) s) fun d =>
          headIssued c d peerQ rest (issuedAs s n peerQ h (decide (len = 0)) false) ∧ d.peer = c.peer ∧
          d.peers = { c.peers with serial := c.peers.serial + parts.length, out := c.peers.out ++ parts.map fun i =>
            { serial := c.peers.serial + i, entry := entry, acc := flag w0 4
              body := { win := win, core := core, coll := coll, timed := false, late := false, epoch := 0, seq := 0
                        offset := BitVec.ofNat 32 (fld (h.w 2) 0 19 + (if coll then 6144 else 4096) * i), tag := 0, payload := [] }
              len := size i, ends := if src = 3 then none else some (Fin.ofNat 3 src, k), split := false, dma := none
              psend := some h.order, wait := src == 3, sent := false } } ∧
          (src < 3 → d.cores = c.cores) ∧
          (src = 3 → d.core (other k) = c.core (other k) ∧ d.core k = parts.foldl (fun y i =>
            askedFor y peerQ h clPeer (c.peers.serial + i) (off + 4096 * i) (size i)) (c.core k))) ∧
         (coll = false → c.entryUsed entry.val = false → goes (exec (.psend n) s) fun d =>
          headIssued c d peerQ rest (issuedAs s n peerQ h true true) ∧ d.peers.out = c.peers.out ∧ d.cores = c.cores ∧
          (c.peer.errValid = false → d.peer.errValid = true ∧ d.peer.errEntry = entry ∧ d.peer.errSide = false ∧
            d.peer.errWin = BitVec.ofNat 5 (win.toNat + 16 * core.val)))))

/-! ### The datapath -/

/-- R301, R324–R327, R375, R392, R398, R673: a vector enters when its pass allows it: it leaves its feeder, its outputs,
the exact sums over the rows of every column, wait for the drip stage with the columns of a SPAN's sibling and the codes
taken from the decay feed or store; a START writes its entries; the vector is counted. A weight-parity error voids that
array's columns and leaves its partition awaiting a reload; a residue error marks its array faulted, orders a rollback
and delivers none of its columns. One that may not enter stays (log 4). -/
def Obligations.VectorEnters : Prop :=
  ∀ (s : State) (a : ArrId) (part : Fin 8) (p : Pass) (e : FeedEntry) (more : List FeedEntry),
    let n := arrChan a
    let k := arrCore a
    let j := arrLoc a
    let b : ArrId := mkArr n k (other j)
    let x := (s.chan n).core k
    let r := x.arr j
    let u := x.arr (other j)
    let cols := r.cols p.prof
    let span := pfMode p.prof = 5
    (s.chan n).working = true → r.nextPass part.val = some p → p.entries = e :: more →
    (entryReady x j p e = false ∨ entryFed r p = false → ∀ o z, exec (.vectorEntry a part o z) s = .next s) ∧
    (entryReady x j p e = true → entryFed r p = true →
      let home := partOut r p.prof (x.firstRow j part.val) cols (entryRows r p e false)
      let sib := partOut u p.prof (x.firstRow (other j) (pfSibPart p.prof)) cols (entryRows r p e true)
      let need := feedNeed p.prof cols
      let codes := if need ≠ 0 then
          (List.range need).map fun i => if r.drip.feedVoid.contains i then none else some (r.drip.feedQ.getD i 0)
        else if pfMode p.prof = 3 then (List.range cols).map fun i => some (smGet 0 r.drip.decay (pfDC p.prof + i))
        else []
      let out (h g : List Acc) : OutVec :=
        { order := p.order, part := part.val, v := e.v, vals := h, sib := g, codes := codes, ending := e.code == 3 }
      let word (i : Nat) : Nat := r.accS + pfB p.prof + e.v % p.slots * pfHS p.prof + i
      let entered (z : Arr) (pt : Nat) (old : Arr) : Prop :=
        fld (z.reg.logr.setWidth 32) (3 * pt) 3 = pfLogr p.prof ∧
        z.reg.vecs = if old.reg.hold then old.reg.vecs else BitVec.ofNat 32 (old.reg.vecs.toNat + 1)
      let in_ (t : State) : Prop :=
        let z := t.arr a
        entered z part.val r ∧ (span → entered (t.arr b) (pfSibPart p.prof) u) ∧ z.drip.feedQ = r.drip.feedQ.drop need ∧
        (∀ q, q ∈ z.passes → q.order = p.order → ∃ l, q.entries = more ++ l) ∧
        (p.isStep = true → r.reg.hold = false → z.stepReg.count = BitVec.ofNat 32 (r.stepReg.count.toNat + 1) ∧
          z.stepReg.ends = if e.code = 3 then BitVec.ofNat 16 (r.stepReg.ends.toNat + 1) else r.stepReg.ends) ∧
        (p.isStep = false ∨ e.code ≠ 1 → z.acc = r.acc ∧ z.loopStore = r.loopStore) ∧
        (p.isStep = true → e.code = 1 → r.acc.upd = [] → ∀ i, i < pfHS p.prof →
          z.accRaw (word i) = a40Enc (if i < pfHL p.prof then
            (p.initV.map fun v => (f20ToAcc v (pfXS p.prof)).1).getD i (.fin 0) else .fin 0)) ∧
        (t.core (mkCore n k)).pool.mem = x.pool.mem
      (∃ t, exec (.vectorEntry a part .clean noErrors) s = .next t ∧ in_ t ∧
        (t.arr a).outs = r.outs ++ [out home (if pfMode p.prof = 5 then sib else [])] ∧ ∀ m, m ≠ n → t.chan m = s.chan m) ∧
      (∃ t, exec (.vectorEntry a part (.weightParity false) noErrors) s = .next t ∧ in_ t ∧
        (t.arr a).outs = r.outs ++ [out (home.map fun _ => .void) (if pfMode p.prof = 5 then sib else [])] ∧
        bitOf (t.arr a).reg.reload part.val = true ∧
        (r.reg.hold = false → (t.arr a).reg.parity = satAdd r.reg.parity 1) ∧
        (r.flt.valid = false → (t.arr a).flt.cause = 0x42 ∧ (t.arr a).flt.cls = 1 ∧
          (t.arr a).flt.info = BitVec.ofNat 32 part.val)) ∧
      (span → ∃ t, exec (.vectorEntry a part (.weightParity true) noErrors) s = .next t ∧ in_ t ∧
        (t.arr a).outs = r.outs ++ [out home (sib.map fun _ => .void)] ∧
        bitOf (t.arr b).reg.reload (pfSibPart p.prof) = true ∧
        (u.flt.valid = false → (t.arr b).flt.cause = 0x42 ∧ (t.arr b).flt.cls = 1)) ∧
      (∀ col row tree,
        let faults (t : State) (i : ArrId) : Prop := (t.arr i).reg.faulted = true ∧ (t.chan n).flt.rbOrder = true ∧
          ((s.arr i).flt.valid = false → (t.arr i).flt.cause = 0x40 ∧ (t.arr i).flt.cls = 3 ∧
            (t.arr i).flt.info = BitVec.ofNat 32 (col.toNat + row.toNat * 32 + tree.toNat * 1024))
        (∃ t, exec (.vectorEntry a part (.residue false col row tree) noErrors) s = .next t ∧ faults t a ∧
          (t.arr a).outs = r.outs) ∧
        (span → ∃ t, exec (.vectorEntry a part (.residue true col row tree) noErrors) s = .next t ∧ faults t b ∧
          (t.arr a).outs = (r.outs ++ [out home sib]).map fun o => { o with sib := [] })))

/-- R307, R308, R315, R333–R335, R345, R349, R350, R352, R392: the drip stage takes the outputs of the earliest vector
that it can accept, one of a partition in a cc: an ACCUMULATE-INTO pass sends them to the sibling's file; DIRECT emits
them at once; any other writes each word of the file by its mode, a SPAN with the sibling's columns as contributions,
and an EMIT write is emitted in the next cc from the words as they then stand. Emitted values go to GATEn, a tile
stream or the pool; a STEP with chains leaves its stream, one without leaves the clear of an END. With no such outputs
a DRAIN's words are taken. The pool itself and other channels stay. Outputs come before DRAINs (log 14); a row with
nothing to take changes nothing (log 4). -/
def Obligations.DripReceives : Prop :=
  ∀ (s : State) (a : ArrId),
    let n := arrChan a
    let k := arrCore a
    let j := arrLoc a
    let x := (s.chan n).core k
    let r := x.arr j
    let u := x.arr (other j)
    let valueOf (b : Arr) (p : Prof) (off : Nat) (vs : List Acc) : List F20 := vs.zipIdx.map fun v => (dripValue b p (off + v.2) v.1).1
    let goesTo (x0 y : Core) (p : Prof) (order i : Nat) (vs : List F20) : Prop :=
      (pfDdest p ≠ 0 → (y.arr j).drip.emit = (x0.arr j).drip.emit) ∧ (pfDdest p ≠ 1 → y.lane = x0.lane) ∧
      (pfDdest p = 1 → y.lane = x0.lane.tilePut (fld (pw p 9) 0 3) (fld (pw p 9) 3 5) false i vs) ∧
      (2 ≤ pfDdest p → ∃ l, y.pool.acc = x0.pool.acc ++ ((dripBytes p i vs).1.zipIdx.flatMap fun w =>
        dripWrites j order w.1.1 (if w.2 = 0 then vs.length else 0) w.1.2) ++ l)
    let emits (x0 y : Core) (p : Pass) (v : Nat) (ending : Bool) (acc : List Acc) : Prop :=
      let vs := valueOf (x0.arr j) p.prof 0 acc
      let none_ (t : Stream) : Stream := { t with inGate := false }
      goesTo x0 y p.prof p.order p.emitted vs ∧
      (pfDdest p.prof = 0 → p.isStep = false → (y.arr j).drip.emit = (x0.arr j).drip.emit ++ vs) ∧
      (p.isStep = true → pfNseq p.prof ≠ 0 → ∃ g, (∀ e l, pfSeq p.prof = e :: l → g = e.first) ∧
        (y.arr j).streams.map none_ = (x0.arr j).streams.map none_ ++
          [{ order := p.order, slot := v % p.slots, v := v, ending := ending, entry := 0, group := g, looped := []
             drip := vs.zipIdx.map fun v => (v.2, v.1), inGate := false, stAt := 0 }]) ∧
      (p.isStep = false ∨ pfNseq p.prof = 0 → (y.arr j).streams.map none_ = (x0.arr j).streams.map none_)
    (r.reg.faulted = false → (s.chan n).working = true →
      (∀ o p, x.nextOut j = some o → r.passes.find? (fun p => p.order == o.order) = some p →
        let mode := pfMode p.prof
        let slot := o.v % p.slots
        let w0 := if mode = 5 then pfStride p.prof + o.v % 32 * r.cols p.prof
          else if p.isStep then r.accS + pfB p.prof + slot * pfHS p.prof else pfB p.prof + o.v * pfStride p.prof
        let code (i : Nat) : Option (BitVec 17) := o.codes.getD (i / if pfFeed p.prof then pfG p.prof else 1) (some 0)
        let prior (i : Nat) : List Acc :=
          if mode = 2 then [r.accGet (w0 + i)]
          else if mode = 3 then [match code i with
            | some d => accDecay (r.accGet (w0 + i)) d
            | none => .void]
          else []
        let file := (o.vals.zipIdx.foldl (fun (b : Arr) v => b.accWrite (w0 + v.2) (prior v.2 ++ [v.1])) r).accIntoRun w0 o.sib
        let ends := p.isStep = true ∧ pfNseq p.prof = 0 ∧ o.ending = true
        ∃ t, exec (.dripReceive a noErrors) s = .next t ∧
          let y := (t.chan n).core k
          let z := y.arr j
          let v := y.arr (other j)
          z.outs = r.outs.erase o ∧ (o.part < 8 → bitOf z.cc.received o.part = true) ∧ y.pool.mem = x.pool.mem ∧
          (∀ m, m ≠ n → t.chan m = s.chan m) ∧ v.acc = u.acc ∧
          (mode = 4 → z.acc = r.acc ∧ z.drip.emit = r.drip.emit ∧ z.emits = r.emits ∧ y.lane = x.lane ∧ v.arrivals = u.arrivals ++
            [{ word := pfB p.prof + o.v * pfStride p.prof, vals := o.vals, src := none, peer := none, flits := 0, own := some p.order }]) ∧
          (mode ≠ 4 → v.arrivals = u.arrivals) ∧
          (mode = 0 → z.acc = r.acc ∧ z.emits = r.emits ∧ emits x y p o.v o.ending (o.vals.map fun v => accTotal [v])) ∧
          (mode ≠ 0 → mode ≠ 4 → z.acc = file.acc ∧ z.streams = r.streams ∧ z.drip.emit = r.drip.emit ∧ y.lane = x.lane ∧
            z.emits = if pfEmits p.prof then r.emits ++
              [{ order := p.order, v := o.v, word := w0, count := o.vals.length, ending := o.ending }] else r.emits) ∧
          (ends → z.clears = r.clears ++ [{ first := pfB p.prof + slot * pfHS p.prof, count := pfHS p.prof, order := p.order
                                            slot := slot, due := (s.chan n).ctl.cc + 1 }]) ∧
          (¬ ends → z.clears = r.clears)) ∧
      (∀ d more, x.nextOut j = none → r.drains = d :: more → r.cc.drew = false →
        (∀ o, o ∈ r.outs → d.order ≤ o.order) →
        let len := min d.left (if pfDdest d.prof = 4 ∨ pfDdest d.prof = 5 then max 128 (pfDbs d.prof) else 128)
        x.emitFill j + len ≤ 2048 →
        ∃ t, exec (.dripReceive a noErrors) s = .next t ∧
          let y := (t.chan n).core k
          let z := y.arr j
          let vs := valueOf r d.prof d.done ((List.range len).map fun i => r.accGet (d.word + i))
          z.acc = r.acc ∧ y.pool.mem = x.pool.mem ∧ goesTo x y d.prof d.order d.done vs ∧ z.cc.drew = true ∧
          (pfDdest d.prof = 0 → z.drip.emit = r.drip.emit ++ vs) ∧ (d.left ≤ len → z.drains = more) ∧
          (len < d.left → z.drains.head? = some { d with word := d.word + len, left := d.left - len, done := d.done + len }))) ∧
    (r.outs = [] → r.drains = [] → exec (.dripReceive a noErrors) s = .next s) ∧
    (∀ (i : EmitJob) (p : Pass) (cc : Nat), r.emits = [i] → r.acc.pend = [] →
      r.passes.find? (fun p => p.order == i.order) = some p →
      emits x (x.nextCcArr j cc) p i.v i.ending ((List.range i.count).map fun w => a40Dec (r.accRaw (i.word + w))))

/-- R281, R335, R358, R362, R366–R368, R376, R378: the words of the oldest run of arrivals that a cc allows, a pass's
whole and 32 of the others, are added to their words, never clash, and are handed back to the descriptor that sent them;
the range is checked on the exact sum of a cc; a word found in single error is counted, one in double error reads void
and raises ACC_ECC, a group in tag-parity error faults the array. The requantiser writes the oldest slice it forms into
the loop store; an END's clear that is due writes its entries zero. With nothing to do each stays (log 4). -/
def Obligations.FileEvents : Prop :=
  ∀ (s : State) (a : ArrId),
    let r := s.arr a
    let n := arrChan a
    let into (z : AccSee) := exec (.accumulateInto a z) s
    (∀ (b : Arr) (w : Nat) (v : Acc),
      let c := b.ccWord w
      let d := b.accPut w (a40Enc (accTotal [c.base.getD (a40Dec c.prior), c.into, v]))
      (b.accInto w v).acc.scratch = d.acc.scratch ∧ (b.accInto w v).acc.entries = d.acc.entries ∧
        (b.accInto w v).acc.clash = b.acc.clash) ∧
    (r.arrivals = [] → ∀ z, into z = .next s) ∧
    (∀ v k, r.intoNext = some (v, k) →
      (k = if v.own.isSome then v.vals.length else min (32 - r.cc.into) v.vals.length) ∧
      (let file := r.accIntoRun v.word (v.vals.take k)
       ∃ t, into noErrors = .next t ∧ (t.arr a).acc = file.acc ∧
        (v.vals.length ≤ k → ∃ l, (t.arr a).arrivals = r.arrivals.erase v ++ l ∧ (v.peer = none → l = [])) ∧
        (k < v.vals.length → { v with word := v.word + k, vals := v.vals.drop k } ∈ (t.arr a).arrivals) ∧
        ((t.arr a).cc.into = if v.own.isSome then r.cc.into else r.cc.into + k) ∧
        (∀ id, v.src = some id → (t.chan n).dma.descs = (s.chan n).dma.descs.map fun d =>
          if d.id = id then { d with donePos := d.donePos + 8 * k } else d) ∧
        (v.src = none → v.peer = none → (t.chan n).dma = (s.chan n).dma)) ∧
      (∀ w, v.word ≤ w → w < v.word + k →
        let word : Nat := w
        into { finds := [{ word := word, double := false }], par := [] } =
          exec (.accumulateInto a noErrors) (s.updArr a fun x => { x with acc := { x.acc with corr := satAdd x.acc.corr 1 } }) ∧
        (∃ t, into { finds := [{ word := word, double := true }], par := [] } = .next t ∧
          let z := t.arr a
          z.acc.uncorr = satAdd r.acc.uncorr 1 ∧ z.acc.eccValid = true ∧
          (smFind r.acc.upd w = none → z.accRaw w = a40Enc .void) ∧
          (r.acc.eccValid = false → z.acc.eccCopy = r.accCopy w ∧ z.acc.eccWord = BitVec.ofNat 16 w) ∧
          (r.flt.valid = false → z.flt.cause = 0x43 ∧ z.flt.cls = 1 ∧ z.flt.info = accEccAddr (r.accCopy w) w)) ∧
        (∀ g : BitVec 10, r.accS ≤ w → (w - r.accS) / 32 = g.toNat → ∃ t, into { finds := [], par := [g] } = .next t ∧
          let z := t.arr a
          z.reg.faulted = true ∧ z.acc.tagErr = true ∧ ((s.chan n).ctl.state ≠ .lost → (t.chan n).flt.rbOrder = true) ∧
          (r.flt.valid = false → z.flt.cause = 0x41 ∧ z.flt.cls = 3 ∧ z.flt.info = BitVec.ofNat 32 g.toNat)))) ∧
    (r.slices = [] → exec (.loopSliceReady a) s = .next s) ∧
    (∀ g more, r.slices = g :: more → ∃ t, exec (.loopSliceReady a) s = .next t ∧
      let z := t.arr a
      let q := (requant g.prof g.vals).2
      z.slices = more ∧ z.acc = r.acc ∧ z.streams = r.streams ∧
      z.loopGet g.prof (slotBase g.prof g.slot) g.n = some (requant g.prof g.vals).1 ∧
      z.drip.flags.extractLsb' 0 4 = r.drip.flags.extractLsb' 0 4 ∧
      bitOf z.drip.flags 4 = (bitOf r.drip.flags 4 || bitOf q 1) ∧ bitOf z.drip.flags 5 = (bitOf r.drip.flags 5 || bitOf q 0) ∧
      ∀ b, b ≠ a → t.arr b = s.arr b) ∧
    ((∀ c, c ∈ r.clears → (s.chan n).ctl.cc < c.due) → ∀ z, exec (.endStateClear a z) s = .next s) ∧
    (∀ c, r.clears.find? (fun c => decide (c.due ≤ (s.chan n).ctl.cc)) = some c →
      ∃ t, exec (.endStateClear a noErrors) s = .next t ∧
        let z := t.arr a
        z.clears = r.clears.erase c ∧ z.acc.scratch = r.acc.scratch ∧
        (r.acc.upd = [] → ∀ i, i < c.count → z.accRaw (r.accS + c.first + i) = 0) ∧
        (∀ e, e < c.first ∨ c.first + c.count ≤ e → smFind z.acc.entries e = smFind r.acc.entries e) ∧
        z.loopStore = r.loopStore ∧ ∀ b, b ≠ a → t.arr b = s.arr b)

/-- R376, R379, R385, R402, R417, R426, R428, R449: a gate pipe makes at most one issue in a cc: a prime first, whose
elements go to the requantiser, else the issue of the step work at hand, else that of the CHAIN at hand; it stays when
there is none, and a pipe that a SIPHON borrows has neither primes nor step work. An issue runs its chain's stages, its
state writes are under way to the cc after their stages, its result is delivered and it is counted; a stream that ends
leaves the pipe, and that of an END leaves the clear two cc after its last STATE stage.
The order of choice is the model's reading (log 41); a row with nothing to issue changes nothing (log 4). -/
def Obligations.GateIssues : Prop :=
  ∀ (s : State) (a : ArrId),
    let n := arrChan a
    let k := arrCore a
    let j := arrLoc a
    let c := s.chan n
    let x := c.core k
    let r := x.arr j
    let cc := c.ctl.cc
    let step := x.lent j = false
    let out := exec (.gateIssue a noErrors) s
    let counted (z : Arr) : Prop := z.cc.issued = true ∧
      z.gate.issues = if r.reg.hold then r.gate.issues else BitVec.ofNat 32 (r.gate.issues.toNat + 1)
    let none_ (t : Stream) : Stream := { t with inGate := false }
    (r.cc.issued = true → out = .next s) ∧
    (c.working = true → r.cc.issued = false → (∀ f, f ∈ c.lch.frames → f.whole = true) →
    (∀ p slot i, step → r.primeNext = some (p, slot, i) → ∃ t, out = .next t ∧
      let z := t.arr a
      counted z ∧ z.slices = r.slices ++ [{ order := p.order, slot := slot, n := i, prof := p.prof
                                            vals := (sliceElems p.prof i).map fun e =>
                                              (accToF20 (r.accGet (r.accS + slotBase p.prof slot + e)) (pfXS p.prof)).1 }] ∧
      (r.reg.hold = false → z.stepReg.primes = satAdd r.stepReg.primes 1) ∧ z.acc = r.acc ∧ z.streams = r.streams ∧
      z.chainRun = r.chainRun ∧ ((t.chan n).core k).pool = x.pool ∧ ∀ m, m ≠ n → t.chan m = s.chan m) ∧
    (let effect (t : State) (y : Core) (w : Work) (i : IssueCtx) (res : IssueRes) : Prop :=
      let u := (t.chan n).core k
      let z := u.arr j
      let d := w.desc.dest
      counted z ∧ z.gate.desc = BitVec.ofNat 6 w.ent.desc ∧ z.acc.entries = r.acc.entries ∧ z.acc.scratch = r.acc.scratch ∧
      z.acc.pend = r.acc.pend ++ w.writes res r cc ∧
      (∀ v, v ∈ w.writes res r cc → cc + 1 < v.due) ∧
      (d = 1 → u.lane.tiles = (((List.range 32).filter fun l => bitOf w.ent.mask l).foldl (fun (m : Lane) l =>
        m.tileWrite (1024 * w.desc.tdreg + 32 * ((w.desc.tdrow + w.deliv) % 32) + l) (res.vals.getD l 0)) y.lane).tiles) ∧
      (d = 2 → z.drip.feedQ = r.drip.feedQ ++ (i.decayCodes res).1.map (·.getD 0)) ∧
      (d = 3 → u.ends.gateL.get j = x.ends.gateL.get j ++ (i.record res).1) ∧
      (d = 4 → w.desc.gathers = false → u.ends.gateP.get j = x.ends.gateP.get j ++ (i.record res).1) ∧
      (d = 4 → w.desc.gathers = true → u.ends.gateP.get j = x.ends.gateP.get j ++
        if w.k = w.ent.last then a40Bytes (a40Enc res.sum) ++ a40Bytes (a40Enc res.sq) else []) ∧
      (d ≠ 1 → u.lane.tiles = x.lane.tiles) ∧ (d ≠ 2 → z.drip.feedQ = r.drip.feedQ) ∧
      (d ≠ 3 → u.ends.gateL = x.ends.gateL) ∧ (d ≠ 4 → u.ends.gateP = x.ends.gateP) ∧
      u.pool.mem = x.pool.mem ∧ ∀ m, m ≠ n → t.chan m = s.chan m
     (∀ st w, step → r.primeNext = none → stepPick c x j = some (st, w) →
       let i := w.ctx c x j s.free
       let res := i.run w.sum w.sq w.isLocal
       let last := if res.state.isEmpty then st.stAt else max st.stAt (cc + w.desc.stageAt opSTATE)
       ∃ t, out = .next t ∧ effect t x w i res ∧ (t.arr a).chainRun = r.chainRun ∧
         (seqAfter (pfSeq w.prof) st.entry st.group = none →
           (t.arr a).streams.map none_ = (r.streams.filter fun u => !(u.order == st.order && u.v == st.v)).map none_ ∧
           (t.arr a).clears = if st.ending then r.clears ++
             [{ first := w.base, count := pfHS w.prof, order := st.order, slot := st.slot
                due := if last = 0 then cc + w.desc.lat + 1 else last + 2 }] else r.clears) ∧
         (∀ e g, seqAfter (pfSeq w.prof) st.entry st.group = some (e, g) → (t.arr a).clears = r.clears ∧
           ∀ v, v ∈ (t.arr a).streams → v.order = st.order → v.v = st.v → v.entry = e ∧ v.group = g)) ∧
     (∀ y u w, (step → r.primeNext = none ∧ stepPick c x j = none) → chainPick c x j = some (y, u, w) →
       let i := w.ctx c y j s.free
       ∃ t, out = .next t ∧ effect t y w i (i.run w.sum w.sq w.isLocal) ∧
         (t.arr a).streams.map none_ = r.streams.map none_ ∧
         (seqAfter (pfSeq w.prof) u.entry u.group = none → u.items ≤ u.item + 1 →
           ∀ v, v ∈ (t.arr a).chainRun → v.order ≠ u.order)) ∧
     ((step → r.primeNext = none ∧ stepPick c x j = none) → chainPick c x j = none → out = .next s)))

/-- R404–R407, R409, R412, R415, R465, R472, R474, R475, R479: a SIPHON's sweep runs once every line it reads has
arrived: it counts its operations and queues the lines it writes; once they are written the next sweep asks for its
lines, or, after the last, the command has ended. A round of an LRUN whose lines have arrived takes every enabled lane
through the program, queues the lines it writes and asks for those of the next round; the last leaves any summary, and
the LRUN ends once that has reached its q register and its lines are written. With nothing under way nothing changes.
A round is one row (log 43); a row with nothing under way changes nothing (log 4). -/
def Obligations.SweepsAndRounds : Prop :=
  ∀ (s : State) (k : CoreId),
    let n := coreChan k
    let j := coreLoc k
    let q := laneQ j
    let c := s.chan n
    let y := s.core k
    let ended (d : Chan) (p : QId) (o : Nat) : Prop := ∀ i, i ∈ (d.queue p).issued → i.cmd.order = o → i.ended = true
    let settled := ∀ a, a ∈ y.pool.acc → a.dest ≠ .siphOut ∧ a.dest ≠ .laneOut
    let reads (dest : PoolDest) (l : List Nat) : List PoolAcc :=
      l.map fun l => { client := clLane, line := l, write := none, dest := dest }
    (∀ (r : PoolRd) (more : List PoolRd), hostIdle s → y.pool.rdq = r :: more →
      (∀ w, y.siph.run = some w → y.siph.primed = true → r.dest = .siphIn → ∃ t, exec (.poolReadData k) s = .next t ∧
        (t.core k).siph = { y.siph with left := y.siph.left - 1, buf := smSetList 0 y.siph.buf (128 * r.line) r.data
                                        bads := y.siph.bads ++ r.bads }) ∧
      (∀ w, y.lane.run = some w → r.dest = .laneIn → ∃ t, exec (.poolReadData k) s = .next t ∧
        (t.core k).lane = { y.lane with run := some { w with
          left := w.left - 1, buf := smSetList 0 w.buf (128 * r.line) r.data, bads := w.bads ++ r.bads } })) ∧
    (y.siph.run = none → ∀ z, exec (.siphonSweep k z) s = .next s) ∧
    (∀ o ws, y.siph.run = some (o, ws) → c.working = true → y.siph.primed = true → y.siph.left = 0 → settled →
      let x := siphonOf ws
      let i := y.siph.nextSweep
      let r := siphSweep x y.siph.h0 i y.siph.buf y.siph.bads
      let out := maskedWrites clLane ((r.1.wrote.eraseDups).map fun a => (a, smGet 0 r.1.mem a)) .siphOut
      i < 2 * x.d → out ≠ [] → ∃ t, exec (.siphonSweep k noErrors) s = .next t ∧
        let z := t.core k
        z.pool.acc = y.pool.acc ++ out ∧ z.pool.mem = y.pool.mem ∧ z.siph = { y.siph with
          sweep := BitVec.ofNat 5 i, nextSweep := i + 1, ops := satAdd y.siph.ops r.2 } ∧
        (x.gates = false → z.lane.flags = y.lane.flags ||| r.1.fl) ∧ z.lane.tiles = y.lane.tiles ∧
        (i + 1 < 2 * x.d ∨ x.final = false → (z.arr x.arr).acc = (y.arr x.arr).acc) ∧
        (i + 1 = 2 * x.d → x.final = true → (z.arr x.arr).acc.entries =
          ((List.range x.w).foldl (fun (b : Arr) w => b.accWrite (b.accS + x.sb + w)
            [(f20ToAcc (x.get y.siph.bads r.1 x.b (x.l - 1) w) x.xs).1]) (y.arr x.arr)).acc.entries) ∧
        ∀ m, m ≠ n → t.chan m = s.chan m) ∧
    (∀ o ws, y.siph.run = some (o, ws) → settled →
      let x := siphonOf ws
      let d := siphNext c j
      let z := d.core j
      (y.siph.nextSweep < 2 * x.d → z.pool.acc = y.pool.acc ++ reads .siphIn (x.lines y.siph.nextSweep) ∧
        z.siph = { y.siph with left := (x.lines y.siph.nextSweep).length, buf := [], bads := [] }) ∧
      (2 * x.d ≤ y.siph.nextSweep → z.siph.run = none ∧ z.siph.busy = false ∧
        z.siph.passes = BitVec.ofNat 32 (y.siph.passes.toNat + 1) ∧ ended d q o ∧
        (x.borrows = true → ended d (gateQ j x.arr) o))) ∧
    (y.lane.run = none → ∀ same, exec (.laneRound k same) s = .next s) ∧
    (∀ r same, y.lane.run = some r → c.working = true → (∀ f, f ∈ c.lch.frames → f.whole = true) → laneReady y r = true →
      y.lane.sumry = none →
      let h := r.cmd
      let total := lrunN h
      let done := 64 * r.round + min 64 (total - 64 * r.round)
      let rs := laneRound y h r s.free
      let inPool (i : Strm) : Prop := ∃ a p, i = .pool a p
      ∃ t ws, exec (.laneRound k same) s = .next t ∧
        let z := t.core k
        (∀ a, a ∈ ws → a.client = clLane ∧ a.dest = .laneOut) ∧
        (¬ inPool (h.strm 4) → ¬ inPool (h.strm 5) → ¬ inPool (lrunDest h) → ws = []) ∧ z.pool.mem = y.pool.mem ∧
        z.lane.rounds = BitVec.ofNat 32 (y.lane.rounds.toNat + 1) ∧ z.lane.round = BitVec.ofNat 10 r.round ∧
        z.lane.pc = BitVec.ofNat 6 (lrunP h - 1) ∧ z.arrs = y.arrs ∧ z.siph = y.siph ∧ z.cc = y.cc ∧
        (done < total → z.pool.acc = y.pool.acc ++ ws ++ reads .laneIn (laneLines h (r.round + 1)) ∧ z.lane.sumry = none ∧
          ∃ r2, z.lane.run = some r2 ∧ r2.round = r.round + 1 ∧ r2.order = r.order ∧ r2.words = r.words ∧ r2.done = false ∧
            r2.left = (laneLines h (r.round + 1)).length ∧
            r2.v = rs.zipIdx.foldl (fun m p => p.1.regs.zipIdx.foldl (fun m v => smSet 0 m (64 * v.2 + p.2) v.1) m) r.v) ∧
        (total ≤ done → z.pool.acc = y.pool.acc ++ ws ∧
          (lrunQen h = false → z.lane.sumry = none ∧
            (ws = [] → z.lane.run = none ∧ z.lane.busy = false ∧ ended (t.chan n) q r.order)) ∧
          (lrunQen h = true → lrunAxis h = 3 → (∃ w, z.lane.sumry = some (lrunQ h, w)) ∧
            ∃ r2, z.lane.run = some r2 ∧ r2.done = true)) ∧
        ∀ m, m ≠ n → t.chan m = s.chan m) ∧
    (y.lane.sumry = none → exec (.summaryWrite k) s = .next s) ∧
    (∀ d w, y.lane.sumry = some (d, w) → ∃ t, exec (.summaryWrite k) s = .next t ∧
      let z := t.core k
      z.cc = { y.cc with r := { y.cc.r with
        q := smSet 0 y.cc.r.q d.val w, qpend := smSet 0 y.cc.r.qpend d.val (smGet 0 y.cc.r.qpend d.val - 1) } } ∧
      z.pool = y.pool ∧ z.arrs = y.arrs ∧ z.lane.sumry = none ∧
      (∀ r, y.lane.run = some r → r.done = true → settled →
        z.lane.run = none ∧ z.lane.busy = false ∧ ended (t.chan n) q r.order) ∧
      (y.lane.run = none ∨ (∃ r, y.lane.run = some r ∧ r.done = false) → z.lane = { y.lane with sumry := none } ∧
        (t.chan n).queue q = c.queue q) ∧
      ∀ r, r ≠ q → (t.chan n).queue r = c.queue r)

/-! ### The whole machine -/

/-- A step runs the command in front on the state with the queue's rest; an empty queue is one cc (log 3). -/
def Obligations.StepTakesFront : Prop :=
  (∀ (s : State) (c : Instr) (rest : List Instr), s.pending = c :: rest → step s = exec c { s with pending := rest }) ∧
  (∀ s : State, s.pending = [] → step s = .next (ccAdvance s))

/-- Every well-formed command goes on from every state and leaves the queue to the step; an ill-formed one is the fault
illFormed.
The fault is the model's (log 48). -/
def Obligations.ExecCompletes : Prop :=
  ∀ (c : Instr) (s : State), (c.wf = true → ∃ t, exec c s = .next t ∧ t.pending = s.pending) ∧
    (c.wf = false → exec c s = .fault .illFormed)

/-- R54, R674, R699: the state after reset is legal.
The values the spec does not give are those of log 1 and log 2. -/
def Obligations.ResetLegal : Prop := State.reset.Legal ∧ State.reset.storesWf

/-- R53, R63, R66, R139, R598, R672, R699: whatever the engine's registers keep to, every step keeps. -/
def Obligations.StepKeepsLegal : Prop := ∀ s t : State, s.Legal → step s = .next t → t.Legal

/-- R480, R541: every step keeps the pools in their canonical form and the seven queues of every core. -/
def Obligations.StepKeepsStores : Prop := ∀ s t : State, s.storesWf → step s = .next t → t.storesWf
end

