-- ==== Sys2Proof/Laws/State.lean ====
section
/-! SUPPORT. What a write to one channel, core or array leaves to be read: one lemma per read of a component per
update, each true by unfolding, so that no proof unfolds a record update. -/

namespace Sys2Proof.Laws

open Sys2Proof Sys2Proof.Machine

variable {α : Type}

/-! ### Four of a kind, two of a kind -/

@[simp] theorem quad_get_set (q : Quad α) (i : Fin 4) (x : α) : (q.set i x).get i = x := by
  match i with
  | 0 | 1 | 2 | 3 => rfl

@[simp] theorem quad_get_set_ne (q : Quad α) {i j : Fin 4} (x : α) (h : i ≠ j) : (q.set j x).get i = q.get i := by
  match i, j, h with
  | 0, 1, _ | 0, 2, _ | 0, 3, _ | 1, 0, _ | 1, 2, _ | 1, 3, _ => rfl
  | 2, 0, _ | 2, 1, _ | 2, 3, _ | 3, 0, _ | 3, 1, _ | 3, 2, _ => rfl
  | 0, 0, h | 1, 1, h | 2, 2, h | 3, 3, h => exact absurd rfl h

@[simp] theorem quad_set_set (q : Quad α) (i : Fin 4) (x y : α) : (q.set i x).set i y = q.set i y := by
  match i with
  | 0 | 1 | 2 | 3 => rfl

@[simp] theorem quad_set_get (q : Quad α) (i : Fin 4) : q.set i (q.get i) = q := by
  match i with
  | 0 | 1 | 2 | 3 => rfl

@[simp] theorem duo_get_set (q : Duo α) (i : Fin 2) (x : α) : (q.set i x).get i = x := by
  match i with
  | 0 | 1 => rfl

@[simp] theorem duo_get_set_ne (q : Duo α) {i j : Fin 2} (x : α) (h : i ≠ j) : (q.set j x).get i = q.get i := by
  match i, j, h with
  | 0, 1, _ | 1, 0, _ => rfl
  | 0, 0, h | 1, 1, h => exact absurd rfl h

@[simp] theorem duo_set_set (q : Duo α) (i : Fin 2) (x y : α) : (q.set i x).set i y = q.set i y := by
  match i with
  | 0 | 1 => rfl

@[simp] theorem duo_set_get (q : Duo α) (i : Fin 2) : q.set i (q.get i) = q := by
  match i with
  | 0 | 1 => rfl

/-! ### A channel -/

variable (s : State) (n m : ChanId) (x : Chan) (f g : Chan → Chan)

@[simp] theorem chan_setChan : (s.setChan n x).chan n = x := quad_get_set ..
@[simp] theorem chan_setChan_ne (h : m ≠ n) : (s.setChan n x).chan m = s.chan m := quad_get_set_ne _ _ h
@[simp] theorem setChan_chan : s.setChan n (s.chan n) = s := by simp [State.setChan, State.chan]
@[simp] theorem setChan_setChan (y : Chan) : (s.setChan n x).setChan n y = s.setChan n y := by simp [State.setChan]
@[simp] theorem chan_updCh : (s.updCh n f).chan n = f (s.chan n) := chan_setChan ..
@[simp] theorem chan_updCh_ne (h : m ≠ n) : (s.updCh n f).chan m = s.chan m := chan_setChan_ne _ _ _ _ h
@[simp] theorem updCh_updCh : (s.updCh n f).updCh n g = s.updCh n fun c => g (f c) := by
  simp [State.updCh]
theorem updCh_congr {s : State} {n : ChanId} {f g : Chan → Chan} (h : f (s.chan n) = g (s.chan n)) :
    s.updCh n f = s.updCh n g := congrArg (s.setChan n) h
@[simp] theorem setChan_updCh : (s.updCh n f).setChan n x = s.setChan n x := by simp [State.updCh]
@[simp] theorem updCh_setChan : (s.setChan n x).updCh n f = s.setChan n (f x) := by simp [State.updCh]

@[simp] theorem setChan_pending : (s.setChan n x).pending = s.pending := rfl
@[simp] theorem setChan_free : (s.setChan n x).free = s.free := rfl
@[simp] theorem setChan_eng : (s.setChan n x).eng = s.eng := rfl
@[simp] theorem setChan_boot : (s.setChan n x).boot = s.boot := rfl
@[simp] theorem setChan_hperr : (s.setChan n x).hperr = s.hperr := rfl
@[simp] theorem setChan_tap : (s.setChan n x).tap = s.tap := rfl
@[simp] theorem setChan_clk : (s.setChan n x).clk = s.clk := rfl
@[simp] theorem setChan_pwr : (s.setChan n x).pwr = s.pwr := rfl
@[simp] theorem setChan_thm : (s.setChan n x).thm = s.thm := rfl
@[simp] theorem setChan_td : (s.setChan n x).td = s.td := rfl
@[simp] theorem setChan_tdc : (s.setChan n x).tdc = s.tdc := rfl
@[simp] theorem setChan_cal : (s.setChan n x).cal = s.cal := rfl
@[simp] theorem setChan_srv : (s.setChan n x).srv = s.srv := rfl
@[simp] theorem setChan_txn : (s.setChan n x).txn = s.txn := rfl
@[simp] theorem setChan_log : (s.setChan n x).log = s.log := rfl
@[simp] theorem setChan_recov : (s.setChan n x).recov = s.recov := rfl
@[simp] theorem setChan_flt : (s.setChan n x).flt = s.flt := rfl
@[simp] theorem setChan_tdSel : (s.setChan n x).tdSel = s.tdSel := rfl
@[simp] theorem setChan_tdMax : (s.setChan n x).tdMax = s.tdMax := rfl
@[simp] theorem updCh_pending : (s.updCh n f).pending = s.pending := rfl
@[simp] theorem updCh_free : (s.updCh n f).free = s.free := rfl
@[simp] theorem updCh_eng : (s.updCh n f).eng = s.eng := rfl
@[simp] theorem updCh_boot : (s.updCh n f).boot = s.boot := rfl
@[simp] theorem updCh_hperr : (s.updCh n f).hperr = s.hperr := rfl
@[simp] theorem updCh_tap : (s.updCh n f).tap = s.tap := rfl
@[simp] theorem updCh_clk : (s.updCh n f).clk = s.clk := rfl
@[simp] theorem updCh_pwr : (s.updCh n f).pwr = s.pwr := rfl
@[simp] theorem updCh_thm : (s.updCh n f).thm = s.thm := rfl
@[simp] theorem updCh_td : (s.updCh n f).td = s.td := rfl
@[simp] theorem updCh_tdc : (s.updCh n f).tdc = s.tdc := rfl
@[simp] theorem updCh_cal : (s.updCh n f).cal = s.cal := rfl
@[simp] theorem updCh_srv : (s.updCh n f).srv = s.srv := rfl
@[simp] theorem updCh_txn : (s.updCh n f).txn = s.txn := rfl
@[simp] theorem updCh_log : (s.updCh n f).log = s.log := rfl
@[simp] theorem updCh_recov : (s.updCh n f).recov = s.recov := rfl
@[simp] theorem updCh_flt : (s.updCh n f).flt = s.flt := rfl
@[simp] theorem updCh_tdSel : (s.updCh n f).tdSel = s.tdSel := rfl
@[simp] theorem updCh_tdMax : (s.updCh n f).tdMax = s.tdMax := rfl

/-! ### A core -/

variable (c d : CoreId) (u v : Core → Core)

@[simp] theorem core_updCore : (s.updCore c u).core c = u (s.core c) := by
  simp [State.updCore, State.core, Chan.updCore, Chan.setCore, Chan.core]

@[simp] theorem core_updCore_ne (h : d ≠ c) : (s.updCore c u).core d = s.core d := by
  unfold State.updCore State.core
  by_cases hn : coreChan d = coreChan c
  · rw [hn, chan_updCh]
    refine duo_get_set_ne _ _ fun hk => h (Fin.ext ?_)
    have h1 : d.val / 2 = c.val / 2 := congrArg Fin.val hn
    have h2 : d.val % 2 = c.val % 2 := congrArg Fin.val hk
    omega
  · rw [chan_updCh_ne _ _ _ _ hn]

@[simp] theorem updCore_updCore : (s.updCore c u).updCore c v = s.updCore c fun y => v (u y) := by
  simp [State.updCore, Chan.updCore, Chan.setCore, Chan.core]

/-- An update is what it does to the component it is given. -/
theorem updCore_congr {s : State} {c : CoreId} {u v : Core → Core} (h : u (s.core c) = v (s.core c)) :
    s.updCore c u = s.updCore c v := by
  unfold State.updCore State.updCh Chan.updCore
  exact congrArg _ (congrArg _ h)

theorem chan_updCore_ne (h : m ≠ coreChan c) : (s.updCore c u).chan m = s.chan m := chan_updCh_ne _ _ _ _ h

@[simp] theorem updCore_pending : (s.updCore c u).pending = s.pending := rfl
@[simp] theorem updCore_free : (s.updCore c u).free = s.free := rfl
@[simp] theorem updCore_eng : (s.updCore c u).eng = s.eng := rfl
@[simp] theorem updCore_boot : (s.updCore c u).boot = s.boot := rfl
@[simp] theorem updCore_hperr : (s.updCore c u).hperr = s.hperr := rfl
@[simp] theorem updCore_tap : (s.updCore c u).tap = s.tap := rfl
@[simp] theorem updCore_clk : (s.updCore c u).clk = s.clk := rfl
@[simp] theorem updCore_pwr : (s.updCore c u).pwr = s.pwr := rfl
@[simp] theorem updCore_thm : (s.updCore c u).thm = s.thm := rfl
@[simp] theorem updCore_td : (s.updCore c u).td = s.td := rfl
@[simp] theorem updCore_tdc : (s.updCore c u).tdc = s.tdc := rfl
@[simp] theorem updCore_cal : (s.updCore c u).cal = s.cal := rfl
@[simp] theorem updCore_srv : (s.updCore c u).srv = s.srv := rfl
@[simp] theorem updCore_txn : (s.updCore c u).txn = s.txn := rfl
@[simp] theorem updCore_log : (s.updCore c u).log = s.log := rfl
@[simp] theorem updCore_recov : (s.updCore c u).recov = s.recov := rfl
@[simp] theorem updCore_flt : (s.updCore c u).flt = s.flt := rfl
@[simp] theorem updCore_tdSel : (s.updCore c u).tdSel = s.tdSel := rfl
@[simp] theorem updCore_tdMax : (s.updCore c u).tdMax = s.tdMax := rfl

/-! ### An array -/

variable (a b : ArrId) (p q : Arr → Arr)

@[simp] theorem arr_updArr : (s.updArr a p).arr a = p (s.arr a) := by
  simp [State.updArr, State.arr, Chan.updCore, Chan.setCore, Chan.core, Core.updArr, Core.setArr, Core.arr]

@[simp] theorem updArr_updArr : (s.updArr a p).updArr a q = s.updArr a fun y => q (p y) := by
  simp [State.updArr, Chan.updCore, Chan.setCore, Chan.core, Core.updArr, Core.setArr, Core.arr]

@[simp] theorem arr_updArr_ne (h : b ≠ a) : (s.updArr a p).arr b = s.arr b := by
  unfold State.updArr State.arr
  by_cases hn : arrChan b = arrChan a
  · rw [hn, chan_updCh]
    by_cases hk : arrCore b = arrCore a
    · rw [hk]
      simp only [Chan.updCore, Chan.setCore, Chan.core, duo_get_set, Core.updArr, Core.setArr, Core.arr]
      refine duo_get_set_ne _ _ fun hj => h (Fin.ext ?_)
      have h1 : b.val / 4 = a.val / 4 := congrArg Fin.val hn
      have h2 : b.val / 2 % 2 = a.val / 2 % 2 := congrArg Fin.val hk
      have h3 : b.val % 2 = a.val % 2 := congrArg Fin.val hj
      omega
    · simp only [Chan.updCore, Chan.setCore, Chan.core, duo_get_set_ne _ _ hk]
  · rw [chan_updCh_ne _ _ _ _ hn]

theorem updArr_congr {s : State} {a : ArrId} {p q : Arr → Arr} (h : p (s.arr a) = q (s.arr a)) :
    s.updArr a p = s.updArr a q := by
  unfold State.updArr State.updCh Chan.updCore Core.updArr
  exact congrArg _ (congrArg _ (congrArg _ h))

theorem chan_updArr_ne (h : m ≠ arrChan a) : (s.updArr a p).chan m = s.chan m := chan_updCh_ne _ _ _ _ h

@[simp] theorem updArr_pending : (s.updArr a p).pending = s.pending := rfl
@[simp] theorem updArr_free : (s.updArr a p).free = s.free := rfl
@[simp] theorem updArr_eng : (s.updArr a p).eng = s.eng := rfl
@[simp] theorem updArr_boot : (s.updArr a p).boot = s.boot := rfl
@[simp] theorem updArr_hperr : (s.updArr a p).hperr = s.hperr := rfl
@[simp] theorem updArr_tap : (s.updArr a p).tap = s.tap := rfl
@[simp] theorem updArr_clk : (s.updArr a p).clk = s.clk := rfl
@[simp] theorem updArr_pwr : (s.updArr a p).pwr = s.pwr := rfl
@[simp] theorem updArr_thm : (s.updArr a p).thm = s.thm := rfl
@[simp] theorem updArr_td : (s.updArr a p).td = s.td := rfl
@[simp] theorem updArr_tdc : (s.updArr a p).tdc = s.tdc := rfl
@[simp] theorem updArr_cal : (s.updArr a p).cal = s.cal := rfl
@[simp] theorem updArr_srv : (s.updArr a p).srv = s.srv := rfl
@[simp] theorem updArr_txn : (s.updArr a p).txn = s.txn := rfl
@[simp] theorem updArr_log : (s.updArr a p).log = s.log := rfl
@[simp] theorem updArr_recov : (s.updArr a p).recov = s.recov := rfl
@[simp] theorem updArr_flt : (s.updArr a p).flt = s.flt := rfl
@[simp] theorem updArr_tdSel : (s.updArr a p).tdSel = s.tdSel := rfl
@[simp] theorem updArr_tdMax : (s.updArr a p).tdMax = s.tdMax := rfl

/-! ### A channel's cores, a core's arrays -/

variable (k l : Fin 2) (z : Core) (w : Arr)

@[simp] theorem core_updCoreC : (x.updCore k u).core k = u (x.core k) := by simp [Chan.updCore, Chan.setCore, Chan.core]
@[simp] theorem core_updCoreC_ne (h : l ≠ k) : (x.updCore k u).core l = x.core l := by
  simp [Chan.updCore, Chan.setCore, Chan.core, h]
@[simp] theorem core_setCore : (x.setCore k z).core k = z := by simp [Chan.setCore, Chan.core]
@[simp] theorem core_setCore_ne (h : l ≠ k) : (x.setCore k z).core l = x.core l := by simp [Chan.setCore, Chan.core, h]
@[simp] theorem updCore_updCoreC : (x.updCore k u).updCore k v = x.updCore k fun y => v (u y) := by
  simp [Chan.updCore, Chan.setCore, Chan.core]
@[simp] theorem arr_updArrC : (z.updArr k p).arr k = p (z.arr k) := by simp [Core.updArr, Core.setArr, Core.arr]
@[simp] theorem arr_updArrC_ne (h : l ≠ k) : (z.updArr k p).arr l = z.arr l := by simp [Core.updArr, Core.setArr, Core.arr, h]
@[simp] theorem updArr_updArrC : (z.updArr k p).updArr k q = z.updArr k fun y => q (p y) := by
  simp [Core.updArr, Core.setArr, Core.arr]

/-- A core of channel n, by its local number. -/
@[simp] theorem core_mkCore : s.core (mkCore n k) = (s.chan n).core k := by
  have h1 : coreChan (mkCore n k) = n := Fin.ext (by simp only [coreChan, mkCore]; omega)
  have h2 : coreLoc (mkCore n k) = k := Fin.ext (by simp only [coreLoc, mkCore]; omega)
  rw [State.core, h1, h2]

@[simp] theorem coreChan_mkCore : coreChan (mkCore n k) = n := Fin.ext (by simp only [coreChan, mkCore]; omega)
@[simp] theorem coreLoc_mkCore : coreLoc (mkCore n k) = k := Fin.ext (by simp only [coreLoc, mkCore]; omega)
@[simp] theorem arrChan_mkArr : arrChan (mkArr n k l) = n := Fin.ext (by simp only [arrChan, mkArr]; omega)
@[simp] theorem arrCore_mkArr : arrCore (mkArr n k l) = k := Fin.ext (by simp only [arrCore, mkArr]; omega)
@[simp] theorem arrLoc_mkArr : arrLoc (mkArr n k l) = l := Fin.ext (by simp only [arrLoc, mkArr]; omega)

end Sys2Proof.Laws
end

