-- ==== Sys2Proof/Laws/ControlCore.lean ====
section
/-! SUPPORT. A control core whose next words can run: what the fetch and an instruction of one word do then. -/

namespace Sys2Proof.Laws

open Sys2Proof Sys2Proof.Machine

variable {s : State} {f : Fetch} {k : Nat}

/-- A fetch that meets no obstacle uses the lines and lets the instruction run. -/
theorem ccFetch_ready (h : ccReady s f k) : ccFetch s f k = (ccTouched s f k, true) := by
  obtain ⟨hw, hl, hh, hs, hn, hb, hk, hi⟩ := h
  have live : ccLive s f.core = true := by simp [ccLive, hw, hl, hh, hs, hn]
  unfold ccFetch
  dsimp only
  rw [if_neg (by simp [live]), if_neg (by omega), if_neg, hb]
  · have : List.find? (fun o => !(s.core f.core).icache.lines.contains ((s.chan (coreChan f.core)).codeLine o))
        ((List.range k).map fun i => (s.core f.core).cc.offset ((s.core f.core).cc.pos + i)) = none := by
      rw [List.find?_eq_none]
      intro o ho
      obtain ⟨i, h1, rfl⟩ := List.mem_map.1 ho
      rw [(hi i (List.mem_range.1 h1)).2]; decide
    rw [this]
    simp only [Option.bind_none]
    refine congrArg (·, true) ?_
    unfold ccTouched State.updCore Chan.updCore State.updCh
    refine congrArg (s.setChan _) (congrArg (Chan.setCore _ _) ?_)
    simp only [List.foldl_map]
    rfl
  · simp only [List.any_map, List.any_eq_true, List.mem_range, Function.comp, decide_eq_true_eq, not_exists, not_and]
    intro i h1
    have := (hi i h1).1
    omega

@[simp] theorem ccTouched_cc : ((ccTouched s f k).core f.core).cc = (s.core f.core).cc := by simp [ccTouched]

/-- An instruction of one word, with no REP ahead of it, has its effect where the word fetched is its own. -/
theorem ccInstr_ready {w : Word} (h : ccReady s f 1) (hw : ccWords s f.core 1 = [w]) (hr : (s.core f.core).cc.rep = none)
    (eff : State → State) : ccInstr s f w eff = eff (ccTouched s f 1) := by
  simp [ccInstr, ccFetch_ready h, hw, hr]

end Sys2Proof.Laws
end

