-- ==== Sys2Proof/Laws/Host.lean ====
section
/-! SUPPORT. Where a register's address lies, and what a host write does there: one lemma per block of the map. -/

namespace Sys2Proof.Laws

open Sys2Proof Sys2Proof.Machine

@[simp] theorem ofNat_val {k : Nat} [NeZero k] (x : Fin k) : Fin.ofNat k x.val = x := Fin.ext (Nat.mod_eq_of_lt x.isLt)

theorem locate_eng {o : Nat} (h : engReg o = true) (h4 : o % 4 = 0) (hl : o < 0x8000) : locate o = .eng o := by
  simp [locate, h, h4, hl]

theorem locate_hist (a : ArrId) {o : Nat} (h : histReg o = true) (h4 : o % 4 = 0) (hl : o < 0x400) :
    locate (histBase a + o) = .hist a o := by
  have h1 : histBase a + o = 0x8000 + 0x400 * a.val + o := rfl
  rw [h1]
  have hd : (0x8000 + 0x400 * a.val + o - 0x8000) / 0x400 = a.val := by omega
  have hm : (0x8000 + 0x400 * a.val + o) % 0x400 = o := by omega
  unfold locate
  rw [if_neg (by omega), if_neg (by omega), if_pos (by omega), hd, hm, h]
  simp

theorem locate_ch (n : ChanId) {o : Nat} (h : chReg o = true) (h4 : o % 4 = 0) (hl : o < 0x80000) :
    locate (chBase n + o) = .ch n o := by
  have h1 : chBase n + o = 0x100000 + n.val * 0x100000 + o := rfl
  rw [h1]
  have hd : (0x100000 + n.val * 0x100000 + o - 0x100000) / 0x100000 = n.val := by omega
  have hm : (0x100000 + n.val * 0x100000 + o) % 0x100000 = o := by omega
  unfold locate
  rw [if_neg (by omega), if_neg (by omega), if_neg (by omega), if_neg (by omega), if_pos (by omega)]
  simp only [hd, hm, hl, if_true, h]
  simp

/-- The numbers behind an address of a core's block. -/
theorem core_addr (c : CoreId) {o : Nat} (hl : o < 0x40000) :
    let a := coreBase c + o
    (a - 0x100000) / 0x100000 = (coreChan c).val ∧ (a % 0x100000 - 0x80000) / 0x40000 = (coreLoc c).val ∧
      a % 0x100000 % 0x40000 = o ∧ ¬ a % 0x100000 < 0x80000 ∧ 0x100000 ≤ a ∧ a < 0x500000 ∧ a % 4 = o % 4 := by
  have h1 : coreBase c + o = 0x100000 + c.val / 2 * 0x100000 + 0x80000 + c.val % 2 * 0x40000 + o := rfl
  have h2 : (coreChan c).val = c.val / 2 := rfl
  have h3 : (coreLoc c).val = c.val % 2 := rfl
  rw [h1, h2, h3]
  dsimp only
  omega

theorem locate_core (c : CoreId) {o : Nat} (h : coreReg o = true) (h4 : o % 4 = 0) (hl : o < 0x40000)
    (ha : ¬ (0x2000 ≤ o ∧ o < 0x2200)) : locate (coreBase c + o) = .core c o := by
  obtain ⟨h1, h2, h3, h5, h6, h7, h8⟩ := core_addr c hl
  have e : mkCore (coreChan c) (coreLoc c) = c := Fin.ext (by simp only [mkCore, coreChan, coreLoc]; omega)
  unfold locate
  rw [if_neg (by omega), if_neg (by omega), if_neg (by omega), if_neg (by omega), if_pos (by omega)]
  simp only [h1, h2, h3, if_neg h5, if_neg ha, h, if_true, ofNat_val, e]

theorem locate_arr (a : ArrId) {o : Nat} (h : arrReg o = true) (h4 : o % 4 = 0) (hl : o < 0x100) :
    locate (arrBase a + o) = .arr a o := by
  have e : mkArr (arrChan a) (arrCore a) (arrLoc a) = a := by
    apply Fin.ext; simp only [mkArr, arrChan, arrCore, arrLoc]; omega
  have hc : arrBase a + o = coreBase (mkCore (arrChan a) (arrCore a)) + (0x2000 + (arrLoc a).val * 0x100 + o) := by
    simp only [arrBase, coreBase, coreChan_mkCore, coreLoc_mkCore]; omega
  have hj : (arrLoc a).val < 2 := (arrLoc a).isLt
  have hd : (0x2000 + (arrLoc a).val * 0x100 + o - 0x2000) / 0x100 = (arrLoc a).val := by
    rw [Nat.add_assoc, Nat.add_sub_cancel_left]; clear hc e; omega
  have hm : (0x2000 + (arrLoc a).val * 0x100 + o) % 0x100 = o := by clear hc e; omega
  have hi : 0x2000 ≤ 0x2000 + (arrLoc a).val * 0x100 + o ∧ 0x2000 + (arrLoc a).val * 0x100 + o < 0x2200 := by
    clear hc e; omega
  have hq : 0x2000 + (arrLoc a).val * 0x100 + o < 0x40000 := by omega
  obtain ⟨h1, h2, h3, h5, h6, h7, h8⟩ := core_addr (mkCore (arrChan a) (arrCore a)) hq
  rw [hc]
  unfold locate
  rw [if_neg (by omega), if_neg (by omega), if_neg (by omega), if_neg (by omega), if_pos (by omega)]
  simp only [coreChan_mkCore, coreLoc_mkCore] at h1 h2
  simp only [h1, h2, h3, if_neg h5, if_pos hi, hm, hd, h, if_true, ofNat_val, e]

theorem locate_pool (c : CoreId) {o : Nat} (h4 : o % 4 = 0) (hl : o < 0x80000) :
    locate (0x800000 + 0x80000 * c.val + o) = .pool c o := by
  have hd : (0x800000 + 0x80000 * c.val + o - 0x800000) / 0x80000 = c.val := by omega
  have hm : (0x800000 + 0x80000 * c.val + o) % 0x80000 = o := by omega
  unfold locate
  rw [if_neg (by omega), if_neg (by omega), if_neg (by omega), if_neg (by omega), if_neg (by omega), if_pos (by omega)]
  simp only [hd, hm, ofNat_val]

/-! ### Writes -/

variable {s : State} {i : Instr} {eff : State → State}

theorem hostWr_loc {addr : Nat} {l : Loc} (hr : s.eng.hpReady = true) (hl : locate addr = l) (hc : hostCode s l = none) :
    hostWr s i addr eff = eff s := by
  simp [hostWr, hr, hl, hc]

/-- A register of the engine block. -/
theorem hostWr_eng {o : Nat} (hr : s.eng.hpReady = true) (h : engReg o = true) (h4 : o % 4 = 0) (hl : o < 0x8000) :
    hostWr s i o eff = eff s := hostWr_loc hr (locate_eng h h4 hl) rfl

/-- A register of a channel's control block: served in every channel state. -/
theorem hostWr_ctl (n : ChanId) {o : Nat} (hr : s.eng.hpReady = true) (h : chReg o = true) (h4 : o % 4 = 0)
    (hl : o < 0x10000) : hostWr s i (chBase n + o) eff = eff s :=
  hostWr_loc hr (locate_ch n h h4 (by omega)) (by
    simp only [hostCode]; rw [if_neg (by omega)])

/-- A register of a channel's other blocks, while the channel is out of reset. -/
theorem hostWr_ch (n : ChanId) {o : Nat} (hr : s.eng.hpReady = true) (h : chReg o = true) (h4 : o % 4 = 0)
    (hl : o < 0x80000) (hv : (s.chan n).live = true) : hostWr s i (chBase n + o) eff = eff s :=
  hostWr_loc hr (locate_ch n h h4 hl) (by simp [hostCode, State.offline, hv])

theorem hostWr_core (c : CoreId) {o : Nat} (hr : s.eng.hpReady = true) (h : coreReg o = true) (h4 : o % 4 = 0)
    (hl : o < 0x40000) (ha : ¬ (0x2000 ≤ o ∧ o < 0x2200)) (hv : (s.chan (coreChan c)).live = true) :
    hostWr s i (coreBase c + o) eff = eff s :=
  hostWr_loc hr (locate_core c h h4 hl ha) (by simp [hostCode, State.offline, hv])

theorem hostWr_arr (a : ArrId) {o : Nat} (hr : s.eng.hpReady = true) (h : arrReg o = true) (h4 : o % 4 = 0)
    (hl : o < 0x100) (hv : (s.chan (arrChan a)).live = true) : hostWr s i (arrBase a + o) eff = eff s :=
  hostWr_loc hr (locate_arr a h h4 hl) (by simp [hostCode, State.offline, hv])

end Sys2Proof.Laws
end

