-- ==== Sys2Proof/Laws/Keeps.lean ====
section
/-! SUPPORT. What an operation does to the waiting commands and to the engine's legal registers, one lemma per
operation: `Keeps` composes, so a later proof never unfolds an operation for it. -/

namespace Sys2Proof.Laws

open Sys2Proof Sys2Proof.Machine

@[simp] theorem keeps_refl (s : State) : Keeps s s := ⟨rfl, id⟩

theorem keeps_trans {s t u : State} (h : Keeps s t) (k : Keeps t u) : Keeps s u :=
  ⟨k.1.trans h.1, fun l => k.2 (h.2 l)⟩

/-- A state that differs from one kept only in registers Legal does not speak of. -/
@[simp] theorem keeps_mk {s t : State} (h : Keeps s t) {free boot tap clk pwr thm tdc cal srv txn log recov tdSel tdMax ch}
    (hv : pwr.vreq = t.pwr.vreq) (hm : pwr.maxOp = t.pwr.maxOp) (ht : pwr.thermOp = t.pwr.thermOp) :
    Keeps s (State.mk t.pending free t.eng boot t.hperr tap clk pwr thm t.td tdc cal srv txn log recov t.flt tdSel tdMax ch) :=
  ⟨h.1, fun l => let k := h.2 l
    ⟨k.fatal, k.answer, k.hperr, k.capture, k.grade, k.time, hv ▸ hm ▸ ht ▸ k.op⟩⟩

/-- The same, with the engine's other registers changed as well. -/
@[simp] theorem keeps_mkEng {s t : State} (h : Keeps s t) {free eng boot tap clk pwr thm tdc cal srv txn log recov tdSel tdMax ch}
    (hf : eng.fatalN = t.eng.fatalN) (hd : eng.rData = t.eng.rData) (hc : eng.rCode = t.eng.rCode)
    (hg : eng.grade = t.eng.grade) (ha : eng.arrays = t.eng.arrays) (hv : pwr.vreq = t.pwr.vreq)
    (hm : pwr.maxOp = t.pwr.maxOp) (ht : pwr.thermOp = t.pwr.thermOp) :
    Keeps s (State.mk t.pending free eng boot t.hperr tap clk pwr thm t.td tdc cal srv txn log recov t.flt tdSel tdMax ch) :=
  ⟨h.1, fun l => let k := h.2 l
    ⟨hf ▸ k.fatal, hd ▸ hc ▸ k.answer, k.hperr, k.capture, by have := k.grade; unfold gradeAgrees at *; rw [hg, ha]; exact this,
      k.time, hv ▸ hm ▸ ht ▸ k.op⟩⟩

@[simp] theorem keeps_ite {s t u : State} {c : Prop} [Decidable c] (h : Keeps s t) (k : Keeps s u) :
    Keeps s (if c then t else u) := by split <;> assumption

@[simp] theorem keeps_foldl {α : Type} {s t : State} {l : List α} {f : State → α → State} (hf : ∀ u x, Keeps u (f u x))
    (h : Keeps s t) : Keeps s (l.foldl f t) := by
  induction l generalizing t with
  | nil => exact h
  | cons x l ih => exact ih (keeps_trans h (hf t x))

@[simp] theorem keeps_setChan {s t : State} (h : Keeps s t) (n : ChanId) (c : Chan) : Keeps s (t.setChan n c) := by
  simp [State.setChan, h]

@[simp] theorem keeps_updCh {s t : State} (h : Keeps s t) (n : ChanId) (f : Chan → Chan) : Keeps s (t.updCh n f) := by
  simp [State.updCh, h]

@[simp] theorem keeps_updCore {s t : State} (h : Keeps s t) (c : CoreId) (f : Core → Core) : Keeps s (t.updCore c f) := by
  simp [State.updCore, h]

@[simp] theorem keeps_updArr {s t : State} (h : Keeps s t) (a : ArrId) (f : Arr → Arr) : Keeps s (t.updArr a f) := by
  simp [State.updArr, h]

end Sys2Proof.Laws
end

