-- ==== Sys2Proof/Laws/KeepsErrors.lean ====
section
/-! SUPPORT. What the shared operations do to the waiting commands and the engine's legal registers: the log, holds,
error captures, pools, host answers and control cores. -/

namespace Sys2Proof.Laws

open Sys2Proof Sys2Proof.Machine

/-- What a row that goes on answers is what it leaves. -/
@[simp] theorem ran_next (t s : State) : ran (.next t) s = t := (rfl)

@[simp] theorem keeps_logRaise {s t : State} (hk : Keeps s t) (src : Option ChanId) (kind : Byte) (payload : List Byte) :
    Keeps s (logRaise t src kind payload) := by
  unfold logRaise
  try dsimp only
  repeat' first | (simp (maxDischargeDepth := 30) [hk]; done) | split | refine keeps_foldl (fun _ _ => ?_) ?_

@[simp] theorem keeps_discardChan {s t : State} (hk : Keeps s t) (n : ChanId) :
    Keeps s (discardChan t n) := by
  unfold discardChan
  try dsimp only
  repeat' first | (simp (maxDischargeDepth := 30) [hk]; done) | split | refine keeps_foldl (fun _ _ => ?_) ?_

@[simp] theorem keeps_applyEff {s t : State} (hk : Keeps s t) (n : ChanId) :
    Keeps s (applyEff t n) := by
  unfold applyEff
  try dsimp only
  repeat' first | (simp (maxDischargeDepth := 30) [hk]; done) | split | refine keeps_foldl (fun _ _ => ?_) ?_

@[simp] theorem keeps_retune {s t : State} (hk : Keeps s t) (n : ChanId) :
    Keeps s (retune t n) := by
  unfold retune
  try dsimp only
  repeat' first | (simp (maxDischargeDepth := 30) [hk]; done) | split | refine keeps_foldl (fun _ _ => ?_) ?_

@[simp] theorem keeps_retuneAll {s t : State} (hk : Keeps s t) :
    Keeps s (retuneAll t) := by
  unfold retuneAll
  try dsimp only
  repeat' first | (simp (maxDischargeDepth := 30) [hk]; done) | split | refine keeps_foldl (fun _ _ => ?_) ?_

theorem demandOp_le (s : State) : demandOp s ≤ 4 := by
  have hc : ∀ n, codeOp n ≤ 4 := by intro n; unfold codeOp; (repeat' split) <;> omega
  unfold demandOp
  generalize (allChans.filter fun n => !bitOf s.pwr.gated n.val) = l
  suffices h : ∀ m, m ≤ 4 → l.foldl (fun m n => max m (codeOp (targetEff s.pwr (s.chan n)))) m ≤ 4 from h 0 (by omega)
  induction l with
  | nil => exact fun m h => h
  | cons x l ih => exact fun m h => ih _ (Nat.max_le.2 ⟨h, hc _⟩)

@[simp] theorem keeps_supplySeq {s t : State} (hk : Keeps s t) : Keeps s (supplySeq t) := by
  unfold supplySeq
  dsimp only
  repeat' first | (simp [hk]; done) | split
  refine ⟨hk.queue, fun l => let k := hk.legal l
    ⟨k.fatal, k.answer, k.hperr, k.capture, k.grade, k.time, ?_, k.op.2⟩⟩
  have := demandOp_le t
  simp only [BitVec.toNat_ofNat]
  omega

@[simp] theorem keeps_resupply {s t : State} (hk : Keeps s t) :
    Keeps s (resupply t) := by
  unfold resupply
  try dsimp only
  repeat' first | (simp (maxDischargeDepth := 30) [hk]; done) | split | refine keeps_foldl (fun _ _ => ?_) ?_

@[simp] theorem keeps_settle {s t : State} (hk : Keeps s t) (n : ChanId) :
    Keeps s (settle t n) := by
  unfold settle
  try dsimp only
  repeat' first | (simp (maxDischargeDepth := 30) [hk]; done) | split | refine keeps_foldl (fun _ _ => ?_) ?_

@[simp] theorem keeps_txnCancel {s t : State} (hk : Keeps s t) (n : ChanId) :
    Keeps s (txnCancel t n) := by
  unfold txnCancel
  try dsimp only
  repeat' first | (simp (maxDischargeDepth := 30) [hk]; done) | split | refine keeps_foldl (fun _ _ => ?_) ?_

@[simp] theorem keeps_holdChan {s t : State} (hk : Keeps s t) (n : ChanId) (st : ChState) :
    Keeps s (holdChan t n st) := by
  unfold holdChan
  try dsimp only
  repeat' first | (simp (maxDischargeDepth := 30) [hk]; done) | split | refine keeps_foldl (fun _ _ => ?_) ?_

@[simp] theorem keeps_releaseChan {s t : State} (hk : Keeps s t) (n : ChanId) (cold : Bool) :
    Keeps s (releaseChan t n cold) := by
  unfold releaseChan
  try dsimp only
  repeat' first | (simp (maxDischargeDepth := 30) [hk]; done) | split | refine keeps_foldl (fun _ _ => ?_) ?_

theorem legal_fatalBits {t : State} (l : t.Legal) : (State.mk t.pending t.free { t.eng with fatalN := false } t.boot
    t.hperr t.tap t.clk t.pwr t.thm t.td t.tdc t.cal t.srv t.txn t.log t.recov { t.flt with fatal := true } t.tdSel
    t.tdMax t.ch).Legal :=
  ⟨rfl, l.answer, l.hperr, l.capture, l.grade, l.time, l.op⟩

@[simp] theorem keeps_fatal {s t : State} (hk : Keeps s t) (cls cause : Nat) (info : Word) :
    Keeps s (fatal t cls cause info) := by
  unfold fatal
  refine keeps_foldl (fun u n => ?_) ?_
  · repeat' first | (simp (maxDischargeDepth := 30); done) | split
  · have h1 := keeps_logRaise hk none 0x03 (faultPayload 3 cls cause 3 0xFF t.flt.more.toNat info 0 0 0)
    exact ⟨h1.queue, fun l => legal_fatalBits (h1.legal l)⟩

@[simp] theorem keeps_engErr {s t : State} (hk : Keeps s t) (cls cause : Nat) (info : Word) :
    Keeps s (engErr t cls cause info) := by
  have h1 : t.flt.valid = true → Keeps s { t with flt := { t.flt with more := satAdd t.flt.more 1 } } := fun hv =>
    ⟨hk.queue, fun l => let k := hk.legal l
      ⟨k.fatal, k.answer, k.hperr, fun h => absurd h (by simp [hv]), k.grade, k.time, k.op⟩⟩
  have h2 : Keeps s { t with flt := { t.flt with valid := true, cause := BitVec.ofNat 8 cause, info := info, more := 0 } } :=
    ⟨hk.queue, fun l => let k := hk.legal l
      ⟨k.fatal, k.answer, k.hperr, fun h => absurd h (by simp), k.grade, k.time, k.op⟩⟩
  unfold engErr
  split
  · rename_i hv
    dsimp only
    split
    · exact h1 hv
    · exact keeps_fatal (h1 hv) ..
  · exact keeps_logRaise h2 ..

@[simp] theorem keeps_escalated {s t : State} (hk : Keeps s t) (n : ChanId) (e : Err) :
    Keeps s (escalated t n e) := by
  unfold escalated
  try dsimp only
  repeat' first | (simp (maxDischargeDepth := 30) [hk]; done) | split | refine keeps_foldl (fun _ _ => ?_) ?_

@[simp] theorem keeps_capChan {s t : State} (hk : Keeps s t) (n : ChanId) (e : Err) (esc : Bool) :
    Keeps s (capChan t n e esc).st := by
  unfold capChan
  try dsimp only
  repeat' first | (simp (maxDischargeDepth := 30) [hk]; done) | split | refine keeps_foldl (fun _ _ => ?_) ?_

@[simp] theorem keeps_capCore {s t : State} (hk : Keeps s t) (n : ChanId) (k : Fin 2) (e : Err) (arr : Option (Fin 2)) :
    Keeps s (capCore t n k e arr).st := by
  unfold capCore
  try dsimp only
  repeat' first | (simp (maxDischargeDepth := 30) [hk]; done) | split | refine keeps_foldl (fun _ _ => ?_) ?_

@[simp] theorem keeps_capArr {s t : State} (hk : Keeps s t) (n : ChanId) (k : Fin 2) (j : Fin 2) (e : Err) :
    Keeps s (capArr t n k j e).st := by
  unfold capArr
  try dsimp only
  repeat' first | (simp (maxDischargeDepth := 30) [hk]; done) | split | refine keeps_foldl (fun _ _ => ?_) ?_

@[simp] theorem keeps_capture {s t : State} (hk : Keeps s t) (n : ChanId) (e : Err) :
    Keeps s (capture t n e).st := by
  unfold capture
  try dsimp only
  repeat' first | (simp (maxDischargeDepth := 30) [hk]; done) | split | refine keeps_foldl (fun _ _ => ?_) ?_

@[simp] theorem keeps_raise {s t : State} (hk : Keeps s t) (n : ChanId) (e : Err) :
    Keeps s (raise t n e) := by
  unfold raise
  try dsimp only
  repeat' first | (simp (maxDischargeDepth := 30) [hk]; done) | split | refine keeps_foldl (fun _ _ => ?_) ?_

@[simp] theorem keeps_coreHalt {s t : State} (hk : Keeps s t) (n : ChanId) (k : Fin 2) (reason : Nat) (addr : Word) (repidx : BitVec 16) (tag : Byte) (q : BitVec 4) :
    Keeps s (coreHalt t n k reason addr repidx tag q) := by
  unfold coreHalt
  try dsimp only
  repeat' first | (simp (maxDischargeDepth := 30) [hk]; done) | split | refine keeps_foldl (fun _ _ => ?_) ?_

@[simp] theorem keeps_undoSlot {s t : State} (hk : Keeps s t) (n : ChanId) :
    Keeps s (undoSlot t n) := by
  unfold undoSlot
  try dsimp only
  repeat' first | (simp (maxDischargeDepth := 30) [hk]; done) | split | refine keeps_foldl (fun _ _ => ?_) ?_

@[simp] theorem keeps_undoUsed {s t : State} (hk : Keeps s t) (n : ChanId) :
    Keeps s (undoUsed t n) := by
  unfold undoUsed
  try dsimp only
  repeat' first | (simp (maxDischargeDepth := 30) [hk]; done) | split | refine keeps_foldl (fun _ _ => ?_) ?_

@[simp] theorem keeps_rollbackBetween {s t : State} (hk : Keeps s t) (n : ChanId) :
    Keeps s (rollbackBetween t n) := by
  unfold rollbackBetween
  try dsimp only
  repeat' first | (simp (maxDischargeDepth := 30) [hk]; done) | split | refine keeps_foldl (fun _ _ => ?_) ?_

@[simp] theorem keeps_haltChan {s t : State} (hk : Keeps s t) (n : ChanId) :
    Keeps s (haltChan t n) := by
  unfold haltChan
  try dsimp only
  repeat' first | (simp (maxDischargeDepth := 30) [hk]; done) | split | refine keeps_foldl (fun _ _ => ?_) ?_

@[simp] theorem keeps_poolUncorr {s t : State} (hk : Keeps s t) (n : ChanId) (k : Fin 2) (client : BitVec 4) (w : Nat) (cc : Bool) :
    Keeps s (poolUncorr t n k client w cc) := by
  unfold poolUncorr
  try dsimp only
  repeat' first | (simp (maxDischargeDepth := 30) [hk]; done) | split | refine keeps_foldl (fun _ _ => ?_) ?_

@[simp] theorem keeps_poolFound {s t : State} (hk : Keeps s t) (n : ChanId) (k : Fin 2) (client : BitVec 4) (r : Nat × List Nat) (cc : Bool) :
    Keeps s (poolFound t n k client r cc) := by
  unfold poolFound
  try dsimp only
  repeat' first | (simp (maxDischargeDepth := 30) [hk]; done) | split | refine keeps_foldl (fun _ _ => ?_) ?_

@[simp] theorem keeps_poolPerform {s t : State} (hk : Keeps s t) (n : ChanId) (k : Fin 2) (a : PoolAcc) (f : BitVec 16 × BitVec 16) :
    Keeps s (poolPerform t n k a f).1 := by
  unfold poolPerform
  try dsimp only
  repeat' first | (simp (maxDischargeDepth := 30) [hk]; done) | split | refine keeps_foldl (fun _ _ => ?_) ?_

@[simp] theorem keeps_poolPend {s t : State} (hk : Keeps s t) (n : ChanId) (k : Fin 2) (a : PoolAcc) :
    Keeps s (poolPend t n k a) := by
  unfold poolPend
  try dsimp only
  repeat' first | (simp (maxDischargeDepth := 30) [hk]; done) | split | refine keeps_foldl (fun _ _ => ?_) ?_

@[simp] theorem keeps_ringLanded {s t : State} (hk : Keeps s t) (n : ChanId) (r : Fin 4) (e : Nat) (beats : Nat) :
    Keeps s (ringLanded t n r e beats) := by
  unfold ringLanded
  try dsimp only
  repeat' first | (simp (maxDischargeDepth := 30) [hk]; done) | split | refine keeps_foldl (fun _ _ => ?_) ?_

@[simp] theorem keeps_accFound {s t : State} (hk : Keeps s t) (a : ArrId) (w : Nat) (double : Bool) :
    Keeps s (accFound t a w double) := by
  unfold accFound
  try dsimp only
  repeat' first | (simp (maxDischargeDepth := 30) [hk]; done) | split | refine keeps_foldl (fun _ _ => ?_) ?_

@[simp] theorem keeps_accReads {s t : State} (hk : Keeps s t) (a : ArrId) (ws : List Nat) (see : AccSee) :
    Keeps s (accReads t a ws see) := by
  unfold accReads
  try dsimp only
  repeat' first | (simp (maxDischargeDepth := 30) [hk]; done) | split | refine keeps_foldl (fun _ _ => ?_) ?_

@[simp] theorem keeps_markFaulted {s t : State} (hk : Keeps s t) (a : ArrId) :
    Keeps s (markFaulted t a) := by
  unfold markFaulted
  try dsimp only
  repeat' first | (simp (maxDischargeDepth := 30) [hk]; done) | split | refine keeps_foldl (fun _ _ => ?_) ?_

@[simp] theorem keeps_tagParity {s t : State} (hk : Keeps s t) (a : ArrId) (group : Nat) :
    Keeps s (tagParity t a group) := by
  unfold tagParity
  try dsimp only
  repeat' first | (simp (maxDischargeDepth := 30) [hk]; done) | split | refine keeps_foldl (fun _ _ => ?_) ?_

@[simp] theorem keeps_accTags {s t : State} (hk : Keeps s t) (a : ArrId) (ws : List Nat) (see : AccSee) :
    Keeps s (accTags t a ws see) := by
  unfold accTags
  try dsimp only
  repeat' first | (simp (maxDischargeDepth := 30) [hk]; done) | split | refine keeps_foldl (fun _ _ => ?_) ?_

@[simp] theorem keeps_accSeen {s t : State} (hk : Keeps s t) (a : ArrId) (reads : List Nat) (writes : List Nat) (see : AccSee) :
    Keeps s (accSeen t a reads writes see) := by
  unfold accSeen
  try dsimp only
  repeat' first | (simp (maxDischargeDepth := 30) [hk]; done) | split | refine keeps_foldl (fun _ _ => ?_) ?_

@[simp] theorem keeps_hostErr {s t : State} (hk : Keeps s t) (addr : Nat) (write : Bool) (code : BitVec 2) :
    Keeps s (hostErr t addr write code) := by
  refine ⟨hk.queue, fun l => ?_⟩
  have k := hk.legal l
  refine ⟨k.fatal, k.answer, fun h => ?_, k.capture, k.grade, k.time, k.op⟩
  unfold hostErr at h ⊢
  dsimp only at h ⊢
  split at h
  · rename_i hv; simp [hv] at h
  · simp at h

@[simp] theorem keeps_hostLater {s t : State} (hk : Keeps s t) (i : Instr) :
    Keeps s (hostLater t i) := by
  unfold hostLater
  try dsimp only
  repeat' first | (simp (maxDischargeDepth := 30) [hk]; done) | split | refine keeps_foldl (fun _ _ => ?_) ?_

@[simp] theorem keeps_hostWr {s t : State} (hk : Keeps s t) (i : Instr) (addr : Nat) (eff : State → State)
    (he : ∀ u, Keeps u (eff u)) : Keeps s (hostWr t i addr eff) := by
  unfold hostWr
  repeat' first | (simp [hk]; done) | split
  exact keeps_trans hk (he t)

@[simp] theorem keeps_hostAnswer {s t : State} (hk : Keeps s t) (code : BitVec 2) (data : Word) :
    Keeps s (hostAnswer t code data) := by
  refine ⟨hk.queue, fun l => ?_⟩
  have k := hk.legal l
  exact ⟨k.fatal, fun h => if_neg h, k.hperr, k.capture, k.grade, k.time, k.op⟩

@[simp] theorem keeps_hostRd {s t : State} (hk : Keeps s t) (i : Instr) (addr : Nat) (eff : State → State × Word)
    (he : ∀ u, Keeps u (eff u).1) : Keeps s (hostRd t i addr eff) := by
  unfold hostRd
  repeat' first | (simp [hk]; done) | split
  exact keeps_hostAnswer (keeps_trans hk (he t)) ..

@[simp] theorem keeps_ccMiss {s t : State} (hk : Keeps s t) (c : CoreId) (off : Nat) :
    Keeps s (ccMiss t c off) := by
  unfold ccMiss
  try dsimp only
  repeat' first | (simp (maxDischargeDepth := 30) [hk]; done) | split | refine keeps_foldl (fun _ _ => ?_) ?_

@[simp] theorem keeps_ccParity {s t : State} (hk : Keeps s t) (c : CoreId) (g : BitVec 42) :
    Keeps s (ccParity t c g) := by
  unfold ccParity
  try dsimp only
  repeat' first | (simp (maxDischargeDepth := 30) [hk]; done) | split | refine keeps_foldl (fun _ _ => ?_) ?_

@[simp] theorem keeps_ccHalt {s t : State} (hk : Keeps s t) (c : CoreId) (reason : Nat) :
    Keeps s (ccHalt t c reason) := by
  unfold ccHalt
  try dsimp only
  repeat' first | (simp (maxDischargeDepth := 30) [hk]; done) | split | refine keeps_foldl (fun _ _ => ?_) ?_

@[simp] theorem keeps_ccFetch {s t : State} (hk : Keeps s t) (f : Fetch) (count : Nat) :
    Keeps s (ccFetch t f count).1 := by
  unfold ccFetch
  try dsimp only
  repeat' first | (simp (maxDischargeDepth := 30) [hk]; done) | split | refine keeps_foldl (fun _ _ => ?_) ?_

@[simp] theorem keeps_ccInstr {s t : State} (hk : Keeps s t) (f : Fetch) (w : Word) (eff : State → State)
    (he : ∀ u, Keeps u (eff u)) : Keeps s (ccInstr t f w eff) := by
  unfold ccInstr
  dsimp only
  repeat' first | (simp [hk]; done) | split
  exact keeps_trans (keeps_ccFetch hk ..) (he _)

@[simp] theorem keeps_updCc {s t : State} (hk : Keeps s t) (c : CoreId) (g : Cc → Cc) :
    Keeps s (updCc t c g) := by
  unfold updCc
  try dsimp only
  repeat' first | (simp (maxDischargeDepth := 30) [hk]; done) | split | refine keeps_foldl (fun _ _ => ?_) ?_

@[simp] theorem keeps_ccAlu {s t : State} (hk : Keeps s t) (code : BitVec 6) (op : Word → Word → Word) (f : Fetch) (rd : BitVec 5) (rs1 : BitVec 5) (rs2 : BitVec 5) :
    Keeps s (ccAlu code op f rd rs1 rs2 t) := by
  unfold ccAlu
  try dsimp only
  repeat' first | (simp (maxDischargeDepth := 30) [hk]; done) | split | refine keeps_foldl (fun _ _ => ?_) ?_

@[simp] theorem keeps_ccAluI {s t : State} (hk : Keeps s t) (code : BitVec 6) (op : Word → Word → Word) (f : Fetch) (rd : BitVec 5) (rs1 : BitVec 5) (imm : BitVec 16) :
    Keeps s (ccAluI code op f rd rs1 imm t) := by
  unfold ccAluI
  try dsimp only
  repeat' first | (simp (maxDischargeDepth := 30) [hk]; done) | split | refine keeps_foldl (fun _ _ => ?_) ?_

@[simp] theorem keeps_ccNarrow {s t : State} (hk : Keeps s t) (code : BitVec 6) (f : Fetch) (rd : BitVec 5) (rs1 : BitVec 5) (imm : BitVec 16) (acc : Core → Nat → PoolAcc) :
    Keeps s (ccNarrow code f rd rs1 imm acc t) := by
  unfold ccNarrow
  try dsimp only
  repeat' first | (simp (maxDischargeDepth := 30) [hk]; done) | split | refine keeps_foldl (fun _ _ => ?_) ?_

@[simp] theorem keeps_ccLoad {s t : State} (hk : Keeps s t) (f : Fetch) (rd : BitVec 5) (rs1 : BitVec 5) (imm : BitVec 16) :
    Keeps s (ccLoad f rd rs1 imm t) := by
  unfold ccLoad
  try dsimp only
  repeat' first | (simp (maxDischargeDepth := 30) [hk]; done) | split | refine keeps_foldl (fun _ _ => ?_) ?_

@[simp] theorem keeps_ccStore {s t : State} (hk : Keeps s t) (f : Fetch) (rd : BitVec 5) (rs1 : BitVec 5) (imm : BitVec 16) :
    Keeps s (ccStore f rd rs1 imm t) := by
  unfold ccStore
  try dsimp only
  repeat' first | (simp (maxDischargeDepth := 30) [hk]; done) | split | refine keeps_foldl (fun _ _ => ?_) ?_

@[simp] theorem keeps_ccLoaded {s t : State} (hk : Keeps s t) (c : CoreId) (rd : BitVec 5) (off : Nat) (data : List Byte) (bads : List Nat) :
    Keeps s (ccLoaded t c rd off data bads) := by
  unfold ccLoaded
  try dsimp only
  repeat' first | (simp (maxDischargeDepth := 30) [hk]; done) | split | refine keeps_foldl (fun _ _ => ?_) ?_

@[simp] theorem keeps_ccStored {s t : State} (hk : Keeps s t) (c : CoreId) (bads : List Nat) :
    Keeps s (ccStored t c bads) := by
  unfold ccStored
  try dsimp only
  repeat' first | (simp (maxDischargeDepth := 30) [hk]; done) | split | refine keeps_foldl (fun _ _ => ?_) ?_

@[simp] theorem keeps_pushEnter {s t : State} (hk : Keeps s t) (c : CoreId) (q : QId) (ws : List Word) (st : PushStall) :
    Keeps s (pushEnter t c q ws st) := by
  unfold pushEnter
  try dsimp only
  repeat' first | (simp (maxDischargeDepth := 30) [hk]; done) | split | refine keeps_foldl (fun _ _ => ?_) ?_

@[simp] theorem keeps_pushRun {s t : State} (hk : Keeps s t) (c : CoreId) (made : Bool) (fuel : Nat) (tested : Bool)
    (st : PushStall) : Keeps s (pushRun c made fuel tested t st) := by
  induction fuel generalizing t tested st with
  | zero => simp [pushRun, hk]
  | succ fuel ih =>
    unfold pushRun
    dsimp only
    repeat' first | (simp (maxDischargeDepth := 30) [hk, ih]; done) | split

@[simp] theorem keeps_ccPush {s t : State} (hk : Keeps s t) (f : Fetch) (queue : BitVec 4) (n : BitVec 4) (guard : BitVec 5) (subst : BitVec 13) (words : List Word) :
    Keeps s (ccPush f queue n guard subst words t) := by
  unfold ccPush
  try dsimp only
  repeat' first | (simp (maxDischargeDepth := 30) [hk]; done) | split | refine keeps_foldl (fun _ _ => ?_) ?_

@[simp] theorem keeps_pushResume {s t : State} (hk : Keeps s t) (c : CoreId) (cont : Bool) :
    Keeps s (pushResume t c cont) := by
  unfold pushResume
  try dsimp only
  repeat' first | (simp (maxDischargeDepth := 30) [hk]; done) | split | refine keeps_foldl (fun _ _ => ?_) ?_

@[simp] theorem keeps_startReplay {s t : State} (hk : Keeps s t) (c : CoreId) :
    Keeps s (startReplay t c) := by
  unfold startReplay
  try dsimp only
  repeat' first | (simp (maxDischargeDepth := 30) [hk]; done) | split | refine keeps_foldl (fun _ _ => ?_) ?_

theorem keeps_execCont {s t : State} (hk : Keeps s t) (c : CoreId) :
    Keeps s (ran (execCont c t) t) := by
  unfold execCont
  rw [ran_next]
  first | refine keeps_hostWr hk _ _ _ (fun u => ?_) | refine keeps_hostRd hk _ _ _ (fun u => ?_) | skip
  try dsimp only
  repeat' first | (simp (maxDischargeDepth := 30) [hk]; done) | split | refine keeps_foldl (fun _ _ => ?_) ?_

theorem keeps_execStagedParameterWrite {s t : State} (hk : Keeps s t) (c : CoreId) (i : BitVec 5) (v : Word) :
    Keeps s (ran (execStagedParameterWrite c i v t) t) := by
  unfold execStagedParameterWrite
  rw [ran_next]
  first | refine keeps_hostWr hk _ _ _ (fun u => ?_) | refine keeps_hostRd hk _ _ _ (fun u => ?_) | skip
  try dsimp only
  repeat' first | (simp (maxDischargeDepth := 30) [hk]; done) | split | refine keeps_foldl (fun _ _ => ?_) ?_

end Sys2Proof.Laws
end

