-- ==== Sys2Proof/Laws/KeepsCairns.lean ====
section
/-! SUPPORT. What the shared operations do to the waiting commands and the engine's legal registers: cairns,
descriptors, packets, partners and frames. -/

namespace Sys2Proof.Laws

open Sys2Proof Sys2Proof.Machine

@[simp] theorem keeps_crnEvent {s t : State} (hk : Keeps s t) (n : ChanId) (kind : BitVec 3) (cls : Nat) (i : Nat) :
    Keeps s (crnEvent t n kind cls i) := by
  unfold crnEvent
  try dsimp only
  repeat' first | (simp (maxDischargeDepth := 30) [hk]; done) | split | refine keeps_foldl (fun _ _ => ?_) ?_

@[simp] theorem keeps_crnApply {s t : State} (hk : Keeps s t) (n : ChanId) (i : Nat) (cls : Nat) (amount : Nat) :
    Keeps s (crnApply t n i cls amount) := by
  unfold crnApply
  try dsimp only
  repeat' first | (simp (maxDischargeDepth := 30) [hk]; done) | split | refine keeps_foldl (fun _ _ => ?_) ?_

@[simp] theorem keeps_crnDefer {s t : State} (hk : Keeps s t) (n : ChanId) (i : Nat) (cls : Nat) (amount : Nat) :
    Keeps s (crnDefer t n i cls amount) := by
  unfold crnDefer
  try dsimp only
  repeat' first | (simp (maxDischargeDepth := 30) [hk]; done) | split | refine keeps_foldl (fun _ _ => ?_) ?_

@[simp] theorem keeps_crnInc {s t : State} (hk : Keeps s t) (n : ChanId) (i : Nat) (cls : Nat) (amount : Nat) :
    Keeps s (crnInc t n i cls amount) := by
  unfold crnInc
  try dsimp only
  repeat' first | (simp (maxDischargeDepth := 30) [hk]; done) | split | refine keeps_foldl (fun _ _ => ?_) ?_

@[simp] theorem keeps_crnWithdraw {s t : State} (hk : Keeps s t) (n : ChanId) (i : Nat) (w : Nat) :
    Keeps s (crnWithdraw t n i w) := by
  unfold crnWithdraw
  try dsimp only
  repeat' first | (simp (maxDischargeDepth := 30) [hk]; done) | split | refine keeps_foldl (fun _ _ => ?_) ?_

@[simp] theorem keeps_crnPending {s t : State} (hk : Keeps s t) (n : ChanId) (i : Nat) :
    Keeps s (crnPending t n i) := by
  unfold crnPending
  try dsimp only
  repeat' first | (simp (maxDischargeDepth := 30) [hk]; done) | split | refine keeps_foldl (fun _ _ => ?_) ?_

@[simp] theorem keeps_waitEval {s t : State} (hk : Keeps s t) (n : ChanId) (q : QId) :
    Keeps s (waitEval t n q) := by
  unfold waitEval
  try dsimp only
  repeat' first | (simp (maxDischargeDepth := 30) [hk]; done) | split | refine keeps_foldl (fun _ _ => ?_) ?_

@[simp] theorem keeps_startEval {s t : State} (hk : Keeps s t) (c : CoreId) :
    Keeps s (startEval t c) := by
  unfold startEval
  try dsimp only
  repeat' first | (simp (maxDischargeDepth := 30) [hk]; done) | split | refine keeps_foldl (fun _ _ => ?_) ?_

@[simp] theorem keeps_crnWaits {s t : State} (hk : Keeps s t) (n : ChanId) (i : Nat) : Keeps s (crnWaits t n i) := by
  have one (u : State) (q : QId) : Keeps u (match (u.chan n).headWait q with
      | some h => if waitCairn h = i then waitEval u n q else u
      | none => u) := by
    split
    · split <;> simp
    · simp
  have start {u : State} (h : Keeps s u) (k : Fin 2) :
      Keeps s (if (u.core (mkCore n k)).cc.tcairn.toNat = i then startEval u (mkCore n k) else u) := by
    split <;> simp [h]
  unfold crnWaits
  exact keeps_foldl one (keeps_foldl one (start (keeps_foldl one (start hk 0)) 1))

theorem keeps_execDoorbell {s t : State} (hk : Keeps s t) (n : ChanId) (cairn : BitVec 11) (amount : Byte) :
    Keeps s (ran (execDoorbell n cairn amount t) t) := by
  unfold execDoorbell
  rw [ran_next]
  first | refine keeps_hostWr hk _ _ _ (fun u => ?_) | refine keeps_hostRd hk _ _ _ (fun u => ?_) | skip
  try dsimp only
  repeat' first | (simp (maxDischargeDepth := 30) [hk]; done) | split | refine keeps_foldl (fun _ _ => ?_) ?_

@[simp] theorem keeps_dmaErr {s t : State} (hk : Keeps s t) (n : ChanId) (tag : Byte) (index : Nat) (host : BitVec 48) (reason : Nat) :
    Keeps s (dmaErr t n tag index host reason) := by
  unfold dmaErr
  try dsimp only
  repeat' first | (simp (maxDischargeDepth := 30) [hk]; done) | split | refine keeps_foldl (fun _ _ => ?_) ?_

@[simp] theorem keeps_descUndefine {s t : State} (hk : Keeps s t) (n : ChanId) (d : Desc) :
    Keeps s (descUndefine t n d) := by
  unfold descUndefine
  try dsimp only
  repeat' first | (simp (maxDischargeDepth := 30) [hk]; done) | split | refine keeps_foldl (fun _ _ => ?_) ?_

@[simp] theorem keeps_descFail {s t : State} (hk : Keeps s t) (n : ChanId) (id : Nat) (reason : Nat) :
    Keeps s (descFail t n id reason) := by
  unfold descFail
  try dsimp only
  repeat' first | (simp (maxDischargeDepth := 30) [hk]; done) | split | refine keeps_foldl (fun _ _ => ?_) ?_

@[simp] theorem keeps_descDone {s t : State} (hk : Keeps s t) (n : ChanId) (id : Nat) (k : Nat) :
    Keeps s (descDone t n id k) := by
  unfold descDone
  try dsimp only
  repeat' first | (simp (maxDischargeDepth := 30) [hk]; done) | split | refine keeps_foldl (fun _ _ => ?_) ?_

@[simp] theorem keeps_shadowWrite {s t : State} (hk : Keeps s t) (off : Nat) (bs : List Byte) :
    Keeps s (shadowWrite t off bs) := by
  unfold shadowWrite
  try dsimp only
  repeat' first | (simp (maxDischargeDepth := 30) [hk]; done) | split | refine keeps_foldl (fun _ _ => ?_) ?_

@[simp] theorem keeps_descPut1 {s t : State} (hk : Keeps s t) (n : ChanId) (id : Nat) :
    Keeps s (descPut1 t n id).1 := by
  unfold descPut1
  try dsimp only
  repeat' first | (simp (maxDischargeDepth := 30) [hk]; done) | split | refine keeps_foldl (fun _ _ => ?_) ?_

@[simp] theorem keeps_descPut {s t : State} (hk : Keeps s t) (n : ChanId) (id : Nat) (fuel : Nat) :
    Keeps s (descPut n id fuel t) := by
  induction fuel generalizing t with
  | zero => exact hk
  | succ fuel ih =>
    unfold descPut
    try dsimp only
    repeat' first | (simp (maxDischargeDepth := 30) [hk, ih]; done) | split | refine keeps_foldl (fun _ _ => ?_) ?_

@[simp] theorem keeps_descGot {s t : State} (hk : Keeps s t) (n : ChanId) (id : Nat) (pos : Nat) (bs : List Byte) :
    Keeps s (descGot t n id pos bs) := by
  unfold descGot
  try dsimp only
  repeat' first | (simp (maxDischargeDepth := 30) [hk]; done) | split | refine keeps_foldl (fun _ _ => ?_) ?_

theorem keeps_execDmaClear {s t : State} (hk : Keeps s t) (n : ChanId) :
    Keeps s (ran (execDmaClear n t) t) := by
  unfold execDmaClear
  rw [ran_next]
  first | refine keeps_hostWr hk _ _ _ (fun u => ?_) | refine keeps_hostRd hk _ _ _ (fun u => ?_) | skip
  try dsimp only
  repeat' first | (simp (maxDischargeDepth := 30) [hk]; done) | split | refine keeps_foldl (fun _ _ => ?_) ?_

@[simp] theorem keeps_updPart {s t : State} (hk : Keeps s t) (n : ChanId) (i : Nat) (f : Partner → Partner) :
    Keeps s (updPart t n i f) := by
  unfold updPart
  try dsimp only
  repeat' first | (simp (maxDischargeDepth := 30) [hk]; done) | split | refine keeps_foldl (fun _ _ => ?_) ?_

@[simp] theorem keeps_peerErr {s t : State} (hk : Keeps s t) (n : ChanId) (status : BitVec 4) (side : Bool) (entry : Fin 8) (win : BitVec 5) :
    Keeps s (peerErr t n status side entry win) := by
  unfold peerErr
  try dsimp only
  repeat' first | (simp (maxDischargeDepth := 30) [hk]; done) | split | refine keeps_foldl (fun _ _ => ?_) ?_

@[simp] theorem keeps_psendEnd {s t : State} (hk : Keeps s t) (n : ChanId) (order : Option Nat) :
    Keeps s (psendEnd t n order) := by
  unfold psendEnd
  try dsimp only
  repeat' first | (simp (maxDischargeDepth := 30) [hk]; done) | split | refine keeps_foldl (fun _ _ => ?_) ?_

@[simp] theorem keeps_dropOut {s t : State} (hk : Keeps s t) (n : ChanId) (serial : Nat) :
    Keeps s (dropOut t n serial) := by
  unfold dropOut
  try dsimp only
  repeat' first | (simp (maxDischargeDepth := 30) [hk]; done) | split | refine keeps_foldl (fun _ _ => ?_) ?_

@[simp] theorem keeps_pktDone {s t : State} (hk : Keeps s t) (n : ChanId) (p : OutPkt) :
    Keeps s (pktDone t n p) := by
  unfold pktDone
  try dsimp only
  repeat' first | (simp (maxDischargeDepth := 30) [hk]; done) | split | refine keeps_foldl (fun _ _ => ?_) ?_

@[simp] theorem keeps_pktFail {s t : State} (hk : Keeps s t) (n : ChanId) (p : OutPkt) (status : BitVec 4) :
    Keeps s (pktFail t n p status) := by
  unfold pktFail
  try dsimp only
  repeat' first | (simp (maxDischargeDepth := 30) [hk]; done) | split | refine keeps_foldl (fun _ _ => ?_) ?_

@[simp] theorem keeps_failUnusable {s t : State} (hk : Keeps s t) (n : ChanId) (i : Fin 8) :
    Keeps s (failUnusable t n i) := by
  unfold failUnusable
  try dsimp only
  repeat' first | (simp (maxDischargeDepth := 30) [hk]; done) | split | refine keeps_foldl (fun _ _ => ?_) ?_

@[simp] theorem keeps_setPState {s t : State} (hk : Keeps s t) (n : ChanId) (i : Fin 8) (st : BitVec 3) :
    Keeps s (setPState t n i st) := by
  unfold setPState
  try dsimp only
  repeat' first | (simp (maxDischargeDepth := 30) [hk]; done) | split | refine keeps_foldl (fun _ _ => ?_) ?_

@[simp] theorem keeps_evalPart {s t : State} (hk : Keeps s t) (n : ChanId) (i : Fin 8) :
    Keeps s (evalPart t n i) := by
  unfold evalPart
  try dsimp only
  repeat' first | (simp (maxDischargeDepth := 30) [hk]; done) | split | refine keeps_foldl (fun _ _ => ?_) ?_

@[simp] theorem keeps_evalParts {s t : State} (hk : Keeps s t) (n : ChanId) :
    Keeps s (evalParts t n) := by
  unfold evalParts
  try dsimp only
  repeat' first | (simp (maxDischargeDepth := 30) [hk]; done) | split | refine keeps_foldl (fun _ _ => ?_) ?_

@[simp] theorem keeps_allDown {s t : State} (hk : Keeps s t) (n : ChanId) :
    Keeps s (allDown t n) := by
  unfold allDown
  try dsimp only
  repeat' first | (simp (maxDischargeDepth := 30) [hk]; done) | split | refine keeps_foldl (fun _ _ => ?_) ?_

@[simp] theorem keeps_portErr {s t : State} (hk : Keeps s t) (n : ChanId) (bit : Nat) :
    Keeps s (portErr t n bit) := by
  unfold portErr
  try dsimp only
  repeat' first | (simp (maxDischargeDepth := 30) [hk]; done) | split | refine keeps_foldl (fun _ _ => ?_) ?_

@[simp] theorem keeps_pktIn {s t : State} (hk : Keeps s t) (n : ChanId) (h : PktHdr) (hello : Bool) (f : Fin 8 → State)
    (hf : ∀ i, Keeps s (f i)) : Keeps s (pktIn t n h hello f) := by
  unfold pktIn
  dsimp only
  repeat' first | (simp [hk, hf]; done) | split

@[simp] theorem keeps_sendCtl {s t : State} (hk : Keeps s t) (n : ChanId) (i : Nat) (type : Byte) (ver : Byte) (body : List Byte) :
    Keeps s (sendCtl t n i type ver body) := by
  unfold sendCtl
  try dsimp only
  repeat' first | (simp (maxDischargeDepth := 30) [hk]; done) | split | refine keeps_foldl (fun _ _ => ?_) ?_

@[simp] theorem keeps_sendHello {s t : State} (hk : Keeps s t) (n : ChanId) (i : Nat) :
    Keeps s (sendHello t n i) := by
  unfold sendHello
  try dsimp only
  repeat' first | (simp (maxDischargeDepth := 30) [hk]; done) | split | refine keeps_foldl (fun _ _ => ?_) ?_

@[simp] theorem keeps_peersSwitch {s t : State} (hk : Keeps s t) (n : ChanId) :
    Keeps s (peersSwitch t n) := by
  unfold peersSwitch
  try dsimp only
  repeat' first | (simp (maxDischargeDepth := 30) [hk]; done) | split | refine keeps_foldl (fun _ _ => ?_) ?_

@[simp] theorem keeps_sendAck {s t : State} (hk : Keeps s t) (n : ChanId) (i : Fin 8) (core : Fin 2) (win : BitVec 4) (status : Nat) (epoch : BitVec 16) (seq : Word) :
    Keeps s (sendAck t n i core win status epoch seq) := by
  unfold sendAck
  try dsimp only
  repeat' first | (simp (maxDischargeDepth := 30) [hk]; done) | split | refine keeps_foldl (fun _ _ => ?_) ?_

@[simp] theorem keeps_jobDone {s t : State} (hk : Keeps s t) (n : ChanId) (slot : Nat) :
    Keeps s (jobDone t n slot) := by
  unfold jobDone
  try dsimp only
  repeat' first | (simp (maxDischargeDepth := 30) [hk]; done) | split | refine keeps_foldl (fun _ _ => ?_) ?_

@[simp] theorem keeps_jobNew {s t : State} (hk : Keeps s t) (n : ChanId) (b : DataBody) (w : PeerWin) (peer : Option (Fin 8 × BitVec 16 × Word)) :
    Keeps s (jobNew t n b w peer).1 := by
  unfold jobNew
  try dsimp only
  repeat' first | (simp (maxDischargeDepth := 30) [hk]; done) | split | refine keeps_foldl (fun _ _ => ?_) ?_

@[simp] theorem keeps_pieceLanded {s t : State} (hk : Keeps s t) (n : ChanId) (slot : Nat) (flits : Nat) :
    Keeps s (pieceLanded t n slot flits) := by
  unfold pieceLanded
  try dsimp only
  repeat' first | (simp (maxDischargeDepth := 30) [hk]; done) | split | refine keeps_foldl (fun _ _ => ?_) ?_

@[simp] theorem keeps_applyPkt {s t : State} (hk : Keeps s t) (n : ChanId) (b : DataBody) (w : PeerWin) (peer : Fin 8 × BitVec 16 × Word) :
    Keeps s (applyPkt t n b w peer) := by
  unfold applyPkt
  try dsimp only
  repeat' first | (simp (maxDischargeDepth := 30) [hk]; done) | split | refine keeps_foldl (fun _ _ => ?_) ?_

@[simp] theorem keeps_applyOwn {s t : State} (hk : Keeps s t) (n : ChanId) (b : DataBody) (w : PeerWin) :
    Keeps s (applyOwn t n b w) := by
  unfold applyOwn
  try dsimp only
  repeat' first | (simp (maxDischargeDepth := 30) [hk]; done) | split | refine keeps_foldl (fun _ _ => ?_) ?_

@[simp] theorem keeps_voidPkt {s t : State} (hk : Keeps s t) (n : ChanId) (b : DataBody) (w : PeerWin) :
    Keeps s (voidPkt t n b w) := by
  unfold voidPkt
  try dsimp only
  repeat' first | (simp (maxDischargeDepth := 30) [hk]; done) | split | refine keeps_foldl (fun _ _ => ?_) ?_

@[simp] theorem keeps_heldVoided {s t : State} (hk : Keeps s t) (n : ChanId) :
    Keeps s (heldVoided t n) := by
  unfold heldVoided
  try dsimp only
  repeat' first | (simp (maxDischargeDepth := 30) [hk]; done) | split | refine keeps_foldl (fun _ _ => ?_) ?_

@[simp] theorem keeps_heldVoid {s t : State} (hk : Keeps s t) (n : ChanId) (h : Held) (cairn : Bool) :
    Keeps s (heldVoid t n h cairn) := by
  unfold heldVoid
  try dsimp only
  repeat' first | (simp (maxDischargeDepth := 30) [hk]; done) | split | refine keeps_foldl (fun _ _ => ?_) ?_

@[simp] theorem keeps_heldTick {s t : State} (hk : Keeps s t) (n : ChanId) (sees : List ArrSee) :
    Keeps s (heldTick t n sees) := by
  unfold heldTick
  try dsimp only
  repeat' first | (simp (maxDischargeDepth := 30) [hk]; done) | split | refine keeps_foldl (fun _ _ => ?_) ?_

@[simp] theorem keeps_dataIn {s t : State} (hk : Keeps s t) (n : ChanId) (h : PktHdr) (b : DataBody) (acc : Bool) :
    Keeps s (dataIn t n h b acc) := by
  unfold dataIn
  try dsimp only
  repeat' first | (simp (maxDischargeDepth := 30) [hk]; done) | split | refine keeps_foldl (fun _ _ => ?_) ?_

@[simp] theorem keeps_ledgerVoid {s t : State} (hk : Keeps s t) (n : ChanId) (i : Fin 8) (e : Nat × BitVec 16 × Nat × Nat × Nat) :
    Keeps s (ledgerVoid t n i e) := by
  unfold ledgerVoid
  try dsimp only
  repeat' first | (simp (maxDischargeDepth := 30) [hk]; done) | split | refine keeps_foldl (fun _ _ => ?_) ?_

@[simp] theorem keeps_pktFilled {s t : State} (hk : Keeps s t) (n : ChanId) (serial : Nat) (bs : List Byte) :
    Keeps s (pktFilled t n serial bs) := by
  unfold pktFilled
  try dsimp only
  repeat' first | (simp (maxDischargeDepth := 30) [hk]; done) | split | refine keeps_foldl (fun _ _ => ?_) ?_

@[simp] theorem keeps_pktLost {s t : State} (hk : Keeps s t) (n : ChanId) (serial : Nat) (order : Nat) :
    Keeps s (pktLost t n serial order) := by
  unfold pktLost
  try dsimp only
  repeat' first | (simp (maxDischargeDepth := 30) [hk]; done) | split | refine keeps_foldl (fun _ _ => ?_) ?_

@[simp] theorem keeps_replOut {s t : State} (hk : Keeps s t) (n : ChanId) (serial : Nat) (l : List OutPkt) :
    Keeps s (replOut t n serial l) := by
  unfold replOut
  try dsimp only
  repeat' first | (simp (maxDischargeDepth := 30) [hk]; done) | split | refine keeps_foldl (fun _ _ => ?_) ?_

@[simp] theorem keeps_collSplit {s t : State} (hk : Keeps s t) (n : ChanId) (p : OutPkt) :
    Keeps s (collSplit t n p) := by
  unfold collSplit
  try dsimp only
  repeat' first | (simp (maxDischargeDepth := 30) [hk]; done) | split | refine keeps_foldl (fun _ _ => ?_) ?_

@[simp] theorem keeps_pktLeave {s t : State} (hk : Keeps s t) (n : ChanId) (p : OutPkt) :
    Keeps s (pktLeave t n p) := by
  unfold pktLeave
  try dsimp only
  repeat' first | (simp (maxDischargeDepth := 30) [hk]; done) | split | refine keeps_foldl (fun _ _ => ?_) ?_

theorem keeps_popPayload {s t u : State} (hk : Keeps s t) {n : ChanId} {p q : OutPkt}
    (h : popPayload t n p = some (u, q)) : Keeps s u := by
  unfold popPayload at h
  dsimp only at h
  split at h
  · simp only [Option.some.injEq, Prod.mk.injEq] at h; exact h.1 ▸ hk
  · split at h
    · simp at h
    · simp only [Option.some.injEq, Prod.mk.injEq] at h; rw [← h.1]; simp [hk]

@[simp] theorem keeps_pktSend {s t : State} (hk : Keeps s t) (n : ChanId) (dma : Bool) : Keeps s (pktSend t n dma) := by
  unfold pktSend
  split
  · exact hk
  · split
    · exact hk
    · split
      · exact hk
      · have h1 := keeps_popPayload hk ‹_›
        repeat' first | (simp (maxDischargeDepth := 30) [h1]; done) | split

@[simp] theorem keeps_descPackets {s t : State} (hk : Keeps s t) (n : ChanId) (id : Nat) (fuel : Nat) :
    Keeps s (descPackets n id fuel t) := by
  induction fuel generalizing t with
  | zero => exact hk
  | succ fuel ih =>
    unfold descPackets
    try dsimp only
    repeat' first | (simp (maxDischargeDepth := 30) [hk, ih]; done) | split | refine keeps_foldl (fun _ _ => ?_) ?_

theorem keeps_execPeerNodeWrite {s t : State} (hk : Keeps s t) (n : ChanId) (entry : Option (Fin 8)) (v : Word) :
    Keeps s (ran (execPeerNodeWrite n entry v t) t) := by
  unfold execPeerNodeWrite
  rw [ran_next]
  first | refine keeps_hostWr hk _ _ _ (fun u => ?_) | refine keeps_hostRd hk _ _ _ (fun u => ?_) | skip
  try dsimp only
  repeat' first | (simp (maxDischargeDepth := 30) [hk]; done) | split | refine keeps_foldl (fun _ _ => ?_) ?_

@[simp] theorem keeps_dropFrame {s t : State} (hk : Keeps s t) (n : ChanId) (serial : Nat) :
    Keeps s (dropFrame t n serial) := by
  unfold dropFrame
  try dsimp only
  repeat' first | (simp (maxDischargeDepth := 30) [hk]; done) | split | refine keeps_foldl (fun _ _ => ?_) ?_

@[simp] theorem keeps_frameCairn {s t : State} (hk : Keeps s t) (n : ChanId) (f : Frame) :
    Keeps s (frameCairn t n f) := by
  unfold frameCairn
  try dsimp only
  repeat' first | (simp (maxDischargeDepth := 30) [hk]; done) | split | refine keeps_foldl (fun _ _ => ?_) ?_

@[simp] theorem keeps_frameElig {s t : State} (hk : Keeps s t) (n : ChanId) (f : Frame) (keep : Bool) :
    Keeps s (frameElig t n f keep) := by
  unfold frameElig
  try dsimp only
  repeat' first | (simp (maxDischargeDepth := 30) [hk]; done) | split | refine keeps_foldl (fun _ _ => ?_) ?_

@[simp] theorem keeps_commitFrames {s t : State} (hk : Keeps s t) (n : ChanId) (keep : Bool) :
    Keeps s (commitFrames t n keep) := by
  unfold commitFrames
  try dsimp only
  repeat' first | (simp (maxDischargeDepth := 30) [hk]; done) | split | refine keeps_foldl (fun _ _ => ?_) ?_

@[simp] theorem keeps_frameSent {s t : State} (hk : Keeps s t) (n : ChanId) (f : Frame) (slipped : Bool) :
    Keeps s (frameSent t n f slipped) := by
  unfold frameSent
  try dsimp only
  repeat' first | (simp (maxDischargeDepth := 30) [hk]; done) | split | refine keeps_foldl (fun _ _ => ?_) ?_

@[simp] theorem keeps_launchRadio {s t : State} (hk : Keeps s t) (n : ChanId) (f : Frame) (slipped : Bool) :
    Keeps s (launchRadio t n f slipped) := by
  unfold launchRadio
  try dsimp only
  repeat' first | (simp (maxDischargeDepth := 30) [hk]; done) | split | refine keeps_foldl (fun _ _ => ?_) ?_

@[simp] theorem keeps_launchPeer {s t : State} (hk : Keeps s t) (n : ChanId) (f : Frame) (slipped : Bool) :
    Keeps s (launchPeer t n f slipped) := by
  unfold launchPeer
  try dsimp only
  repeat' first | (simp (maxDischargeDepth := 30) [hk]; done) | split | refine keeps_foldl (fun _ _ => ?_) ?_

theorem keeps_execLchClear {s t : State} (hk : Keeps s t) (n : ChanId) :
    Keeps s (ran (execLchClear n t) t) := by
  unfold execLchClear
  rw [ran_next]
  first | refine keeps_hostWr hk _ _ _ (fun u => ?_) | refine keeps_hostRd hk _ _ _ (fun u => ?_) | skip
  try dsimp only
  repeat' first | (simp (maxDischargeDepth := 30) [hk]; done) | split | refine keeps_foldl (fun _ _ => ?_) ?_

end Sys2Proof.Laws
end

