-- ==== Sys2Proof/Laws/KeepsEngine.lean ====
section
/-! SUPPORT. What the shared operations do to the waiting commands and the engine's legal registers: supply, clocks,
ticks and the time base. -/

namespace Sys2Proof.Laws

open Sys2Proof Sys2Proof.Machine

@[simp] theorem keeps_supplyFault {s t : State} (hk : Keeps s t) (old new : BitVec 3) (fell : Bool) :
    Keeps s (supplyFault t old new fell) := by
  unfold supplyFault
  dsimp only
  refine keeps_resupply (keeps_engErr ?_ ..)
  exact ⟨hk.queue, fun l => let k := hk.legal l
    ⟨k.fatal, k.answer, k.hperr, k.capture, k.grade, k.time, k.op⟩⟩

@[simp] theorem keeps_liftReset {s t : State} (hk : Keeps s t) (n : ChanId) (cold : Bool) :
    Keeps s (liftReset t n cold) := by
  unfold liftReset
  try dsimp only
  repeat' first | (simp (maxDischargeDepth := 30) [hk]; done) | split | refine keeps_foldl (fun _ _ => ?_) ?_

@[simp] theorem keeps_gateReady {s t : State} (hk : Keeps s t) (n : ChanId) :
    Keeps s (gateReady t n) := by
  unfold gateReady
  try dsimp only
  repeat' first | (simp (maxDischargeDepth := 30) [hk]; done) | split | refine keeps_foldl (fun _ _ => ?_) ?_

@[simp] theorem keeps_gateStart {s t : State} (hk : Keeps s t) (n : ChanId) :
    Keeps s (gateStart t n) := by
  unfold gateStart
  try dsimp only
  repeat' first | (simp (maxDischargeDepth := 30) [hk]; done) | split | refine keeps_foldl (fun _ _ => ?_) ?_

@[simp] theorem keeps_ungateStart {s t : State} (hk : Keeps s t) (n : ChanId) :
    Keeps s (ungateStart t n) := by
  unfold ungateStart
  try dsimp only
  repeat' first | (simp (maxDischargeDepth := 30) [hk]; done) | split | refine keeps_foldl (fun _ _ => ?_) ?_

@[simp] theorem keeps_stepSix {s t : State} (hk : Keeps s t) :
    Keeps s (stepSix t) := by
  unfold stepSix
  try dsimp only
  repeat' first | (simp (maxDischargeDepth := 30) [hk]; done) | split | refine keeps_foldl (fun _ _ => ?_) ?_

theorem keeps_execMaxOpWrite {s t : State} (hk : Keeps s t) (v : BitVec 3) :
    Keeps s (ran (execMaxOpWrite v t) t) := by
  unfold execMaxOpWrite
  rw [ran_next]
  refine keeps_hostWr hk _ _ _ (fun u => ?_)
  split
  · simp
  · refine keeps_resupply ⟨rfl, fun k => ⟨k.fatal, k.answer, k.hperr, k.capture, k.grade, k.time, k.op.1, by dsimp only; omega, k.op.2.2⟩⟩

theorem keeps_execPowerGate {s t : State} (hk : Keeps s t) (n : ChanId) :
    Keeps s (ran (execPowerGate n t) t) := by
  unfold execPowerGate
  rw [ran_next]
  first | refine keeps_hostWr hk _ _ _ (fun u => ?_) | refine keeps_hostRd hk _ _ _ (fun u => ?_) | skip
  try dsimp only
  repeat' first | (simp (maxDischargeDepth := 30) [hk]; done) | split | refine keeps_foldl (fun _ _ => ?_) ?_

theorem keeps_execUngate {s t : State} (hk : Keeps s t) (n : ChanId) :
    Keeps s (ran (execUngate n t) t) := by
  unfold execUngate
  rw [ran_next]
  first | refine keeps_hostWr hk _ _ _ (fun u => ?_) | refine keeps_hostRd hk _ _ _ (fun u => ?_) | skip
  try dsimp only
  repeat' first | (simp (maxDischargeDepth := 30) [hk]; done) | split | refine keeps_foldl (fun _ _ => ?_) ?_

theorem keeps_execSupplyClear {s t : State} (hk : Keeps s t) :
    Keeps s (ran (execSupplyClear t) t) := by
  unfold execSupplyClear
  rw [ran_next]
  refine keeps_hostWr hk _ _ _ (fun u => ?_)
  exact keeps_resupply ⟨rfl, fun k => ⟨k.fatal, k.answer, k.hperr, k.capture, k.grade, k.time, k.op⟩⟩

@[simp] theorem keeps_obsCycle {s t : State} (hk : Keeps s t) (f : Nat → Bool) :
    Keeps s (obsCycle f t) := by
  unfold obsCycle
  try dsimp only
  repeat' first | (simp (maxDischargeDepth := 30) [hk]; done) | split | refine keeps_foldl (fun _ _ => ?_) ?_

theorem keeps_execClkObsWrite {s t : State} (hk : Keeps s t) (data : Word) :
    Keeps s (ran (execClkObsWrite data t) t) := by
  unfold execClkObsWrite
  rw [ran_next]
  first | refine keeps_hostWr hk _ _ _ (fun u => ?_) | refine keeps_hostRd hk _ _ _ (fun u => ?_) | skip
  try dsimp only
  repeat' first | (simp (maxDischargeDepth := 30) [hk]; done) | split | refine keeps_foldl (fun _ _ => ?_) ?_

@[simp] theorem keeps_forceTicks {s t : State} (hk : Keeps s t) :
    Keeps s (forceTicks t) := by
  unfold forceTicks
  try dsimp only
  repeat' first | (simp (maxDischargeDepth := 30) [hk]; done) | split | refine keeps_foldl (fun _ _ => ?_) ?_

theorem legal_tdAt (t : Td) (h : t.legal) (u : Int) : (t.at u).legal := by
  refine ⟨?_, h.2⟩
  unfold Td.at
  simp only [BitVec.toNat_ofNat]
  omega

theorem legal_putTd {t : State} (l : t.Legal) (d : Fin 2) (x : Td) (hx : x.legal) {tdc cal} :
    ({ t with td := t.td.set d x, tdc := tdc, cal := cal } : State).Legal := by
  refine ⟨l.fatal, l.answer, l.hperr, l.capture, l.grade, ?_, l.op⟩
  unfold Duo.set
  split
  · exact ⟨hx, l.time.2⟩
  · exact ⟨l.time.1, hx⟩

theorem legal_getTd {t : State} (l : t.Legal) (d : Fin 2) : (t.td.get d).legal := by
  unfold Duo.get
  split
  · exact l.time.1
  · exact l.time.2

/-- A step a host may ask for: a SET loads nanoseconds below 10⁹. -/
def stepOk : TdStep → Prop
  | .load _ ns => ns.toNat < 1000000000
  | .add _ => True

theorem keeps_tdStep {s t : State} (hk : Keeps s t) (d : Fin 2) (x : TdStep) (hx : stepOk x) (force : Bool) :
    Keeps s (tdStep t d x force).1 := by
  have key (y : Td) (hy : t.Legal → y.legal) (tdc : Tdc) : Keeps s { t with td := t.td.set d y, tdc := tdc } :=
    ⟨hk.queue, fun l => legal_putTd (hk.legal l) d y (hy (hk.legal l))⟩
  have later : Keeps s { t with td := t.td.set d { t.td.get d with stepNext := some x } } := by
    refine key { t.td.get d with stepNext := some x } (fun l => ⟨(legal_getTd l d).1, fun sec ns h => ?_⟩) t.tdc
    simp only [Option.some.injEq] at h
    subst h
    exact hx
  cases x with
  | load sec ns =>
    unfold tdStep
    dsimp only
    have hy (l : t.Legal) : ({ t.td.get d with sec := sec, ns := ns, frac := 0 } : Td).legal := ⟨hx, (legal_getTd l d).2⟩
    repeat' split
    · exact key _ hy _
    · exact keeps_forceTicks (key _ hy _)
    · simp [hk]
    · exact later
  | add a =>
    unfold tdStep
    dsimp only
    have hy (l : t.Legal) := legal_tdAt _ (legal_getTd l d) (tdUnits (t.td.get d) + a * 2 ^ 32)
    repeat' split
    · exact key _ hy _
    · exact keeps_forceTicks (key _ hy _)
    · simp [hk]
    · exact later

theorem keeps_putTd {s t : State} (hk : Keeps s t) (d : Fin 2) (y : Td) (hy : t.Legal → y.legal) :
    Keeps s { t with td := t.td.set d y } :=
  ⟨hk.queue, fun l => legal_putTd (hk.legal l) d y (hy (hk.legal l))⟩

theorem keeps_tdSwitchNow {s t u : State} (hk : Keeps s t) {n : Fin 2} (h : tdSwitchNow t n = some u) : Keeps s u := by
  unfold tdSwitchNow at h
  split at h
  · simp only [Option.some.injEq] at h; rw [← h]; simp [hk]
  · split at h
    · simp only [Option.some.injEq] at h; rw [← h]; simp [hk]
    · simp at h

@[simp] theorem keeps_tdSelect {s t : State} (hk : Keeps s t) (n : Fin 2) : Keeps s (tdSelect t n) := by
  unfold tdSelect
  split
  · simp [hk]
  · split
    · exact keeps_tdSwitchNow hk ‹_›
    · simp [hk]

@[simp] theorem keeps_calReject {s t : State} (hk : Keeps s t) (reason : BitVec 3) :
    Keeps s (calReject t reason) := by
  unfold calReject
  try dsimp only
  repeat' first | (simp (maxDischargeDepth := 30) [hk]; done) | split | refine keeps_foldl (fun _ _ => ?_) ?_

theorem keeps_execTdSet {s t : State} (hk : Keeps s t) (d : Fin 2) (force : Bool) :
    Keeps s (ran (execTdSet d force t) t) := by
  unfold execTdSet
  rw [ran_next]
  refine keeps_hostWr hk _ _ _ (fun u => ?_)
  dsimp only
  split
  · simp
  · rename_i h
    exact keeps_tdStep (keeps_refl u) _ _ (by simp [stepOk] at h ⊢; omega) _

theorem keeps_execTdAdj {s t : State} (hk : Keeps s t) (d : Fin 2) (force : Bool) :
    Keeps s (ran (execTdAdj d force t) t) := by
  unfold execTdAdj
  rw [ran_next]
  refine keeps_hostWr hk _ _ _ (fun u => ?_)
  split
  · simp
  · exact keeps_tdStep (keeps_refl u) d (.add (u.td.get d).adj.toInt) trivial force

theorem keeps_execTdIncFracWrite {s t : State} (hk : Keeps s t) (d : Fin 2) (v : Word) :
    Keeps s (ran (execTdIncFracWrite d v t) t) := by
  unfold execTdIncFracWrite
  rw [ran_next]
  refine keeps_hostWr hk _ _ _ (fun u => ?_)
  exact keeps_putTd (keeps_refl u) d _ (fun l => ⟨(legal_getTd l d).1, (legal_getTd l d).2⟩)

theorem keeps_execTdIncIntWrite {s t : State} (hk : Keeps s t) (d : Fin 2) (v : Word) :
    Keeps s (ran (execTdIncIntWrite d v t) t) := by
  unfold execTdIncIntWrite
  rw [ran_next]
  refine keeps_hostWr hk _ _ _ (fun u => ?_)
  dsimp only
  split <;> exact keeps_putTd (keeps_refl u) d _ (fun l => ⟨(legal_getTd l d).1, (legal_getTd l d).2⟩)

theorem keeps_execTdNsRead {s t : State} (hk : Keeps s t) (d : Fin 2) :
    Keeps s (ran (execTdNsRead d t) t) := by
  unfold execTdNsRead
  rw [ran_next]
  exact keeps_hostRd hk _ _ _ (fun u => keeps_putTd (keeps_refl u) d _ (fun l => ⟨(legal_getTd l d).1, (legal_getTd l d).2⟩))

theorem keeps_execForce {s t : State} (hk : Keeps s t) :
    Keeps s (ran (execForce t) t) := by
  unfold execForce
  rw [ran_next]
  first | refine keeps_hostWr hk _ _ _ (fun u => ?_) | refine keeps_hostRd hk _ _ _ (fun u => ?_) | skip
  try dsimp only
  repeat' first | (simp (maxDischargeDepth := 30) [hk]; done) | split | refine keeps_foldl (fun _ _ => ?_) ?_

theorem keeps_execCalSet {s t : State} (hk : Keeps s t) (force : Bool) :
    Keeps s (ran (execCalSet force t) t) := by
  unfold execCalSet
  rw [ran_next]
  refine keeps_hostWr hk _ _ _ (fun u => ?_)
  dsimp only
  have hs (sec : BitVec 48) : Keeps u (tdStep u 0 (.load sec 0) force).1 :=
    keeps_tdStep (keeps_refl u) 0 _ (by simp [stepOk]) force
  repeat' first | (simp; done) | exact hs _ | exact keeps_calReject (hs _) _ | split

theorem keeps_execCalDateRead {s t : State} (hk : Keeps s t) :
    Keeps s (ran (execCalDateRead t) t) := by
  unfold execCalDateRead
  rw [ran_next]
  first | refine keeps_hostWr hk _ _ _ (fun u => ?_) | refine keeps_hostRd hk _ _ _ (fun u => ?_) | skip
  try dsimp only
  repeat' first | (simp (maxDischargeDepth := 30) [hk]; done) | split | refine keeps_foldl (fun _ _ => ?_) ?_

@[simp] theorem keeps_updXfer {s t : State} (hk : Keeps s t) (n : ChanId) (order : Nat) (f : Xfer → Xfer) :
    Keeps s (updXfer t n order f) := by
  unfold updXfer
  try dsimp only
  repeat' first | (simp (maxDischargeDepth := 30) [hk]; done) | split | refine keeps_foldl (fun _ _ => ?_) ?_

@[simp] theorem keeps_descRefuse {s t : State} (hk : Keeps s t) (n : ChanId) (x : Xfer) (index : Nat) (reason : Nat) :
    Keeps s (descRefuse t n x index reason) := by
  unfold descRefuse
  try dsimp only
  repeat' first | (simp (maxDischargeDepth := 30) [hk]; done) | split | refine keeps_foldl (fun _ _ => ?_) ?_

@[simp] theorem keeps_burstFail {s t : State} (hk : Keeps s t) (n : ChanId) (x : Xfer) :
    Keeps s (burstFail t n x) := by
  unfold burstFail
  try dsimp only
  repeat' first | (simp (maxDischargeDepth := 30) [hk]; done) | split | refine keeps_foldl (fun _ _ => ?_) ?_

@[simp] theorem keeps_burstDone {s t : State} (hk : Keeps s t) (n : ChanId) (x : Xfer) : Keeps s (burstDone t n x) := by
  unfold burstDone
  refine keeps_updXfer (keeps_foldl (fun u i => ?_) hk) ..
  dsimp only
  split <;> simp

@[simp] theorem keeps_burstSkip {s t : State} (hk : Keeps s t) (n : ChanId) (fuel : Nat) :
    Keeps s (burstSkip n fuel t) := by
  induction fuel generalizing t with
  | zero => exact hk
  | succ fuel ih =>
    unfold burstSkip
    try dsimp only
    repeat' first | (simp (maxDischargeDepth := 30) [hk, ih]; done) | split | refine keeps_foldl (fun _ _ => ?_) ?_

@[simp] theorem keeps_fetchPart {s t : State} (hk : Keeps s t) (n : ChanId) (order : Nat) (part : Nat) (data : Option (List Byte)) :
    Keeps s (fetchPart t n order part data) := by
  unfold fetchPart
  try dsimp only
  repeat' first | (simp (maxDischargeDepth := 30) [hk]; done) | split | refine keeps_foldl (fun _ _ => ?_) ?_

@[simp] theorem keeps_remoteCheck {s t : State} (hk : Keeps s t) (n : ChanId) :
    Keeps s (remoteCheck t n) := by
  unfold remoteCheck
  try dsimp only
  repeat' first | (simp (maxDischargeDepth := 30) [hk]; done) | split | refine keeps_foldl (fun _ _ => ?_) ?_

@[simp] theorem keeps_mpSlot {s t : State} (hk : Keeps s t) (n : ChanId) (ready : Bool) (tag : Byte) :
    Keeps s (mpSlot t n ready tag) := by
  unfold mpSlot
  try dsimp only
  repeat' first | (simp (maxDischargeDepth := 30) [hk]; done) | split | refine keeps_foldl (fun _ _ => ?_) ?_

@[simp] theorem keeps_icacheFill {s t : State} (hk : Keeps s t) (n : ChanId) (k : Fin 2) (g : BitVec 42) (data : List Byte) :
    Keeps s (icacheFill t n k g data) := by
  unfold icacheFill
  try dsimp only
  repeat' first | (simp (maxDischargeDepth := 30) [hk]; done) | split | refine keeps_foldl (fun _ _ => ?_) ?_

@[simp] theorem keeps_fillFail {s t : State} (hk : Keeps s t) (n : ChanId) (k : Fin 2) (g : BitVec 42) :
    Keeps s (fillFail t n k g) := by
  unfold fillFail
  try dsimp only
  repeat' first | (simp (maxDischargeDepth := 30) [hk]; done) | split | refine keeps_foldl (fun _ _ => ?_) ?_

@[simp] theorem keeps_fillSnooped {s t : State} (hk : Keeps s t) (n : ChanId) (k : Fin 2) (g : BitVec 42) :
    Keeps s (fillSnooped t n k g) := by
  unfold fillSnooped
  try dsimp only
  repeat' first | (simp (maxDischargeDepth := 30) [hk]; done) | split | refine keeps_foldl (fun _ _ => ?_) ?_

@[simp] theorem keeps_mpCapture {s t : State} (hk : Keeps s t) (n : ChanId) (r : MpReq) (status : BitVec 2) :
    Keeps s (mpCapture t n r status) := by
  unfold mpCapture
  try dsimp only
  repeat' first | (simp (maxDischargeDepth := 30) [hk]; done) | split | refine keeps_foldl (fun _ _ => ?_) ?_

@[simp] theorem keeps_reqFail {s t : State} (hk : Keeps s t) (n : ChanId) (r : MpReq) :
    Keeps s (reqFail t n r) := by
  unfold reqFail
  try dsimp only
  repeat' first | (simp (maxDischargeDepth := 30) [hk]; done) | split | refine keeps_foldl (fun _ _ => ?_) ?_

@[simp] theorem keeps_reqOk {s t : State} (hk : Keeps s t) (n : ChanId) (r : MpReq) (data : List Byte) :
    Keeps s (reqOk t n r data) := by
  unfold reqOk
  try dsimp only
  repeat' first | (simp (maxDischargeDepth := 30) [hk]; done) | split | refine keeps_foldl (fun _ _ => ?_) ?_

@[simp] theorem keeps_takeReq {s t : State} (hk : Keeps s t) (n : ChanId) (tag : Byte) :
    Keeps s (takeReq t n tag) := by
  unfold takeReq
  try dsimp only
  repeat' first | (simp (maxDischargeDepth := 30) [hk]; done) | split | refine keeps_foldl (fun _ _ => ?_) ?_

@[simp] theorem keeps_mpRespond {s t : State} (hk : Keeps s t) (n : ChanId) (tag : Byte) (status : BitVec 2) (data : List Byte) :
    Keeps s (mpRespond t n tag status data) := by
  unfold mpRespond
  try dsimp only
  repeat' first | (simp (maxDischargeDepth := 30) [hk]; done) | split | refine keeps_foldl (fun _ _ => ?_) ?_

@[simp] theorem keeps_mpExpire {s t : State} (hk : Keeps s t) (n : ChanId) (tag : Byte) :
    Keeps s (mpExpire t n tag) := by
  unfold mpExpire
  try dsimp only
  repeat' first | (simp (maxDischargeDepth := 30) [hk]; done) | split | refine keeps_foldl (fun _ _ => ?_) ?_

@[simp] theorem keeps_mpSnoop {s t : State} (hk : Keeps s t) (n : ChanId) (g : BitVec 42) :
    Keeps s (mpSnoop t n g) := by
  unfold mpSnoop
  try dsimp only
  repeat' first | (simp (maxDischargeDepth := 30) [hk]; done) | split | refine keeps_foldl (fun _ _ => ?_) ?_

@[simp] theorem keeps_validate {s t : State} (hk : Keeps s t) (img : List Byte) :
    Keeps s (validate t img).1 := by
  unfold validate
  try dsimp only
  repeat' first | (simp (maxDischargeDepth := 30) [hk]; done) | split | refine keeps_foldl (fun _ _ => ?_) ?_

@[simp] theorem keeps_applyImage {s t : State} (hk : Keeps s t) (img : List Byte) (affected : BitVec 4) :
    Keeps s (applyImage t img affected) := by
  unfold applyImage
  try dsimp only
  repeat' first | (simp (maxDischargeDepth := 30) [hk]; done) | split | refine keeps_foldl (fun _ _ => ?_) ?_

@[simp] theorem keeps_logIssue {s t : State} (hk : Keeps s t) (dest : LogDest) (half : Bool) (i : Nat) (r : LogRec) :
    Keeps s (logIssue t dest half i r) := by
  unfold logIssue
  try dsimp only
  repeat' first | (simp (maxDischargeDepth := 30) [hk]; done) | split | refine keeps_foldl (fun _ _ => ?_) ?_

@[simp] theorem keeps_compactStart {s t : State} (hk : Keeps s t) (half : Bool) :
    Keeps s (compactStart t half) := by
  unfold compactStart
  try dsimp only
  repeat' first | (simp (maxDischargeDepth := 30) [hk]; done) | split | refine keeps_foldl (fun _ _ => ?_) ?_

@[simp] theorem keeps_logKick {s t : State} (hk : Keeps s t) :
    Keeps s (logKick t) := by
  unfold logKick
  try dsimp only
  repeat' first | (simp (maxDischargeDepth := 30) [hk]; done) | split | refine keeps_foldl (fun _ _ => ?_) ?_

@[simp] theorem keeps_recIssue {s t : State} (hk : Keeps s t) (i : Nat) :
    Keeps s (recIssue t i) := by
  unfold recIssue
  try dsimp only
  repeat' first | (simp (maxDischargeDepth := 30) [hk]; done) | split | refine keeps_foldl (fun _ _ => ?_) ?_

@[simp] theorem keeps_recResume {s t : State} (hk : Keeps s t) :
    Keeps s (recResume t) := by
  unfold recResume
  try dsimp only
  repeat' first | (simp (maxDischargeDepth := 30) [hk]; done) | split | refine keeps_foldl (fun _ _ => ?_) ?_

@[simp] theorem keeps_logPut {s t : State} (hk : Keeps s t) (dest : LogDest) (r : LogRec) :
    Keeps s (logPut t dest r) := by
  unfold logPut
  try dsimp only
  repeat' first | (simp (maxDischargeDepth := 30) [hk]; done) | split | refine keeps_foldl (fun _ _ => ?_) ?_

@[simp] theorem keeps_logWrite {s t : State} (hk : Keeps s t) :
    Keeps s (logWrite t) := by
  unfold logWrite
  try dsimp only
  repeat' first | (simp (maxDischargeDepth := 30) [hk]; done) | split | refine keeps_foldl (fun _ _ => ?_) ?_

@[simp] theorem keeps_logRest {s t : State} (hk : Keeps s t) :
    Keeps s (logRest t) := by
  unfold logRest
  try dsimp only
  repeat' first | (simp (maxDischargeDepth := 30) [hk]; done) | split | refine keeps_foldl (fun _ _ => ?_) ?_

@[simp] theorem keeps_loadTrim {s t : State} (hk : Keeps s t) (p : List Byte) : Keeps s (loadTrim t p) :=
  ⟨hk.queue, fun l => let k := hk.legal l
    ⟨k.fatal, k.answer, k.hperr, k.capture, k.grade, k.time, k.op⟩⟩

@[simp] theorem keeps_txnEnd {s t : State} (hk : Keeps s t) (result : BitVec 4) :
    Keeps s (txnEnd t result) := by
  unfold txnEnd
  try dsimp only
  repeat' first | (simp (maxDischargeDepth := 30) [hk]; done) | split | refine keeps_foldl (fun _ _ => ?_) ?_

@[simp] theorem keeps_logFail {s t : State} (hk : Keeps s t) :
    Keeps s (logFail t) := by
  unfold logFail
  try dsimp only
  repeat' first | (simp (maxDischargeDepth := 30) [hk]; done) | split | refine keeps_foldl (fun _ _ => ?_) ?_

@[simp] theorem keeps_planAt {s t : State} (hk : Keeps s t) (len : Nat) (at_ : Nat) :
    Keeps s (planAt t len at_) := by
  unfold planAt
  try dsimp only
  repeat' first | (simp (maxDischargeDepth := 30) [hk]; done) | split | refine keeps_foldl (fun _ _ => ?_) ?_

@[simp] theorem keeps_planTxn {s t : State} (hk : Keeps s t) :
    Keeps s (planTxn t) := by
  unfold planTxn
  try dsimp only
  repeat' first | (simp (maxDischargeDepth := 30) [hk]; done) | split | refine keeps_foldl (fun _ _ => ?_) ?_

@[simp] theorem keeps_commitAllOld {s t : State} (hk : Keeps s t) :
    Keeps s (commitAllOld t) := by
  unfold commitAllOld
  try dsimp only
  repeat' first | (simp (maxDischargeDepth := 30) [hk]; done) | split | refine keeps_foldl (fun _ _ => ?_) ?_

@[simp] theorem keeps_switchIn {s t : State} (hk : Keeps s t) :
    Keeps s (switchIn t) := by
  unfold switchIn
  try dsimp only
  repeat' first | (simp (maxDischargeDepth := 30) [hk]; done) | split | refine keeps_foldl (fun _ _ => ?_) ?_

@[simp] theorem keeps_attemptFail {s t : State} (hk : Keeps s t) (bad : BitVec 4) :
    Keeps s (attemptFail t bad) := by
  unfold attemptFail
  try dsimp only
  repeat' first | (simp (maxDischargeDepth := 30) [hk]; done) | split | refine keeps_foldl (fun _ _ => ?_) ?_

theorem keeps_execBegin {s t : State} (hk : Keeps s t) (empty : Bool) :
    Keeps s (ran (execBegin empty t) t) := by
  unfold execBegin
  rw [ran_next]
  first | refine keeps_hostWr hk _ _ _ (fun u => ?_) | refine keeps_hostRd hk _ _ _ (fun u => ?_) | skip
  try dsimp only
  repeat' first | (simp (maxDischargeDepth := 30) [hk]; done) | split | refine keeps_foldl (fun _ _ => ?_) ?_

theorem keeps_execCommit {s t : State} (hk : Keeps s t) (now : Bool) :
    Keeps s (ran (execCommit now t) t) := by
  unfold execCommit
  rw [ran_next]
  first | refine keeps_hostWr hk _ _ _ (fun u => ?_) | refine keeps_hostRd hk _ _ _ (fun u => ?_) | skip
  try dsimp only
  repeat' first | (simp (maxDischargeDepth := 30) [hk]; done) | split | refine keeps_foldl (fun _ _ => ?_) ?_

theorem keeps_execRollback {s t : State} (hk : Keeps s t) :
    Keeps s (ran (execRollback t) t) := by
  unfold execRollback
  rw [ran_next]
  first | refine keeps_hostWr hk _ _ _ (fun u => ?_) | refine keeps_hostRd hk _ _ _ (fun u => ?_) | skip
  try dsimp only
  repeat' first | (simp (maxDischargeDepth := 30) [hk]; done) | split | refine keeps_foldl (fun _ _ => ?_) ?_

theorem keeps_execSrvDataWrite {s t : State} (hk : Keeps s t) (data : Word) :
    Keeps s (ran (execSrvDataWrite data t) t) := by
  unfold execSrvDataWrite
  rw [ran_next]
  first | refine keeps_hostWr hk _ _ _ (fun u => ?_) | refine keeps_hostRd hk _ _ _ (fun u => ?_) | skip
  try dsimp only
  repeat' first | (simp (maxDischargeDepth := 30) [hk]; done) | split | refine keeps_foldl (fun _ _ => ?_) ?_

theorem keeps_execSrvDataRead {s t : State} (hk : Keeps s t) :
    Keeps s (ran (execSrvDataRead t) t) := by
  unfold execSrvDataRead
  rw [ran_next]
  first | refine keeps_hostWr hk _ _ _ (fun u => ?_) | refine keeps_hostRd hk _ _ _ (fun u => ?_) | skip
  try dsimp only
  repeat' first | (simp (maxDischargeDepth := 30) [hk]; done) | split | refine keeps_foldl (fun _ _ => ?_) ?_

@[simp] theorem keeps_enterLogging {s t : State} (hk : Keeps s t) (img : List Byte) :
    Keeps s (enterLogging t img) := by
  unfold enterLogging
  try dsimp only
  repeat' first | (simp (maxDischargeDepth := 30) [hk]; done) | split | refine keeps_foldl (fun _ _ => ?_) ?_

theorem keeps_execCompact {s t : State} (hk : Keeps s t) :
    Keeps s (ran (execCompact t) t) := by
  unfold execCompact
  rw [ran_next]
  first | refine keeps_hostWr hk _ _ _ (fun u => ?_) | refine keeps_hostRd hk _ _ _ (fun u => ?_) | skip
  try dsimp only
  repeat' first | (simp (maxDischargeDepth := 30) [hk]; done) | split | refine keeps_foldl (fun _ _ => ?_) ?_

theorem keeps_execRestart {s t : State} (hk : Keeps s t) :
    Keeps s (ran (execRestart t) t) := by
  unfold execRestart
  rw [ran_next]
  first | refine keeps_hostWr hk _ _ _ (fun u => ?_) | refine keeps_hostRd hk _ _ _ (fun u => ?_) | skip
  try dsimp only
  repeat' first | (simp (maxDischargeDepth := 30) [hk]; done) | split | refine keeps_foldl (fun _ _ => ?_) ?_

theorem keeps_execCheckpoint {s t : State} (hk : Keeps s t) :
    Keeps s (ran (execCheckpoint t) t) := by
  unfold execCheckpoint
  rw [ran_next]
  first | refine keeps_hostWr hk _ _ _ (fun u => ?_) | refine keeps_hostRd hk _ _ _ (fun u => ?_) | skip
  try dsimp only
  repeat' first | (simp (maxDischargeDepth := 30) [hk]; done) | split | refine keeps_foldl (fun _ _ => ?_) ?_

theorem keeps_execTrim {s t : State} (hk : Keeps s t) :
    Keeps s (ran (execTrim t) t) := by
  unfold execTrim
  rw [ran_next]
  first | refine keeps_hostWr hk _ _ _ (fun u => ?_) | refine keeps_hostRd hk _ _ _ (fun u => ?_) | skip
  try dsimp only
  repeat' first | (simp (maxDischargeDepth := 30) [hk]; done) | split | refine keeps_foldl (fun _ _ => ?_) ?_

theorem keeps_execLogHalt {s t : State} (hk : Keeps s t) :
    Keeps s (ran (execLogHalt t) t) := by
  unfold execLogHalt
  rw [ran_next]
  first | refine keeps_hostWr hk _ _ _ (fun u => ?_) | refine keeps_hostRd hk _ _ _ (fun u => ?_) | skip
  try dsimp only
  repeat' first | (simp (maxDischargeDepth := 30) [hk]; done) | split | refine keeps_foldl (fun _ _ => ?_) ?_

@[simp] theorem keeps_writeDone {s t : State} (hk : Keeps s t) (d : LogDest) :
    Keeps s (writeDone t d) := by
  unfold writeDone
  try dsimp only
  repeat' first | (simp (maxDischargeDepth := 30) [hk]; done) | split | refine keeps_foldl (fun _ _ => ?_) ?_

@[simp] theorem keeps_writeEnd {s t : State} (hk : Keeps s t) (ok : Bool) :
    Keeps s (writeEnd t ok) := by
  unfold writeEnd
  try dsimp only
  repeat' first | (simp (maxDischargeDepth := 30) [hk]; done) | split | refine keeps_foldl (fun _ _ => ?_) ?_

@[simp] theorem keeps_tickApply {s t : State} (hk : Keeps s t) (addr : Nat) (v : Word) :
    Keeps s (tickApply t addr v) := by
  unfold tickApply
  try dsimp only
  repeat' first | (simp (maxDischargeDepth := 30) [hk]; done) | split | refine keeps_foldl (fun _ _ => ?_) ?_

@[simp] theorem keeps_tickWrite {s t : State} (hk : Keeps s t) (n : ChanId) (addr : Nat) (v : Word) :
    Keeps s (tickWrite t n addr v) := by
  unfold tickWrite
  try dsimp only
  repeat' first | (simp (maxDischargeDepth := 30) [hk]; done) | split | refine keeps_foldl (fun _ _ => ?_) ?_

@[simp] theorem keeps_tickPending {s t : State} (hk : Keeps s t) (n : ChanId) :
    Keeps s (tickPending t n) := by
  unfold tickPending
  try dsimp only
  repeat' first | (simp (maxDischargeDepth := 30) [hk]; done) | split | refine keeps_foldl (fun _ _ => ?_) ?_

@[simp] theorem keeps_histBlur {s t : State} (hk : Keeps s t) (n : ChanId) (k : Fin 2) (j : Fin 2) :
    Keeps s (histBlur t n k j) := by
  unfold histBlur
  try dsimp only
  repeat' first | (simp (maxDischargeDepth := 30) [hk]; done) | split | refine keeps_foldl (fun _ _ => ?_) ?_

@[simp] theorem keeps_histTick {s t : State} (hk : Keeps s t) (n : ChanId) (overrun : Bool) :
    Keeps s (histTick t n overrun) := by
  unfold histTick
  try dsimp only
  repeat' first | (simp (maxDischargeDepth := 30) [hk]; done) | split | refine keeps_foldl (fun _ _ => ?_) ?_

@[simp] theorem keeps_parityFound {s t : State} (hk : Keeps s t) (n : ChanId) (sees : List ArrSee) :
    Keeps s (parityFound t n sees) := by
  unfold parityFound
  try dsimp only
  repeat' first | (simp (maxDischargeDepth := 30) [hk]; done) | split | refine keeps_foldl (fun _ _ => ?_) ?_

@[simp] theorem keeps_commitSlot {s t : State} (hk : Keeps s t) (n : ChanId) (sees : List ArrSee) :
    Keeps s (commitSlot t n sees) := by
  unfold commitSlot
  try dsimp only
  repeat' first | (simp (maxDischargeDepth := 30) [hk]; done) | split | refine keeps_foldl (fun _ _ => ?_) ?_

@[simp] theorem keeps_countOverrun {s t : State} (hk : Keeps s t) (n : ChanId) :
    Keeps s (countOverrun t n) := by
  unfold countOverrun
  try dsimp only
  repeat' first | (simp (maxDischargeDepth := 30) [hk]; done) | split | refine keeps_foldl (fun _ _ => ?_) ?_

@[simp] theorem keeps_overrunSlot {s t : State} (hk : Keeps s t) (n : ChanId) (sees : List ArrSee) :
    Keeps s (overrunSlot t n sees) := by
  unfold overrunSlot
  try dsimp only
  repeat' first | (simp (maxDischargeDepth := 30) [hk]; done) | split | refine keeps_foldl (fun _ _ => ?_) ?_

@[simp] theorem keeps_tickCairns {s t : State} (hk : Keeps s t) (n : ChanId) :
    Keeps s (tickCairns t n) := by
  unfold tickCairns
  try dsimp only
  repeat' first | (simp (maxDischargeDepth := 30) [hk]; done) | split | refine keeps_foldl (fun _ _ => ?_) ?_

@[simp] theorem keeps_startSlot {s t : State} (hk : Keeps s t) (n : ChanId) :
    Keeps s (startSlot t n) := by
  unfold startSlot
  try dsimp only
  repeat' first | (simp (maxDischargeDepth := 30) [hk]; done) | split | refine keeps_foldl (fun _ _ => ?_) ?_

@[simp] theorem keeps_beginSlot {s t : State} (hk : Keeps s t) (n : ChanId) (inst : Nat) (sees : List ArrSee) :
    Keeps s (beginSlot t n inst sees) := by
  unfold beginSlot
  try dsimp only
  repeat' first | (simp (maxDischargeDepth := 30) [hk]; done) | split | refine keeps_foldl (fun _ _ => ?_) ?_

@[simp] theorem keeps_goIdle {s t : State} (hk : Keeps s t) (n : ChanId) :
    Keeps s (goIdle t n) := by
  unfold goIdle
  try dsimp only
  repeat' first | (simp (maxDischargeDepth := 30) [hk]; done) | split | refine keeps_foldl (fun _ _ => ?_) ?_

@[simp] theorem keeps_slotTickOf {s t : State} (hk : Keeps s t) (n : ChanId) (sees : List ArrSee) :
    Keeps s (slotTickOf t n sees) := by
  unfold slotTickOf
  try dsimp only
  repeat' first | (simp (maxDischargeDepth := 30) [hk]; done) | split | refine keeps_foldl (fun _ _ => ?_) ?_

theorem keeps_execRunSet {s t : State} (hk : Keeps s t) (n : ChanId) :
    Keeps s (ran (execRunSet n t) t) := by
  unfold execRunSet
  rw [ran_next]
  first | refine keeps_hostWr hk _ _ _ (fun u => ?_) | refine keeps_hostRd hk _ _ _ (fun u => ?_) | skip
  try dsimp only
  repeat' first | (simp (maxDischargeDepth := 30) [hk]; done) | split | refine keeps_foldl (fun _ _ => ?_) ?_

theorem keeps_execRunClear {s t : State} (hk : Keeps s t) (n : ChanId) :
    Keeps s (ran (execRunClear n t) t) := by
  unfold execRunClear
  rw [ran_next]
  first | refine keeps_hostWr hk _ _ _ (fun u => ?_) | refine keeps_hostRd hk _ _ _ (fun u => ?_) | skip
  try dsimp only
  repeat' first | (simp (maxDischargeDepth := 30) [hk]; done) | split | refine keeps_foldl (fun _ _ => ?_) ?_

theorem keeps_execRelease {s t : State} (hk : Keeps s t) (n : ChanId) :
    Keeps s (ran (execRelease n t) t) := by
  unfold execRelease
  rw [ran_next]
  first | refine keeps_hostWr hk _ _ _ (fun u => ?_) | refine keeps_hostRd hk _ _ _ (fun u => ?_) | skip
  try dsimp only
  repeat' first | (simp (maxDischargeDepth := 30) [hk]; done) | split | refine keeps_foldl (fun _ _ => ?_) ?_

@[simp] theorem keeps_ringTake {s t : State} (hk : Keeps s t) (n : ChanId) (rxtime : BitVec 64) (f : List Byte) :
    Keeps s (ringTake t n rxtime f) := by
  unfold ringTake
  try dsimp only
  repeat' first | (simp (maxDischargeDepth := 30) [hk]; done) | split | refine keeps_foldl (fun _ _ => ?_) ?_

@[simp] theorem keeps_radioIn {s t : State} (hk : Keeps s t) (n : ChanId) (rxtime : BitVec 64) (f : List Byte) :
    Keeps s (radioIn t n rxtime f) := by
  unfold radioIn
  try dsimp only
  repeat' first | (simp (maxDischargeDepth := 30) [hk]; done) | split | refine keeps_foldl (fun _ _ => ?_) ?_

theorem keeps_execRpClear {s t : State} (hk : Keeps s t) (n : ChanId) :
    Keeps s (ran (execRpClear n t) t) := by
  unfold execRpClear
  rw [ran_next]
  first | refine keeps_hostWr hk _ _ _ (fun u => ?_) | refine keeps_hostRd hk _ _ _ (fun u => ?_) | skip
  try dsimp only
  repeat' first | (simp (maxDischargeDepth := 30) [hk]; done) | split | refine keeps_foldl (fun _ _ => ?_) ?_

end Sys2Proof.Laws
end

