-- ==== Sys2Proof/Laws/KeepsPort.lean ====
section
/-! SUPPORT. What the shared operations do to the waiting commands and the engine's legal registers: stations, passes,
bring-up and the host port. -/

namespace Sys2Proof.Laws

open Sys2Proof Sys2Proof.Machine

@[simp] theorem keeps_cmdHalt {s t : State} (hk : Keeps s t) (n : ChanId) (q : QId) (h : Cmd) (reason : Nat) :
    Keeps s (cmdHalt t n q h reason) := by
  unfold cmdHalt
  try dsimp only
  repeat' first | (simp (maxDischargeDepth := 30) [hk]; done) | split | refine keeps_foldl (fun _ _ => ?_) ?_

@[simp] theorem keeps_issue {s t : State} (hk : Keeps s t) (n : ChanId) (q : QId) (h : Cmd) (ended : Bool) (failed : Bool) :
    Keeps s (issue t n q h ended failed) := by
  unfold issue
  try dsimp only
  repeat' first | (simp (maxDischargeDepth := 30) [hk]; done) | split | refine keeps_foldl (fun _ _ => ?_) ?_

@[simp] theorem keeps_issueBy {s t : State} (hk : Keeps s t) (n : ChanId) (q : QId) (h : Cmd) (bad : Option Nat)
    (go : State → State) (hg : ∀ u, Keeps u (go u)) : Keeps s (issueBy t n q h bad go) := by
  unfold issueBy
  dsimp only
  repeat' first | (simp [hk]; done) | exact keeps_trans hk (hg _) | split

@[simp] theorem keeps_issueRow {s t : State} (hk : Keeps s t) (n : ChanId) (q : QId) (opc : Nat)
    (act : State → Cmd → State) (ha : ∀ u h, Keeps u (act u h)) : Keeps s (issueRow t n q opc act) := by
  unfold issueRow
  dsimp only
  repeat' first | (simp [hk]; done) | exact keeps_trans hk (ha _ _) | split

@[simp] theorem keeps_loadStart {s t : State} (hk : Keeps s t) (n : ChanId) (k : Fin 2) (client : BitVec 4) (q : QId) (h : Cmd) (part : Nat) (off : Nat) (len : Nat) :
    Keeps s (loadStart t n k client q h part off len) := by
  unfold loadStart
  try dsimp only
  repeat' first | (simp (maxDischargeDepth := 30) [hk]; done) | split | refine keeps_foldl (fun _ _ => ?_) ?_

@[simp] theorem keeps_loadIssue {s t : State} (hk : Keeps s t) (n : ChanId) (q : QId) (h : Cmd) (client : BitVec 4) (off : Nat) (len : Nat) :
    Keeps s (loadIssue t n q h client off len) := by
  unfold loadIssue
  try dsimp only
  repeat' first | (simp (maxDischargeDepth := 30) [hk]; done) | split | refine keeps_foldl (fun _ _ => ?_) ?_

@[simp] theorem keeps_frameWhole {s t : State} (hk : Keeps s t) (n : ChanId) (order : Nat) :
    Keeps s (frameWhole t n order) := by
  unfold frameWhole
  try dsimp only
  repeat' first | (simp (maxDischargeDepth := 30) [hk]; done) | split | refine keeps_foldl (fun _ _ => ?_) ?_

@[simp] theorem keeps_frameHeld {s t : State} (hk : Keeps s t) (n : ChanId) (order : Nat) :
    Keeps s (frameHeld t n order) := by
  unfold frameHeld
  try dsimp only
  repeat' first | (simp (maxDischargeDepth := 30) [hk]; done) | split | refine keeps_foldl (fun _ _ => ?_) ?_

@[simp] theorem keeps_frameTake {s t : State} (hk : Keeps s t) (n : ChanId) (order : Nat) :
    Keeps s (frameTake t n order) := by
  unfold frameTake
  try dsimp only
  repeat' first | (simp (maxDischargeDepth := 30) [hk]; done) | split | refine keeps_foldl (fun _ _ => ?_) ?_

@[simp] theorem keeps_framePump {s t : State} (hk : Keeps s t) (n : ChanId) :
    Keeps s (framePump t n) := by
  unfold framePump
  try dsimp only
  repeat' first | (simp (maxDischargeDepth := 30) [hk]; done) | split | refine keeps_foldl (fun _ _ => ?_) ?_

@[simp] theorem keeps_frameFilled {s t : State} (hk : Keeps s t) (n : ChanId) (order : Nat) (bs : List Byte) :
    Keeps s (frameFilled t n order bs) := by
  unfold frameFilled
  try dsimp only
  repeat' first | (simp (maxDischargeDepth := 30) [hk]; done) | split | refine keeps_foldl (fun _ _ => ?_) ?_

@[simp] theorem keeps_frameLost {s t : State} (hk : Keeps s t) (n : ChanId) (order : Nat) :
    Keeps s (frameLost t n order) := by
  unfold frameLost
  try dsimp only
  repeat' first | (simp (maxDischargeDepth := 30) [hk]; done) | split | refine keeps_foldl (fun _ _ => ?_) ?_

@[simp] theorem keeps_feedPump {s t : State} (hk : Keeps s t) (n : ChanId) (k : Fin 2) :
    Keeps s (feedPump t n k) := by
  unfold feedPump
  try dsimp only
  repeat' first | (simp (maxDischargeDepth := 30) [hk]; done) | split | refine keeps_foldl (fun _ _ => ?_) ?_

@[simp] theorem keeps_passStart {s t : State} (hk : Keeps s t) (n : ChanId) (k : Fin 2) (j : Fin 2) (h : Cmd) (p : Prof) (isStep : Bool) :
    Keeps s (passStart t n k j h p isStep) := by
  unfold passStart
  try dsimp only
  repeat' first | (simp (maxDischargeDepth := 30) [hk]; done) | split | refine keeps_foldl (fun _ _ => ?_) ?_

@[simp] theorem keeps_passRow {s t : State} (hk : Keeps s t) (a : ArrId) (opc : Nat) (isStep : Bool) (bad : Chan → Core → Cmd → Prof → Option Nat) :
    Keeps s (passRow t a opc isStep bad) := by
  unfold passRow
  try dsimp only
  repeat' first | (simp (maxDischargeDepth := 30) [hk]; done) | split | refine keeps_foldl (fun _ _ => ?_) ?_

@[simp] theorem keeps_swapTick {s t : State} (hk : Keeps s t) (a : ArrId) :
    Keeps s (swapTick t a) := by
  unfold swapTick
  try dsimp only
  repeat' first | (simp (maxDischargeDepth := 30) [hk]; done) | split | refine keeps_foldl (fun _ _ => ?_) ?_

@[simp] theorem keeps_weightError {s t : State} (hk : Keeps s t) (a : ArrId) (part : Nat) :
    Keeps s (weightError t a part) := by
  unfold weightError
  try dsimp only
  repeat' first | (simp (maxDischargeDepth := 30) [hk]; done) | split | refine keeps_foldl (fun _ _ => ?_) ?_

@[simp] theorem keeps_residueError {s t : State} (hk : Keeps s t) (a : ArrId) (col : BitVec 5) (row : BitVec 5) (tree : Bool) :
    Keeps s (residueError t a col row tree) := by
  unfold residueError
  try dsimp only
  repeat' first | (simp (maxDischargeDepth := 30) [hk]; done) | split | refine keeps_foldl (fun _ _ => ?_) ?_

theorem keeps_execArrCntClear {s t : State} (hk : Keeps s t) (a : ArrId) :
    Keeps s (ran (execArrCntClear a t) t) := by
  unfold execArrCntClear
  rw [ran_next]
  first | refine keeps_hostWr hk _ _ _ (fun u => ?_) | refine keeps_hostRd hk _ _ _ (fun u => ?_) | skip
  try dsimp only
  repeat' first | (simp (maxDischargeDepth := 30) [hk]; done) | split | refine keeps_foldl (fun _ _ => ?_) ?_

@[simp] theorem keeps_issueWork {s t : State} (hk : Keeps s t) (a : ArrId) (w : Work) (more : List Nat) (see : AccSee) (next : IssueRes → Arr → Arr) :
    Keeps s (issueWork t a w more see next) := by
  unfold issueWork
  try dsimp only
  repeat' first | (simp (maxDischargeDepth := 30) [hk]; done) | split | refine keeps_foldl (fun _ _ => ?_) ?_

@[simp] theorem keeps_primeIssue {s t : State} (hk : Keeps s t) (a : ArrId) (p : Pass) (slot : Nat) (n : Nat) (see : AccSee) :
    Keeps s (primeIssue t a p slot n see) := by
  unfold primeIssue
  try dsimp only
  repeat' first | (simp (maxDischargeDepth := 30) [hk]; done) | split | refine keeps_foldl (fun _ _ => ?_) ?_

theorem keeps_execStepClear {s t : State} (hk : Keeps s t) (a : ArrId) :
    Keeps s (ran (execStepClear a t) t) := by
  unfold execStepClear
  rw [ran_next]
  first | refine keeps_hostWr hk _ _ _ (fun u => ?_) | refine keeps_hostRd hk _ _ _ (fun u => ?_) | skip
  try dsimp only
  repeat' first | (simp (maxDischargeDepth := 30) [hk]; done) | split | refine keeps_foldl (fun _ _ => ?_) ?_

theorem keeps_execGateClear {s t : State} (hk : Keeps s t) (a : ArrId) :
    Keeps s (ran (execGateClear a t) t) := by
  unfold execGateClear
  rw [ran_next]
  first | refine keeps_hostWr hk _ _ _ (fun u => ?_) | refine keeps_hostRd hk _ _ _ (fun u => ?_) | skip
  try dsimp only
  repeat' first | (simp (maxDischargeDepth := 30) [hk]; done) | split | refine keeps_foldl (fun _ _ => ?_) ?_

theorem keeps_execSiphClear {s t : State} (hk : Keeps s t) (c : CoreId) :
    Keeps s (ran (execSiphClear c t) t) := by
  unfold execSiphClear
  rw [ran_next]
  first | refine keeps_hostWr hk _ _ _ (fun u => ?_) | refine keeps_hostRd hk _ _ _ (fun u => ?_) | skip
  try dsimp only
  repeat' first | (simp (maxDischargeDepth := 30) [hk]; done) | split | refine keeps_foldl (fun _ _ => ?_) ?_

theorem keeps_execLaneClear {s t : State} (hk : Keeps s t) (c : CoreId) :
    Keeps s (ran (execLaneClear c t) t) := by
  unfold execLaneClear
  rw [ran_next]
  first | refine keeps_hostWr hk _ _ _ (fun u => ?_) | refine keeps_hostRd hk _ _ _ (fun u => ?_) | skip
  try dsimp only
  repeat' first | (simp (maxDischargeDepth := 30) [hk]; done) | split | refine keeps_foldl (fun _ _ => ?_) ?_

@[simp] theorem keeps_finalLost {s t : State} (hk : Keeps s t) (n : ChanId) (k : Fin 2) (j : Fin 2) (order : Nat) :
    Keeps s (finalLost t n k j order) := by
  unfold finalLost
  try dsimp only
  repeat' first | (simp (maxDischargeDepth := 30) [hk]; done) | split | refine keeps_foldl (fun _ _ => ?_) ?_

@[simp] theorem keeps_writeLanded {s t : State} (hk : Keeps s t) (n : ChanId) (k : Fin 2) (a : PoolAcc) (hit : List Nat) :
    Keeps s (writeLanded t n k a hit) := by
  unfold writeLanded
  try dsimp only
  repeat' first | (simp (maxDischargeDepth := 30) [hk]; done) | split | refine keeps_foldl (fun _ _ => ?_) ?_

@[simp] theorem keeps_grantOne {s t : State} (hk : Keeps s t) (n : ChanId) (k : Fin 2) (a : PoolAcc) (f : BitVec 16 × BitVec 16) :
    Keeps s (grantOne t n k a f) := by
  unfold grantOne
  try dsimp only
  repeat' first | (simp (maxDischargeDepth := 30) [hk]; done) | split | refine keeps_foldl (fun _ _ => ?_) ?_

@[simp] theorem keeps_grantHost {s t : State} (hk : Keeps s t) (n : ChanId) (k : Fin 2) (a : PoolAcc) (f : BitVec 16 × BitVec 16) :
    Keeps s (grantHost t n k a f) := by
  unfold grantHost
  try dsimp only
  repeat' first | (simp (maxDischargeDepth := 30) [hk]; done) | split | refine keeps_foldl (fun _ _ => ?_) ?_

@[simp] theorem keeps_grantBank {s t : State} (hk : Keeps s t) (n : ChanId) (k : Fin 2) (b : Nat) (f : BitVec 16 × BitVec 16) :
    Keeps s (grantBank t n k b f) := by
  unfold grantBank
  try dsimp only
  repeat' first | (simp (maxDischargeDepth := 30) [hk]; done) | split | refine keeps_foldl (fun _ _ => ?_) ?_

@[simp] theorem keeps_grantCore {s t : State} (hk : Keeps s t) (n : ChanId) (k : Fin 2) (finds : List BankFind) :
    Keeps s (grantCore t n k finds) := by
  unfold grantCore
  try dsimp only
  repeat' first | (simp (maxDischargeDepth := 30) [hk]; done) | split | refine keeps_foldl (fun _ _ => ?_) ?_

@[simp] theorem keeps_poolReads {s t : State} (hk : Keeps s t) (n : ChanId) (out : Bool) (fuel : Nat) :
    Keeps s (poolReads n out fuel t) := by
  induction fuel generalizing t with
  | zero => exact hk
  | succ fuel ih =>
    unfold poolReads
    try dsimp only
    repeat' first | (simp (maxDischargeDepth := 30) [hk, ih]; done) | split | refine keeps_foldl (fun _ _ => ?_) ?_

@[simp] theorem keeps_swapsTick {s t : State} (hk : Keeps s t) (n : ChanId) :
    Keeps s (swapsTick t n) := by
  unfold swapsTick
  try dsimp only
  repeat' first | (simp (maxDischargeDepth := 30) [hk]; done) | split | refine keeps_foldl (fun _ _ => ?_) ?_

@[simp] theorem keeps_chanCc {s t : State} (hk : Keeps s t) (n : ChanId) (finds : List BankFind) :
    Keeps s (chanCc t n finds) := by
  unfold chanCc
  try dsimp only
  repeat' first | (simp (maxDischargeDepth := 30) [hk]; done) | split | refine keeps_foldl (fun _ _ => ?_) ?_

@[simp] theorem keeps_feedTake {s t : State} (hk : Keeps s t) (n : ChanId) (k : Fin 2) (j : Fin 2) (order : Nat) (line : Nat) (data : List Byte) (bads : List Nat) :
    Keeps s (feedTake t n k j order line data bads) := by
  unfold feedTake
  try dsimp only
  repeat' first | (simp (maxDischargeDepth := 30) [hk]; done) | split | refine keeps_foldl (fun _ _ => ?_) ?_

@[simp] theorem keeps_loadDone {s t : State} (hk : Keeps s t) (n : ChanId) (k : Fin 2) (l : Load) :
    Keeps s (loadDone t n k l) := by
  unfold loadDone
  try dsimp only
  repeat' first | (simp (maxDischargeDepth := 30) [hk]; done) | split | refine keeps_foldl (fun _ _ => ?_) ?_

@[simp] theorem keeps_loadLost {s t : State} (hk : Keeps s t) (n : ChanId) (k : Fin 2) (l : Load) :
    Keeps s (loadLost t n k l) := by
  unfold loadLost
  try dsimp only
  repeat' first | (simp (maxDischargeDepth := 30) [hk]; done) | split | refine keeps_foldl (fun _ _ => ?_) ?_

@[simp] theorem keeps_loadTake {s t : State} (hk : Keeps s t) (n : ChanId) (k : Fin 2) (id : Nat) (line : Nat) (data : List Byte) (bads : List Nat) :
    Keeps s (loadTake t n k id line data bads) := by
  unfold loadTake
  try dsimp only
  repeat' first | (simp (maxDischargeDepth := 30) [hk]; done) | split | refine keeps_foldl (fun _ _ => ?_) ?_

@[simp] theorem keeps_hostTake {s t : State} (hk : Keeps s t) (c : CoreId) (off : Nat) (data : List Byte) (bads : List Nat) :
    Keeps s (hostTake t c off data bads) := by
  unfold hostTake
  try dsimp only
  repeat' first | (simp (maxDischargeDepth := 30) [hk]; done) | split | refine keeps_foldl (fun _ _ => ?_) ?_

@[simp] theorem keeps_readData {s t : State} (hk : Keeps s t) (c : CoreId) :
    Keeps s (readData t c) := by
  unfold readData
  try dsimp only
  repeat' first | (simp (maxDischargeDepth := 30) [hk]; done) | split | refine keeps_foldl (fun _ _ => ?_) ?_

theorem keeps_execPoolClear {s t : State} (hk : Keeps s t) (c : CoreId) :
    Keeps s (ran (execPoolClear c t) t) := by
  unfold execPoolClear
  rw [ran_next]
  first | refine keeps_hostWr hk _ _ _ (fun u => ?_) | refine keeps_hostRd hk _ _ _ (fun u => ?_) | skip
  try dsimp only
  repeat' first | (simp (maxDischargeDepth := 30) [hk]; done) | split | refine keeps_foldl (fun _ _ => ?_) ?_

theorem keeps_execDriverHalt {s t : State} (hk : Keeps s t) (n : ChanId) :
    Keeps s (ran (execDriverHalt n t) t) := by
  unfold execDriverHalt
  rw [ran_next]
  first | refine keeps_hostWr hk _ _ _ (fun u => ?_) | refine keeps_hostRd hk _ _ _ (fun u => ?_) | skip
  try dsimp only
  repeat' first | (simp (maxDischargeDepth := 30) [hk]; done) | split | refine keeps_foldl (fun _ _ => ?_) ?_

theorem keeps_execQuarantineRelease {s t : State} (hk : Keeps s t) (n : ChanId) (cores : BitVec 2) (wins : Word) :
    Keeps s (ran (execQuarantineRelease n cores wins t) t) := by
  unfold execQuarantineRelease
  rw [ran_next]
  first | refine keeps_hostWr hk _ _ _ (fun u => ?_) | refine keeps_hostRd hk _ _ _ (fun u => ?_) | skip
  try dsimp only
  repeat' first | (simp (maxDischargeDepth := 30) [hk]; done) | split | refine keeps_foldl (fun _ _ => ?_) ?_

@[simp] theorem keeps_startPlls {s t : State} (hk : Keeps s t) :
    Keeps s (startPlls t) := by
  unfold startPlls
  try dsimp only
  repeat' first | (simp (maxDischargeDepth := 30) [hk]; done) | split | refine keeps_foldl (fun _ _ => ?_) ?_

@[simp] theorem keeps_startCount {s t : State} (hk : Keeps s t) :
    Keeps s (startCount t) := by
  unfold startCount
  try dsimp only
  repeat' first | (simp (maxDischargeDepth := 30) [hk]; done) | split | refine keeps_foldl (fun _ _ => ?_) ?_

@[simp] theorem keeps_finishBoot {s t : State} (hk : Keeps s t) (log : BitVec 2) (img : Option (List Byte)) :
    Keeps s (finishBoot t log img) := by
  unfold finishBoot
  try dsimp only
  repeat' first | (simp (maxDischargeDepth := 30) [hk]; done) | split | refine keeps_foldl (fun _ _ => ?_) ?_

@[simp] theorem keeps_recStep {s t : State} (hk : Keeps s t) :
    Keeps s (recStep t) := by
  unfold recStep
  try dsimp only
  repeat' first | (simp (maxDischargeDepth := 30) [hk]; done) | split | refine keeps_foldl (fun _ _ => ?_) ?_

@[simp] theorem keeps_recFail {s t : State} (hk : Keeps s t) :
    Keeps s (recFail t) := by
  unfold recFail
  try dsimp only
  repeat' first | (simp (maxDischargeDepth := 30) [hk]; done) | split | refine keeps_foldl (fun _ _ => ?_) ?_

@[simp] theorem keeps_engReset {s t : State} (hk : Keeps s t) : Keeps s (engReset t) :=
  ⟨hk.queue, fun l => let k := hk.legal l
    ⟨rfl, fun _ => rfl, fun _ => rfl, fun _ => ⟨rfl, rfl, rfl⟩, k.grade,
      ⟨⟨by simp [engReset, State.reset, Td.reset], by simp [engReset, State.reset, Td.reset]⟩,
       ⟨by simp [engReset, State.reset, Td.reset], by simp [engReset, State.reset, Td.reset]⟩⟩,
      k.op.1, by simp [engReset, Pwr.engReset, Pwr.reset], by simp [engReset, Pwr.engReset, Pwr.reset]⟩⟩

@[simp] theorem keeps_tapClock {s t : State} (hk : Keeps s t) (tms : Bool) (tdi : Bool) :
    Keeps s (tapClock tms tdi t) := by
  unfold tapClock
  try dsimp only
  repeat' first | (simp (maxDischargeDepth := 30) [hk]; done) | split | refine keeps_foldl (fun _ _ => ?_) ?_

@[simp] theorem keeps_tapScan {s t : State} (hk : Keeps s t) (code : Byte) :
    Keeps s (tapScan code t) := by
  unfold tapScan
  try dsimp only
  repeat' first | (simp (maxDischargeDepth := 30) [hk]; done) | split | refine keeps_foldl (fun _ _ => ?_) ?_

@[simp] theorem keeps_selectIdcode {s t : State} (hk : Keeps s t) :
    Keeps s (selectIdcode t) := by
  unfold selectIdcode
  try dsimp only
  repeat' first | (simp (maxDischargeDepth := 30) [hk]; done) | split | refine keeps_foldl (fun _ _ => ?_) ?_

@[simp] theorem keeps_chrstHold {s t : State} (hk : Keeps s t) (n : ChanId) :
    Keeps s (chrstHold t n) := by
  unfold chrstHold
  try dsimp only
  repeat' first | (simp (maxDischargeDepth := 30) [hk]; done) | split | refine keeps_foldl (fun _ _ => ?_) ?_

theorem keeps_execRetry {s t : State} (hk : Keeps s t) :
    Keeps s (ran (execRetry t) t) := by
  unfold execRetry
  rw [ran_next]
  first | refine keeps_hostWr hk _ _ _ (fun u => ?_) | refine keeps_hostRd hk _ _ _ (fun u => ?_) | skip
  try dsimp only
  repeat' first | (simp (maxDischargeDepth := 30) [hk]; done) | split | refine keeps_foldl (fun _ _ => ?_) ?_

@[simp] theorem keeps_engineHalt {s t : State} (hk : Keeps s t) (cause : Nat) :
    Keeps s (engineHalt t cause) := by
  unfold engineHalt
  try dsimp only
  repeat' first | (simp (maxDischargeDepth := 30) [hk]; done) | split | refine keeps_foldl (fun _ _ => ?_) ?_

@[simp] theorem keeps_clearMemories {s t : State} (hk : Keeps s t) :
    Keeps s (clearMemories t) := by
  unfold clearMemories
  try dsimp only
  repeat' first | (simp (maxDischargeDepth := 30) [hk]; done) | split | refine keeps_foldl (fun _ _ => ?_) ?_

theorem keeps_execGo {s t : State} (hk : Keeps s t) :
    Keeps s (ran (execGo t) t) := by
  unfold execGo
  rw [ran_next]
  first | refine keeps_hostWr hk _ _ _ (fun u => ?_) | refine keeps_hostRd hk _ _ _ (fun u => ?_) | skip
  try dsimp only
  repeat' first | (simp (maxDischargeDepth := 30) [hk]; done) | split | refine keeps_foldl (fun _ _ => ?_) ?_

@[simp] theorem keeps_readEnd {s t : State} (hk : Keeps s t) (data : Option (List Byte)) :
    Keeps s (readEnd t data) := by
  unfold readEnd
  try dsimp only
  repeat' first | (simp (maxDischargeDepth := 30) [hk]; done) | split | refine keeps_foldl (fun _ _ => ?_) ?_

@[simp] theorem keeps_onBit {s t : State} (hk : Keeps s t) (v : Word) (i : Nat) (f : State → Out)
    (hf : ∀ u, Keeps u (ran (f u) u)) : Keeps s (onBit v i f t) := by
  unfold onBit
  split
  · exact keeps_trans hk (hf t)
  · exact hk

theorem keeps_execIcacheClear {s t : State} (hk : Keeps s t) (c : CoreId) :
    Keeps s (ran (execIcacheClear c t) t) := by
  unfold execIcacheClear
  rw [ran_next]
  first | refine keeps_hostWr hk _ _ _ (fun u => ?_) | refine keeps_hostRd hk _ _ _ (fun u => ?_) | skip
  try dsimp only
  repeat' first | (simp (maxDischargeDepth := 30) [hk]; done) | split | refine keeps_foldl (fun _ _ => ?_) ?_

@[simp] theorem keeps_hperrClear {s t : State} (hk : Keeps s t) : Keeps s { t with hperr := .reset } :=
  ⟨hk.queue, fun l => let k := hk.legal l
    ⟨k.fatal, k.answer, fun _ => rfl, k.capture, k.grade, k.time, k.op⟩⟩

@[simp] theorem keeps_irqEn {s t : State} (hk : Keeps s t) (e : BitVec 9) :
    Keeps s { t with flt := { t.flt with irqEn := e } } :=
  ⟨hk.queue, fun l => let k := hk.legal l
    ⟨k.fatal, k.answer, k.hperr, k.capture, k.grade, k.time, k.op⟩⟩

theorem keeps_fltClear {s t : State} (hk : Keeps s t) :
    Keeps s { t with flt := { t.flt with valid := false, more := 0, cause := 0, info := 0 } } :=
  ⟨hk.queue, fun l => let k := hk.legal l
    ⟨k.fatal, k.answer, k.hperr, fun _ => ⟨rfl, rfl, rfl⟩, k.grade, k.time, k.op⟩⟩

@[simp] theorem keeps_putTdEq {s t : State} (hk : Keeps s t) (d : Fin 2) (y : Td) (h1 : y.ns = (t.td.get d).ns)
    (h2 : y.stepNext = (t.td.get d).stepNext) : Keeps s { t with td := t.td.set d y } :=
  keeps_putTd hk d y (fun l => ⟨h1 ▸ (legal_getTd l d).1, h2 ▸ (legal_getTd l d).2⟩)

@[simp] theorem keeps_pwrCtrl {s t : State} (hk : Keeps s t) (v : Word) : Keeps s (pwrCtrl t v) := by
  unfold pwrCtrl
  refine keeps_foldl (fun u n => ?_) (keeps_execMaxOpWrite hk ..)
  split
  · exact keeps_execPowerGate (keeps_refl u) n
  · exact keeps_execUngate (keeps_refl u) n

@[simp] theorem keeps_engWriteA {s t : State} (hk : Keeps s t) (o : Nat) (v : Word) :
    Keeps s (engWriteA t o v) := by
  unfold engWriteA
  try dsimp only
  repeat' first | (simp (maxDischargeDepth := 30) [hk, keeps_execClkObsWrite, keeps_execGo, keeps_execRetry]; done) | split | refine keeps_foldl (fun _ _ => ?_) ?_

@[simp] theorem keeps_tdWrite {s t : State} (hk : Keeps s t) (d : Fin 2) (o : Nat) (v : Word) :
    Keeps s (tdWrite t d o v) := by
  unfold tdWrite
  try dsimp only
  repeat' first | (simp (maxDischargeDepth := 30) [hk, keeps_execTdAdj, keeps_execTdIncFracWrite, keeps_execTdIncIntWrite, keeps_execTdSet]; done) | split | refine keeps_foldl (fun _ _ => ?_) ?_

@[simp] theorem keeps_engWriteB {s t : State} (hk : Keeps s t) (o : Nat) (v : Word) :
    Keeps s (engWriteB t o v) := by
  unfold engWriteB
  try dsimp only
  repeat' first | (simp (maxDischargeDepth := 30) [hk, keeps_execCalSet, keeps_execForce]; done) | split | refine keeps_foldl (fun _ _ => ?_) ?_

@[simp] theorem keeps_srvCtrl {s t : State} (hk : Keeps s t) (v : Word) :
    Keeps s (srvCtrl t v) := by
  unfold srvCtrl
  try dsimp only
  repeat' first | (simp (maxDischargeDepth := 30) [hk, keeps_execBegin, keeps_execCommit, keeps_execRollback]; done) | split | refine keeps_foldl (fun _ _ => ?_) ?_

@[simp] theorem keeps_logCtrl {s t : State} (hk : Keeps s t) (v : Word) :
    Keeps s (logCtrl t v) := by
  unfold logCtrl
  try dsimp only
  repeat' first | (simp (maxDischargeDepth := 30) [hk, keeps_execCheckpoint, keeps_execCompact, keeps_execLogHalt, keeps_execRestart, keeps_execTrim]; done) | split | refine keeps_foldl (fun _ _ => ?_) ?_

@[simp] theorem keeps_fltEngWrite {s t : State} (hk : Keeps s t) (v : Word) : Keeps s (fltEngWrite t v) := by
  unfold fltEngWrite
  refine keeps_onBit ?_ _ _ _ (fun u => keeps_execSupplyClear (keeps_refl u))
  split
  · exact keeps_fltClear hk
  · exact hk

@[simp] theorem keeps_engWriteC {s t : State} (hk : Keeps s t) (o : Nat) (v : Word) :
    Keeps s (engWriteC t o v) := by
  unfold engWriteC
  try dsimp only
  repeat' first | (simp (maxDischargeDepth := 30) [hk, keeps_execSrvDataWrite]; done) | split | refine keeps_foldl (fun _ _ => ?_) ?_

@[simp] theorem keeps_engWrite {s t : State} (hk : Keeps s t) (o : Nat) (v : Word) :
    Keeps s (engWrite t o v) := by
  unfold engWrite
  try dsimp only
  repeat' first | (simp (maxDischargeDepth := 30) [hk]; done) | split | refine keeps_foldl (fun _ _ => ?_) ?_

@[simp] theorem keeps_ctlWrite {s t : State} (hk : Keeps s t) (n : ChanId) (o : Nat) (v : Word) :
    Keeps s (ctlWrite t n o v) := by
  unfold ctlWrite
  try dsimp only
  repeat' first | (simp (maxDischargeDepth := 30) [hk, keeps_execDriverHalt, keeps_execQuarantineRelease, keeps_execRelease, keeps_execRunClear, keeps_execRunSet]; done) | split | refine keeps_foldl (fun _ _ => ?_) ?_

@[simp] theorem keeps_crnCtl {s t : State} (hk : Keeps s t) (n : ChanId) (i : Nat) (v : Word) :
    Keeps s (crnCtl t n i v) := by
  unfold crnCtl
  try dsimp only
  repeat' first | (simp (maxDischargeDepth := 30) [hk, keeps_execDoorbell]; done) | split | refine keeps_foldl (fun _ _ => ?_) ?_

@[simp] theorem keeps_portWrite {s t : State} (hk : Keeps s t) (n : ChanId) (o : Nat) (v : Word) :
    Keeps s (portWrite t n o v) := by
  unfold portWrite
  try dsimp only
  repeat' first | (simp (maxDischargeDepth := 30) [hk, keeps_execDmaClear, keeps_execLchClear, keeps_execPeerNodeWrite, keeps_execRpClear]; done) | split | refine keeps_foldl (fun _ _ => ?_) ?_

@[simp] theorem keeps_chWrite {s t : State} (hk : Keeps s t) (n : ChanId) (o : Nat) (v : Word) :
    Keeps s (chWrite t n o v) := by
  unfold chWrite
  try dsimp only
  repeat' first | (simp (maxDischargeDepth := 30) [hk]; done) | split | refine keeps_foldl (fun _ _ => ?_) ?_

@[simp] theorem keeps_coreWrite {s t : State} (hk : Keeps s t) (c : CoreId) (o : Nat) (v : Word) :
    Keeps s (coreWrite t c o v) := by
  unfold coreWrite
  try dsimp only
  repeat' first | (simp (maxDischargeDepth := 30) [hk, keeps_execCont, keeps_execIcacheClear, keeps_execLaneClear, keeps_execPoolClear, keeps_execSiphClear, keeps_execStagedParameterWrite]; done) | split | refine keeps_foldl (fun _ _ => ?_) ?_

@[simp] theorem keeps_arrWrite {s t : State} (hk : Keeps s t) (a : ArrId) (o : Nat) (v : Word) :
    Keeps s (arrWrite t a o v) := by
  unfold arrWrite
  try dsimp only
  repeat' first | (simp (maxDischargeDepth := 30) [hk, keeps_execArrCntClear, keeps_execGateClear, keeps_execStepClear]; done) | split | refine keeps_foldl (fun _ _ => ?_) ?_

@[simp] theorem keeps_histWrite {s t : State} (hk : Keeps s t) (a : ArrId) (o : Nat) (v : Word) :
    Keeps s (histWrite t a o v) := by
  unfold histWrite
  try dsimp only
  repeat' first | (simp (maxDischargeDepth := 30) [hk]; done) | split | refine keeps_foldl (fun _ _ => ?_) ?_

@[simp] theorem keeps_hostPend {s t : State} (hk : Keeps s t) (i : Instr) :
    Keeps s (hostPend t i) := by
  unfold hostPend
  try dsimp only
  repeat' first | (simp (maxDischargeDepth := 30) [hk]; done) | split | refine keeps_foldl (fun _ _ => ?_) ?_

@[simp] theorem keeps_hostEffect {s t : State} (hk : Keeps s t) (addr : BitVec 24) (v : Word) :
    Keeps s (hostEffect t addr v) := by
  unfold hostEffect
  try dsimp only
  repeat' first | (simp (maxDischargeDepth := 30) [hk]; done) | split | refine keeps_foldl (fun _ _ => ?_) ?_

theorem keeps_execRegisterWrite {s t : State} (hk : Keeps s t) (addr : BitVec 24) (data : Word) :
    Keeps s (ran (execRegisterWrite addr data t) t) := by
  unfold execRegisterWrite
  rw [ran_next]
  first | refine keeps_hostWr hk _ _ _ (fun u => ?_) | refine keeps_hostRd hk _ _ _ (fun u => ?_) | skip
  try dsimp only
  repeat' first | (simp (maxDischargeDepth := 30) [hk]; done) | split | refine keeps_foldl (fun _ _ => ?_) ?_

theorem keeps_execHostPoolWrite {s t : State} (hk : Keeps s t) (addr : BitVec 24) (data : Word) (check : Unit) :
    Keeps s (ran (execHostPoolWrite addr data check t) t) := by
  unfold execHostPoolWrite
  rw [ran_next]
  first | refine keeps_hostWr hk _ _ _ (fun u => ?_) | refine keeps_hostRd hk _ _ _ (fun u => ?_) | skip
  try dsimp only
  repeat' first | (simp (maxDischargeDepth := 30) [hk]; done) | split | refine keeps_foldl (fun _ _ => ?_) ?_

theorem keeps_execHostPoolRead {s t : State} (hk : Keeps s t) (addr : BitVec 24) (check : Unit) :
    Keeps s (ran (execHostPoolRead addr check t) t) := by
  unfold execHostPoolRead
  rw [ran_next]
  try dsimp only
  repeat' first
    | (simp (maxDischargeDepth := 30) [hk, keeps_execTdNsRead, keeps_execCalDateRead, keeps_execSrvDataRead]; done)
    | split | refine keeps_hostRd hk _ _ _ (fun u => ?_)

@[simp] theorem keeps_hostRow {s t : State} (hk : Keeps s t) (i : Instr) : Keeps s (hostRow i t) := by
  cases i
  case registerWrite => exact keeps_execRegisterWrite hk ..
  case hostPoolRead => exact keeps_execHostPoolRead hk ..
  case hostPoolWrite => exact keeps_execHostPoolWrite hk ..
  case retry => exact keeps_execRetry hk ..
  case go => exact keeps_execGo hk ..
  case doorbell => exact keeps_execDoorbell hk ..
  case clkObsWrite => exact keeps_execClkObsWrite hk ..
  case cont => exact keeps_execCont hk ..
  case stagedParameterWrite => exact keeps_execStagedParameterWrite hk ..
  case dmaClear => exact keeps_execDmaClear hk ..
  case driverHalt => exact keeps_execDriverHalt hk ..
  case quarantineRelease => exact keeps_execQuarantineRelease hk ..
  case stepClear => exact keeps_execStepClear hk ..
  case gateClear => exact keeps_execGateClear hk ..
  case icacheClear => exact keeps_execIcacheClear hk ..
  case laneClear => exact keeps_execLaneClear hk ..
  case lchClear => exact keeps_execLchClear hk ..
  case arrCntClear => exact keeps_execArrCntClear hk ..
  case peerNodeWrite => exact keeps_execPeerNodeWrite hk ..
  case poolClear => exact keeps_execPoolClear hk ..
  case rpClear => exact keeps_execRpClear hk ..
  case siphClear => exact keeps_execSiphClear hk ..
  case maxOpWrite => exact keeps_execMaxOpWrite hk ..
  case powerGate => exact keeps_execPowerGate hk ..
  case ungate => exact keeps_execUngate hk ..
  case supplyClear => exact keeps_execSupplyClear hk ..
  case begin => exact keeps_execBegin hk ..
  case commit => exact keeps_execCommit hk ..
  case rollback => exact keeps_execRollback hk ..
  case srvDataWrite => exact keeps_execSrvDataWrite hk ..
  case srvDataRead => exact keeps_execSrvDataRead hk ..
  case compact => exact keeps_execCompact hk ..
  case restart => exact keeps_execRestart hk ..
  case checkpoint => exact keeps_execCheckpoint hk ..
  case trim => exact keeps_execTrim hk ..
  case logHalt => exact keeps_execLogHalt hk ..
  case runSet => exact keeps_execRunSet hk ..
  case runClear => exact keeps_execRunClear hk ..
  case release => exact keeps_execRelease hk ..
  case tdSet => exact keeps_execTdSet hk ..
  case tdAdj => exact keeps_execTdAdj hk ..
  case tdIncFracWrite => exact keeps_execTdIncFracWrite hk ..
  case tdIncIntWrite => exact keeps_execTdIncIntWrite hk ..
  case tdNsRead => exact keeps_execTdNsRead hk ..
  case force => exact keeps_execForce hk ..
  case calSet => exact keeps_execCalSet hk ..
  case calDateRead => exact keeps_execCalDateRead hk ..
  all_goals exact hk

@[simp] theorem keeps_hostDrain {s t : State} (hk : Keeps s t) (l : List Instr) : Keeps s (hostDrain l t) := by
  induction l generalizing t with
  | nil => exact hk
  | cons i l ih =>
    unfold hostDrain
    split
    · exact ih (keeps_hostRow hk i)
    · simp [hk]

@[simp] theorem keeps_hostPump {s t : State} (hk : Keeps s t) :
    Keeps s (hostPump t) := by
  unfold hostPump
  try dsimp only
  repeat' first | (simp (maxDischargeDepth := 30) [hk]; done) | split | refine keeps_foldl (fun _ _ => ?_) ?_

@[simp] theorem keeps_ccAdvance {s t : State} (hk : Keeps s t) :
    Keeps s (ccAdvance t) := by
  unfold ccAdvance
  try dsimp only
  repeat' first | (simp (maxDischargeDepth := 30) [hk]; done) | split | refine keeps_foldl (fun _ _ => ?_) ?_

end Sys2Proof.Laws
end

