-- ==== Sys2Proof/Laws/SMap.lean ====
section
/-! SUPPORT. The sparse stores behind every addressed memory: their canonical form is kept by every write, and a read
after a write gives the value written at its key and the old value everywhere else. -/

namespace Sys2Proof.Laws

open Sys2Proof Sys2Proof.Machine

variable {α : Type} [DecidableEq α] {d : α} {m : SMap α} {lo k i : Nat} {v : α}

theorem smWf_mono (h : smWf d lo m = true) {lo' : Nat} (hl : lo' ≤ lo) : smWf d lo' m = true := by
  cases m with
  | nil => rfl
  | cons p t =>
    simp only [smWf, Bool.and_eq_true, decide_eq_true_eq] at h ⊢
    exact ⟨⟨Nat.le_trans hl h.1.1, h.1.2⟩, h.2⟩

/-- A write keeps the canonical form. -/
theorem smSet_wf (h : smWf d lo m = true) (hk : lo ≤ k) : smWf d lo (smSet d m k v) = true := by
  induction m generalizing lo with
  | nil =>
    unfold smSet
    split
    · rfl
    · simp_all [smWf]
  | cons p t ih =>
    obtain ⟨k', v'⟩ := p
    simp only [smWf, Bool.and_eq_true, decide_eq_true_eq] at h
    unfold smSet
    split
    · split
      · exact smWf_mono h.2 (by omega)
      · simp_all [smWf]
    · split
      · split
        · simp_all [smWf]
        · simp only [smWf, Bool.and_eq_true, decide_eq_true_eq]
          exact ⟨⟨hk, by assumption⟩, ⟨by omega, h.1.2⟩, h.2⟩
      · simp only [smWf, Bool.and_eq_true, decide_eq_true_eq]
        exact ⟨h.1, ih h.2 (by omega)⟩

/-- A read below every listed key finds the default. -/
theorem smGet_below (h : smWf d lo m = true) (hk : k < lo) : smGet d m k = d := by
  cases m with
  | nil => rfl
  | cons p t =>
    simp only [smWf, Bool.and_eq_true, decide_eq_true_eq] at h
    unfold smGet
    rw [if_neg (by omega), if_pos (by omega)]

/-- A read after a write: the value written at its key, the old value elsewhere. -/
theorem smGet_smSet (h : smWf d lo m = true) : smGet d (smSet d m k v) i = if i = k then v else smGet d m i := by
  induction m generalizing lo with
  | nil =>
    simp only [smSet]
    by_cases hv : v = d <;> by_cases hi : i = k
    all_goals simp [smGet, hv, hi, eq_comm]
    intro e
    exact absurd e.symm hi
  | cons p t ih =>
    obtain ⟨k', v'⟩ := p
    simp only [smWf, Bool.and_eq_true, decide_eq_true_eq] at h
    have hb : ∀ j, j ≤ k' → smGet d t j = d := fun j hj => smGet_below h.2 (by omega)
    have ih := ih h.2
    simp only [smSet]
    (repeat' split) <;> (try simp only [smGet]) <;> (try rw [ih]) <;> (repeat' split) <;>
      first
        | rfl
        | omega
        | exact hb _ (by omega)
        | (rw [hb _ (by omega)]; first | rfl | exact Eq.symm (by assumption) | assumption)
        | (subst_vars; first | rfl | omega | exact hb _ (by omega) | exact (hb _ (by omega)).symm)

/-- The fold behind a run of writes: the store and the next key. -/
theorem smSetList_cons (m : SMap α) (k : Nat) (x : α) (l : List α) :
    smSetList d m k (x :: l) = smSetList d (smSet d m k x) (k + 1) l := rfl

theorem smSetList_wf (h : smWf d lo m = true) (hk : lo ≤ k) (l : List α) : smWf d lo (smSetList d m k l) = true := by
  induction l generalizing m k with
  | nil => exact h
  | cons x l ih => rw [smSetList_cons]; exact ih (smSet_wf h hk) (by omega)

/-- A read after a run of writes: the run's value inside it, the old value outside. -/
theorem smGet_smSetList (h : smWf d 0 m = true) (l : List α) :
    smGet d (smSetList d m k l) i = if k ≤ i ∧ i < k + l.length then l.getD (i - k) d else smGet d m i := by
  induction l generalizing m k with
  | nil => rw [if_neg (by simp)]; rfl
  | cons x l ih =>
    rw [smSetList_cons, ih (smSet_wf h (Nat.zero_le k)), smGet_smSet h]
    simp only [List.length_cons]
    rcases Nat.lt_trichotomy i k with hi | hi | hi
    · rw [if_neg (by omega), if_neg (by omega), if_neg (by omega)]
    · subst hi
      rw [if_neg (by omega), if_pos rfl, if_pos (by omega)]
      simp
    · by_cases hl : i < k + 1 + l.length
      · rw [if_pos (by omega), if_pos (by omega), show i - k = (i - (k + 1)) + 1 by omega]
        simp
      · rw [if_neg (by omega), if_neg (by omega), if_neg (by omega)]

/-- A fold of single writes keeps the canonical form. -/
theorem smSet_foldl_wf {β : Type} (l : List β) (key : β → Nat) (val : β → α) (h : smWf d 0 m = true) :
    smWf d 0 (l.foldl (fun m b => smSet d m (key b) (val b)) m) = true := by
  induction l generalizing m with
  | nil => exact h
  | cons x l ih => exact ih (smSet_wf h (Nat.zero_le _))

end Sys2Proof.Laws
end

