-- ==== Sys2Proof/Tests/Slice0.lean ====
section
/-! SUPPORT. Witnesses: for every clause of the statements a small state and operands that meet its hypotheses, with
what the command then does where the spec says it; and an ill-formed command for each check of WellFormed. -/

namespace Sys2Proof.Tests

set_option Elab.async false

open Sys2Proof Sys2Proof.Machine

/-- The command goes on to a state of which `p` holds. -/
def after (o : Out) (p : State → Bool) : Bool :=
  match o with
  | .next t => p t
  | _ => false

/-- The command changes nothing. -/
def stays (i : Instr) (s : State) : Bool := after (exec i s) fun t => t == s

/-! ### States -/

/-- An array in use with one partition of one band, 1,024 state entries and the chains given. -/
def arrOf (chains : List (List Byte)) : Arr := { Arr.reset with cfg :=
  { used := true, arrange := false, feedDepth := 4, parts := [{ first := 0, bands := 1, shapes := 0x3F, deflt := 0 }]
    stateElems := 1024, chainBase := 0, chains := chains } }

/-- A core in use, every edge permitted, every client on every bank. -/
def coreOf (chains : List (List Byte)) : Core := { Core.reset with
  cfg := { used := true, qdepth := [8, 8, 8, 8, 8, 8, 8], connect := 0x3FFF
           wheel := List.replicate 16 [0, 1, 2, 3, 4, 5, 6, 7, 0, 1, 2, 3, 4, 5, 6, 7], wins := [] }
  arrs := ⟨arrOf chains, arrOf chains⟩ }

def chanOf (chains : List (List Byte)) : Chan := { Chan.reset with
  cfg := { ChCfg.none with active := true, cores := 3, radioEn := true, peerEn := true }
  ctl := { ChCtl.reset with state := .running }
  cores := ⟨coreOf chains, coreOf chains⟩ }

/-- The block brought up, every channel running under the same survey. -/
def upWith (chains : List (List Byte)) : State :=
  let c := chanOf chains
  { State.reset with
    eng := { Eng.reset with porst := true, hpUp := true, arrays := 0xFFFF }
    boot := { Boot.reset with stage := 9, bootOn := true }
    clk := { Clk.reset with cpllLock := 0xF, mpllLock := true, tpllLock := true, refOk := true, trimOk := true, pllOn := 0x3F }
    ch := ⟨c, c, c, c⟩ }

def up : State := upWith []

def onCh (g : Chan → Chan) (s : State) : State := s.updCh 0 g
def onCore (g : Core → Core) (s : State) : State := s.updCore 0 g
def onCc (g : Cc → Cc) (s : State) : State := updCc s 0 g
def onArr (g : Arr → Arr) (s : State) : State := s.updArr 0 g
def onPool (g : Pool → Pool) (s : State) : State := onCore (fun x => { x with pool := g x.pool }) s
def cc0 (s : State) : Cc := (s.core 0).cc
def ch0 (s : State) : Chan := s.chan 0
def ar0 (s : State) : Arr := s.arr 0
def po0 (s : State) : Pool := (s.core 0).pool

/-! ### Ill-formed commands -/

theorem test_wf_read_completion : (Instr.initiatorReadCompletion true [1]).wf = false := by decide
theorem test_wf_response : (Instr.mpResponse 0 1 0 [1]).wf = false := by decide
theorem test_wf_grid : (Instr.grid 0 0 [1]).wf = false := by decide
theorem test_wf_sample : (Instr.sample 0 0 [1]).wf = false := by decide
theorem test_wf_write_win : (Instr.writeWin 0 ⟨1, 2, 3⟩ ⟨0, 0, false, false, false, 0, 0, 0, 0, [1]⟩).wf = false := by decide
theorem test_wf_acc_into : (Instr.accInto 0 ⟨1, 2, 3⟩ ⟨0, 0, false, false, false, 0, 0, 0, 0, [1, 2, 3, 4]⟩).wf = false := by decide
theorem test_wf_push : (Instr.push ⟨0, none⟩ 2 2 0 0 [1]).wf = false := by decide
theorem test_wf_txn : (Instr.txnWrite 1 0 0 []).wf = false := by decide
theorem test_wf_add : (Instr.add ⟨0, none⟩ 1 2 3).wf = true ∧ exec (.grid 0 0 [1]) State.reset = .fault .illFormed := by
  exact ⟨by decide, rfl⟩

/-! ### Number formats -/

theorem wit_words_void : accTotal [.fin 3, .void, .pinf] = .void ∧ accTotal [.pinf, .fin 2, .ninf] = .void := by decide
theorem wit_words_inf : accTotal [.fin 3, .pinf] = .pinf ∧ accTotal [.ninf, .fin 2] = .ninf := by decide
theorem wit_words_range :
    accTotal [.fin 549755813886, .fin 1] = .pinf ∧ accTotal [.fin (-549755813886)] = .fin (-549755813886) ∧
    accTotal [.fin (-549755813886), .fin (-1)] = .ninf := by decide
/-- R269's example and R282: −4,500 · 2^−3 = −562.5 ties to −562; 5 · 32,768 / 65,536 = 2.5 ties to 2. -/
theorem wit_decay : prodContrib (-4500) (-3) = .fin (-562) ∧ accDecay (.fin 5) 0x8000 = .fin 2 ∧
    accDecay (.fin 7) 0x1FFFF = .fin 7 ∧ accDecay .pinf 0 = .void ∧ accDecay .ninf 1 = .ninf := by decide +kernel
/-- The worked example of R287: −0.548828125, 0.25, 3.0, −1.0 to S8. -/
theorem wit_block : blockF20 .s8 [0xBE190, 0x3D000, 0x40800, 0xBF000] =
    { scale := 0xFB, codes := [0xEE, 0x08, 0x60, 0xE0], flags := flIX } := by decide +kernel
theorem wit_block_void : blockF20 .s8 [0x3F000, 0xFF000] = { scale := 0x80, codes := [0, 0], flags := flIV } ∧
    blockF20 .u4 [0, 0x80000] = { scale := 0x81, codes := [0, 0], flags := 0 } := by decide +kernel
/-- R269's example: −562 · 2^−10 has the code 0xB_E190; MAX + 2^50 overflows; SUB / 2 rounds to +0. -/
theorem wit_f20 : accToF20 (.fin (-562)) (-10) = (0xBE190, 0) ∧ f20Add 0x7EFFF 0x71000 = (0x7F000, flOF ||| flIX) ∧
    f20Mul 0x80001 0x3E000 = (0, flUF ||| flIX) := by decide +kernel
theorem wit_f20_compare : f20Min 0x7F801 0 = 0x7F800 ∧ f20Dec 0x7F801 = .void ∧ laneFcmp 1 0x7F801 0 true = true ∧
    f20Min 0xBF000 0x3F000 = 0xBF000 ∧ f20MaxOf 0xBF000 0x80000 = 0 := by decide +kernel
theorem wit_bins : [0x7E000, 0x01000, 0x80000, 0x00001, 0xFF000, 0xFFFFF].map histBin = [126, 1, 128, 129, 130, 131] := by
  decide +kernel

/-! ### Control core -/

/-- Core 0 within a list at code offset 0x100 whose lines are held: x1 = −7, x2 = 3, x3 = 65,540, a5 = 9, q4 = 20. -/
def sCc : State :=
  onCore (fun x => { x with icache := { x.icache with lines := [0x404, 0x405, 0x406] } })
    (onCc (fun c => { c with
      list := true, len := 40, base := 0x100
      r := { c.r with x := [(1, 0xFFFFFFF9), (2, 3), (3, 0x10004)], a := [(5, 9)], ainc := [(5, 4)], q := [(4, 20)], next := 3 }
      p := [(6, 77)] })
    (onCh (fun c => { c with cfg := { c.cfg with wins := [{ base := 0x10000, pages := 1, kind := 0 }] } }) up))

def fe : Fetch := { core := 0, bad := none }
/-- The next words of the list are these. -/
def holding (ws : List Word) (s : State) : State :=
  onCore (fun x => { x with icache := { x.icache with code := smSetList 0 [] 0x4040 ws } }) s
/-- The next word is the instruction's. -/
def holds (i : Instr) (s : State) : State := holding i.ccWord.toList s
def ccHoldsB (s : State) (i : Instr) : Bool :=
  match i.fetch, i.ccWord with
  | some f, some w => ccWords s f.core 1 == [w]
  | _, _ => false
theorem ccHolds_of {s : State} {i : Instr} (h : ccHoldsB s i = true) : ccHolds s i := by
  unfold ccHoldsB at h
  split at h
  · exact ⟨_, _, ‹_›, ‹_›, by simpa using h⟩
  · cases h

theorem wit_ccReady : ccReady sCc fe 3 ∧ (sCc.core fe.core).cc.rep = none := by
  unfold ccReady; decide +kernel
/-- One instruction of each format in turn at the position. -/
theorem wit_ccReady1 : ∀ i, i ∈ [Instr.add fe 4 1 2, .srai fe 4 1 1, .lui fe 4 0xABCDE, .mova fe 7 2, .rda fe 4 5, .rdq fe 4 4, .qset fe 5 2,
      .rep fe 2 0, .nop fe, .endList fe, .select fe true 0 7, .select fe false 4 0] →
    (ccReady (holds i sCc) fe 1 ∧ ((holds i sCc).core fe.core).cc.rep = none) ∧ ccHolds (holds i sCc) i := by
  have h : ∀ i, i ∈ [Instr.add fe 4 1 2, .srai fe 4 1 1, .lui fe 4 0xABCDE, .mova fe 7 2, .rda fe 4 5, .rdq fe 4 4, .qset fe 5 2,
      .rep fe 2 0, .nop fe, .endList fe, .select fe true 0 7, .select fe false 4 0] →
      (ccReady (holds i sCc) fe 1 ∧ ((holds i sCc).core fe.core).cc.rep = none) ∧ ccHoldsB (holds i sCc) i = true := by
    unfold ccReady; decide +kernel
  exact fun i hi => ⟨(h i hi).1, ccHolds_of (h i hi).2⟩

/-- x(d) after an instruction. -/
def xAfter (i : Instr) (d : BitVec 5) (v : Word) : Bool := after (exec i (holds i sCc)) fun t => (cc0 t).xr d == v && (cc0 t).pos == 1
/-- What core 0 holds after an instruction. -/
def ccAfter (i : Instr) (p : Cc → Bool) : Bool := after (exec i (holds i sCc)) fun t => p (cc0 t)

theorem test_alu : xAfter (.add fe 4 1 2) 4 0xFFFFFFFC = true ∧ xAfter (.sub fe 4 2 1) 4 10 = true ∧
    xAfter (.and fe 4 1 2) 4 1 = true ∧ xAfter (.or fe 4 1 2) 4 0xFFFFFFFB = true ∧ xAfter (.xor fe 4 1 2) 4 0xFFFFFFFA = true ∧
    xAfter (.mul fe 4 1 3) 4 0xFFF8FFE4 = true ∧ xAfter (.add fe 0 1 2) 0 0 = true := by decide +kernel
theorem test_shift : xAfter (.sll fe 4 1 3) 4 0xFFFFFF90 = true ∧ xAfter (.srl fe 4 1 3) 4 0x0FFFFFFF = true ∧
    xAfter (.sra fe 4 1 3) 4 0xFFFFFFFF = true := by decide +kernel
theorem test_order : xAfter (.min fe 4 1 2) 4 0xFFFFFFF9 = true ∧ xAfter (.max fe 4 1 2) 4 3 = true ∧
    xAfter (.minu fe 4 1 2) 4 3 = true ∧ xAfter (.maxu fe 4 1 2) 4 0xFFFFFFF9 = true ∧ xAfter (.slt fe 4 1 2) 4 1 = true ∧
    xAfter (.sltu fe 4 1 2) 4 0 = true := by decide +kernel
theorem test_halves : xAfter (.vaddH fe 4 1 2) 4 0xFFFFFFFC = true ∧ xAfter (.vsubH fe 4 2 1) 4 0x0001000A = true ∧
    xAfter (.vminH fe 4 1 2) 4 0xFFFFFFF9 = true ∧ xAfter (.vmaxH fe 4 1 2) 4 0x00000003 = true := by decide +kernel
theorem test_immediate : xAfter (.addi fe 4 2 0xFFFF) 4 2 = true ∧ xAfter (.andi fe 4 1 0x8000) 4 0xFFFF8000 = true ∧
    xAfter (.ori fe 4 2 4) 4 7 = true ∧ xAfter (.xori fe 4 2 0xFFFF) 4 0xFFFFFFFC = true ∧ xAfter (.slti fe 4 1 0xFFFF) 4 1 = true ∧
    xAfter (.lui fe 4 0xABCDE) 4 0xABCDE000 = true := by decide +kernel
theorem test_immediate_shift : xAfter (.slli fe 4 2 33) 4 6 = true ∧ xAfter (.srli fe 4 1 28) 4 15 = true ∧
    xAfter (.srai fe 4 1 1) 4 0xFFFFFFFC = true := by decide +kernel
theorem test_moves : xAfter (.rda fe 4 5) 4 9 = true ∧ xAfter (.rdp fe 4 6) 4 77 = true ∧ xAfter (.rdq fe 4 4) 4 20 = true ∧
    ccAfter (.mova fe 7 2) (fun c => c.r.a == [(5, 9), (7, 3)]) = true ∧ ccAfter (.setinc fe 7 2) (fun c => c.r.ainc == [(5, 4), (7, 3)]) = true ∧
    ccAfter (.pnext fe 6 2) (fun c => c.ps == [(6, 3)] && c.p == [(6, 77)]) = true ∧
    ccAfter (.qset fe 5 2) (fun c => c.r.q == [(4, 20), (5, 3)]) = true ∧ ccAfter (.nop fe) (fun c => c.pos == 1) = true := by decide +kernel
theorem test_rep : (ccX sCc fe 2).toNat < 65536 ∧ ccAfter (.rep fe 0 9) (fun c => c.rep == some 9) = true ∧
    ccAfter (.rep fe 2 0) (fun c => c.rep == some 3) = true := by decide +kernel
/-- p6 written by DMA in this cc: the value PNEXT stages is overwritten (R523). -/
theorem test_pnext : after (exec (.pnext fe 6 2) (holds (.pnext fe 6 2) (onCc (fun c => { c with ps := [(6, 8)], psBy := [(6, 1)] }) sCc)))
    (fun t => (cc0 t).ps == [(6, 8)] && (cc0 t).pos == 1) = true := by decide +kernel
/-- Another word at the position is not this instruction: nothing happens. -/
theorem test_other_word : stays (.add fe 4 1 2) (holds (.add fe 4 1 3) sCc) = true := by decide +kernel

/-- The words of the worked example (R527), and words that are no instruction. -/
theorem test_encodings : [Instr.rdp fe 1 0, .mova fe 1 1, .addi fe 2 0 0x1000, .setinc fe 1 2, .rep fe 0 4, .push fe 2 3 0 2 [], .push fe 6 6 0 0 [],
      .rdq fe 5 3, .slti fe 6 5 301, .qset fe 0 6, .select fe false 0 0].map Instr.ccWord =
    [0x63, 0x860, 0x10000090, 0x1061, 0x00040028, 0x00100CB0, 0x19B0, 0x1965, 0x012D2997, 0x3026, 0x39].map some := by decide +kernel
theorem test_legal_words : [0x63, 0x00040028, 0x00100CB0, 0x39, 0x02F].map (fun w => ccLegal w) = [true, true, true, true, true] ∧
    [0, 0x1B, 0x00041028, 0x00004430, 0x3A, 0x12F].map (fun w => ccLegal w) = [false, false, false, false, false, false] := by decide +kernel

/-- x6 points behind pool offset 0x7_FFFC. -/
def sLw : State := onCc (fun c => { c with r := { c.r with x := [(2, 3), (6, 0x80000), (7, 0x7FFFE)] } }) sCc

theorem wit_narrow : ccReady (holds (.lw fe 4 6 0xFFFC) sLw) fe 1 ∧ ((holds (.lw fe 4 6 0xFFFC) sLw).core fe.core).cc.rep = none ∧
    ccHoldsB (holds (.lw fe 4 6 0xFFFC) sLw) (.lw fe 4 6 0xFFFC) = true ∧ ccHoldsB (holds (.sw fe 2 6 0) sLw) (.sw fe 2 6 0) = true ∧
    (ccX sLw fe 6 + BitVec.ofInt 32 (0xFFFC : BitVec 16).toInt).toNat = 0x7FFFC ∧ (ccX sLw fe 6).toNat = 0x80000 := by
  unfold ccReady; decide +kernel
theorem test_narrow : after (exec (.lw fe 4 6 0xFFFC) (holds (.lw fe 4 6 0xFFFC) sLw)) (fun t => (po0 t).acc ==
      [{ client := clNarrow, line := 0xFFF, write := none, dest := .ccLoad 4 0x7FFFC }] && (cc0 t).pos == 0) = true ∧
    after (exec (.sw fe 2 6 0xFFFC) (holds (.sw fe 2 6 0xFFFC) sLw)) (fun t => (po0 t).acc.map (·.write) ==
      [some [(0x7FFFC, 3), (0x7FFFD, 0), (0x7FFFE, 0), (0x7FFFF, 0)]] && (cc0 t).pos == 0) = true ∧
    after (exec (.lw fe 4 6 0) (holds (.lw fe 4 6 0) sLw)) (fun t => (cc0 t).halt && (cc0 t).reason == 7) = true ∧
    after (exec (.sw fe 2 7 0) (holds (.sw fe 2 7 0) sLw)) (fun t => (cc0 t).halt && (cc0 t).reason == 7) = true := by decide +kernel
/-- The word 0x44332211 at offset 0x84 arrives for an LW, whole or in double error. -/
def sLoaded (bads : List Nat) : State := onPool (fun p => { p with rdq := [{ client := clNarrow, line := 1, data := [0, 0, 0, 0, 0x11, 0x22, 0x33, 0x44]
                                                                             bads := bads, due := 3, dest := .ccLoad 4 0x84 }] }) sCc
theorem wit_load_word : (sLoaded []).eng.hostQ = [] ∧ (sLoaded []).eng.hostSt = 0 ∧ (0x84 / 8) ∉ ([] : List Nat) ∧ (0x84 / 8) ∈ [16] := by decide
theorem test_load_word : after (exec (.poolReadData 0) (sLoaded [])) (fun t => (cc0 t).xr 4 == 0x44332211 && (cc0 t).pos == 1 && (po0 t).rdq == []) = true ∧
    after (exec (.poolReadData 0) (sLoaded [16])) (fun t => (cc0 t).halt && (cc0 t).reason == 8 && (cc0 t).pos == 0) = true := by decide +kernel

/-- q4 pending. -/
def sPend (i : Instr) : State := onCc (fun c => { c with r := { c.r with qpend := [(4, 1)] } }) (holds i sCc)

theorem wit_pending : (∀ i, i ∈ [Instr.rdq fe 4 4, .qset fe 4 2, .select fe false 4 0] →
      (ccReady (sPend i) fe 1 ∧ ((sPend i).core fe.core).cc.rep = none) ∧ ccHoldsB (sPend i) i = true) ∧
    ((sPend (.nop fe)).core fe.core).cc.r.pends (4 : BitVec 3).toNat = true ∧ (sCc.core 0).cc.r.pends 4 = false := by
  unfold ccReady; decide +kernel
theorem test_pending : after (exec (.rdq fe 4 4) (sPend (.rdq fe 4 4))) (fun t => (cc0 t).qwait == some 4 && (cc0 t).pos == 0 && (cc0 t).xr 4 == 0) = true ∧
    after (exec (.qset fe 4 2) (sPend (.qset fe 4 2))) (fun t => (cc0 t).r.q == [(4, 20)] && (cc0 t).pos == 0) = true ∧
    after (exec (.select fe false 4 0) (sPend (.select fe false 4 0))) (fun t => (cc0 t).list && (cc0 t).r.next == 3) = true := by decide +kernel
/-- R525: v = 20 gives index 15. -/
theorem test_ends : ccAfter (.endList fe) (fun c => !c.list && c.r.next == 3) = true ∧ ccAfter (.select fe true 0 7) (fun c => !c.list && c.r.next == 7) = true ∧
    ccAfter (.select fe false 4 0) (fun c => !c.list && c.r.next == 15) = true := by decide +kernel

/-- The position at the list's end; a list beyond the code window; a line not held. -/
def sEnd : State := onCc (fun c => { c with pos := 40 }) sCc
def sOut : State := onCc (fun c => { c with base := 4096 }) sCc
def sMiss : State := onCore (fun x => { x with icache := { x.icache with lines := [] } }) sCc

theorem wit_fetch_halts : ((sEnd.chan 0).working = true ∧ (sEnd.core 0).cc.list = true ∧ (sEnd.core 0).cc.halt = false ∧
    (sEnd.core 0).cc.stall = none ∧ (sEnd.core 0).ccBusy = false ∧ (sEnd.core 0).cc.len ≤ (sEnd.core 0).cc.pos) ∧ ccAt sOut 0 ∧
    (sOut.chan 0).codeWin.2 < (sOut.core 0).cc.base.toNat + 4 * (sOut.core 0).cc.pos + 4 := by
  unfold ccAt; decide +kernel
theorem test_fetch_halts : after (exec (.nop fe) sEnd) (fun t => (cc0 t).halt && (cc0 t).reason == 4) = true ∧
    after (exec (.add fe 4 1 2) sOut) (fun t => (cc0 t).halt && (cc0 t).reason == 6 && (cc0 t).xr 4 == 0) = true := by decide +kernel
theorem wit_fetch_waits : ccAt sMiss 0 ∧
    (∀ j, j < 14 → (sMiss.core 0).cc.base.toNat + 4 * ((sMiss.core 0).cc.pos + j) + 4 ≤ (sMiss.chan 0).codeWin.2) ∧
    (sMiss.core 0).icache.lines.contains ((sMiss.chan 0).codeLine 0x100) = false ∧
    fillUnderWay sMiss 0 ((sMiss.chan 0).codeLine 0x100) = false ∧
    (∀ j, j < 14 → (sCc.core 0).icache.lines.contains ((sCc.chan 0).codeLine (0x100 + 4 * j)) = true) := by
  unfold ccAt; decide +kernel
theorem test_fetch_waits :
    after (exec (.nop fe) sMiss) (fun t => (t.core 0).icache.misses == 1 && (t.core 0).icache.wants == [0x404, 0x405, 0x406] &&
      (cc0 t).pos == 0) = true ∧
    after (exec (.nop ⟨0, some 0⟩) sCc) (fun t => (t.core 0).icache.parity == 1 && (t.core 0).icache.lines == [0x405, 0x406] &&
      (cc0 t).pos == 0) = true := by decide +kernel
theorem test_illegal : ccLegal 0x1B = false ∧ (ccReady (holds (.illegal fe 0x1B) sCc) fe 1 ∧ ccHoldsB (holds (.illegal fe 0x1B) sCc) (.illegal fe 0x1B) = true) ∧
    (sCc.core 0).flt.valid = false ∧
    after (exec (.illegal fe 0x1B) (holds (.illegal fe 0x1B) sCc)) (fun t => (cc0 t).halt && (cc0 t).reason == 1 && (cc0 t).haltAddr == 0x100 &&
      (ch0 t).flt.haltOrder.isSome && (t.core 0).flt.cause == 1) = true := by
  unfold ccReady; decide +kernel

/-! A SIGNAL pushed to ARR0: AMOUNT 1 for cairn 5, word 0 with a5 added. -/

def sgWords : List Word := [0x00200805]
def sPush (guard : BitVec 5) : State := holding (encP 2 1 guard 0 :: sgWords) sCc

theorem wit_push : (sCc.core 0).queues.length = 7 ∧ pushQueue 0 2 = some 2 ∧ pushWords (sCc.core 0).cc 0 sgWords = some sgWords ∧
    (sCc.chan 0).present 2 = true ∧ (sCc.core 0).cc.brkMode = 0 ∧ pushRoom (sCc.chan 0) 0 2 (sgWords.getD 0 0) = true := by
  decide +kernel
theorem wit_push_guard : (∀ g, g ∈ [(0 : BitVec 5), 0x14, 0x1C] → ccReady (sPush g) fe 2 ∧ ccWords (sPush g) 0 2 = encP 2 1 g 0 :: sgWords) ∧
    bitOf (0x1C : BitVec 5) 4 = true ∧ (sCc.core 0).cc.r.pends 4 = false ∧
    smGet 0 (sCc.core 0).cc.r.q 4 ≠ 0 ∧ bitOf (0x14 : BitVec 5) 3 = false := by
  unfold ccReady; decide +kernel
theorem test_push : after (exec (.push fe 2 1 0x14 0 sgWords) (sPush 0x14)) (fun t => ((ch0 t).queue 2).waiting ==
      [{ words := sgWords, pusher := 0, addr := 0x100, repidx := 0, order := 0, feed := none }] && (cc0 t).pushes == 1 &&
      (cc0 t).pos == 2 && (ch0 t).serial == 1) = true ∧
    after (exec (.push fe 2 1 0x1C 0 sgWords) (sPush 0x1C)) (fun t => ((ch0 t).queue 2).waiting == [] && (cc0 t).pushes == 0 &&
      (cc0 t).pos == 2) = true := by decide +kernel

/-- The same push stalled at a breakpoint. -/
def sBrk : State :=
  let st : PushStall := { queue := 2, n := 1, guard := 0, subst := 0, words := sgWords, repidx := 0, left := 1, brk := true }
  onCc (fun c => { c with stall := some st }) sCc

theorem wit_cont : sBrk.eng.hpReady = true ∧ (sBrk.chan 0).working = true ∧ (sBrk.core 0).cc.halt = false ∧
    (sBrk.core 0).queues.length = 7 ∧ pushWords (sBrk.core 0).cc 0 sgWords = some sgWords ∧
    pushRoom (sBrk.chan 0) 0 2 (sgWords.getD 0 0) = true := by decide +kernel
theorem test_cont : after (exec (.cont 0) sBrk) (fun t => ((ch0 t).queue 2).waiting.length == 1 && (cc0 t).stall.isNone &&
    (cc0 t).pos == 2 && (cc0 t).pushes == 1) = true := by decide +kernel

/-- A replay start under TRIG 1 on cairn 9, which holds 1; list 3 stands at 0x200. -/
def sTrig : State := onCh (fun c => c.setCairn 9 { Cairn.zero with count := 1 }) (onCc (fun c => { c with
  list := false, trig := true, tcairn := 9, selBase := [(3, 0x200)], selLen := [(3, 2)], ps := [(1, 5)] }) sCc)

theorem wit_replay : startStands sTrig 0 = true ∧ ((sTrig.chan 0).cairn 9).count ≠ 0 := by decide +kernel
theorem test_replay : after (exec (.replayStart 0) sTrig) (fun t => (cc0 t).list && (cc0 t).base == 0x200 && (cc0 t).len == 2 &&
    (cc0 t).p == [(1, 5)] && ((ch0 t).cairn 9).count == 0 && (cc0 t).replays == 1) = true := by decide +kernel
theorem test_staged : up.eng.hpReady = true ∧ (up.chan (coreChan 7)).live = true ∧
    after (exec (.stagedParameterWrite 7 31 8) up) (fun t => (t.core 7).cc.ps == [(31, 8)] && (t.core 7).cc.psCommit == [(31, 8)] &&
      (t.core 7).cc.p == []) = true := by decide +kernel

/-! ### Host port -/

/-- Channel 1 in reset; bank 1 of core 0 without a NARROW slot; the word at offset 0x20 of core 0 in double error. -/
def sHost : State :=
  let w := (List.replicate 16 [0, 1, 2, 3, 4, 5, 6, 7, 0, 1, 2, 3, 4, 5, 6, 7]).set 1 (List.replicate 16 0)
  (onPool (fun p => { p with mem := [(0, 0x11), (3, 0x44)], bad := [4] })
    (onCore (fun x => { x with cfg := { x.cfg with wheel := w } }) up)).updCh 1 fun c => { c with ctl := ChCtl.reset }

def code (s : State) (a : Nat) : Option (BitVec 2) := hostCode s (locate a)

theorem wit_host_codes : (sHost.chan 1).live = false ∧ chReg 0x20000 = true ∧ coreReg 0x1010 = true ∧ arrReg 0 = true ∧
    (sHost.chan (coreChan 2)).live = false ∧ (sHost.chan (arrChan 4)).live = false ∧ (sHost.chan (coreChan 0)).live = true ∧
    (sHost.core 0).hasSlot clNarrow (0x80 / 128 % 16) = false := by decide +kernel
theorem test_host_codes : code sHost 0x101 = some hpDecode ∧ code sHost 0xC00000 = some hpDecode ∧
    code sHost 0x7FFFFC = some hpDecode ∧ code sHost (chBase 1 + 0x20000) = some hpOffline ∧ code sHost (chBase 1) = none ∧
    code sHost (coreBase 2 + 0x1010) = some hpOffline ∧ code sHost (arrBase 4) = some hpOffline ∧
    code sHost 0x900000 = some hpOffline ∧ code sHost 0x800080 = some hpDecode ∧ code sHost 0x800100 = none ∧
    code sHost 0 = none := by decide +kernel
theorem test_host_capture : code sHost 0x900000 = some hpOffline ∧
    after (exec (.registerWrite 0x101 5) sHost) (fun t => t.hperr == ⟨0, true, hpDecode, true, 0x101⟩) = true ∧
    after (exec (.hostPoolWrite 0x900000 5) { sHost with hperr := ⟨255, true, hpDecode, true, 0x101⟩ })
      (fun t => t.hperr == ⟨255, true, hpDecode, true, 0x101⟩) = true ∧
    after (exec (.hostPoolRead 0x900000) sHost) (fun t => t.hperr.code == hpOffline && t.eng.rCode == hpOffline &&
      t.eng.rData == 0 && t.eng.rValid) = true := by decide +kernel
/-- An access of the window waits in core 0's NARROW slot of the first bank; the line of a read arrives. -/
def sHp (i : Instr) : State := let s := onCh (fun c => { c with ctl := { c.ctl with cc := 6 } }) sHost; { s with eng := { s.eng with hostQ := [i] } }
def sHostRd (bads : List Nat) : State :=
  let s := onPool (fun p => { p with rdq := [{ client := clNarrow, line := 0, data := 0x11 :: 0 :: 0 :: 0x44 :: List.replicate 124 0
                                               bads := bads, due := 3, dest := .host 0 }] }) sHost
  { s with eng := { s.eng with hostQ := [.hostPoolRead 0x800000], hostSt := 1 } }
theorem wit_window : sHost.eng.hpReady = true ∧ (sHost.core 0).hasSlot clNarrow 0 = true ∧ ((sHp (.hostPoolRead 0x800000)).chan 0).live = true ∧
    (∀ k, (((sHp (.hostPoolRead 0x800000)).chan 0).core k).pool.acc = []) ∧ (sHp (.hostPoolRead 0x800000)).eng.hostSt = 0 ∧
    (sHp (.hostPoolRead 0x800000) |>.core 0).owner 0 (((sHp (.hostPoolRead 0x800000)).chan 0).ctl.cc % 16) = clNarrow ∧
    (0 : Nat) ∉ (sHost.core 0).pool.bad ∧ (0x20 / 8) ∈ (sHost.core 0).pool.bad ∧ (sHost.core 0).flt.valid = false := by decide +kernel
theorem wit_window_quiet : quietCc ((sHp (.hostPoolRead 0x800000)).chan 0) := by unfold quietCc; decide +kernel
theorem test_window : after (exec (.hostPoolRead 0x800000) sHost) (fun t => t.eng.hostQ == [.hostPoolRead 0x800000] && !t.eng.rValid) = true ∧
    after (exec (.registerWrite 0x800000 5) sHost) (fun t => t.eng.hostQ == [.hostPoolWrite 0x800000 5]) = true ∧
    after (exec (.poolAccessGrant 0 []) (sHp (.hostPoolWrite 0x800000 0x01020304))) (fun t => (po0 t).mem == [(0, 4), (1, 3), (2, 2), (3, 1)] &&
      t.eng.hostQ == []) = true ∧
    after (exec (.poolAccessGrant 0 []) (sHp (.hostPoolRead 0x800000))) (fun t => (po0 t).rdq.map (fun r => (r.data.take 4, r.due, r.dest)) ==
      [([0x11, 0, 0, 0x44], 9, .host 0)] && t.eng.hostSt == 1) = true := by decide +kernel
/-- A single-bit error found in the first word is corrected, counted and written back; a double one stops the write. -/
theorem test_window_errors : after (exec (.poolAccessGrant 0 [⟨0, 0, 1, 0⟩]) (sHp (.hostPoolWrite 0x800000 1))) (fun t => (po0 t).corr == 1 &&
      (po0 t).mem == [(0, 1)]) = true ∧
    after (exec (.poolAccessGrant 0 [⟨0, 0, 0, 1⟩]) (sHp (.hostPoolWrite 0x800000 1))) (fun t => (po0 t).mem == (po0 sHost).mem && (po0 t).uncorr == 1 &&
      t.hperr.code == hpData && (t.core 0).flt.cause == 0x48) = true ∧
    after (exec (.poolAccessGrant 0 []) (sHp (.hostPoolWrite 0x800020 1))) (fun t => (po0 t).mem == (po0 sHost).mem && t.hperr.code == hpData) = true := by
  decide +kernel
theorem test_window_read : after (exec (.poolReadData 0) (sHostRd [])) (fun t => t.eng.rValid && t.eng.rData == 0x44000011 && t.eng.rCode == 0 &&
      t.eng.hostQ == []) = true ∧
    after (exec (.poolReadData 0) (sHostRd [0])) (fun t => t.eng.rData == 0 && t.eng.rCode == hpData && t.hperr.valid) = true := by decide +kernel
/-- A host read behind an access of the window waits its turn; the access of a channel that goes into reset answers
OFFLINE. -/
theorem test_window_turn : after (exec .calDateRead (sHp (.hostPoolRead 0x800000))) (fun t => t.eng.hostQ == [.hostPoolRead 0x800000, .calDateRead]) = true ∧
    after (exec (.poolAccessGrant 0 []) ((sHp (.hostPoolRead 0x800000)).updCh 0 fun c => { c with ctl := ChCtl.reset })) (fun t =>
      t.eng.rCode == hpOffline && t.eng.rValid && t.eng.hostQ == [] && t.hperr.code == hpOffline) = true := by decide +kernel
theorem test_host_reads : after (exec (.hostPoolRead 0) sCc) (fun t => t.eng.rData == 0x40003 && t.eng.rCode == 0) = true ∧
    after (exec (.hostPoolRead (BitVec.ofNat 24 (coreBase 0 + 0x1204))) sCc) (fun t => t.eng.rData == 0xFFFFFFF9) = true := by
  decide +kernel
theorem wit_free_fields : up.eng.hpReady = true ∧ (up.chan (coreChan 3)).live = true := by decide +kernel
theorem test_free_fields : after (exec (.registerWrite 0x3004 0xFF112233) up) (fun t => t.thm.hi == 0x33 && t.thm.lo == 0x22 &&
      t.thm.crit == 0x11) = true ∧
    after (exec (.registerWrite 0x5028 0xFFFFFFFF) up) (fun t => t.srv.addr == 0xFFFFF) = true ∧
    after (exec (.registerWrite (BitVec.ofNat 24 (coreBase 3 + 0x101C)) 0xE0AABBFF) up) (fun t => (t.core 3).cc.brkMode == 3 &&
      (t.core 3).cc.brkAct && (t.core 3).cc.brkMask == 0xAA && (t.core 3).cc.brkTag == 0xBB) = true := by decide +kernel
theorem test_read_only : stays (.registerWrite 0x44 5) up = true ∧
    stays (.registerWrite (BitVec.ofNat 24 (chBase 3 + 0x98)) 5) up = true := by decide +kernel

/-- Every capture and some counters of unit 0 set. -/
def sSet : State :=
  let f (x : State) : State := { x with hperr := ⟨1, true, 1, true, 8⟩, flt := { x.flt with valid := true, more := 2, cause := 3 } }
  f (onArr (fun a => { a with flt := ⟨1, 2, 1, true, 3⟩, reg := { a.reg with vecs := 7, swaps := 3, faulted := true }
                              stepReg := { a.stepReg with count := 4, lat := 9 }, gate := { a.gate with issues := 5, flags := 1 } })
    (onCore (fun x => { x with flt := { x.flt with valid := true, cause := 2, charges := 1 } })
      (onCh (fun c => { c with crn := { c.crn with valid := true, more := 1 }, dma := { c.dma with valid := true, granRd := 9, rd := 3 }
                               flt := { c.flt with valid := true, cause := 4 } }) up)))

theorem wit_clears : sSet.eng.hpReady = true ∧ (sSet.chan 0).live = true ∧ (sSet.arr 0).cfg.used = true := by decide +kernel
theorem test_captures : after (exec (.registerWrite 0x40 1) sSet) (fun t => !t.hperr.valid && t.hperr.addr == 0) = true ∧
    stays (.registerWrite 0x40 0) sSet = true ∧
    after (exec (.registerWrite 0x7000 1) sSet) (fun t => !t.flt.valid && t.flt.more == 0 && t.flt.cause == 0) = true ∧
    after (exec (.registerWrite (BitVec.ofNat 24 (chBase 0 + 0x90)) 1) sSet) (fun t => !(ch0 t).flt.valid && (ch0 t).flt.cause == 0) = true ∧
    after (exec (.registerWrite (BitVec.ofNat 24 (chBase 0 + 0x18000)) 0x800) sSet) (fun t => !(ch0 t).crn.valid) = true ∧
    after (exec (.registerWrite (BitVec.ofNat 24 (arrBase 0 + 0xE0)) 1) sSet) (fun t => !(ar0 t).flt.valid && (ar0 t).flt.info == 0) = true := by
  decide +kernel
theorem test_captures_core : after (exec (.registerWrite (BitVec.ofNat 24 (coreBase 0)) 1) sSet) (fun t => !(t.core 0).flt.valid &&
      (t.core 0).flt.charges == 1) = true ∧
    after (exec (.registerWrite (BitVec.ofNat 24 (chBase 0 + 0x20008)) 1) sSet) (fun t => !(ch0 t).dma.valid && (ch0 t).dma.granRd == 9) = true := by
  decide +kernel
theorem test_clears : after (exec (.arrCntClear 0) sSet) (fun t => (ar0 t).reg.vecs == 0 && (ar0 t).reg.swaps == 0 && (ar0 t).reg.faulted) = true ∧
    after (exec (.stepClear 0) sSet) (fun t => (ar0 t).stepReg == { StepReg.reset with lat := 9 }) = true ∧
    after (exec (.gateClear 0) sSet) (fun t => (ar0 t).gate == { GateReg.reset with flags := 1 }) = true ∧
    after (exec (.dmaClear 0) sSet) (fun t => (ch0 t).dma.granRd == 0 && (ch0 t).dma.rd == 3) = true := by decide +kernel
theorem test_clears_core : stays (.siphClear 5) up = true ∧ stays (.laneClear 5) up = true ∧ stays (.poolClear 5) up = true ∧
    stays (.icacheClear 5) up = true ∧ stays (.lchClear 3) up = true ∧ stays (.rpClear 3) up = true := by decide +kernel

/-! ### Bring-up, clocks, resets -/

/-- PORST_N high, a stage of bring-up. -/
def boot (g : Boot → Boot) (s : State) : State := { s with boot := g s.boot }
def sBoot (stage : BitVec 4) : State :=
  { State.reset with eng := { Eng.reset with porst := true }, boot := { Boot.reset with stage := stage, bootOn := true } }
/-- Every array on, grade 0, oscillator trim 0x21, sensor 2 trim −1; the bytes below the check byte add up to 0x81. -/
def fuses : BitVec 128 := 0x7E00000000000000000000FF000084FFFF

theorem wit_bring_up : State.reset.eng.porst = false ∧ (sBoot 1).boot.bootOn = true ∧ (sBoot 1).boot.stage = 1 ∧
    (sBoot 1).eng.porst = true := by decide
theorem test_bring_up : after (exec (.porstNRise true 3 true) State.reset) (fun t => t.eng.porst && t.eng.refsel && t.eng.xsel == 3 &&
      t.eng.mbistEn && t.boot.stage == 1 && t.clk.xselBad) = true ∧
    after (exec .bootstrapStart (boot (fun b => { b with bootOn := false }) (sBoot 1))) (fun t => t.boot.bootOn && t.boot.trim == 0x20) = true ∧
    after (exec .fuseRead (sBoot 1)) (fun t => t.boot.fuseBusy && t.eng.fuseLd && t.boot.stage == 2) = true := by decide +kernel
def sFuse : State := boot (fun b => { b with fuseBusy := true }) (sBoot 2)
theorem wit_fuses : sFuse.boot.fuseBusy = true ∧ sFuse.eng.engrst = true ∧ sFuse.clk.xselBad = false ∧
    fuseOk (0x7E0000000000000000FF00000084FFFF : BitVec 128) = true ∧ fuseOk 0 = false := by decide +kernel
theorem test_fuses : after (exec (.fuseReadEnd 0x7E0000000000000000FF00000084FFFF) sFuse) (fun t => t.eng.arrays == 0xFFFF &&
      t.eng.grade == 0 && t.boot.trim == 0x21 && t.clk.trimOk && t.boot.stage == 3 && t.eng.hpReady &&
      t.thm.sens.map (·.trim) == [0, 0, 0, 0xFF, 0, 0]) = true ∧
    after (exec (.fuseReadEnd 0) sFuse) (fun t => t.eng.arrays == 0 && t.eng.grade == 3 && t.boot.fuseBad && t.boot.stage == 0xF) = true := by
  decide +kernel
theorem test_fuses_xsel : after (exec (.fuseReadEnd 0x7E0000000000000000FF00000084FFFF) { sFuse with eng := { sFuse.eng with xsel := 3 } }) (fun t =>
    t.boot.stage == 0xF && t.clk.trimOk && t.eng.hpUp && !t.boot.counting) = true := by decide +kernel
def sMem (mbist : Bool) : State := { sBoot 5 with eng := { Eng.reset with porst := true, mbistEn := mbist, hpUp := true } }
theorem test_memory_test : after (exec .clearPassEnd (sMem false)) (fun t => t.boot.stage == 6) = true ∧
    after (exec (.memoryTestEnd 0x4 false) (sMem true)) (fun t => t.boot.stage == 6 && t.boot.chFail == 4 && t.eng.mbistDone &&
      !t.eng.mbistPass && (t.chan 2).ctl.state == .failed && (t.chan 1).ctl.state == .reset) = true ∧
    after (exec (.memoryTestEnd 0 true) (sMem true)) (fun t => t.boot.stage == 0xF && t.boot.engFail) = true := by decide +kernel
def sGo : State := boot (fun b => { b with stage := 6, chFail := 4 }) (sMem false)
theorem wit_go : sGo.eng.hpReady = true ∧ sGo.boot.stage = 6 ∧ sGo.log.size = 0 ∧ sGo.flt.fatal = false ∧
    bitOf sGo.boot.chFail 0 = false ∧ bitOf sGo.eng.chrst 0 = true ∧ bitOf sGo.pwr.gated 0 = false := by decide +kernel
theorem test_go : after (exec .go sGo) (fun t => t.boot.stage == 9 && (t.chan 0).ctl.state == .idle && (t.chan 2).ctl.state == .failed &&
    t.boot.survey == 0 && t.boot.log == 0) = true := by decide +kernel

def sCount : State := boot (fun b => { b with counting := true }) { sBoot 3 with clk := { Clk.reset with trimOk := true } }
theorem wit_count : sCount.boot.counting = true ∧ refInWindow sCount.eng.xsel sCount.clk.trimOk (refExpected sCount.eng.xsel) = true ∧
    refInWindow sCount.eng.xsel sCount.clk.trimOk 0 = false := by decide +kernel
theorem test_count : after (exec (.stabilityCountEnd (refExpected 0)) sCount) (fun t => t.clk.refOk && t.clk.pllOn == 0x3F &&
      t.boot.stage == 4 && !t.boot.counting) = true ∧
    after (exec (.stabilityCountEnd 0) sCount) (fun t => t.clk.freqBad && t.boot.counting) = true ∧
    after (exec .refFail sCount) (fun t => t.clk.refFail && t.boot.stage == 0xF) = true ∧
    after (exec .retry { up with clk := { up.clk with refFail := true } }) (fun t => !t.clk.refFail && t.boot.counting && t.boot.stage == 3) = true ∧
    after (exec .missingEdge up) (fun t => t.clk.refLost && t.flt.cause == 0x82 && t.flt.valid) = true := by decide +kernel
def sPll : State := { sBoot 4 with clk := { Clk.reset with refOk := true, pllOn := 0x3F, mpllLock := true } }
theorem wit_plls : bitOf sPll.clk.pllOn (pllBit .time) = true ∧ sPll.clk.locked .time = false ∧ sPll.boot.stage = 4 ∧
    sPll.flt.valid = false ∧ up.clk.mpllLock = true ∧ up.boot.stage = 9 ∧ up.flt.valid = false ∧ bitOf up.clk.cpllLock 3 = true ∧
    (up.chan 3).live = true ∧ (up.chan 3).flt.valid = false := by decide +kernel
theorem test_plls : after (exec (.pllLock .time) sPll) (fun t => t.clk.tpllLock && t.tdc.running) = true ∧
    after (exec (.pllLockTimeout (.core 2)) sPll) (fun t => t.clk.pllFail && t.boot.stage == 0xF && t.flt.cause == 0x83) = true ∧
    after (exec (.pllLossOfLock .mem) up) (fun t => !t.clk.mpllLock && t.flt.cause == 0x83 && t.flt.valid) = true ∧
    after (exec (.pllLossOfLock (.core 3)) up) (fun t => !bitOf t.clk.cpllLock 3 && (t.chan 3).flt.cause == 0x55 &&
      (t.chan 3).flt.cls == 4 && (t.chan 3).flt.haltOrder.isSome && (t.chan 2).flt.cause == 0) = true := by decide +kernel

def sRst : State := { sBoot 0 with eng := { Eng.reset with porst := true, engrst := false }, clk := { Clk.reset with trimOk := true, tpllLock := true } }
theorem test_resets : after (exec .porstNFall sSet) (fun t => !t.eng.porst && t.flt == FltEng.reset && t.hperr == HpErr.reset &&
      (t.chan 0).cores.c0 == Core.reset && t.boot == Boot.reset) = true ∧
    after (exec .engrstNFall sSet) (fun t => !t.eng.engrst && t.eng.arrays == 0xFFFF && !(t.chan 0).live && !t.eng.hpReady &&
      t.clk.cpllLock == 0xF) = true ∧
    after (exec .engrstNRise sRst) (fun t => t.eng.engrst && t.eng.hpReady && t.boot.counting && t.boot.stage == 3 && t.tdc.running) = true ∧
    after (exec (.chrstNFall 3) up) (fun t => (t.chan 3).ctl.state == .reset && t.eng.chrst == 0x7 && (t.chan 2).ctl.state == .running) = true := by
  decide +kernel
def sLow : State := (up.updCh 3 fun c => { c with ctl := ChCtl.reset })
theorem wit_resets : sSet.eng.engrst = true ∧ sRst.eng.engrst = false ∧ sRst.clk.trimOk = true ∧ sRst.boot.stage = 0 ∧
    sRst.clk.refOk = false ∧ (sLow.chan 3).ctl.state = .reset ∧ sLow.boot.stage = 9 ∧ bitOf sLow.boot.chFail 3 = false := by decide +kernel
theorem test_chrst_rise : after (exec (.chrstNRise 3) { sLow with eng := { sLow.eng with chrst := 7 } })
    (fun t => (t.chan 3).ctl.state == .idle && t.eng.chrst == 0xF) = true := by decide +kernel
/-- R116 with STEP 0x12 and TAP_MFR 0x7F: 0x2000_40FF. -/
theorem test_tap :
    let s : State := { up with eng := { up.eng with stepping := 0x12 }, tap := { up.tap with mfr := 0x7F } }
    after (exec .idcode s) (fun t => t.tap.tdr == 0x200040FF && t.tap.ir == 1) = true ∧
    after (exec .tapReset s) (fun t => t.tap.tdr == 0x200040FF) = true ∧
    after (exec (.bypass 0xFF) s) (fun t => t.tap.ir == 0xFF && t.tap.tdr == 0 && t.tap.st == .shiftDr && t.tdo == some false &&
      (tapClock false true t).tdo == some true) = true ∧
    after (exec .idcode s) (fun t => t.tdo == some true && (tapClock false false t).tdo == some true &&
      (tapClock false true t).tap.tdr == 0x9000207F && (tapClock true true t).tdo == none) = true := by decide +kernel

/-! ### Thermal, supply, power gates -/

/-- CKOBS on the bootstrap oscillator with divisor 5 (D = 5: three cycles high, two low), in its second cycle. -/
def sObs : State := { up with clk := { up.clk with obsDiv := 4, obsSel := 2, obsCnt := 1 } }
theorem wit_observation : sObs.eng.hpReady = true ∧ sObs.clk.obsLeft = 0 ∧ obsRuns sObs sObs.clk.obsSel.toNat = true ∧
    up.clk.obsLeft = 0 ∧ obsRuns up up.clk.obsSel.toNat = false := by decide +kernel
theorem test_observation : after (exec (.clkObsWrite 0x00000123) sObs) (fun t => t.clk.obsDiv == 0x12 && t.clk.obsSel == 3 &&
      t.clk.obsLeft == 4 && t.clk.obsOld == 2 && !t.ckobs && (obsCycle (· == 2) t).clk.obsLeft == 3 &&
      (obsCycle (· == 3) t).clk.obsLeft == 4) = true ∧
    after (exec (.clkObsWrite 0x00000123) up) (fun t => t.clk.obsLeft == 0) = true ∧
    [0, 1, 2, 3, 4].map (fun k => ({ sObs with clk := { sObs.clk with obsCnt := k } } : State).ckobs) = [true, true, true, false, false] ∧
    after (exec (.thermalSample 5 0x7FF) up) (fun t => (t.thm.sens.getD 5 Sens.reset).samples == [-1]) = true := by decide +kernel
/-- Eight samples of one temperature on sensor 2 and of `cold` on the others. -/
def sTherm (hot cold : Int) : State := { up with thm := { up.thm with
  sens := (List.replicate 6 { Sens.reset with samples := List.replicate 8 cold }).set 2 { Sens.reset with samples := List.replicate 8 hot } } }
theorem wit_thermal : up.boot.bootOn = true ∧ up.pwr.thermOp.toNat ≤ 4 ∧ 2 ^ up.thm.avg.toNat = 8 := by decide +kernel
/-- The chapter's example, 106.25 °C against HI 105: one point down; 125 °C: OP0; below 95 °C: one up; 95 °C: none. -/
theorem test_thermal : after (exec .averagingPeriodEnd (sTherm 425 0)) (fun t => t.pwr.thermOp == 3 && t.thm.throttles == 1 &&
      (t.thm.sens.getD 2 Sens.reset).temp == 425) = true ∧
    after (exec .averagingPeriodEnd (sTherm 500 0)) (fun t => t.pwr.thermOp == 0 && t.thm.critFlag && t.flt.cause == 0x84) = true ∧
    after (exec .averagingPeriodEnd { sTherm 379 0 with pwr := { up.pwr with thermOp := 2 } }) (fun t => t.pwr.thermOp == 3) = true ∧
    after (exec .averagingPeriodEnd { sTherm 380 0 with pwr := { up.pwr with thermOp := 2 } }) (fun t => t.pwr.thermOp == 2) = true := by
  decide +kernel
def sChg : State := { up with pwr := { up.pwr with vreq := 2, vreqOld := 3, waitVack := true } }
theorem test_supply : after (exec .vackRise sChg) (fun t => t.pwr.vack && !t.pwr.waitVack || t.pwr.vreq != 2) = true ∧
    after (exec .vackFall sChg) (fun t => !t.pwr.vack && t.pwr.waitVack && t.flt.cause == 0) = true ∧
    after (exec .vackFall up) (fun t => t.flt.cause == 0x80 && t.flt.supply && t.pwr.supplyOp == some 0 && t.flt.info == 0x100) = true ∧
    after (exec .vackTimeout sChg) (fun t => t.pwr.supplyOp == some 2 && t.flt.info == 0x23 && t.flt.cause == 0x80) = true := by decide +kernel
/-- A fault at 1 stands while VACK falls at 3 (R148). -/
theorem test_supply_held : after (exec .vackFall { up with pwr := { up.pwr with supplyOp := some 1, vreq := 3 } }) (fun t => t.pwr.supplyOp == some 1) = true := by
  decide +kernel
theorem test_supply_registers : after (exec .supplyClear { up with flt := { up.flt with supply := true }, pwr := { up.pwr with supplyOp := some 1 } })
      (fun t => !t.flt.supply && t.pwr.supplyOp.isNone) = true ∧
    after (exec (.maxOpWrite 4) up) (fun t => t.pwr.maxOp == 4) = true ∧ stays (.maxOpWrite 5) up = true := by decide +kernel
/-- OP2 allows code 52: an idle channel at 50 asking for 64 takes 52 only at a level of OP2. -/
theorem test_sequencer :
    let s := (up.updCh 1 fun c => { c with ctl := { c.ctl with state := .idle, freq := 64, eff := 50 } })
    let at_ (v : BitVec 3) : State := resupply { s with pwr := { s.pwr with maxOp := 2, vreq := v } }
    ((at_ 2).chan 1).ctl.eff = 52 ∧ ((at_ 1).chan 1).ctl.eff = 50 ∧ (at_ 1).pwr.vreq = 2 ∧ ((at_ 2).chan 0) = s.chan 0 := by decide +kernel
/-- A FAILED channel gated while the time PLL is unlocked. -/
theorem test_gate_failed : after (exec (.powerGate 1) { up with clk := { up.clk with tpllLock := false }, boot := { up.boot with chFail := 2 } })
    (fun t => t.pwr.pgreq == 0 && t.pwr.gating == 2 && (t.chan 1).ctl.state == .failed) = true := by decide +kernel
def sGating : State := { up with pwr := { up.pwr with pg := 2, gating := 2, pgreq := 2 } }
def sGated : State := { up with pwr := { up.pwr with pg := 2, gated := 2, pgack := 2, pgreq := 2 } }
def sUngating : State := { up with pwr := { up.pwr with ungating := 2, gated := 2, pgack := 2 } }
def sFree : State := { up with pwr := { up.pwr with ungating := 2 } }
theorem test_gating : after (exec (.powerGate 1) up) (fun t => t.pwr.pg == 2 && t.pwr.gating == 2 && t.pwr.pgreq == 2 &&
      (t.chan 1).ctl.state == .reset && (t.chan 0).ctl.state == .running) = true ∧
    after (exec (.pgackRise 1) sGating) (fun t => t.pwr.gated == 2 && t.pwr.gating == 0 && (t.chan 1).ctl.state == .gated &&
      t.clk.pllOn == 0x3D) = true ∧
    after (exec (.pgackTimeout 1) sGating) (fun t => t.flt.cause == 0x81 && t.flt.info == 0x11) = true := by decide +kernel
theorem test_ungating : after (exec (.ungate 1) sGated) (fun t => t.pwr.pg == 0 && t.pwr.pgreq == 0 && t.pwr.ungating == 2) = true ∧
    after (exec (.pgackFall 1) sUngating) (fun t => t.pwr.gated == 0 && t.pwr.pgack == 0 && (t.chan 1).ctl.state == .reset) = true ∧
    after (exec (.ungateResetRelease 1) sFree) (fun t => t.pwr.ungating == 0 && (t.chan 1).ctl.state == .idle) = true ∧
    after (exec (.rampEnd 1) (up.updCh 1 fun c => { c with ctl := { c.ctl with ramp := true } })) (fun t => !(t.chan 1).ctl.ramp) = true := by
  decide +kernel


/-! ### Channel control, ticks, recovery -/

def ctl (g : ChCtl → ChCtl) (c : Chan) : Chan := { c with ctl := g c.ctl }
def flt (g : ChFlt → ChFlt) (c : Chan) : Chan := { c with flt := g c.flt }
def sState (st : ChState) : State := onCh (ctl fun x => { x with state := st }) up

theorem test_run : after (exec (.runSet 0) (sState .idle)) (fun t => (ch0 t).ctl.state == .armed && (ch0 t).ctl.run) = true ∧
    stays (.runSet 1) (sState .halted) = true ∧
    after (exec (.runClear 0) (sState .armed)) (fun t => (ch0 t).ctl.state == .idle) = true ∧
    after (exec (.runClear 0) up) (fun t => (ch0 t).ctl.state == .running && (ch0 t).ctl.runOff) = true := by decide +kernel
theorem wit_release : (sState .lost).eng.hpReady = true ∧ (sState .lost).flt.fatal = false ∧ (sState .lost).boot.stage = 9 ∧
    bitOf (sState .lost).boot.chFail 0 = false ∧ bitOf (sState .lost).eng.chrst 0 = true ∧
    bitOf ((sState .lost).pwr.gated ||| (sState .lost).pwr.gating ||| (sState .lost).pwr.ungating) 0 = false ∧
    (sState .idle |>.chan 0).cfg.active = true := by decide
theorem test_release : after (exec (.release 0) (sState .lost)) (fun t => (ch0 t).ctl.state == .idle && (ch0 t).cfg.active) = true ∧
    stays (.release 0) { sState .halted with flt := { FltEng.reset with fatal := true } } = true := by decide +kernel

/-- A slot of 1 ms that began at 3 ms: state entry 4 written to copy 1, cairn 9 at 5 with 2 recorded and one increment
from outside, x1 changed since the commit, τ at 4.1 ms. -/
def sSlot : State :=
  let e : Entry := { copy0 := a40Enc (.fin 7), copy1 := a40Enc (.fin 8), cur := true, tag := true }
  let s := onArr (fun a => { a with acc := { a.acc with entries := [(4, e)], gen := 6 } })
    (onCc (fun c => { c with r := { c.r with x := [(1, 5)], qpend := [(0, 1)] }, saved := { c.saved with x := [(1, 4)] }, ps := [(2, 3)] })
      (onCh (fun c => ctl (fun x => { x with tauS := 3000000, commits := 1, overruns := 1 })
        (c.setCairn 9 { Cairn.zero with count := 5, record := 2, outside := 1 })) up))
  { s with td := { s.td with c0 := { s.td.c0 with ns := 4100000 } } }
/-- The same slot with a WAIT that has not been met; armed. -/
def sFull : State := onCh (fun c => { c with crn := { c.crn with cfg := [(9, 1, 0x1FFFF)] }, dmaQ := { c.dmaQ with waiting := [
  { words := [0x00100009, 0x400], pusher := 0, addr := 0, repidx := 0, order := 0, feed := none }] } }) sSlot
def sArmed : State := onCh (ctl fun x => { x with state := .armed }) sSlot

theorem wit_quiet : quietTick (sSlot.chan 0) ∧ (sSlot.chan 0).canCommit = true ∧ (sFull.chan 0).isDrained = false ∧
    (sFull.chan 0).flt.rolled = false ∧ (sFull.chan 0).flt.haltOrder = none ∧ (sFull.chan 0).flt.lostOrder = false := by
  unfold quietTick; decide +kernel
theorem wit_quiet_more : quietTick (sFull.chan 0) ∧ quietTick (sArmed.chan 0) ∧ (sSlot.chan 0).tickPend = [] ∧
    (sSlot.chan 0).lch.frames = [] ∧ (sSlot.chan 0).ctl.runOff = false ∧ (sSlot.chan 0).ctl.inGap = false := by
  unfold quietTick; decide +kernel
theorem test_first_tick : after (exec (.firstTick (0, [])) sArmed) (fun t => (ch0 t).ctl.state == .running && (ch0 t).ctl.tauS == 4000000 &&
    (ch0 t).ctl.slot == 4 && (ch0 t).ctl.sfn == 0 && (ch0 t).ctl.commits == 1 && ((ch0 t).cairn 9).record == 5 &&
    (ar0 t).acc.entries.all (fun e => !e.2.tag && e.2.cur) && (ar0 t).acc.gen == 6 && (cc0 t).p == [(2, 3)] &&
    (cc0 t).replays == 1) = true := by decide +kernel
theorem test_commit : after (exec (.slotTick 0 []) sSlot) (fun t => (ch0 t).ctl.commits == 2 && (ch0 t).ctl.overruns == 1 &&
    (ch0 t).ctl.tauS == 4000000 && ((ch0 t).cairn 9).record == 5 && ((ch0 t).cairn 9).outside == 0 &&
    (cc0 t).saved.x == [(1, 5)] && (cc0 t).psCommit == [(2, 3)] && (ar0 t).acc.entries.all (fun e => !e.2.tag && e.2.cur) &&
    (ar0 t).acc.gen == 7) = true := by decide +kernel
theorem test_overrun : after (exec (.slotTick 0 []) sFull) (fun t => (ch0 t).ctl.commits == 1 && (ch0 t).ctl.overruns == 2 &&
    (ch0 t).ctl.ovr && ((ch0 t).cairn 9).count == 3 && (cc0 t).r.x == [(1, 4)] && (cc0 t).r.qpend == [] &&
    (ch0 t).dmaQ == Queue.empty && (ar0 t).acc.entries.all (fun e => !e.2.tag && !e.2.cur) &&
    (ar0 t).acc.rollbacks == 1 && (ar0 t).acc.gen == 6) = true := by decide +kernel
theorem test_gap : after (exec (.tickGap 0) sSlot) (fun t => (ch0 t).ctl.inGap && !(ch0 t).ctl.gap) = true ∧
    after (exec (.tickGap 0) sFull) (fun t => (ch0 t).ctl.inGap && (ch0 t).ctl.gap) = true := by decide +kernel
/-- A snapshot of two bins due at line 0x20. -/
def sHist : State := onArr (fun a => { a with hist := { a.hist with
  en := true, pool := true, due := true, line := 0x20, seq := 0x01020304, snap := [(0, 0x11), (131, 0xABCDEF)] } }) up
theorem wit_hist : (sHist.arr 0).hist.due = true ∧ (up.arr 0).hist.due = false ∧ (sHist.core 0).hasSlot (clDrip 0) 0 = true := by decide
theorem test_hist : after (exec (.histogramPoolWrite 0) sHist) (fun t => (po0 t).acc.map (fun a => (a.client, a.line)) ==
      [(2, 32), (2, 33), (2, 34), (2, 35), (2, 36)] && ((po0 t).acc.flatMap fun a => (a.write.getD []).filter fun e => e.2 != 0) ==
      [(0x1000, 4), (0x1001, 3), (0x1002, 2), (0x1003, 1), (0x1010, 0x11), (0x121C, 0xEF), (0x121D, 0xCD), (0x121E, 0xAB)] &&
      !(ar0 t).hist.due) = true ∧ stays (.histogramPoolWrite 0) up = true := by decide +kernel

theorem wit_raise : (up.chan 0).live = true ∧ (up.chan 0).flt.valid = false ∧ inInterval (up.chan 0) = false ∧ up.log.fail = false := by
  decide +kernel
theorem test_raise : let t := raise sSlot 0 { lvl := .chan, cause := 0x21, cls := 2, info := 5, addr := 0 }
    ((ch0 t).flt.cause = 0x21 ∧ (ch0 t).flt.cls = 2 ∧ (ch0 t).flt.rbOrder = true ∧ (ch0 t).flt.haltOrder = none ∧
     (ch0 t).crn = (ch0 sSlot).crn) ∧ (t.log.chQ.c0.map (·.kind)) = [3] := by decide +kernel
def sRb : State := onCh (flt fun f => { f with rbOrder := true }) sFull
theorem wit_rollback : (sRb.chan 0).live = true ∧ (sRb.chan 0).flt.rbOrder = true ∧ (sRb.chan 0).flt.haltOrder = none ∧
    (sRb.chan 0).flt.lostOrder = false ∧ (sRb.core 0).siph.run = none := by decide
theorem test_rollback : after (exec (.channelRollback 0 []) sRb) (fun t => (ch0 t).flt.rolled && !(ch0 t).flt.rbOrder &&
    ((ch0 t).cairn 9).count == 3 && (cc0 t).r.x == [(1, 4)] && (ch0 t).dmaQ == Queue.empty && (ch0 t).ctl.overruns == 1 &&
    (ch0 t).ctl.state == .running && (ar0 t).acc.entries.all (fun e => !e.2.tag && !e.2.cur)) = true := by decide +kernel
def sHalt : State := onCh (flt fun f => { f with haltOrder := some (0x01, some 1) }) sFull
def sLost : State := onCh (flt fun f => { f with lostOrder := true }) sFull
theorem wit_stops : (sHalt.chan 0).live = true ∧ (sHalt.chan 0).flt.haltOrder = some (0x01, some 1) ∧ (sHalt.chan 0).flt.lostOrder = false ∧
    (sLost.chan 0).live = true ∧ (sLost.chan 0).flt.lostOrder = true ∧ ((sHalt.chan 0).core 1).cc.halt = false := by decide
theorem test_stops : after (exec (.halt 0 []) sHalt) (fun t => (ch0 t).ctl.state == .halted && (cc0 t).halt && (cc0 t).reason == 0 &&
      ((ch0 t).core 1).cc.reason == 1 && (ch0 t).dmaQ == Queue.empty && ((ch0 t).cairn 9).count == 3) = true ∧
    after (exec (.chLost 0) sLost) (fun t => (ch0 t).ctl.state == .lost && (ch0 t).dmaQ == Queue.empty) = true := by decide +kernel
theorem wit_still : (sFull.chan 0).still = true ∧ (sFull.chan 0).flt.haltOrder = none ∧ (sFull.chan 0).flt.valid = false ∧
    inInterval (sFull.chan 0) = false ∧ (sFull.chan 0).standing.map (·.1) = [dmaQ.val] := by decide +kernel
theorem test_deadlock : after (exec (.deadlock 0) sFull) (fun t => (ch0 t).flt.cause == 0x34 && (ch0 t).flt.cls == 4 &&
    (ch0 t).flt.info == 1 && (ch0 t).flt.swCount == 4096 && (ch0 t).flt.haltOrder.isSome &&
    ((ch0 t).flt.dl.map (·.1)).count true == 1) = true ∧ stays (.deadlock 1) sFull = true := by decide +kernel

def cflt (g : CoreFlt → CoreFlt) : State := onCore (fun x => { x with flt := g x.flt }) up
theorem wit_lockstep : (up.core 0).flt.valid = false ∧ (up.core 0).flt.cmpaOff = false ∧ (up.core 0).flt.cmpbOff = false ∧
    ((cflt fun f => { f with testing := true }).core 0).flt.testing = true ∧ (up.chan 0).ticking = true ∧
    ((sState .idle).chan 0).ticking = false := by decide
theorem test_lockstep : after (exec (.lockstepChecking 0 ⟨true, true, false, 0, false, 0x40⟩) up) (fun t => (t.core 0).flt.cause == 0x30 &&
      (t.core 0).flt.cls == 2 && (t.core 0).flt.charges == 1 && (t.core 0).flt.info == 0x40 && (ch0 t).flt.rbOrder && (ch0 t).flt.quar == 0) = true ∧
    after (exec (.lockstepChecking 0 ⟨true, true, false, 0, false, 0x40⟩) (cflt fun f => { f with charges := 1 }))
      (fun t => (t.core 0).flt.cls == 3 && (ch0 t).flt.quar == 1) = true := by decide +kernel
theorem test_selftest : after (exec (.cmpSelftest 0 0) (cflt fun f => { f with testing := true })) (fun t => t == up) = true ∧
    after (exec (.cmpSelftest 0 1) (cflt fun f => { f with testing := true })) (fun t => (t.core 0).flt.cause == 0x33 &&
      (t.core 0).flt.misses == 1 && (t.core 0).flt.cls == 4 && !(t.core 0).flt.cmpaOff) = true := by decide +kernel
def sQuar : State := onCh (flt fun f => { f with quar := 3, qwin := 0xF0 }) up
theorem test_driver : after (exec (.driverHalt 0) up) (fun t => (ch0 t).flt.cause == 0x56 && (ch0 t).flt.haltOrder.isSome) = true ∧
    after (exec (.quarantineRelease 0 1 0x30) sQuar) (fun t => (ch0 t).flt.quar == 3 && (ch0 t).flt.unquar == 1 && (ch0 t).flt.qwin == 0xC0) = true ∧
    after (exec (.quarantineRelease 0 1 0x30) (onCh (ctl fun x => { x with state := .idle }) sQuar))
      (fun t => (ch0 t).flt.quar == 2 && (ch0 t).flt.qwin == 0xC0) = true := by decide +kernel

/-! ### Survey and logbook -/

/-- A header, an ENGINE section with TD_SWITCH_MAX 50 and four inactive CHANNEL sections, as R191, R192, R200, R203 lay
them out; the sums of R194 and R195 computed outside the model. -/
def secOf (type scope crc : Nat) (b : List Byte) : List Byte :=
  natLe 2 type ++ natLe 2 scope ++ natLe 4 64 ++ natLe 4 crc ++ b ++ List.replicate (64 - b.length) 0
def imgHead (fprint crc : Nat) : List Byte :=
  [0x56, 0x58, 0x53, 0x56, 1, 0, 64, 0] ++ natLe 4 444 ++ natLe 2 5 ++ [0, 0] ++ natLe 8 fprint ++ List.replicate 36 0 ++ natLe 4 crc
def chSec (n crc : Nat) : List Byte := secOf 0x10 (0x1000 + n) crc [0, 0, 0, 24, 64, 0, 16, 16]
def imgWith (crc : Nat) : List Byte :=
  imgHead 0x2AC01C7D3FD700DB crc ++ secOf 1 0 0x1EEF70A5 [0, 0xFF, 50, 0, 105, 95, 125, 3] ++
  chSec 0 0x52290615 ++ chSec 1 0x0B4F3E7E ++ chSec 2 0xE0E576C3 ++ chSec 3 0xB9834EA8
def img0 : List Byte := imgWith 0x12FF9F77

def srv (g : Srv → Srv) (h : Txn → Txn) (s : State) : State := { s with srv := g s.srv, txn := h s.txn }
/-- A transaction whose shadow is an image. -/
def sTxnOf (img : List Byte) (st : SrvState) (h : Txn → Txn) (s : State) : State :=
  srv (fun v => { v with state := st, len := BitVec.ofNat 23 img.length, txn := 7, affected := 0xF })
    (fun t => h { t with shadow := smSetList 0 [] 0 img }) s
/-- The first bytes of the image, with its ENGINE section. -/
def sTxn : SrvState → (Txn → Txn) → State → State := sTxnOf (img0.take 140)

theorem test_crc : crc32 [0x31, 0x32, 0x33, 0x34, 0x35, 0x36, 0x37, 0x38, 0x39] = 0xCBF43926 := by decide +kernel
theorem wit_open : up.eng.hpReady = true ∧ up.srv.state = .idle ∧ (sTxn .open id up).srv.state = .open ∧
    (sTxn .open id up).srv.applyNs.toNat < 1000000000 ∧ (sTxn .open id up).txn.txnWrote = false ∧
    (sTxn .open id up).txn.committing = false ∧ (sTxn .open id up).txn.ready = none := by decide +kernel
theorem test_open : after (exec (.begin true) up) (fun t => t.srv.state == .open && t.srv.txn == 1 && t.srv.len == 0) = true ∧
    after (exec (.srvDataWrite 0x44332211) (sTxn .open id up)) (fun t => smGetList 0 t.txn.shadow 0 5 == [0x11, 0x22, 0x33, 0x44, 1] &&
      t.srv.addr == 1 && t.srv.len == 140) = true ∧
    after (exec .srvDataRead (sTxn .open id up)) (fun t => t.eng.rData == 0x56535856 && t.srv.addr == 1) = true ∧
    after (exec .rollback (sTxn .open id up)) (fun t => t.srv.state == .idle && t.srv.result == 2) = true := by decide +kernel
theorem wit_txn_write : (let s := sTxn .open id up
    (match (imgSecs (shadowImage s)).1.find? (fun y => y.type == 1 && y.scope == 0) with
    | some x => decide (4 + [(90 : Byte)].length ≤ x.blen ∧ (x.body.drop 4).take 1 ≠ [90])
    | none => false)) = true := by decide +kernel
theorem test_txn_write : after (exec (.txnWrite 1 0 4 [90]) (sTxn .open id up)) (fun t => t.txn.txnWrote && t.txn.dirty == [(1, 0)] &&
      smGet 0 t.txn.shadow 80 == 90) = true ∧
    after (exec (.commit true) (sTxn .open id up)) (fun t => t.srv.state == .validating && t.txn.applyNs.isNone) = true := by decide +kernel

/-- IMAGE_CRC in pieces of 55 bytes, the values between them computed outside the model. -/
theorem crc_step {c : Word} {l : List Byte} (n : Nat) (k : Word) (h : (l.take n).foldl crcByte c = k) :
    l.foldl crcByte c = (l.drop n).foldl crcByte k := by
  rw [← h, ← List.foldl_append, List.take_append_drop]
theorem img_crc : imgCrc img0 = 0x12FF9F77 := by
  have h : (img0.take 0x3C ++ img0.drop 0x40).foldl crcByte 0xFFFFFFFF = 0xED006088 :=
    (crc_step 55 0x09DEA7EB (by decide +kernel)).trans <| (crc_step 55 0x3C10CFF1 (by decide +kernel)).trans <| (crc_step 55 0x0C441DBD (by decide +kernel)).trans <| 
    (crc_step 55 0x23672EC9 (by decide +kernel)).trans <| (crc_step 55 0x3C8AD1B7 (by decide +kernel)).trans <| (crc_step 55 0xD64ECB1A (by decide +kernel)).trans <| 
    (crc_step 55 0x55192E6A (by decide +kernel)).trans <| (crc_step 55 0xED006088 (by decide +kernel)).trans <| by decide +kernel
  rw [imgCrc, crc32, h]; decide
theorem wit_validation : imgFail img0 (imgEnv up) = none := by
  unfold imgFail framingFail
  rw [img_crc]
  decide +kernel
theorem wit_validating : shadowImage (sTxnOf img0 .validating id up) = img0 := by decide +kernel
theorem wit_validation_fails : imgFail [] (imgEnv up) = some (1, 0, 0) := by decide +kernel
theorem test_validation : after (exec .validationEnd (sTxnOf [] .validating id up)) (fun t => t.srv.state == .open &&
    t.srv.result == 3 && t.srv.chkReason == 1) = true := by decide +kernel
/-- A logbook window too small for the 12 records and what stands beside them; one of 256 KiB. -/
def sLogged (size : Word) : State := { sTxn .validating id up with log := { Log.reset with size := size, base := 0x10000 } }
theorem wit_too_big : (sLogged 4096).log.size ≠ 0 ∧ 3 * (sLogged 4096).log.halfRecs < 8 * (imgNrec img0 + 4) ∧
    8 * (imgNrec img0 + 4) ≤ 3 * (sLogged 262144).log.halfRecs := by decide +kernel
/-- A PENDING attempt at 1 ms; the sample has been taken or not, every channel ready or not. -/
def sPlan (len : Nat) (ready : Option (BitVec 4)) (s : State) : State :=
  sTxnOf [] .pending (fun t => { t with planned := true, slotLen := len, ready := ready }) { s with srv := { s.srv with instant := 1000000 } }
def upIdle : State := { up with ch := ⟨ctl (fun x => { x with state := .idle }) up.ch.c0, ctl (fun x => { x with state := .idle }) up.ch.c1,
  ctl (fun x => { x with state := .idle }) up.ch.c2, ctl (fun x => { x with state := .idle }) up.ch.c3⟩ }
theorem wit_plan : (sPlan 1000000 (some 0xF) up).srv.state = .pending ∧ (sPlan 1000000 (some 0xF) up).txn.planned = true ∧
    (∀ n : ChanId, bitOf (sPlan 1000000 (some 0xF) up).srv.affected n.val = true ∧
      bitOf (sPlan 1000000 (some 0xF) up).txn.cancelled n.val = false ∧ (up.chan n).canCommit = true ∧ (upIdle.chan n).ticking = false) ∧
    (sPlan 1000000 (some 7) up).srv.tries.toNat < (sPlan 1000000 (some 7) up).srv.retry.toNat := by decide +kernel
theorem test_sample : after (exec .surveyBarrierSample (sPlan 1000000 none sFull)) (fun t => t.txn.ready == some 0xE) = true := by
  decide +kernel
theorem test_common_instant : after (exec .commonInstant (sPlan 1000000 (some 0xF) up)) (fun t => t.txn.image == some [] &&
      t.srv.state == .idle && t.srv.result == 1 && t.srv.tries == 1 && !(ch0 t).cfg.active &&
      (ch0 t).ctl.switched == some (ch0 up).cfg.late && (ar0 t).acc.gen == (ar0 up).acc.gen + 1 && (ch0 t).ctl.commits == (ch0 up).ctl.commits) = true ∧
    after (exec .commonInstant (sPlan 1000000 (some 7) up)) (fun t => t.srv.state == .pending && t.srv.notReady == 8 &&
      t.srv.tries == 1 && t.srv.instant == 2000000 && t.txn.image.isNone) = true := by decide +kernel
theorem test_apply_time : after (exec .applyTimeReached (sPlan 0 none upIdle)) (fun t => t.txn.image == some [] && t.srv.result == 1) = true ∧
    after (exec .commonInstant (srv (fun v => { v with tries := 3 }) id (sPlan 1000000 (some 7) up))) (fun t => t.srv.state == .idle &&
      t.srv.result == 5 && t.srv.tries == 4 && t.txn.image.isNone) = true := by decide +kernel

/-- A logbook of 2,048 records a half, 3 of the half in use written, one record waiting. -/
def rec0 : LogRec := { kind := 0x03, src := 1, sec := 5, ns := 6, payload := List.replicate 40 0xAA }
def lg (g : Log → Log) (s : State) : State := { s with log := g s.log }
def sLog : State := lg (fun l => { l with size := 262144, base := 0x10000, interval := 60, run := true, fill := 3, next := 9, engQ := [rec0] }) up
theorem wit_log : logReady sLog = true ∧ sLog.log.compacting = false ∧ sLog.log.trigger = false ∧ sLog.srv.state = .idle ∧
    sLog.log.fill.toNat < sLog.log.halfRecs ∧ isFatalRec rec0 = false ∧ srvBusy sLog = false ∧ sLog.boot.stage = 9 := by decide +kernel
theorem test_record : after (exec .logRecordWrite sLog) (fun t => t.log.next == 10 && t.log.fill == 4 && t.log.engQ == [] &&
    t.log.inflight.map (fun w => (w.2.1, w.2.2.take 16)) == [(0x403, [9, 0, 0, 0, 3, 1, 40, 0, 5, 0, 0, 0, 0, 0, 0, 0])]) = true := by
  decide +kernel
theorem test_compaction : after (exec .compact sLog) (fun t => t.log.compacting && t.log.snapHalf && t.log.snapFirst == 9 &&
      t.log.snapshot.map (·.kind) == [2, 4, 5]) = true ∧
    after (exec .compactionInterval sLog) (fun t => t.log.compacting && t.log.snapHalf) = true ∧
    after (exec .compact (lg (fun l => { l with compacting := true }) sLog)) (fun t => t.log.trigger) = true := by decide +kernel
theorem test_log_commands : after (exec .restart (lg (fun l => { l with fail := true, run := false, half := true }) sLog)) (fun t =>
      !t.log.fail && t.log.run && t.log.compacting && !t.log.snapHalf) = true ∧
    after (exec .checkpoint sLog) (fun t => t.log.engQ.map (·.kind) == [3, 5]) = true ∧
    after (exec .trim sLog) (fun t => t.log.engQ.map (fun r => r.payload.take 8) == [List.replicate 8 0xAA, [0x55, 0x55, 0xD5, 8, 2, 0, 0, 0]]) = true := by
  decide +kernel
theorem test_restart_without : after (exec .restart (lg (fun l => { l with size := 0, fail := true }) sLog)) (fun t => !t.log.fail && !t.log.compacting) = true := by
  decide +kernel
theorem test_log_halt : after (exec .logHalt sLog) (fun t => !t.log.run && t.log.engQ == [rec0]) = true ∧
    after (exec .logHalt (lg (fun l => { l with inflight := [(.plain, 1, [])] }) sLog)) (fun t => t.log.run && t.log.haltReq) = true ∧
    after (exec .trim (lg (fun l => { l with fail := true }) sLog)) (fun t => t.log.dropped == 1) = true := by decide +kernel

def sFly (d : LogDest) : State := lg (fun l => { l with inflight := [(d, 0x403, []), (.plain, 0x404, [])] }) sLog
theorem wit_fly : (sFly .plain).log.haltReq = false ∧ (sFly .plain).flt.fatal = false ∧ (sFly .plain).recov.lateW = 0 ∧
    (sFly .plain).recov.staleW = 0 := by decide
theorem test_write_end : after (exec (.initiatorWriteCompletion true) (sFly .plain)) (fun t => t.log.inflight.length == 1 && t.log.run) = true ∧
    after (exec (.initiatorWriteCompletion true) (sTxn .pending (fun t => { t with committing := true }) (sFly (.commit 7))))
      (fun t => t.srv.state == .idle && t.srv.result == 1) = true ∧
    after (exec (.initiatorWriteCompletion true) (sTxn .pending (fun t => { t with committing := true }) (sFly (.commit 6))))
      (fun t => t.srv.state == .pending && t.txn.committing) = true ∧
    after (exec (.initiatorWriteCompletion true) (lg (fun l => { l with compacting := true, snapHalf := true, snapFirst := 5 }) (sFly .marker)))
      (fun t => !t.log.compacting && t.log.half && t.log.fill == 4) = true ∧
    after (exec (.initiatorWriteCompletion false) (sTxn .logging id (sFly (.srvSection 7)))) (fun t => t.log.fail && !t.log.run &&
      t.srv.state == .idle && t.srv.result == 6) = true := by decide +kernel
theorem test_write_timeout : after (exec (.initiatorTimeout true) (sFly .plain)) (fun t => t.log.fail && t.recov.lateW == 1) = true ∧
    after (exec (.initiatorWriteCompletion true) { sFly .plain with recov := { Rec.reset with lateW := 1 } }) (fun t =>
      t.recov.lateW == 0 && t.log == (sFly .plain).log) = true := by decide +kernel
def sRec : State := { sLog with boot := { sLog.boot with stage := 8 }, recov := { Rec.reset with reading := some 0 } }
theorem test_recovery : after (exec (.initiatorReadCompletion true (List.replicate 64 0)) sRec) (fun t => t.recov.reading == some 2048 &&
      t.recov.got.length == 1) = true ∧
    after (exec (.initiatorReadCompletion false (List.replicate 64 0)) sRec) (fun t => t.boot.stage == 9 && t.boot.log == 3 && t.log.fail) = true ∧
    after (exec (.initiatorTimeout false) sRec) (fun t => t.boot.log == 3 && t.recov.lateR == 1) = true := by decide +kernel

/-! ### Time -/

/-- The time unit counts: TD0 at 5 s + 999,999,998.5 ns, TD1 at 7 s, channels running on TD0 or idle. -/
def sTd (s : State) : State := { s with
  tdc := { s.tdc with running := true }
  td := ⟨{ s.td.c0 with sec := 5, ns := 999999998, frac := 0x80000000 }, { s.td.c1 with sec := 7, adj := 0xFFFFFFFE, setSec := 9, setNs := 3 }⟩ }
def td0 (g : Td → Td) (s : State) : State := { s with td := { s.td with c0 := g s.td.c0 } }
def tdc (g : Tdc → Tdc) (s : State) : State := { s with tdc := g s.tdc }

theorem wit_tc : (sTd up).tdc.running = true ∧ (sTd up).clk.tpllLock = true ∧ (sTd up).eng.hpReady = true ∧
    (0 = (sTd up).tdc.ticksel ∧ ((sTd up).chan 0).ctl.state = .running) ∧ ∀ n : ChanId, ((sTd upIdle).chan n).ctl.state ≠ .running := by
  decide +kernel
/-- 999,999,998.5 ns + 2.034505208 ns carries into the seconds. -/
theorem test_tc : after (exec .tcIncrement (sTd up)) (fun t => t.td.c0.sec == 6 && t.td.c0.ns == 0 && t.td.c0.frac == 0x88D55555 &&
      t.td.c1.sec == 7 && t.td.c1.ns == 2) = true ∧
    after (exec .tcIncrement (td0 (fun x => { x with incNext := some (1, 5), stepNext := some (.load 8 9) }) (sTd up)))
      (fun t => t.td.c0.sec == 8 && t.td.c0.ns == 9 && t.td.c0.frac == 0 && t.td.c0.incInt == 1 && t.td.c0.incFrac == 5) = true ∧
    after (exec .tcIncrement (tdc (fun c => { c with phi := -3 }) (sTd up))) (fun t => t.tdc.phi == 0) = true := by decide +kernel
theorem test_increment : after (exec (.tdIncFracWrite 1 77) (sTd up)) (fun t => t.td.c1.heldFrac == some 77 && t.td.c1.incFrac == 0x08D55555) = true ∧
    after (exec (.tdIncIntWrite 0 3) (td0 (fun x => { x with heldFrac := some 77 }) (sTd up))) (fun t => t.td.c0.incNext == some (3, 77)) = true ∧
    after (exec (.tdIncIntWrite 0 4) (td0 (fun x => { x with heldFrac := some 77 }) (sTd up))) (fun t => t.td.c0.incNext.isNone &&
      t.td.c0.heldFrac.isNone) = true ∧
    after (exec (.tdNsRead 0) (sTd up)) (fun t => t.eng.rData == 999999998 && t.td.c0.latSec == 5 && t.td.c0.latFrac == 0x80000000) = true := by
  decide +kernel
theorem test_set : after (exec (.tdSet 1 false) (sTd up)) (fun t => t.td.c1.stepNext == some (.load 9 3)) = true ∧
    stays (.tdSet 0 false) (td0 (fun x => { x with setNs := 1000000000 }) (sTd up)) = true ∧
    after (exec (.tdSet 0 false) (td0 (fun x => { x with setSec := 6, setNs := 1 }) (sTd up)))
      (fun t => t.td.c0.sec == 6 && t.td.c0.ns == 1 && t.tdc.phi == 250000 * 2 ^ 32) = true ∧
    after (exec (.tdSet 0 false) (td0 (fun x => { x with setSec := 7, setNs := 1 }) (sTd up)))
      (fun t => t.tdc.refused && t.td.c0.sec == 5) = true := by decide +kernel
theorem test_adj : after (exec (.tdAdj 1 false) (sTd up)) (fun t => t.td.c1.stepNext == some (.add (-2))) = true ∧
    after (exec (.tdAdj 0 false) (td0 (fun x => { x with adj := 0xFFFFFFCE }) (sTd up)))
      (fun t => t.td.c0.ns == 999999948 && t.tdc.phi == -5000000 * 2 ^ 32) = true ∧
    after (exec (.tdAdj 0 false) (td0 (fun x => { x with adj := 51 }) (sTd up))) (fun t => t.tdc.refused && t.td.c0.ns == 999999998) = true := by
  decide +kernel

theorem test_pulses : after (exec (.ppsCapture 1) (sTd up)) (fun t => t.td.c0.cap1Ns == 999999998 && t.td.c1.cap1Sec == 7 && t.tdc.cap1 &&
      !t.tdc.cap0) = true ∧
    after (exec (.ppsCapture 0) (sTd up)) (fun t => t.td.c0.cap0Sec == 5 && t.tdc.cap0) = true ∧
    after (exec .ppsOutWidthEnd (tdc (fun c => { c with ppsOut := true }) up)) (fun t => t == up) = true := by decide +kernel
/-- A switch to TD1 held; TD1 far off, or 40 ns ahead. -/
def sHeld (s : State) : State := tdc (fun c => { c with held := true, heldTo := 1 }) (sTd s)
def sNear (s : State) : State := let t := sHeld s; { t with td := { t.td with c1 := { t.td.c1 with sec := 6, ns := 38, frac := 0x80000000 } } }
theorem wit_held : (sHeld up).tdc.held = true ∧ (50 : Int) * 100000 * 2 ^ 32 < tdDelta (sHeld up) 1 ∧ tdDelta (sNear up) 1 = 40 * 100000 * 2 ^ 32 := by
  decide +kernel
theorem test_recheck : after (exec .switchRecheck (sHeld upIdle)) (fun t => t.tdc.ticksel == 1 && t.tdc.phi == 0 && !t.tdc.held) = true ∧
    after (exec .switchRecheck (sNear up)) (fun t => t.tdc.ticksel == 1 && t.tdc.phi == 4000000 * 2 ^ 32 && !t.tdc.held) = true ∧
    stays .switchRecheck (sHeld up) = true ∧
    after (exec .force (sHeld up)) (fun t => t.tdc.forced) = true := by decide +kernel
/-- τ becomes TD1's 7 s; the next tick is the first instant at least half a slot of 1 ms away. -/
theorem test_forced : after (exec .switchRecheck (tdc (fun c => { c with forced := true }) (sHeld up))) (fun t => t.tdc.ticksel == 1 &&
    t.tdc.phi == 0 && (ch0 t).ctl.forcedTick == some 7001000000 && t.td.c0.sec == 5) = true := by decide +kernel

/-- 2024-02-29 12:34:56 UTC is 1,709,210,096; 1 s at OFFSET −1. -/
def cal (g : Cal → Cal) (s : State) : State := { s with cal := g s.cal }
def sCal : State := td0 (fun x => { x with sec := 1709210097, ns := 42 }) (cal (fun c => { c with offset := 0xFFFFFFFF }) (sTd up))
theorem test_calendar : after (exec .calDateRead sCal) (fun t => t.eng.rData == 0x07E8021D && t.cal.time == 0x000C2238 && t.cal.ns == 42) = true ∧
    after (exec .calDateRead (cal (fun c => { c with offset := 0xFFFFFFF0 }) (sTd up))) (fun t => t.cal.date == 0 && t.cal.time == 0) = true := by
  decide +kernel
def sSetCal (date time : Word) (s : State) : State := cal (fun c => { c with setDate := date, setTime := time }) s
/-- 2023-02-29 does not exist; the calendar is not set while DISC is 1, nor before the epoch less the offset. -/
theorem test_cal_set : after (exec (.calSet false) (sSetCal 0x07E8021D 0x000C2238 (sTd upIdle))) (fun t =>
      t.td.c0.stepNext == some (.load 1709210096 0) && !t.cal.reject) = true ∧
    after (exec (.calSet false) (sSetCal 0x07E7021D 0x000C2238 (sTd upIdle))) (fun t => t.cal.reject && t.cal.reason == 1) = true ∧
    after (exec (.calSet false) (sSetCal 0x07E8021D 0x000C2238 (td0 (fun x => { x with disc := true }) (sTd upIdle)))) (fun t => t.cal.reason == 2) = true ∧
    after (exec (.calSet false) (sSetCal 0x07B20101 0 (cal (fun c => { c with offset := 1 }) (sTd upIdle)))) (fun t => t.cal.reason == 3) = true := by
  decide +kernel

/-! ### Memory ports, cairns, pools -/

def mpReq (tag : Byte) (op : BitVec 2) (g : BitVec 42) (p : MpPurpose) : MpReq :=
  { tag := tag, op := op, granule := g, mask := 0, data := [], purpose := p, stale := false }
def desc0 : Desc := descOf 3 0 0 0 0 []
/-- A code fill, a store and a discarded request outstanding; the store's descriptor at 8 of 64 bytes. -/
def sMp : State := onCh (fun c => { c with
  dma := { c.dma with descs := [{ desc0 with len := 64, rows := 1, donePos := 8 }], xfers := [{
    order := 0, tag := 0, count := 1, addr := 0, ranges := [], burst := 1, part := 0, got := [], waiting := 0, bad := false, left := 1 }] }
  mp := { c.mp with retired := [{ tag := 9, quiet := false, free := false }], reqs := [mpReq 1 1 0x404 (.code 0 false), mpReq 2 2 7 (.store 3 8 56), mpReq 3 0 8 .dropped] } })
  (onCore (fun x => { x with icache := { x.icache with lines := [5], wait := some 0x404 } }) up)
def z64 : List Byte := List.replicate 64 0

theorem wit_mp : bitOf sMp.pwr.gating 0 = false ∧ z64.length = 64 ∧ (sMp.chan 0).mp.reqs.find? (fun x => x.tag == 2) = some (mpReq 2 2 7 (.store 3 8 56)) ∧
    (sMp.chan 0).mp.reqs.find? (fun x => x.tag == 3) = some (mpReq 3 0 8 .dropped) ∧
    (sMp.chan 0).mp.reqs.find? (fun x => x.tag == 1) = some (mpReq 1 1 0x404 (.code 0 false)) ∧
    (sMp.chan 0).mp.reqs.find? (fun x => x.tag == 9) = none ∧ (sMp.chan 0).live = true ∧
    ((up.chan 0).core 0).icache.wait ≠ some 0x404 := by decide +kernel
theorem test_response : after (exec (.mpResponse 0 2 0 z64) sMp) (fun t => (ch0 t).dma.descs.map (·.donePos) == [64] && (ch0 t).mp.reqs.length == 2) = true ∧
    after (exec (.mpResponse 0 3 1 z64) sMp) (fun t => (ch0 t).mp.reqs.length == 2 && (ch0 t).port == PortErr.reset) = true ∧
    after (exec (.mpResponse 0 1 0 z64) sMp) (fun t => (t.core 0).icache.lines == [5, 0x404] && (t.core 0).icache.wait.isNone) = true ∧
    after (exec (.mpResponse 0 9 0 z64) sMp) (fun t => (ch0 t).port.bits == 0x10) = true ∧
    after (exec (.mpResponse 0 8 0 z64) sMp) (fun t => (ch0 t).port.bits == 0x08) = true := by decide +kernel
def sMpFree : State := onCore (fun x => { x with icache := { x.icache with wait := none } }) sMp
theorem test_response_fails : after (exec (.mpResponse 0 1 2 z64) sMpFree) (fun t => (ch0 t).port.bits == 0x02 && (ch0 t).port.status == 2 &&
      (ch0 t).port.op == 1 && (ch0 t).port.addr == 0x404 && (ch0 t).port.valid) = true ∧
    after (exec (.mpTimeout 0 1) sMpFree) (fun t => (ch0 t).port.bits == 0x04 && (ch0 t).port.status == 3 &&
      (ch0 t).mp.retired.map (·.tag) == [9, 1]) = true := by decide +kernel
/-- The set of 0x404 holds four lines: the least recently used one leaves with a notice (R528). -/
def sEvict : State := onCore (fun x => { x with icache := { x.icache with lines := [0x004, 5, 0x104, 0x204, 0x304] } }) sMp
theorem test_evict : after (exec (.mpResponse 0 1 0 z64) sEvict) (fun t => (t.core 0).icache.lines == [5, 0x104, 0x204, 0x304, 0x404] &&
    (ch0 t).mp.answers == [(true, false, 4)]) = true := by decide +kernel
theorem test_snoop : after (exec (.snoop 0 5) sMp) (fun t => (t.core 0).icache.lines == [] && (ch0 t).mp.answers == [(false, true, 5)]) = true ∧
    after (exec (.snoop 0 6) sMp) (fun t => (t.core 0).icache.lines == [5] && (ch0 t).mp.answers == [(false, false, 6)]) = true := by decide +kernel
/-- A read slot with a fill wanted; the write class has nothing. -/
def sSlots : State := onCh (fun c => { c with dma := { c.dma with frame := [0, 1, 2] } })
  (onCore (fun x => { x with icache := { x.icache with wants := [0x404, 0x405] } }) up)
theorem wit_slots : (sSlots.chan 0).dma.frame[(sSlots.chan 0).dma.ptr.val]? = some 0 ∧ (readCand (sSlots.chan 0)).isSome = true ∧
    (writeCand (sSlots.chan 0)).isNone = true ∧ (sSlots.chan 0).fetching = none ∧ (sSlots.chan 0).remoteDesc = none ∧
    sSlots.clk.mpllLock = true ∧ (sSlots.chan 0).mp.tagFree 4 = true := by decide +kernel
theorem test_slots : after (exec (.memoryPortSlot 0 true 4) sSlots) (fun t => (ch0 t).mp.reqs == [mpReq 4 1 0x404 (.code 0 false)] &&
      (t.core 0).icache.wants == [0x405] && (ch0 t).dma.granRd == 1 && (ch0 t).dma.ptr == 1) = true ∧
    stays (.memoryPortSlot 0 false 4) sSlots = true ∧
    after (exec (.memoryPortSlot 0 true 4) (onCh (fun c => { c with dma := { c.dma with ptr := 1 } }) sSlots))
      (fun t => (ch0 t).dma.slotLost == 1 && (ch0 t).dma.ptr == 2) = true := by decide +kernel

/-- Cairn 7 takes the doorbell and DMA completions; its count is given. -/
def sCrn (x : Cairn) : State := onCh (fun c => { c.setCairn 7 x with crn := { (c.setCairn 7 x).crn with cfg := [(7, 0x22, 0x1FFFF)] } }) up
def bell (a : Byte) (x : Cairn) (p : State → Bool) : Bool := after (exec (.doorbell 0 7 a) (sCrn x)) p
theorem wit_cairn : (up.chan 0).live = true ∧ smWf Cairn.zero 0 ((sCrn { Cairn.zero with count := 5 }).chan 0).crn.cells = true ∧
    bitOf ((sCrn Cairn.zero).chan 0 |>.crnCfg 7).1 5 = true ∧ bitOf ((up.chan 0).crnCfg 7).1 5 = false := by decide +kernel
theorem test_doorbell : bell 3 { Cairn.zero with count := 5 } (fun t => ((ch0 t).cairn 7).count == 8 && ((ch0 t).cairn 7).outside == 3 &&
      ((ch0 t).cairn 7).applied == 1) = true ∧
    bell 3 { Cairn.zero with applied := 4, count := 5 } (fun t => ((ch0 t).cairn 7).count == 5 && ((ch0 t).cairn 7).sums == [0, 0, 0, 0, 0, 3] &&
      (ch0 t).crn.deferd == 1) = true ∧
    bell 3 { Cairn.zero with count := 0xFFFFFD } (fun t => ((ch0 t).cairn 7).count == 0xFFFFFF && ((ch0 t).cairn 7).err &&
      (ch0 t).crn.kind == 1 && (ch0 t).crn.cls == 5 && (ch0 t).flt.cause == 0x51) = true ∧
    after (exec (.doorbell 0 7 3) up) (fun t => (ch0 t).crn.cells == [] && (ch0 t).crn.kind == 2 && (ch0 t).flt.cause == 0x51) = true := by
  decide +kernel
theorem test_pending_sum : after (exec (.pendingSumApply 0 7) (sCrn { Cairn.zero with count := 5, sums := [9, 0, 0, 0, 0, 0] }))
      (fun t => ((ch0 t).cairn 7) == { Cairn.zero with count := 14, applied := 1 }) = true ∧
    stays (.pendingSumApply 0 7) (sCrn { Cairn.zero with count := 5, applied := 4, sums := [9, 0, 0, 0, 0, 0] }) = true := by decide +kernel
/-- The DMA queue waits for 4 of cairn 7. -/
def sWait (n : BitVec 24) : State := onCh (fun c => { c with dmaQ := { c.dmaQ with waiting := [
  { words := [0x00100007, 4], pusher := 0, addr := 0, repidx := 0, order := 0, feed := none }] } }) (sCrn { Cairn.zero with count := n })
theorem wit_wait : (((sWait 5).chan 0).headWait dmaQ).map waitCairn = some 7 ∧
    (∀ r : QId, r ≠ dmaQ → ((sWait 5).chan 0).headWait r = none) ∧ ∀ k : Fin 2, startStands (sWait 5) (mkCore 0 k) = false := by decide +kernel
theorem test_wait_evaluation : after (exec (.cairnWaitEvaluation 0 7) (sWait 5)) (fun t => ((ch0 t).cairn 7).count == 1 && (ch0 t).dmaQ.waiting == []) = true ∧
    after (exec (.cairnWaitEvaluation 0 7) (sWait 3)) (fun t => ((ch0 t).cairn 7).count == 3 && (ch0 t).dmaQ.waiting.length == 1) = true := by decide +kernel
/-- The descriptor of `sMp` done, with CEN and its cairn 7. -/
def sDone (cen : Bool) : State := onCh (fun c => { c with dma := { c.dma with
  descs := [{ desc0 with len := 64, rows := 1, donePos := 64, flags := if cen then 2 else 0, cairn := 7 }], xfers := ((sMp.chan 0).dma.xfers) } })
  (sCrn { Cairn.zero with count := 5 })
theorem test_descriptor_done : (((sDone true).chan 0).dma.descs.find? (fun e => decide (e.total ≤ e.donePos))).isSome = true ∧
    after (exec (.descriptorCompletion 0) (sDone true)) (fun t => (ch0 t).dma.descs == [] && ((ch0 t).cairn 7).count == 6 &&
      (ch0 t).dma.xfers.map (·.left) == [0]) = true ∧
    after (exec (.descriptorCompletion 0) (sDone false)) (fun t => (ch0 t).dma.descs == [] && ((ch0 t).cairn 7).count == 5) = true := by
  decide +kernel

/-- A pass of four vectors whose feed job has issued. -/
def pass0 : Pass :=
  { order := 4, isStep := false, prof := [], vecs := 4, slots := 1, fedOn := true, fed := 0, phase := .vec, asked := true, lines := 2, buf := []
    voidWs := [], initV := [], csel := [], mask := [], entries := [], emitted := 0, finals := [], finalsOut := false, deliv := [], err := false }
def sAcc (a : PoolAcc) : State := onPool (fun p => { p with mem := [(0x80, 7)], acc := [a] }) up
def rdAcc (client : BitVec 4) : PoolAcc := { client := client, line := 1, write := none, dest := .feed 0 4 }
def stAcc (client : BitVec 4) (dest : PoolDest) : PoolAcc := { client := client, line := 1, write := some [(0x81, 9)], dest := dest }
theorem wit_grant : (up.core 0).owner (1 % 16) ((up.chan 0).ctl.cc % 16) = clFeed 0 ∧ ((sAcc (rdAcc 0)).core 0).pool.bad = [] ∧
    (up.core 0).histWaits (clFeed 0) 1 = false ∧ (rdAcc 0).ofCc = false ∧ 16 ∈ lineWords 1 ∧ 16 ∈ (rdAcc 0).checks ∧
    ((sAcc (rdAcc 0)).core 0).pool.valid = false ∧ ((sAcc (rdAcc 0)).core 0).flt.valid = false ∧ (up.chan 0).live = true := by
  decide +kernel
theorem wit_grant_quiet : quietCc (up.chan 0) ∧ hostIdle up ∧ ((up.chan 0).core 1).pool.acc = [] := by unfold quietCc hostIdle; decide +kernel
theorem test_grant : after (exec (.poolAccessGrant 0 []) (sAcc (rdAcc 0))) (fun t => (po0 t).rdq.map (fun r => (r.data.take 2, r.due)) == [([7, 0], 3)] &&
      (po0 t).acc == [] && (ch0 t).ctl.cc == 1) = true ∧
    after (exec (.poolAccessGrant 0 []) (sAcc (rdAcc 1))) (fun t => (po0 t).rdq == [] && (po0 t).acc.length == 1) = true ∧
    after (exec (.poolAccessGrant 0 []) (sAcc (stAcc 0 .ccStore))) (fun t => (po0 t).mem == [(0x80, 7), (0x81, 9)] && (cc0 t).pos == 1) = true := by
  decide +kernel
/-- Two words of the line with a single-bit error; its first in double error, which a masked write leaves unwritten. -/
theorem test_grant_errors : after (exec (.poolAccessGrant 0 [⟨0, 1, 0x8001, 0⟩]) (sAcc (rdAcc 0))) (fun t => (po0 t).corr == 2 &&
      (po0 t).rdq.map (·.bads) == [[]]) = true ∧
    after (exec (.poolAccessGrant 0 [⟨0, 1, 0, 1⟩]) (sAcc (rdAcc 0))) (fun t => (po0 t).uncorr == 1 && (po0 t).word == 16 && (po0 t).client == 0 &&
      (t.core 0).flt.cause == 0x48 && (po0 t).rdq.map (·.bads) == [[16]]) = true ∧
    after (exec (.poolAccessGrant 0 [⟨0, 1, 0, 1⟩]) (sAcc (stAcc 0 (.window 0 1)))) (fun t => (po0 t).mem == [(0x80, 7)] && (po0 t).uncorr == 1) = true := by
  decide +kernel
def sRd (bads : List Nat) : State := onArr (fun a => { a with passes := [pass0] }) (onPool (fun p => { p with rdq := [
  { client := 0, line := 1, data := List.replicate 128 3, bads := bads, due := 3, dest := .feed 0 4 }] }) up)
theorem wit_read : pass0.code (pass0.fed % pass0.slots) ≠ 2 ∧ 2 ≤ pass0.lines ∧ pass0.phase ≠ .done := by decide
theorem test_read : after (exec (.poolReadData 0) (sRd [])) (fun t => (po0 t).rdq == [] && (ar0 t).passes.map (fun p => (p.lines, p.buf.length)) == [(1, 128)]) = true ∧
    after (exec (.poolReadData 0) (sRd [16])) (fun t => (ar0 t).passes.map (·.voidWs) == [[16]]) = true := by decide +kernel

/-! ### Radio, launch, peers -/

def rp (g : Rp → Rp) (s : State) : State := onCh (fun c => { c with rp := g c.rp }) s
/-- A SAMPLE frame of 8 values on stream 5, and one whose VALUES disagree with BEATS. -/
def sampFrame (v : Byte) : List Byte :=
  [2, 5, 0, 0, 1, 0] ++ List.replicate 10 0 ++ [v] ++ List.replicate 15 0 ++ (List.range 32).map (fun i => BitVec.ofNat 8 (i + 1))
def bigFrame : List Byte := [2, 5, 0, 0, 8, 0] ++ List.replicate 10 0 ++ [64] ++ List.replicate 271 0
/-- Ring 0 takes stream 6, ring 1 stream 5: two entries of two lines at line 16. -/
def ring (stream : Byte) (elines : BitVec 12) : Ring :=
  { Ring.reset with en := true, type := 2, stream := stream, core := 0, elines := elines, base := 16, nent := 1, next := 1, cairn := 7 }
def sRing (elines : BitVec 12) : State := rp (fun p => { p with rings := [ring 6 2, ring 5 elines, Ring.reset, Ring.reset] })
  (onCh (fun c => { c with crn := { c.crn with cfg := [(7, 4, 0x1FFFF)] } }) up)
theorem wit_radio : (sRing 2 |>.chan 0).rpEn = true ∧ (sampFrame 8).length = 64 ∧ frameBad (sampFrame 8) = false ∧ frameBad (sampFrame 9) = true ∧
    (sRing 2 |>.chan 0).ringBad (ring 5 2) = false := by decide +kernel
theorem test_radio_sample : after (exec (.sample 0 0x0102 (sampFrame 8)) (sRing 2)) (fun t => (po0 t).acc.map (fun a => (a.line, a.client)) == [(18, 5), (19, 5)] &&
      (po0 t).acc.map (fun a => (a.write.getD []).length) == [128, 32] && ((ch0 t).rp.rings.getD 1 Ring.reset).next == 0) = true ∧
    after (exec (.sample 0 0 (sampFrame 9)) (sRing 2)) (fun t => (ch0 t).port.bits == 0x200) = true ∧
    after (exec (.sample 0 0 bigFrame) (sRing 2)) (fun t => (ch0 t).rp.tooBig == 1) = true ∧
    after (exec (.sample 0 0 (sampFrame 8)) up) (fun t => (ch0 t).rp.noMatch == 1) = true := by decide +kernel
/-- The inbound buffer full: a frame that begins is an overrun (R92, R96); one beat left lets it begin, and the second
line waits. -/
theorem test_radio_credits : ((rp (fun p => { p with ifill := 128 }) (sRing 2)).chan 0).rp.credits = 0 ∧
    after (exec (.sample 0 0 (sampFrame 8)) (rp (fun p => { p with ifill := 128 }) (sRing 2))) (fun t => (ch0 t).port.bits == 0x400 && (po0 t).acc == []) = true ∧
    after (exec (.sample 0 0 (sampFrame 8)) (rp (fun p => { p with ifill := 127 }) (sRing 2))) (fun t => (po0 t).acc.map (·.line) == [18] &&
      (ch0 t).rp.inq.map (·.2.line) == [19] && (ch0 t).rp.ifill == 128) = true := by decide +kernel
theorem test_ring_entry : after (exec (.ringEntryWritten 0 1) (rp (fun p => { p with rings := [ring 6 2, { ring 5 2 with due := 1 }] }) (sRing 2)))
      (fun t => (ch0 t).rp.frames == 1 && ((ch0 t).cairn 7).count == 1 && ((ch0 t).rp.rings.getD 1 Ring.reset).due == 0) = true ∧
    after (exec (.radioOutboundCredit 0) up) (fun t => (ch0 t).rp.ocredit == 1) = true ∧
    after (exec (.radioOutboundCredit 0) (rp (fun p => { p with owed := 2 }) up)) (fun t => (ch0 t).rp.owed == 1 && (ch0 t).rp.ocredit == 0) = true ∧
    after (exec (.malformedRadioFrame 0) up) (fun t => (ch0 t).port.bits == 0x200) = true ∧
    after (exec (.radioInboundOverrun 0) up) (fun t => (ch0 t).port.bits == 0x400) = true := by decide +kernel

/-- Eligible frames of 64 bytes: one due at 5 s, one of TYPE 6 due at 3 s, one for a partner due at 5 s. -/
def frm (ty : Byte) (peer : Bool) (sec : BitVec 48) (serial : Nat) : Frame :=
  { order := serial, domain := 0, peer := peer, prov := false, src := 3, cen := false, cairn := 0, ns := 0, sec := sec, len := 64, core := 0
    data := if peer then [0x12, 0, 0, 0, 0, 1, 0, 0] ++ List.replicate 24 0 ++ List.replicate 32 7 else ty :: List.replicate 63 0
    elig := true, late := false, sfn := 0x123, slot := 9, serial := serial, whole := true }
def sFrames (fs : List Frame) : State := rp (fun p => { p with ocredit := 5 })
  (onCh (fun c => { c with lch := { c.lch with frames := fs } }) { up with td := { up.td with c0 := { up.td.c0 with sec := 5 } } })
def part0 : Partner := { Partner.reset with node := 0xAB, ver := 3, hisVer := 3, pstate := 2, state := 2, epoch := 4, hisEpoch := 6, measured := true
                                            lastHello := some 0 }
/-- Partner 0 in AGREE on a link that is up, with 40 credits. -/
def peers (g : PeerSt → PeerSt) (s : State) : State := onCh (fun c => { c with peers := g c.peers }) s
def withPeer (s : State) : State :=
  onCh (fun c => { c with peer := { c.peer with node := 0xCD } })
    (peers (fun p => { p with linkUp := true, ocredit := 40, parts := part0 :: List.replicate 7 Partner.reset }) s)
theorem wit_frames : frameDue (sFrames []) (frm 4 false 5 1) = true ∧ frameDue (sFrames []) (frm 4 false 6 1) = false ∧
    (radioBytes ((sFrames []).chan 0) (frm 4 false 5 1)).getD 0 0 = 4 ∧ ((withPeer (sFrames [])).chan 0).timed 0 = true ∧
    ((sFrames []).chan 0).timed 0 = false := by decide +kernel
theorem test_launch_radio : after (exec (.frameLaunch 0 false true) (sFrames [frm 4 false 5 1, frm 4 false 6 2])) (fun t =>
      (ch0 t).lch.frames.length == 1 && (ch0 t).lch.sent == 1 && (ch0 t).lch.slips == 1 && (ch0 t).rp.ocredit == 3 && (ch0 t).rp.owed == 0 &&
      (ch0 t).rp.lastOut.take 9 == [4, 0, 0, 0, 1, 0, 0x23, 1, 9] && (ch0 t).rp.sent == 1) = true ∧
    after (exec (.frameLaunch 0 false false) (sFrames [frm 4 false 5 1, frm 6 false 3 2])) (fun t => (ch0 t).rp.oType == 1 &&
      (ch0 t).lch.frames.map (·.serial) == [1] && (ch0 t).lch.sent == 0) = true ∧
    stays (.frameLaunch 0 false false) (rp (fun p => { p with ocredit := 0 }) (sFrames [frm 4 false 5 1])) = true := by decide +kernel
theorem test_launch_peer : after (exec (.frameLaunch 0 true false) (withPeer (sFrames [frm 0 true 5 1]))) (fun t => (ch0 t).lch.sent == 1 &&
      (ch0 t).peers.out.map (fun p => (p.len, p.body.win, p.body.core, p.body.offset)) == [(32, 2, 1, 256)]) = true ∧
    stays (.frameLaunch 0 true false) (peers (fun p => { p with owed := 1 }) (withPeer (sFrames [frm 0 true 5 1]))) = true ∧
    after (exec (.frameLaunch 0 true false) (sFrames [frm 0 true 5 1])) (fun t => (ch0 t).lch.refused == 1 && (ch0 t).peers.out == []) = true := by
  decide +kernel

def sPeer : State := withPeer up
def ctlPkt : CtlPkt := { type := 1, ver := 3, dest := 0xAB, body := [] }
theorem test_link : after (exec (.peerOutboundCredit 0) (peers (fun p => { p with ctl := [ctlPkt] }) sPeer)) (fun t => (ch0 t).peers.ctl == [] &&
      (ch0 t).peers.gone == [ctlPkt] && (ch0 t).peers.ocredit == 40) = true ∧
    after (exec (.peerOutboundCredit 0) sPeer) (fun t => (ch0 t).peers.ocredit == 41) = true ∧
    after (exec (.peerLinkUp 0) up) (fun t => (ch0 t).peers.linkUp && (ch0 t).peers.ocredit == 0) = true ∧
    after (exec (.peerOutboundCredit 0) (peers (fun p => { p with owed := 3 }) sPeer)) (fun t => (ch0 t).peers.owed == 2 && (ch0 t).peers.ocredit == 40) = true ∧
    after (exec (.peerLinkDown 0) sPeer) (fun t => !(ch0 t).peers.linkUp && (ch0 t).peers.ocredit == 0 && ((ch0 t).part 0).state == 0 &&
      (ch0 t).port.bits == 0x100) = true := by decide +kernel
/-- A window write that waits for a PEER slot which its bank does not have. -/
def sStuck : State := onCore (fun x => { x with
  cfg := { x.cfg with wheel := List.replicate 16 [0, 1, 2, 3, 4, 5, 6, 6] }
  pool := { x.pool with acc := [{ client := 7, line := 3, write := some [(0x180, 1)], dest := .window 0 1 }] } }) sPeer
theorem wit_stuck : (sStuck.core 0).hasSlot 7 (3 % 16) = false ∧ (sStuck.chan 0).peer.halted = false ∧ (sStuck.chan 0).flt.valid = false ∧
    (sPeer.chan 0).peer.node ≠ 5 ∧ ((sPeer.chan 0).part 0).node ≠ 5 := by decide +kernel
theorem test_port_errors : after (exec (.malformedPeerPacket 0) sPeer) (fun t => (ch0 t).port.bits == 0x20) = true ∧
    after (exec (.peerInboundOverrun 0) sPeer) (fun t => (ch0 t).port.bits == 0x40) = true ∧
    after (exec (.peerRxErr 0) sPeer) (fun t => (ch0 t).port.bits == 0x80) = true ∧
    after (exec (.peerPortHalt 0) sStuck) (fun t => (ch0 t).peer.halted && ((ch0 t).part 0).state == 0 && (ch0 t).flt.cause == 0x53 &&
      (ch0 t).flt.rbOrder) = true := by decide +kernel
theorem test_node : after (exec (.peerNodeWrite 0 none 5) sPeer) (fun t => (ch0 t).peer.node == 5 && ((ch0 t).part 0).state == 0) = true ∧
    stays (.peerNodeWrite 0 none 0xCD) sPeer = true ∧
    after (exec (.peerNodeWrite 0 (some 0) 5) sPeer) (fun t => (ch0 t).part 0 == { Partner.reset with node := 5, epoch := 4 }) = true := by decide +kernel

def hdr (v : Byte) (from_ : Word) : PktHdr := { ver := v, snode := from_, dnode := 0xCD }
theorem wit_partner : (sPeer.chan 0).peerUp = true ∧ (sPeer.chan 0).entryOf 0xAB = some 0 ∧ (sPeer.chan 0).entryOf 0xAC = none ∧
    ((sPeer.chan 0).part 0).closed = false ∧ tauNs sPeer ≤ 0 + 3000000 ∧ ((sPeer.chan 0).part 0).hisFp = surveyFp sPeer := by decide +kernel
theorem test_hello : after (exec (.hello 0 (hdr 3 0xAB) 0 0 2 7) sPeer) (fun t => ((ch0 t).part 0).hellos == 1 && ((ch0 t).part 0).hisEpoch == 7 &&
      ((ch0 t).part 0).state == 2) = true ∧
    after (exec (.hello 0 (hdr 3 0xAB) 0 9 2 7) sPeer) (fun t => ((ch0 t).part 0).state == 4) = true ∧
    after (exec (.hello 0 (hdr 3 0xAC) 0 9 2 7) sPeer) (fun t => (ch0 t).peer.strangers == 1) = true ∧
    after (exec (.fprint 0 (hdr 3 0xAB) 9) sPeer) (fun t => ((ch0 t).part 0).state == 4) = true ∧
    after (exec (.fprint 0 (hdr 2 0xAB) 9) sPeer) (fun t => (ch0 t).port.bits == 0x20 && ((ch0 t).part 0).state == 2) = true := by decide +kernel
/-- R635: T1 1,000, T2 1,400, RES 20, T4 1,500: ((1,400 − 1,000) − (1,500 − 1,400 − 20)) / 2 = 160 ns. -/
theorem test_time_packets : after (exec (.timeReply 0 (hdr 3 0xAB) 20 1000 1400 1500) sPeer) (fun t => ((ch0 t).part 0).offset == 160 &&
      ((ch0 t).part 0).state == 3 && ((ch0 t).part 0).measured) = true ∧
    after (exec (.timeRequest 0 (hdr 3 0xAB) 0x0102 0x33) sPeer) (fun t => (ch0 t).peers.gone.map (fun p => p.body.take 8) ==
      [[1, 0x33, 0, 0, 2, 1, 0, 0]] && (ch0 t).peers.ocredit == 39) = true ∧
    after (exec (.close 0 (hdr 3 0xAB) 1) sPeer) (fun t => ((ch0 t).part 0).state == 0 && ((ch0 t).part 0).closed) = true := by decide +kernel
/-- With the inbound buffer full no packet is taken (R99). -/
theorem test_partner_overrun : after (exec (.close 0 (hdr 3 0xAB) 1) (peers (fun p => { p with ifill := 64 }) sPeer)) (fun t => (ch0 t).port.bits == 0x40 &&
    ((ch0 t).part 0).state == 2) = true := by decide +kernel
theorem test_partner_timers : after (exec (.partnerLost 0 0) sPeer) (fun t => ((ch0 t).part 0).state == 6) = true ∧
    after (exec (.peerHelloTimer 0) sPeer) (fun t => (ch0 t).peers.gone.map (·.type) == [1, 3] && (ch0 t).peers.ocredit == 38) = true := by decide +kernel

/-- Window 4 is a pool region of 256 bytes at 0x1000, window 5 a region of 16 words at 100 of array 0's file. -/
def sWin : State :=
  let w4 : PeerWin := { id := 4, kind := 0, cairn := 7, offset := 0x1000, length := 256 }
  let w5 : PeerWin := { id := 5, kind := 1, cairn := 7, offset := 100, length := 16 }
  onCore (fun x => { x with cfg := { x.cfg with wins := [w4, w5] } }) (peers (fun p => { p with lastSeen := [(4, 10), (5, 10)] }) sPeer)
def body (win : BitVec 4) (coll : Bool) (seq : Word) (tag : BitVec 16) : DataBody :=
  { win := win, core := 0, coll := coll, timed := false, late := false, epoch := 4, seq := seq, offset := 0x40, tag := tag
    payload := [1, 0, 0, 0, 0, 0, 0, 0, 2, 0, 0, 0, 0, 0, 0, 0] }
theorem wit_data : seqNewer 11 (smGet 0 (sWin.chan 0).peers.lastSeen 4) = true ∧ seqNewer 10 (smGet 0 (sWin.chan 0).peers.lastSeen 4) = false ∧
    ((sWin.chan 0).window 0 4).isSome = true ∧ (sWin.chan 0).window 0 6 = none ∧ pktLast (body 4 false 11 0) = 0x4F ∧
    100 + pktLast (body 5 true 11 0) / 8 < ((sWin.core 0).arr 0).accTop ∧ (3 : BitVec 16) ≠ slotTag sWin 0 := by decide +kernel
theorem test_write_win : after (exec (.writeWin 0 (hdr 3 0xAB) (body 4 false 11 0)) sWin) (fun t => (ch0 t).peers.winJobs.map (fun j => (j.cairn, j.first, j.last)) ==
      [(7, 0, 0)] && (po0 t).acc.map (fun a => (a.client, a.line)) == [(7, 32)] && smGet 0 (ch0 t).peers.lastSeen 4 == 11) = true ∧
    after (exec (.writeWin 0 (hdr 3 0xAB) (body 4 false 10 0)) sWin) (fun t => (ch0 t).peer.dups == 1 &&
      (ch0 t).peers.gone.map (fun p => p.body.take 8) == [[4, 1, 4, 0, 10, 0, 0, 0]]) = true ∧
    after (exec (.writeWin 0 (hdr 3 0xAB) (body 6 false 11 0)) sWin) (fun t => (ch0 t).peer.errValid && (ch0 t).peer.errStatus == 2 &&
      ((ch0 t).part 0).refused == 1) = true := by decide +kernel
theorem test_acc_into : after (exec (.accInto 0 (hdr 3 0xAB) (body 5 false 11 0)) sWin) (fun t => (ar0 t).arrivals.map (fun r => (r.word, r.vals)) ==
      [(108, [.fin 1, .fin 2])] && (ch0 t).peers.winJobs.length == 1) = true ∧
    after (exec (.accInto 0 (hdr 3 0xAB) (body 5 true 11 3)) sWin) (fun t => (ch0 t).peers.holds.length == 1 && (ch0 t).peer.held == 1 &&
      (ar0 t).arrivals == []) = true := by decide +kernel
def outPkt (sent : Bool) (dma psend : Option Nat) : OutPkt :=
  { serial := 8, entry := 0, acc := false, body := { body 4 false 9 0 with epoch := 6 }, len := 16, ends := none, split := false, dma := dma
    psend := psend, wait := false, sent := sent }
def sOutPkt (p : OutPkt) : State := peers (fun q => { q with out := [p] }) (onCh (fun c => { c with dma := { c.dma with
  descs := [{ desc0 with len := 64, rows := 1, donePos := 8 }] } }) sWin)
/-- R97–R99: a packet leaves on the credits held and the rest is owed; a full inbound buffer turns a packet away. -/
theorem test_flits : after (exec (.peerPacketSend 0 false) (peers (fun p => { p with ocredit := 1 }) (sOutPkt (outPkt false none none)))) (fun t =>
      (ch0 t).peers.ocredit == 0 && (ch0 t).peers.owed == 1) = true ∧
    stays (.peerPacketSend 0 false) (peers (fun p => { p with ocredit := 0 }) (sOutPkt (outPkt false none none))) = true ∧
    ((peers (fun p => { p with ifill := 64 }) sWin).chan 0).peers.credits = 0 ∧
    after (exec (.writeWin 0 (hdr 3 0xAB) (body 4 false 11 0)) (peers (fun p => { p with ifill := 64 }) sWin)) (fun t => (ch0 t).port.bits == 0x40 &&
      (ch0 t).peers.winJobs == []) = true ∧
    after (exec (.writeWin 0 (hdr 3 0xAB) (body 4 false 11 0)) (peers (fun p => { p with ifill := 63 }) sWin)) (fun t => (po0 t).acc == [] &&
      (ch0 t).peers.inq.map (·.flits) == [2]) = true := by decide +kernel
theorem test_ack : after (exec (.ack 0 (hdr 3 0xAB) 4 0 6 9) (sOutPkt (outPkt true (some 3) none))) (fun t => (ch0 t).peers.out == [] &&
      (ch0 t).dma.descs.map (·.donePos) == [24]) = true ∧
    after (exec (.ack 0 (hdr 3 0xAB) 4 2 6 9) (sOutPkt (outPkt true none none))) (fun t => (ch0 t).peers.out == [] && (ch0 t).peer.errValid &&
      (ch0 t).peer.errStatus == 2 && !(ch0 t).peer.errSide) = true ∧
    after (exec (.peerPacketSend 0 false) (sOutPkt (outPkt false none none))) (fun t => (ch0 t).peers.out.map (fun p => (p.sent, p.body.seq, p.body.epoch)) ==
      [(true, 1, 6)] && (ch0 t).peers.ocredit == 38 && (ch0 t).peers.sentTo == 1) = true := by decide +kernel
def sLedger : State := onCh (fun c => c.setCairn 7 { Cairn.zero with count := 5 }) (peers (fun p => { p with ledger := [(4, 3, 2, 0, 1)] }) sWin)
theorem test_void_slot : after (exec (.voidSlot 0 (hdr 3 0xAB) 3) sLedger) (fun t => ((ch0 t).cairn 7).count == 3 && (ch0 t).peer.staleValid &&
      (ch0 t).peer.staleTag == 3 && (ch0 t).peers.ledger == []) = true ∧
    after (exec (.voidSlot 0 (hdr 3 0xAB) 4) sLedger) (fun t => ((ch0 t).cairn 7).count == 5 && (ch0 t).peers.ledger.length == 1) = true := by decide +kernel

/-! ### Station commands -/

/-- What CmdAt asks of a state, as values; and that nothing keeps the head back. -/
def headOk (s : State) (n : ChanId) (q : QId) (o : Nat) (h : Cmd) (rest : List Cmd) : Bool :=
  (s.chan n).working && decide (((s.chan n).queue q).waiting = h :: rest) && h.feed.isNone && !(s.chan n).siphonCopy q h &&
  !(s.chan n).gateHeld q && !(s.chan n).feedStopped q && h.opc == o && match layoutOf (stationOf q) o (h.w 1) with
    | some l => h.formOk l
    | none => false
theorem cmdAt_of {s n q o h rest} (e : headOk s n q o h rest = true) : CmdAt s n q o h rest := by
  simp only [headOk, Bool.and_eq_true, decide_eq_true_eq, Option.isNone_iff_eq_none, Bool.not_eq_true', beq_iff_eq] at e
  obtain ⟨⟨⟨⟨⟨⟨⟨a, b⟩, c⟩, d⟩, f⟩, p⟩, g⟩, i⟩ := e
  split at i
  · exact ⟨a, b, c, d, f, p, g, _, ‹_›, i⟩
  · cases i
def freeOk (s : State) (n : ChanId) (q : QId) (h : Cmd) : Bool :=
  (s.chan n).headFree q h && !(s.chan n).tieWait q h && !spansPast ((s.chan n).spans q h)

def cmdOf (ws : List Word) : Cmd := { words := ws, pusher := 0, addr := 0x40, repidx := 2, order := 6, feed := none }
/-- The command at the head of a queue of channel 0. -/
def sAt (q : QId) (ws : List Word) (s : State) : State := onCh (fun c => c.updQueue q fun y => { y with waiting := [cmdOf ws] }) s
def qu (q : QId) (s : State) : Queue := (ch0 s).queue q
def run (i : Instr) (q : QId) (ws : List Word) (s : State) (p : State → Bool) : Bool := after (exec i (sAt q ws s)) p
/-- It left its queue: issued, ended or not. -/
def went (q : QId) (ended : Bool) (t : State) : Bool := (qu q t).waiting == [] && (qu q t).issued.map (fun i => (i.ended, i.failed)) == [(ended, false)]
def halted (reason : Byte) (t : State) : Bool := (cc0 t).halt && (cc0 t).reason == reason && (cc0 t).haltAddr == 0x40 && (ch0 t).flt.haltOrder.isSome

/-- Cairn 7 at 5, owned by every queue. -/
def s7 : State := sCrn { Cairn.zero with count := 5 }
def feed0 : QId := feedQ 0 0
def arr0 : QId := arrQ 0 0
def gate0 : QId := gateQ 0 0
def lane0 : QId := laneQ 0
def wWait (n : Word) : List Word := [0x00100007, n]
def wSig (a : Word) : List Word := [0x00200007 + 2048 * a]
def sSig : State := onCh (fun c => { c with crn := { c.crn with cfg := [] } }) s7

theorem wit_queue_commands : CmdAt (sAt gate0 (wWait 5) s7) 0 gate0 1 (cmdOf (wWait 5)) [] ∧
    bitOf (((sAt gate0 (wWait 5) s7).chan 0).crnCfg 7).2 gate0.val = true ∧ CmdAt (sAt gate0 (wSig 3) sSig) 0 gate0 2 (cmdOf (wSig 3)) [] ∧
    bitOf ((sSig.chan 0).crnCfg 7).1 0 = true ∧ CmdAt (sAt gate0 [0x00300004] s7) 0 gate0 3 (cmdOf [0x00300004]) [] :=
  ⟨cmdAt_of (by decide +kernel), by decide +kernel, cmdAt_of (by decide +kernel), by decide +kernel, cmdAt_of (by decide +kernel)⟩
theorem test_wait : run (.wait 0 gate0) gate0 (wWait 5) s7 (fun t => ((ch0 t).cairn 7).count == 0 && qu gate0 t == Queue.empty) = true ∧
    stays (.wait 0 gate0) (sAt gate0 (wWait 6) s7) = true ∧ run (.wait 0 gate0) gate0 (wWait 0) s7 (halted 0x10) = true := by decide +kernel
theorem test_signal : run (.signal 0 gate0) gate0 (wSig 3) sSig (fun t => ((ch0 t).cairn 7).count == 8 && qu gate0 t == Queue.empty) = true ∧
    run (.signal 0 gate0) gate0 (wSig 0) sSig (halted 0x10) = true := by decide +kernel
/-- A CHAIN under way in GATE0, with a SIGNAL issued behind it; the SIGNAL alone. -/
def iss (ws : List Word) (ended failed : Bool) : Issued := { cmd := cmdOf ws, ranges := [], tilesR := 0, tilesW := 0, ended := ended, failed := failed }
def sIss (q : QId) (l : List Issued) (s : State) : State := onCh (fun c => c.updQueue q fun y => { y with issued := l }) s
theorem test_signal_later : run (.signal 0 gate0) gate0 (wSig 3) (sIss gate0 [iss [0x00800000, 0] false false] sSig)
      (fun t => ((ch0 t).cairn 7).count == 5 && (qu gate0 t).issued.length == 2) = true ∧
    after (exec (.signalApplied 0 gate0) (sIss gate0 [iss (wSig 3) false false] sSig)) (fun t => ((ch0 t).cairn 7).count == 8 &&
      qu gate0 t == Queue.empty) = true := by decide +kernel
/-- A BARRIER on ARR0, with an earlier command there and without. -/
theorem test_barrier : run (.barrier 0 gate0) gate0 [0x00300004] s7 (fun t => qu gate0 t == Queue.empty) = true ∧
    stays (.barrier 0 gate0) (sAt gate0 [0x00300004] (sIss arr0 [{ iss [0x00900000, 0] false false with cmd := { cmdOf [0x00900000, 0] with order := 2 } }] s7)) = true := by
  decide +kernel
theorem wit_completion : ((sIss arr0 [iss [0x5A900000, 0] true true] up).chan 0).workEnded arr0 (iss [0x5A900000, 0] true true) = true ∧
    ((sIss arr0 [iss [0x5A900000, 0] false false] up).chan 0).workEnded arr0 (iss [0x5A900000, 0] false false) = false := by decide +kernel
theorem test_completion : after (exec (.commandCompletion 0 arr0) (sIss arr0 [iss [0x5A900000, 0] true true] up)) (fun t => qu arr0 t == Queue.empty &&
      (ch0 t).flt.cause == 0x52 && (ch0 t).flt.info == 0x005A0002) = true ∧
    after (exec (.commandCompletion 0 arr0) (sIss arr0 [iss [0x5A900000, 0] true false] up)) (fun t => qu arr0 t == Queue.empty &&
      !(ch0 t).flt.valid) = true ∧
    after (exec (.cmdTimeout 0 arr0) (sAt arr0 [0x5A900000, 0] (onCh (fun c => { c with cfg := { c.cfg with cmdTimeout := 1024 } }) up)))
      (fun t => halted 0x21 t && (cc0 t).repIdx == 2 && (cc0 t).haltTag == 0x5A && (cc0 t).haltQ == 2) = true := by decide +kernel

/-- Bytes at pool offset 0x100: the words 0x3F000, 0xBF000, 0x12345. -/
def sImg : State := onPool (fun p => { p with mem := [(0x101, 0xF0), (0x102, 0x03), (0x105, 0xF0), (0x106, 0x0B), (0x108, 0x45), (0x109, 0x23), (0x10A, 0x01)] }) up
def wTload : List Word := [0x00808002, 0x00080100]
def wPload : List Word := [0x00800002, 0x100]
def wDload : List Word := [0x00C01401, 0x100]
def wDpload : List Word := [0x00D01400, 0x100]
def wLload : List Word := [0x00900203, 0x100]
theorem wit_loads : (CmdAt (sAt feed0 wTload sImg) 0 feed0 8 (cmdOf wTload) [] ∧ freeOk (sAt feed0 wTload sImg) 0 feed0 (cmdOf wTload) = true) ∧
    (CmdAt (sAt arr0 wPload sImg) 0 arr0 8 (cmdOf wPload) [] ∧ freeOk (sAt arr0 wPload sImg) 0 arr0 (cmdOf wPload) = true) ∧
    (CmdAt (sAt arr0 wDload sImg) 0 arr0 12 (cmdOf wDload) [] ∧ freeOk (sAt arr0 wDload sImg) 0 arr0 (cmdOf wDload) = true) ∧
    (CmdAt (sAt arr0 wDpload sImg) 0 arr0 13 (cmdOf wDpload) [] ∧ freeOk (sAt arr0 wDpload sImg) 0 arr0 (cmdOf wDpload) = true) ∧
    (CmdAt (sAt lane0 wLload sImg) 0 lane0 9 (cmdOf wLload) [] ∧ freeOk (sAt lane0 wLload sImg) 0 lane0 (cmdOf wLload) = true) :=
  ⟨⟨cmdAt_of (by decide +kernel), by decide +kernel⟩, ⟨cmdAt_of (by decide +kernel), by decide +kernel⟩,
   ⟨cmdAt_of (by decide +kernel), by decide +kernel⟩, ⟨cmdAt_of (by decide +kernel), by decide +kernel⟩,
   ⟨cmdAt_of (by decide +kernel), by decide +kernel⟩⟩
/-- A drain has yet to end, so that a load of the drip stores is kept back; and a load beyond the pool's end. -/
def sKept : State := onArr (fun a => { a with drains := [{ order := 1, word := 0, left := 1, done := 0, prof := [] }] }) sImg
theorem wit_kept : (ch0 (sAt arr0 wDload sKept)).headFree arr0 (cmdOf wDload) = false ∧
    spansPast ((ch0 (sAt arr0 [0x00800012, 0x7FF80] sImg)).spans arr0 (cmdOf [0x00800012, 0x7FF80])) = true := by decide +kernel
/-- A load that issues asks for its one line by its client. -/
def asks (q : QId) (client : BitVec 4) (len : Nat) (t : State) : Bool := went q false t && (t.core 0).loads.map (fun l => (l.off, l.len, l.left)) ==
  [(0x100, len, 1)] && (po0 t).acc == [{ client := client, line := 2, write := none, dest := .load 0 }]
theorem test_loads : run (.tload 0) feed0 wTload sImg (asks feed0 0 12) = true ∧ run (.pload 0) arr0 wPload sImg (asks arr0 0 128) = true ∧
    run (.dload 0) arr0 wDload sImg (asks arr0 0 8) = true ∧ run (.dpload 0) arr0 wDpload sImg (asks arr0 0 8) = true ∧
    run (.lload 0) lane0 wLload sImg (fun t => asks lane0 4 16 t && (t.core 0).lane.busy) = true := by decide +kernel
theorem test_load_refused : run (.dload 0) arr0 [0x00CFFC01, 0x100] sImg (halted 0x10) = true ∧ run (.pload 0) arr0 [0x00800012, 0x7FF80] sImg (halted 0x1D) = true ∧
    stays (.dload 0) (sAt arr0 wDload sKept) = true := by decide +kernel
/-- The line of the image arrives, `left` lines outstanding. -/
def line2 (bads : List Nat) : PoolRd := { client := 0, line := 2, data := (po0 sImg).bytes 0x100 128, bads := bads, due := 3, dest := .load 3 }
def load3 (q : QId) (ws : List Word) (len left : Nat) : Load := { id := 3, q := q, cmd := cmdOf ws, part := 0, off := 0x100, len := len, left := left, buf := [] }
def sLine (q : QId) (ws : List Word) (len left : Nat) (bads : List Nat) : State :=
  onCore (fun x => { x with loads := [load3 q ws len left], pool := { x.pool with rdq := [line2 bads] } }) (sIss q [iss ws false false] up)
theorem wit_lines : hostIdle (sLine feed0 wTload 12 1 []) ∧ lastLine ((sLine feed0 wTload 12 1 []).core 0) (line2 []) [] (load3 feed0 wTload 12 1) ∧
    ((sLine feed0 wTload 140 2 []).core 0 |>.loads.find? (fun y => y.id == 3)) = some (load3 feed0 wTload 140 2) ∧
    (32 ∈ words64 0x100 12 ∧ 32 ∈ (line2 [32]).bads) := by
  refine ⟨by unfold hostIdle; decide +kernel, ⟨by decide +kernel, by decide +kernel, by decide +kernel, by decide +kernel, by decide +kernel⟩, by decide +kernel, by decide +kernel⟩
def arrives (q : QId) (ws : List Word) (len : Nat) (p : State → Bool) : Bool :=
  after (exec (.poolReadData 0) (sLine q ws len 1 [])) fun t => went q true t && (t.core 0).loads == [] && p t
theorem test_lines : arrives feed0 wTload 12 (fun t => (t.core 0).lane.tiles == [(2080, 0x3F000), (2081, 0xBF000), (2082, 0x12345)]) = true ∧
    arrives arr0 wPload 128 (fun t => (ar0 t).profiles == [(64, 0x3F000), (65, 0xBF000), (66, 0x12345)]) = true ∧
    arrives arr0 wDload 8 (fun t => (ar0 t).drip.decay == [(5, 0x1F000), (6, 0x1F000)]) = true ∧
    arrives arr0 wDpload 8 (fun t => (ar0 t).drip.scale == [(5, 0x3F000)] && (ar0 t).drip.bias == [(5, 0xBF000)]) = true ∧
    arrives lane0 wLload 16 (fun t => (t.core 0).lane.store == [(3, 0x000BF0000003F000), (4, 0x12345)] && !(t.core 0).lane.busy) = true := by decide +kernel
theorem test_lines_more : after (exec (.poolReadData 0) (sLine feed0 wTload 140 2 [])) (fun t => (t.core 0).loads.map (fun l => (l.left, l.buf.length)) == [(1, 7)] &&
      (t.core 0).lane.tiles == []) = true ∧
    after (exec (.poolReadData 0) (sLine feed0 wTload 12 1 [32])) (fun t => (t.core 0).lane.tiles == [] && (t.core 0).loads == [] &&
      (qu feed0 t).issued.map (fun i => (i.ended, i.failed)) == [(true, true)]) = true := by decide +kernel

/-! ### Matrix commands -/

/-- Profiles 0 (MPASS, OVERWRITE, one pool row, words 40 and 168), 1 (STEP, DIRECT, 32 entries a slot), 2 (DRAIN to tile
register 1) and 3 (CHAIN of one issue). -/
def profs (a : Arr) : Arr :=
  let put (k : Nat) (l : List Word) (m : SMap Word) : SMap Word := l.zipIdx.foldl (fun m v => smSet 0 m (k + v.2) v.1) m
  { a with profiles := put 0 [0x00A03801, 1, 0, 0, 32, 0, 0, 0x00800028] (put 32 [0x00A01802, 1, 0, 0, 32, 32]
    (put 64 [3, 0, 0, 0, 0, 0, 0, 0, 8, 1] (put 96 [0x08000004, 0, 0, 0, 0, 32, 0, 0, 0, 0, 0, 0, 0, 0xFFFFFFFF] []))) }
/-- A chain of one stage: a state entry, ADD the immediate 1.0, to tile register 2, row 1. -/
def chainAdd : List Byte := [0x08, 0, 0, 0, 0x42, 0x0A, 0] ++ List.replicate 21 0 ++ [0x00, 0x0A, 0x00, 0x3F]
def sArr : State := onArr profs up
def wMpass : List Word := [0x00A00000, 0x200, 1]
def wStep : List Word := [0x00B00001, 0x200, 0x00010000]
def wDrain : List Word := [0x00E00002, 0x00030028]
/-- The canonical stores, as a value; and of every other state whose stores are these. -/
def wfOk (s : State) : Bool := decide (∀ c : CoreId, (s.core c).queues.length = 7) && decide (∀ n : ChanId, smWf Cairn.zero 0 (s.chan n).crn.cells = true) &&
  decide (∀ n : ChanId, smWf 0 0 (s.chan n).cores.c0.pool.mem = true ∧ smWf 0 0 (s.chan n).cores.c1.pool.mem = true)
theorem wf_of {s : State} (e : wfOk s = true) : s.storesWf := by
  simp only [wfOk, Bool.and_eq_true, decide_eq_true_eq] at e
  exact ⟨⟨e.2 0, e.2 1, e.2 2, e.2 3⟩, e.1.1, e.1.2⟩
theorem wit_passes_begin : (CmdAt (sAt arr0 wMpass sArr) 0 arr0 10 (cmdOf wMpass) [] ∧ freeOk (sAt arr0 wMpass sArr) 0 arr0 (cmdOf wMpass) = true ∧
      mpassBad (sArr.core 0) 0 (cmdOf wMpass) ((cmdOf wMpass).prof (ar0 sArr)) = none) ∧
    (CmdAt (sAt arr0 wStep sArr) 0 arr0 11 (cmdOf wStep) [] ∧ freeOk (sAt arr0 wStep sArr) 0 arr0 (cmdOf wStep) = true ∧
      stepBad (ch0 sArr) (sArr.core 0) 0 (cmdOf wStep) ((cmdOf wStep).prof (ar0 sArr)) = none) ∧
    (sAt arr0 wMpass sArr).storesWf ∧ (sAt arr0 wStep sArr).storesWf :=
  ⟨⟨cmdAt_of (by decide +kernel), by decide +kernel, by decide +kernel⟩,
   ⟨cmdAt_of (by decide +kernel), by decide +kernel, by decide +kernel⟩, wf_of (by decide +kernel), wf_of (by decide +kernel)⟩
theorem test_mpass : run (.mpass 0) arr0 wMpass sArr (fun t => went arr0 false t && (ar0 t).passes.map (fun p => (p.order, p.isStep, p.vecs, p.fedOn)) == [(6, false, 2, true)] &&
      (qu feed0 t).issued.map (·.cmd.feed) == [some 6]) = true ∧
    run (.mpass 0) arr0 [0x00A00000, 0x201, 1] sArr (halted 0x10) = true ∧
    run (.mpass 0) arr0 wMpass (onArr (fun a => { a with reg := { a.reg with faulted := true } }) sArr) (fun t => (ar0 t).passes == [] && qu feed0 t == Queue.empty &&
      (qu arr0 t).issued.map (fun i => (i.ended, i.failed)) == [(true, true)]) = true := by decide +kernel
theorem test_step : run (.step 0) arr0 wStep sArr (fun t => went arr0 false t && (ar0 t).passes.map (fun p => (p.order, p.isStep, p.vecs, p.slots)) == [(6, true, 2, 2)]) = true ∧
    run (.step 0) arr0 [0x00B00001, 0x200, 0x01FF0000] sArr (halted 0x18) = true := by decide +kernel
def sChn : State := onArr profs (upWith [chainAdd])
def wChain : List Word := [0x00800003, 1]
/-- D0 (tile register 3) takes the element index plus 5; the sum of those goes to tile register 4 and to q2. -/
def lprog (s : State) : State := onCore (fun x => { x with lane := { x.lane with store := smSetList 0 [] 0 [0x00005000040A5C0D, 0x000000000C000001] } }) s
def wLrun : List Word := [0x00818200, 0x10A30003, 0, 0, 0x40000004, 0x40000003]
/-- Two rows of one channel at 0x1000, scratch at 0x1100, the state at entry 0, into which the last row goes. -/
def wSiphon (final : Word) : List Word := [0x00A00004 + final, 1, 0x1000, 0x1100, 128, 0, 0]
def wInit : List Word := [0x00A00014, 1, 0x1000, 0x1100, 128, 0x100, 0]
/-- A SIPHON that holds GATE0 too. -/
def sBoth : State := sAt gate0 (wSiphon 0x20) (sAt lane0 (wSiphon 0x20) up)
/-- Its place in GATE0 that times out is answered for LANE (R402, R539). -/
theorem test_siphon_timeout : (ch0 sBoth).siphonCopy gate0 (cmdOf (wSiphon 0x20)) = true ∧
    after (exec (.cmdTimeout 0 gate0) (onCh (fun c => { c with cfg := { c.cfg with cmdTimeout := 1024 } }) sBoth)) (fun t => halted 0x21 t && (cc0 t).haltQ == 6) = true := by
  decide +kernel
theorem wit_station_work : (CmdAt (sAt arr0 wDrain sArr) 0 arr0 14 (cmdOf wDrain) [] ∧ freeOk (sAt arr0 wDrain sArr) 0 arr0 (cmdOf wDrain) = true ∧
      firstBad (dripBad (sArr.core 0) 0 ((cmdOf wDrain).prof (ar0 sArr)) 4) = none) ∧
    (CmdAt (sAt gate0 wChain sChn) 0 gate0 8 (cmdOf wChain) [] ∧ freeOk (sAt gate0 wChain sChn) 0 gate0 (cmdOf wChain) = true ∧
      chainBad (ch0 sChn) (sChn.core 0) 0 (cmdOf wChain) ((cmdOf wChain).prof (ar0 sChn)) = none) ∧
    (CmdAt (sAt lane0 wLrun (lprog up)) 0 lane0 8 (cmdOf wLrun) [] ∧ freeOk (sAt lane0 wLrun (lprog up)) 0 lane0 (cmdOf wLrun) = true ∧
      lrunBad ((lprog up).core 0).lane (cmdOf wLrun) = none ∧ lrunEdge ((lprog up).core 0) (cmdOf wLrun) = true) ∧
    (CmdAt sBoth 0 lane0 10 (cmdOf (wSiphon 0x20)) [] ∧ freeOk sBoth 0 lane0 (cmdOf (wSiphon 0x20)) = true) ∧
    (CmdAt (sAt lane0 wInit sImg) 0 lane0 10 (cmdOf wInit) [] ∧ freeOk (sAt lane0 wInit sImg) 0 lane0 (cmdOf wInit) = true) ∧
    siphonBad (siphonOf (wSiphon 0x20)) (ar0 up) = false ∧ siphonBad (siphonOf wInit) (ar0 up) = false :=
  ⟨⟨cmdAt_of (by decide +kernel), by decide +kernel, by decide +kernel⟩,
   ⟨cmdAt_of (by decide +kernel), by decide +kernel, by decide +kernel⟩,
   ⟨cmdAt_of (by decide +kernel), by decide +kernel, by decide +kernel⟩,
   ⟨cmdAt_of (by decide +kernel), by decide +kernel⟩, ⟨cmdAt_of (by decide +kernel), by decide +kernel⟩, by decide +kernel⟩
theorem test_drain_chain : run (.drain 0) arr0 wDrain sArr (fun t => went arr0 false t && (ar0 t).drains.map (fun d => (d.word, d.left)) == [(40, 4)]) = true ∧
    run (.drain 0) arr0 [0x00E00002, 0xFFFFFFFF] sArr (halted 0x15) = true ∧
    run (.chain 0) gate0 wChain sChn (fun t => went gate0 false t && (ar0 t).chainRun.map (fun d => (d.items, d.item, d.group)) == [(2, 0, 0)]) = true ∧
    run (.chain 0) gate0 wChain sArr (halted 0x1B) = true := by decide +kernel
theorem test_lrun_siphon : run (.lrun 0) lane0 wLrun (lprog up) (fun t => went lane0 false t && (t.core 0).lane.busy && (t.core 0).lane.run.isSome) = true ∧
    run (.lrun 0) lane0 wLrun (onCore (fun x => { x with lane := { x.lane with store := [(0, 0x3F)] } }) up) (halted 0x1C) = true ∧
    after (exec (.siphon 0 noErrors) sBoth) (fun t => went lane0 false t && went gate0 false t && (t.core 0).siph.gate && (t.core 0).siph.h0 == [0]) = true ∧
    run (.siphon 0 noErrors) lane0 wInit sImg (fun t => went lane0 false t && !(t.core 0).siph.gate && !(t.core 0).siph.primed &&
      (po0 t).acc.map (fun a => (a.client, a.line, a.dest)) == [(4, 2, .siphIn)]) = true ∧
    run (.siphon 0 noErrors) lane0 [0x00A00004, 0, 0x1000, 0x1100, 128, 0, 0] up (halted 0x1A) = true := by decide +kernel
def wWload : List Word := [0x00900500, 0x100]
def g0 : Staging := { order := 6, part := 0, logr := 0, w4 := false, col := false, logbs := 5, image := [9, 8, 7], left := 0, parity := false }
def sStage : State := onArr (fun a => { a with reg := { a.reg with staging := some g0 } }) (sIss arr0 [iss wWload false false] up)
/-- A pass of the partition issued before the WLOAD, with vectors still to enter. -/
def passOf (o : Nat) (p : Prof) (es : List FeedEntry) : Pass :=
  { order := o, isStep := false, prof := p, vecs := 2, slots := 2, fedOn := true, fed := 2, phase := .done, asked := false, lines := 0
    buf := [], voidWs := [], initV := [], csel := [], mask := [], entries := es, emitted := 0, finals := [], finalsOut := false
    deliv := [], err := false }
def sEarly : State := onArr (fun a => { a with passes := [passOf 3 [1] [{ v := 1, code := 0, slices := [] }]] }) sStage
theorem wit_weight_loads : CmdAt (sAt arr0 wWload sImg) 0 arr0 9 (cmdOf wWload) [] ∧ freeOk (sAt arr0 wWload sImg) 0 arr0 (cmdOf wWload) = true ∧
    wloadBad (ar0 sImg) (cmdOf wWload) = none ∧ ((ar0 sImg).partOf 0).isSome = true ∧ (ar0 sStage).passes = [] ∧
    (ar0 sEarly).passes.any (fun f => pfPart f.prof == 0 && decide (f.order < g0.order) && !f.entries.isEmpty) = true :=
  ⟨cmdAt_of (by decide +kernel), by decide +kernel, by decide +kernel⟩
/-- The last line of the image arrives; the swap has `left` cc to go. -/
def sSwap (left : Nat) (parity : Bool) : State := onArr (fun a => { a with reg := { a.reg with staging := some { g0 with left := left, parity := parity } } }) sStage
def sImage (bads : List Nat) : State := onCore (fun x => { x with
    loads := [{ load3 arr0 wWload 132 1 with buf := [(0x180, 6)] }], pool := { x.pool with rdq := [line2 bads] } })
  (onArr (fun a => { a with reg := { a.reg with staging := some { g0 with image := [] } } }) sStage)
theorem wit_swap : hostIdle (sSwap 1 false) ∧ hostIdle (sImage []) ∧ (∀ i : Fin 2, ((ch0 (sSwap 1 false)).core i).cc.stall = none ∧
      ((ch0 (sSwap 1 false)).core i).pool.acc = []) ∧ (ar0 (sSwap 1 false)).partOf 0 = some { first := 0, bands := 1, shapes := 0x3F, deflt := 0 } ∧
    (∀ b, arrChan b = 0 → b ≠ 0 → ((sSwap 1 false).arr b).reg.staging = none) ∧ 32 ∈ words64 0x100 132 := by unfold hostIdle; decide +kernel
theorem test_wload : run (.wload 0) arr0 wWload sImg (fun t => went arr0 false t && (ar0 t).reg.staging.map (fun g => (g.part, g.logr, g.logbs, g.w4, g.image)) ==
      some (0, 0, 5, false, []) && (t.core 0).loads.map (fun l => (l.off, l.left)) == [(0x100, 33)] && (po0 t).acc.length == 33) = true ∧
    run (.wload 0) arr0 [0x00900500, 0x101] sImg (halted 0x10) = true ∧ run (.wload 0) arr0 [0x00900507, 0x100] sImg (halted 0x13) = true ∧
    stays (.wload 0) (sAt arr0 wWload sStage) = true := by decide +kernel
theorem test_wload_lines : after (exec (.poolReadData 0) (sImage [])) (fun t => ((ar0 t).reg.staging.map fun g => (g.image.take 3, g.image.drop 128)) ==
      some ([0, 0xF0, 3], [6, 0, 0, 0]) && (t.core 0).loads == []) = true ∧
    after (exec (.poolReadData 0) (sImage [32])) (fun t => (ar0 t).reg.staging.isNone && (ar0 t).reg.reload == 1 &&
      (qu arr0 t).issued.map (fun i => (i.ended, i.failed)) == [(true, true)]) = true := by decide +kernel
theorem test_wload_swap : stays (.wloadSwap 0 false) sEarly = true ∧
    after (exec (.wloadSwap 0 true) sStage) (fun t => (ar0 t).reg.staging == some { g0 with left := 32, parity := true } && (ar0 t).reg.swapping == 1) = true ∧
    after (exec (.poolAccessGrant 0 []) (sSwap 2 false)) (fun t => ((ar0 t).reg.staging.map (·.left)) == some 1 && (ar0 t).reg.weights == []) = true ∧
    after (exec (.poolAccessGrant 0 []) (sSwap 1 false)) (fun t => (ar0 t).reg.staging.isNone && (ar0 t).reg.swaps == 1 && (ar0 t).reg.wloaded == 1 &&
      (ar0 t).reg.weights == [(0, 9), (1, 8), (2, 7)] && (qu arr0 t).issued.map (·.ended) == [true]) = true ∧
    after (exec (.poolAccessGrant 0 []) (sSwap 1 true)) (fun t => (ar0 t).reg.reload == 1 && (ar0 t).reg.parity == 1 && (ar0 t).flt.cause == 0x42) = true := by
  decide +kernel
/-- 4-bit weights in ROW blocks of one row of one column: the two elements of a byte take their own row's code. -/
theorem test_pair_codes :
    let g : Staging := { g0 with w4 := true, logbs := 0, image := [7] }
    [false, true].map (fun h => decide (g.code 0 0 0 0 h = 7)) = [true, true] := by decide +kernel

def wXfer : List Word := [0x00800001, 0x1000, 0]
/-- 32 bytes of FROM LANE, of gate 0 and of the pool, to the radio, provisional or not; a whole frame of 40 bytes
waits in the lane end. -/
def sSend : State := onCore (fun x => { x with ends := { x.ends with laneL := List.replicate 40 7 } }) sImg
def wFrame (f : Word) : List Word := [0x00800000 + f, 5, 0, 0x00010000, 0x100]
def wPsend (f : Word) (len : Word) : List Word := [0x00800000 + f, 0x100, 0x00301000, len]
/-- A partner is configured at entry 3. -/
def sPart : State := onCh (fun c => { c with peers := { c.peers with parts := c.peers.parts.set 3 { Partner.reset with node := 9 } } }) sSend
def sProv : State := onCh (fun c => { c with cfg := { c.cfg with prov := true } }) sSend
theorem wit_transfers : (CmdAt (sAt dmaQ wXfer up) 0 dmaQ 8 (cmdOf wXfer) [] ∧ freeOk (sAt dmaQ wXfer up) 0 dmaQ (cmdOf wXfer) = true) ∧
    (CmdAt (sAt launchQ (wFrame 0x10) sSend) 0 launchQ 8 (cmdOf (wFrame 0x10)) [] ∧ freeOk (sAt launchQ (wFrame 0x10) sSend) 0 launchQ (cmdOf (wFrame 0x10)) = true) ∧
    (CmdAt (sAt launchQ (wFrame 0x1C) sProv) 0 launchQ 8 (cmdOf (wFrame 0x1C)) [] ∧ freeOk (sAt launchQ (wFrame 0x1C) sProv) 0 launchQ (cmdOf (wFrame 0x1C)) = true) ∧
    (CmdAt (sAt peerQ (wPsend 0xC0 5000) sPart) 0 peerQ 8 (cmdOf (wPsend 0xC0 5000)) [] ∧ freeOk (sAt peerQ (wPsend 0xC0 5000) sPart) 0 peerQ (cmdOf (wPsend 0xC0 5000)) = true) ∧
    (sSend.core 0).edge 10 = true ∧ (sPart.chan 0).entryUsed 3 = true ∧ (sSend.chan 0).entryUsed 3 = false :=
  ⟨⟨cmdAt_of (by decide +kernel), by decide +kernel⟩, ⟨cmdAt_of (by decide +kernel), by decide +kernel⟩,
   ⟨cmdAt_of (by decide +kernel), by decide +kernel⟩, ⟨cmdAt_of (by decide +kernel), by decide +kernel⟩, by decide +kernel⟩
def sCut : State := onCore (fun x => { x with cfg := { x.cfg with connect := 0 } }) sSend
theorem test_xfer_frame : run (.xfer 0) dmaQ wXfer up (fun t => went dmaQ false t && (ch0 t).dma.xfers.map (fun x => (x.count, x.addr, x.left)) == [(2, 0x1000, 2)]) = true ∧
    run (.frame 0) launchQ (wFrame 0x10) sSend (fun t => went launchQ true t && (ch0 t).lch.frames.map (fun f => (f.data.length, f.whole, f.elig)) == [(32, false, false)] &&
      (t.core 0).ends.laneL == List.replicate 8 7) = true ∧
    run (.frame 0) launchQ (wFrame 0x1C) sProv (fun t => went launchQ false t && (ch0 t).lch.frames.map (fun f => (f.data, f.whole)) == [([], false)] &&
      (t.core 0).loads.map (fun l => (l.off, l.len)) == [(0x100, 32)] && (po0 t).acc.map (fun a => (a.client, a.line)) == [(5, 2)]) = true ∧
    run (.frame 0) launchQ (wFrame 0x10) sCut (halted 0x14) = true ∧ run (.frame 0) launchQ [0x00800010, 5, 0, 0, 0x100] sSend (halted 0x10) = true := by decide +kernel
/-- The data of a FRAME and of a PSEND packet arrive; the FRAME then completes. -/
def heldFrame (data : List Byte) (prov : Bool) : Frame := { frm 4 false 5 9 with order := 6, elig := false, whole := false, data := data, len := 32, prov := prov, serial := 0 }
def sFrameLine (bads : List Nat) : State := onCh (fun c => { c with lch := { c.lch with frames := [heldFrame [] true] } }) (sLine launchQ (wFrame 0x1C) 32 1 bads)
def sFrameEnd (prov permitted : Bool) : State := onCh (fun c => { c with cfg := { c.cfg with prov := permitted }, lch := { c.lch with frames := [heldFrame [1] prov], serial := 7 } })
  (sIss launchQ [iss (wFrame 0x1C) true false] up)
def sPacket (bads : List Nat) : State := peers (fun q => { q with out := [{ outPkt false none (some 6) with serial := 0, wait := true }] })
  (sLine peerQ (wPsend 0xC0 16) 16 1 bads)
theorem wit_frame_ends : hostIdle (sFrameLine []) ∧ lastLine ((sFrameLine []).core 0) (line2 []) [] (load3 launchQ (wFrame 0x1C) 32 1) ∧
    frameLate (sFrameEnd true true) { heldFrame [1] true with whole := true, serial := 7, sfn := 0, slot := 0 } = false := by
  refine ⟨by unfold hostIdle; decide +kernel, ⟨by decide +kernel, by decide +kernel, by decide +kernel, by decide +kernel, by decide +kernel⟩, by decide +kernel⟩
theorem test_frame_line : after (exec (.poolReadData 0) (sFrameLine [])) (fun t => (ch0 t).lch.frames.map (fun f => f.data.take 3) == [[0, 0xF0, 3]] &&
      (qu launchQ t).issued.map (·.ended) == [true]) = true ∧
    after (exec (.poolReadData 0) (sFrameLine [32])) (fun t => (ch0 t).lch.frames == [] && (qu launchQ t).issued.map (fun i => (i.ended, i.failed)) == [(true, true)]) = true ∧
    after (exec (.poolReadData 0) (sPacket [])) (fun t => (ch0 t).peers.out.map (fun p => (p.wait, p.body.payload.take 3)) == [(false, [0, 0xF0, 3])]) = true ∧
    after (exec (.poolReadData 0) (sPacket [32])) (fun t => (ch0 t).peers.out == [] && (qu peerQ t).issued.map (·.failed) == [true]) = true := by decide +kernel
theorem test_frame_end : after (exec (.commandCompletion 0 launchQ) (sFrameEnd true true)) (fun t => qu launchQ t == Queue.empty && (ch0 t).lch.serial == 8 &&
      (ch0 t).lch.frames.map (fun f => (f.whole, f.elig, f.serial)) == [(true, true, 7)]) = true ∧
    after (exec (.commandCompletion 0 launchQ) (sFrameEnd true false)) (fun t => (ch0 t).lch.provRef == 1 && (ch0 t).lch.frames.map (·.elig) == [false]) = true := by
  decide +kernel
theorem test_psend : run (.psend 0) peerQ (wPsend 0xC0 5000) sPart (fun t => went peerQ false t && (ch0 t).peers.out.map (fun p => (p.entry, p.len, p.body.offset, p.wait)) ==
      [(3, 4096, 0x1000, true), (3, 904, 0x2000, true)] && (t.core 0).loads.map (fun l => (l.off, l.len)) == [(0x100, 4096), (0x1100, 904)]) = true ∧
    run (.psend 0) peerQ (wPsend 0xC0 5000) sSend (fun t => (qu peerQ t).issued.map (·.failed) == [true] && (ch0 t).peer.errEntry == 3) = true ∧
    run (.psend 0) peerQ (wPsend 0x80 5000) sCut (halted 0x14) = true := by decide +kernel

/-! ### The datapath -/

def pMp : Prof := [0x00A03801, 1, 0, 0, 32, 0, 0, 0x00800028]
/-- Emitting to GATE0 (DIRECT), to tile register 1, and into the sibling's file. -/
def pDir : Prof := [0x00A01801, 1, 0, 0, 32]
def pTile : Prof := [0x00A01801, 1, 0, 0, 32, 0, 0, 0, 8, 1]
def pInto : Prof := [0x00A09801, 1, 0, 0, 32, 0, 0, 0x00800028]
def slice2 : Slice := { bytes := 2 :: List.replicate 31 0, codes := [0, 0, 0, 0] }
def ent1 : FeedEntry := { v := 1, code := 0, slices := [slice2] }
/-- A vector of 2 waits before weights of 3; nothing fed; the array frozen. -/
def sVec : State := onArr (fun a => { a with passes := [passOf 3 pMp [ent1]], reg := { a.reg with weights := [(0, 3)] } }) up
theorem wit_vector_enters : (ar0 sVec).nextPass 0 = some (passOf 3 pMp [ent1]) ∧ entryReady (sVec.core 0) 0 (passOf 3 pMp [ent1]) ent1 = true ∧
    entryFed (ar0 sVec) (passOf 3 pMp [ent1]) = true ∧ (ch0 sVec).working = true ∧
    entryReady ((onArr (fun a => { a with reg := { a.reg with faulted := true } }) sVec).core 0) 0 (passOf 3 pMp [ent1]) ent1 = false := by decide +kernel
theorem test_vector_entry : after (exec (.vectorEntry 0 0 .clean noErrors) sVec) (fun t => (ar0 t).outs.map (fun o => (o.v, o.vals.take 2, o.vals.length)) == [(1, [.fin 6, .fin 0], 128)] &&
      (ar0 t).reg.vecs == 1) = true ∧
    after (exec (.vectorEntry 0 0 (.weightParity false) noErrors) sVec) (fun t => (ar0 t).outs.map (fun o => o.vals.take 1) == [[.void]] && (ar0 t).reg.reload == 1 &&
      (ar0 t).flt.cause == 0x42) = true ∧
    after (exec (.vectorEntry 0 0 (.residue false 3 2 true) noErrors) sVec) (fun t => (ar0 t).outs == [] && (ar0 t).reg.faulted && (ar0 t).flt.info == 0x443) = true := by
  decide +kernel

/-- The same pass as a SPAN: its columns and the sibling's, each with its own errors. -/
def pSpan : Prof := [0x00A0B801, 1, 0, 0, 32, 0, 0, 0x00800028]
def sSpan : State := onArr (fun a => { a with passes := [passOf 3 pSpan [ent1]], reg := { a.reg with weights := [(0, 3)] } }) up
theorem wit_span : pfMode pSpan = 5 ∧ (ar0 sSpan).nextPass 0 = some (passOf 3 pSpan [ent1]) ∧ entryReady (sSpan.core 0) 0 (passOf 3 pSpan [ent1]) ent1 = true ∧
    entryFed (ar0 sSpan) (passOf 3 pSpan [ent1]) = true ∧ (ar0 sSpan).flt.valid = false ∧ ((sSpan.core 0).arr 1).flt.valid = false := by decide +kernel
theorem test_span : after (exec (.vectorEntry 0 0 (.weightParity true) noErrors) sSpan) (fun t => (ar0 t).outs.map (fun (o : OutVec) => (o.vals.take 1, o.sib.take 1)) ==
      [([.fin 6], [.void])] && (t.arr 1).reg.reload == 1 && (ar0 t).reg.reload == 0 && (t.arr 1).reg.vecs == 1) = true ∧
    after (exec (.vectorEntry 0 0 (.residue true 3 2 false) noErrors) sSpan) (fun t => (ar0 t).outs.map (fun (o : OutVec) => (o.vals.take 1, o.sib)) == [([.fin 6], [])] &&
      (t.arr 1).reg.faulted && !(ar0 t).reg.faulted && (ch0 t).flt.rbOrder) = true := by decide +kernel

def outOf (vals : List Acc) (ending : Bool) : OutVec := { order := 3, part := 0, v := 1, vals := vals, sib := [], codes := [], ending := ending }
def sVecOut (p : Prof) (isStep ending : Bool) : State := onArr (fun a => { a with
  passes := [{ passOf 3 p [] with isStep := isStep }]
  outs := [outOf [.fin 3, .fin 5] ending], drip := { a.drip with scale := [(0, 0x3F000), (1, 0x3F000)] } }) (upWith [chainAdd])
def sDrn (p : Prof) : State := onArr (fun a =>
  { (a.accPut 40 (a40Enc (.fin 1))) with
    drains := [{ order := 1, word := 40, left := 1, done := 0, prof := p }]
    drip := { a.drip with scale := [(0, 0x3F000)] } }) up
/-- STEPs of one chain, and of none. -/
def pSeq1 : Prof := [0x08A01802, 1, 0, 0, 32, 32, 0, 0, 0, 0, 0, 0, 0, 0xFFFFFFFF]
def pStep : Prof := [0x00A01802, 1, 0, 0, 32, 32, 0, 0, 8, 1]
theorem wit_drip_receives : (ar0 (sVecOut pDir false false)).passes.find? (fun p => p.order == 3) = some (passOf 3 pDir []) ∧
    ((sVecOut pDir false false).core 0).emitFill 0 + 2 ≤ 2048 ∧ ((sDrn []).core 0).emitFill 0 + drainChunk { order := 1, word := 40, left := 1, done := 0, prof := [] } ≤ 2048 ∧
    (ar0 (sVecOut pDir false false)).reg.faulted = false := by decide +kernel
theorem test_drip_modes : after (exec (.dripReceive 0 noErrors) (sVecOut pMp false false)) (fun t => (ar0 t).outs == [] && a40Dec ((ar0 t).accRaw 169) == .fin 5 && (ar0 t).drip.emit == []) = true ∧
    after (exec (.dripReceive 0 noErrors) (sVecOut pInto false false)) (fun t => (t.arr 1).arrivals.map (fun v => (v.word, v.vals)) == [(168, [.fin 3, .fin 5])]) = true ∧
    after (exec (.dripReceive 0 noErrors) (sVecOut pDir false false)) (fun t => (ar0 t).drip.emit == [0x40800, 0x41400] && (ar0 t).acc.scratch == []) = true ∧
    after (exec (.dripReceive 0 noErrors) (sVecOut pTile false false)) (fun t => (t.core 0).lane.tiles == [(1024, 0x40800), (1025, 0x41400)]) = true := by decide +kernel
theorem test_drip_steps : after (exec (.dripReceive 0 noErrors) (sVecOut pSeq1 true false)) (fun t => (ar0 t).streams.map (fun u => (u.v, u.slot, u.drip)) ==
      [(1, 1, [(0, 0x40800), (1, 0x41400)])]) = true ∧
    after (exec (.dripReceive 0 noErrors) (sVecOut pStep true true)) (fun t => (ar0 t).clears == [{ first := 32, count := 32, order := 3, slot := 1, due := 1 }]) = true ∧
    after (exec (.dripReceive 0 noErrors) (sDrn [])) (fun t => (ar0 t).drip.emit == [0x3F000] && (ar0 t).drains == []) = true ∧
    stays (.dripReceive 0 noErrors) up = true := by decide +kernel

/-- A pass with EMIT wrote two words in the cc that ends. -/
def sEmit : State := onArr (fun a => { ((a.accPut 168 (a40Enc (.fin 3))).accPut 169 (a40Enc (.fin 5))) with
  passes := [passOf 3 pMp []], emits := [{ order := 3, v := 1, word := 168, count := 2, ending := false }], drip := { a.drip with scale := [(0, 0x3F000), (1, 0x3F000)] } }) up
theorem wit_emit : (ar0 sEmit).acc.pend = [] ∧ (ar0 sEmit).passes.find? (fun p => p.order == 3) = some (passOf 3 pMp []) := by decide
theorem test_emit : ((((sEmit.core 0).nextCcArr 0 5).arr 0).drip.emit, (((sEmit.core 0).nextCcArr 0 5).arr 0).emits) = ([0x40800, 0x41400], []) := by
  decide +kernel

def arrive0 (src : Option Nat) : Arrival := { word := 40, vals := [.fin 1], src := src, peer := none, flits := 0, own := none }
/-- Looped elements 1.0 then zeros; two entries written. -/
def sSl : State := onArr (fun a => { a with slices := [{ order := 3, slot := 1, n := 0, prof := pStep, vals := 0x3F000 :: List.replicate 31 0 }] }) up
def sClr : State := onArr (fun a => { ((a.accPut (a.accS + 32) 5).accPut (a.accS + 64) 6) with clears := [{ first := 32, count := 32, order := 3, slot := 1, due := 0 }] }) up
theorem test_accumulate_into : after (exec (.accumulateInto 0 noErrors) (onArr (fun a => { (a.accPut 40 (a40Enc (.fin 4))) with arrivals := [arrive0 none, arrive0 none] }) up))
      (fun t => a40Dec ((ar0 t).accRaw 40) == .fin 5 && (ar0 t).arrivals.length == 1) = true ∧
    after (exec (.accumulateInto 0 noErrors) (onArr (fun a => { a with arrivals := [arrive0 (some 9)] }) up)) (fun t => a40Dec ((ar0 t).accRaw 40) == .fin 1) = true ∧
    stays (.accumulateInto 0 noErrors) up = true := by decide +kernel
/-- What the checks of an arrival's word, and of a state entry's group, find. -/
def sArrive (word : Nat) : State := onArr (fun a => { a with arrivals := [{ arrive0 none with word := word }] }) up
theorem wit_file : ((ar0 (sArrive 40)).intoNext.map fun w => (w.1.word, w.2)) = some (40, 1) ∧ smFind (ar0 (sArrive 40)).acc.upd 40 = none ∧
    (ar0 up).accS ≤ (ar0 up).accS + 5 ∧ ((ar0 up).accS + 5 - (ar0 up).accS) / 32 = 0 ∧
    (ar0 sClr).clears.find? (fun c => decide (c.due ≤ (ch0 sClr).ctl.cc)) = (ar0 sClr).clears.head? := by decide +kernel
theorem test_file_errors : after (exec (.accumulateInto 0 ⟨[⟨40, false⟩], []⟩) (sArrive 40)) (fun t => (ar0 t).acc.corr == 1 && a40Dec ((ar0 t).accRaw 40) == .fin 1) = true ∧
    after (exec (.accumulateInto 0 ⟨[⟨40, true⟩], []⟩) (sArrive 40)) (fun t => (ar0 t).acc.uncorr == 1 && (ar0 t).acc.eccWord == 40 && (ar0 t).flt.cause == 0x43 &&
      a40Dec ((ar0 t).accRaw 40) == .void) = true ∧
    after (exec (.accumulateInto 0 ⟨[], [0]⟩) (sArrive ((ar0 up).accS + 5))) (fun t => (ar0 t).reg.faulted && (ar0 t).acc.tagErr && (ar0 t).flt.cause == 0x41) = true := by
  decide +kernel
/-- Two arrivals of one cc overflow one by one and not together (R281): the range is checked on the exact sum. -/
theorem test_file_sum : a40Dec (((((ar0 up).accInto 40 (.fin 549755813886)).accInto 40 (.fin 5)).accInto 40 (.fin (-9))).accRaw 40) = .fin 549755813882 := by
  decide +kernel
theorem test_slice_clear : after (exec (.loopSliceReady 0) sSl) (fun t => (ar0 t).slices == [] && ((ar0 t).loopGet pStep 32 0).isSome) = true ∧ stays (.loopSliceReady 0) up = true ∧
    after (exec (.endStateClear 0 noErrors) sClr) (fun t => (ar0 t).clears == [] && (ar0 t).accRaw ((ar0 t).accS + 32) == 0 && (ar0 t).accRaw ((ar0 t).accS + 64) == 6) = true ∧
    stays (.endStateClear 0 noErrors) up = true := by decide +kernel

/-- A STEP of one looped row whose vector waits for its slice; the stream it then leaves; the CHAIN of profile 3,
entry 0 holding 3.0. -/
def pLoop : Prof := [0x08A01802, 0, 1, 0, 0, 0x00200020, 0, 0, 0, 0, 0, 0, 0, 0xFFFFFFFF]
def sPrime : State := onArr (fun a => { a with passes := [{ passOf 3 pLoop [{ v := 1, code := 0, slices := [] }] with isStep := true }] }) (upWith [chainAdd])
def strm0 : Stream := { order := 3, slot := 1, v := 1, ending := false, drip := [(0, 0x3F000)], entry := 0, group := 0, looped := [], inGate := true, stAt := 0 }
def run0 : ChainRun := { order := 6, prof := (cmdOf wChain).prof (profs Arr.reset), items := 1, item := 0, entry := 0, group := 0, deliv := [], drip := some []
                         started := true, isLocal := false, sum := .fin 0, sq := .fin 0 }
def sStrm : State := onArr (fun a => { (a.accPut (a.accS + 32) (a40Enc (.fin 3))) with passes := [{ passOf 3 pSeq1 [] with isStep := true }], streams := [strm0] }) (upWith [chainAdd])
def sRun : State := onArr (fun a => { (a.accPut a.accS (a40Enc (.fin 3))) with chainRun := [run0] }) (upWith [chainAdd])
theorem wit_gate_issues : ((ar0 sPrime).primeNext.map fun p => (p.2.1, p.2.2)) = some (1, 0) ∧ (sPrime.core 0).lent 0 = false ∧
    ((stepPick (ch0 sStrm) (sStrm.core 0) 0).map fun w => w.1.v) = some 1 ∧ (ar0 sStrm).primeNext = none ∧
    ((chainPick (ch0 sRun) (sRun.core 0) 0).map fun w => w.2.1.order) = some 6 ∧ stepPick (ch0 sRun) (sRun.core 0) 0 = none ∧
    chainPick (ch0 up) (up.core 0) 0 = none := by decide +kernel
theorem test_gate_issue : after (exec (.gateIssue 0 noErrors) sPrime) (fun t => (ar0 t).slices.map (fun g => (g.n, g.slot)) == [(0, 1)] && (ar0 t).stepReg.primes == 1) = true ∧
    after (exec (.gateIssue 0 noErrors) sStrm) (fun t => (t.core 0).lane.tiles.take 2 == [(2080, 0x41000), (2081, 0x3F000)] && (ar0 t).streams == [] &&
      (ar0 t).gate.issues == 1) = true ∧
    after (exec (.gateIssue 0 noErrors) sRun) (fun t => (t.core 0).lane.tiles.take 2 == [(2080, 0x41000), (2081, 0x3F000)] && (ar0 t).chainRun == []) = true ∧
    stays (.gateIssue 0 noErrors) up = true := by decide +kernel

/-- The SIPHON of one channel of two rows, 2.0 (decay) and 3.0 as its values, with the lines of its sweep. -/
def siphBuf : SMap Byte := smSetList 0 (smSetList 0 [] 0x1000 [0x00, 0x00, 0x04, 0x00, 0x00, 0x08, 0x04, 0x00]) 0x1100 [0, 0xF0, 3, 0, 0, 0xF0, 3, 0]
def sSweep (i : Nat) : State := onCore (fun x => { x with siph := { x.siph with
  busy := true, run := some (6, wSiphon 0), nextSweep := i, h0 := [0x3F000], primed := true, buf := siphBuf } }) (sIss lane0 [iss (wSiphon 0) false false] up)
def lrun0 (w : List Word) : LaneRun := { order := 6, words := w, round := 0, v := [], contrib := [], left := 0, buf := [], bads := [], done := false }
def sLane (w : List Word) : State := onCore (fun x => { x with lane := { x.lane with busy := true, run := some (lrun0 w) } }) (sIss lane0 [iss w false false] (lprog up))
/-- 65 elements, no reduction; and 4 with their sum to q2. -/
def wLong : List Word := [0x00800200, 0x10000040, 0, 0, 0, 0x40000003]
/-- A line of the sweep, and of the round, arrives. -/
def sSiphLine : State := onPool (fun p => { p with rdq := [{ client := clLane, line := 32, data := [5], bads := [512], due := 3, dest := .siphIn }] })
  (onCore (fun x => { x with siph := { x.siph with left := 2 } }) (sSweep 0))
def sLaneLine : State := onCore (fun x => { x with lane := { x.lane with run := some { lrun0 wLrun with left := 2 } }
                                                   pool := { x.pool with rdq := [{ client := clLane, line := 32, data := [5], bads := [], due := 3, dest := .laneIn }] } }) (sLane wLrun)
/-- What the writes of a sweep put in its bytes that are not zero. -/
def putBytes (t : State) : List (Nat × Byte) := (po0 t).acc.flatMap fun a => (a.write.getD []).filter fun e => e.2 != 0
theorem wit_sweeps_rounds : (ch0 (sSweep 0)).working = true ∧ (siphonOf (wSiphon 0)).d = 1 ∧ ((sSweep 0).core 0).pool.acc = [] ∧
    laneReady ((sLane wLrun).core 0) (lrun0 wLrun) = true ∧ lrunN (cmdOf wLrun) = 4 ∧ lrunN (cmdOf wLong) = 65 ∧
    ((sLane wLrun).core 0).lane.sumry = none ∧ lrunQen (cmdOf wLrun) = true ∧ lrunAxis (cmdOf wLrun) = 3 ∧ lrunQen (cmdOf wLong) = false := by decide +kernel
theorem test_siphon_sweep : after (exec (.siphonSweep 0 noErrors) (sSweep 0)) (fun t => (t.core 0).siph.nextSweep == 1 && putBytes t ==
      [(0x1005, 0x18), (0x1006, 4), (0x1105, 0x10), (0x1106, 4)]) = true ∧
    after (exec (.siphonSweep 0 noErrors) (sSweep 1)) (fun t => (t.core 0).siph.nextSweep == 2 && putBytes t == [(0x1101, 8), (0x1102, 4), (0x1105, 0x10), (0x1106, 4)]) = true ∧
    stays (.siphonSweep 0 noErrors) up = true := by decide +kernel
theorem test_siphon_lines : after (exec (.poolReadData 0) sSiphLine) (fun t => (t.core 0).siph.left == 1 && smGet 0 (t.core 0).siph.buf 0x1000 == 5 &&
      (t.core 0).siph.bads == [512]) = true ∧
    (let d := siphNext (ch0 (sSweep 1)) 0
     (d.core 0).pool.acc.map (fun a => (a.client, a.line)) = [(4, 32), (4, 34)] ∧ (d.core 0).siph.left = 2) ∧
    (let d := siphNext (ch0 (sSweep 2)) 0
     (d.core 0).siph.run = none ∧ (d.core 0).siph.passes = 1 ∧ (d.queue lane0).issued.map (·.ended) = [true]) := by decide +kernel
theorem test_lane_round : after (exec (.laneRound 0 false) (sLane wLrun)) (fun t => (t.core 0).lane.tiles == [(3072, 5), (3073, 6), (3074, 7), (3075, 8), (4096, 26)] &&
      (t.core 0).lane.sumry == some (2, 26) && (t.core 0).lane.rounds == 1) = true ∧
    after (exec (.laneRound 0 false) (sLane wLong)) (fun t => ((t.core 0).lane.run.map (·.round)) == some 1 && (t.core 0).lane.pc == 1) = true ∧
    after (exec (.poolReadData 0) sLaneLine) (fun t => ((t.core 0).lane.run.map fun r => (r.left, r.buf)) == some (1, [(0x1000, 5)])) = true ∧
    stays (.laneRound 0 false) up = true := by decide +kernel
/-- The summary of an LRUN whose rounds are over reaches q2, which two LRUNs pushed name. -/
def sSum : State := onCore (fun x => { x with lane := { x.lane with sumry := some (2, 26), run := some { lrun0 wLrun with done := true } }
                                              cc := { x.cc with r := { x.cc.r with qpend := [(2, 2)] } } }) (sLane wLrun)
theorem test_summary_write : after (exec (.summaryWrite 0) sSum) (fun t => smGet 0 (cc0 t).r.q 2 == 26 && (cc0 t).r.pends 2 && smGet 0 (cc0 t).r.qpend 2 == 1 &&
    (t.core 0).lane.sumry.isNone && (qu lane0 t).issued.map (·.ended) == [true]) = true ∧ stays (.summaryWrite 0) up = true := by decide +kernel

/-! ### The whole machine -/

def sTwo : State := { up with pending := [.nop ⟨0, none⟩, .tapReset] }
theorem up_legal : up.Legal :=
  { fatal := by decide, answer := by decide, hperr := by decide, capture := by decide
    grade := Or.inr (by decide +kernel), time := by
      constructor <;> exact ⟨by decide, fun _ _ h => by cases h⟩
    op := by decide }
theorem wit_keeps : up.Legal ∧ up.storesWf ∧ up.pending = [] ∧ ∃ t, step up = .next t := ⟨up_legal, wf_of (by decide +kernel), rfl, _, rfl⟩
theorem wit_front : sTwo.pending = .nop ⟨0, none⟩ :: [.tapReset] ∧ (Instr.grid 0 0 [1]).wf = false ∧ Instr.tapReset.wf = true := by decide
theorem test_step_front : after (step sTwo) (fun t => t.pending == [.tapReset]) = true := by decide +kernel
theorem test_idle : after (step up) (fun t => t.pending == []) = true := by decide +kernel
end Sys2Proof.Tests
end

section
/-! SUPPORT. The test access port (R115, R116, R187): a cycle of TCK writes the port alone, so a scan is followed on the
port's fields, phase by phase: five cycles with TMS 1 to Test-Logic-Reset, the way to Shift-IR, the eight bits of the
instruction, and the way to Shift-DR. -/

namespace Sys2Proof.TapProofs

open Sys2Proof Sys2Proof.Machine

/-- The state with the fields of its test port set, the tie-off TAP_MFR left as it is. -/
def tapAt (s : State) (st : TapState) (ir irSh : Byte) (dr : Word) : State :=
  { s with tap := { st := st, ir := ir, irSh := irSh, tdr := dr, mfr := s.tap.mfr } }

/-- The instruction register's shift stage after one bit of TDI (R115). -/
def irShiftIn (tdi : Bool) (r : Byte) : Byte := r >>> 1 ||| (BitVec.ofBool tdi).setWidth 8 <<< 7

/-- The data register that Capture-DR leaves under an instruction (R115, R116). -/
def captured (s : State) (ir : Byte) : Word := if ir = 0x01 then idcode s else 0

section

variable (s : State) (st : TapState) (ir irSh code : Byte) (dr : Word) (tms tdi : Bool)

/-! ### One cycle of TCK -/

theorem tapShift_keeps_st_mfr : (tapShift tdi s).st = s.tap.st ∧ (tapShift tdi s).mfr = s.tap.mfr := by
  simp only [tapShift]
  split <;> exact ⟨rfl, rfl⟩

/-- A cycle moves the controller by TMS and writes nothing outside the port's registers. -/
theorem tapClock_moves : ∃ ir irSh dr, tapClock tms tdi s = tapAt s (s.tap.st.next tms) ir irSh dr := by
  obtain ⟨hst, hmfr⟩ := tapShift_keeps_st_mfr s tdi
  refine ⟨(tapClock tms tdi s).tap.ir, (tapShift tdi s).irSh, (tapShift tdi s).tdr, ?_⟩
  simp only [tapClock, tapAt, hst, hmfr]

theorem tapClock_shiftIr : tapClock tms tdi (tapAt s .shiftIr ir irSh dr) =
    tapAt s (TapState.next tms .shiftIr) ir (irShiftIn tdi irSh) dr := by
  cases tms <;> rfl

/-- The shift of the selected data register in Shift-DR, TDI entering at its top. -/
theorem tapClock_shiftDr (h : s.tap.st = .shiftDr) : tapClock false tdi s = { s with tap := { s.tap with tdr :=
    if s.tap.ir = 0x01 then s.tap.tdr >>> 1 ||| (if tdi then 0x80000000 else 0) else if tdi then 1 else 0 } } := by
  have top : (BitVec.ofBool tdi).setWidth 32 <<< 31 = if tdi then (0x80000000 : Word) else 0 := by cases tdi <;> rfl
  have low : (BitVec.ofBool tdi).setWidth 32 = if tdi then (1 : Word) else 0 := by cases tdi <;> rfl
  simp only [tapClock, tapShift, TapState.next, h, top, Bool.false_eq_true, if_false]
  rw [low]

/-! ### TDO -/

theorem tdo_shiftDr (h : s.tap.st = .shiftDr) : s.tdo = some (bitOf s.tap.tdr 0) := by simp only [State.tdo, h]

theorem tdo_eq_none (hdr : s.tap.st ≠ .shiftDr) (hir : s.tap.st ≠ .shiftIr) : s.tdo = none := by
  unfold State.tdo
  split
  next h => exact absurd h hir
  next h => exact absurd h hdr
  next => rfl

/-! ### The scan of an instruction -/

/-- A run of cycles moves the controller by its levels of TMS and writes nothing outside the port's registers. -/
theorem tapClocks_move (l : List (Bool × Bool)) : ∃ ir irSh dr, l.foldl (fun t p => tapClock p.1 p.2 t) s =
    tapAt s (l.foldl (fun st p => TapState.next p.1 st) s.tap.st) ir irSh dr := by
  induction l generalizing s with
  | nil => exact ⟨s.tap.ir, s.tap.irSh, s.tap.tdr, rfl⟩
  | cons p l ih =>
    obtain ⟨ir, irSh, dr, hp⟩ := tapClock_moves s p.1 p.2
    obtain ⟨ir', irSh', dr', hl⟩ := ih (tapClock p.1 p.2 s)
    rw [hp] at hl
    exact ⟨ir', irSh', dr', by rw [List.foldl_cons, hp, hl]; rfl⟩

/-- From every state of the controller, five cycles with TMS 1 and then 0, 1, 1, 0, 0 lead to Shift-IR. -/
theorem next_tapToShiftIr :
    (tapToShiftIr.map fun m => (m, false)).foldl (fun st p => TapState.next p.1 st) st = .shiftIr := by
  cases st <;> rfl

theorem getLsbD_irShiftIn {i : Nat} (hi : i < 8) :
    (irShiftIn tdi irSh).getLsbD i = if i = 7 then tdi else irSh.getLsbD (i + 1) := by
  by_cases h7 : i = 7
  · subst h7
    cases tdi <;> simp [irShiftIn]
  · have hlt : i < 7 := by omega
    simp [irShiftIn, hlt, h7, Nat.add_comm]

/-- With the first `k` bits of a code shifted in, they stand on top and what was there has moved down by `k`. -/
theorem getLsbD_foldl_irShiftIn {k i : Nat} (hk : k ≤ 8) (hi : i < 8) :
    ((List.range k).foldl (fun r j => irShiftIn (bitOf code j) r) irSh).getLsbD i =
      if i + k < 8 then irSh.getLsbD (i + k) else code.getLsbD (i + k - 8) := by
  induction k generalizing i with
  | zero => simp [hi]
  | succ k ih =>
    rw [List.range_succ, List.foldl_append, List.foldl_cons, List.foldl_nil, getLsbD_irShiftIn _ _ hi]
    by_cases h7 : i = 7
    · subst h7
      have hout : ¬ 7 + (k + 1) < 8 := by omega
      have hbit : 7 + (k + 1) - 8 = k := by omega
      rw [if_pos rfl, if_neg hout, hbit, bitOf]
    · rw [if_neg h7, ih (by omega) (by omega), Nat.add_right_comm, Nat.add_assoc]

/-- Capture-IR's pattern is shifted out whole: what eight bits shifted in leave is the code they came from. -/
theorem foldl_irShiftIn : (List.range 8).foldl (fun r i => irShiftIn (bitOf code i) r) irSh = code := by
  refine BitVec.eq_of_getLsbD_eq fun i hi => ?_
  rw [getLsbD_foldl_irShiftIn irSh code (Nat.le_refl 8) hi]
  simp

/-- The eight cycles in Shift-IR, TMS 1 with the last, load the code and leave Exit1-IR. -/
theorem tapClock_loadIr :
    ((List.range 8).map fun i => (i == 7, bitOf code i)).foldl (fun t p => tapClock p.1 p.2 t)
      (tapAt s .shiftIr ir irSh dr) = tapAt s .exit1Ir ir code dr := by
  have hload := foldl_irShiftIn irSh code
  simp only [List.range_succ, List.range_zero, List.nil_append, List.cons_append, List.foldl_cons, List.foldl_nil] at hload
  simp only [List.range_succ, List.range_zero, List.nil_append, List.cons_append, List.map_cons, List.map_nil,
    List.foldl_cons, List.foldl_nil, tapClock_shiftIr, Nat.reduceBEq, TapState.next, Bool.false_eq_true, if_false,
    if_true, hload]

/-- From Exit1-IR the shifted instruction takes effect in Update-IR and its data register is captured. -/
theorem tapClock_captureDr :
    [(true, false), (true, false), (false, false), (false, false)].foldl (fun t p => tapClock p.1 p.2 t)
      (tapAt s .exit1Ir ir irSh dr) = tapAt s .shiftDr irSh irSh (captured s irSh) := rfl

/-- A whole scan: Shift-DR, the instruction in effect, its data register captured. -/
theorem tapScan_eq : tapScan code s = tapAt s .shiftDr code code (captured s code) := by
  obtain ⟨ir, irSh, dr, h⟩ := tapClocks_move s (tapToShiftIr.map fun m => (m, false))
  rw [next_tapToShiftIr] at h
  rw [tapScan, tapLoad, List.foldl_append, List.foldl_append, h, tapClock_loadIr, tapClock_captureDr]

/-! ### The rows -/

theorem exec_tapReset : exec .tapReset s = .next (tapAt s .testLogicReset 0x01 0x01 (idcode s)) := rfl

theorem exec_idcode : exec .idcode s = .next (tapAt s .shiftDr 0x01 0x01 (idcode s)) :=
  congrArg Host.Outcome.next (tapScan_eq s 0x01)

theorem exec_bypass : exec (.bypass code) s = .next (tapAt s .shiftDr code code (captured s code)) :=
  congrArg Host.Outcome.next (tapScan_eq s code)

end

/-- Settles O17: IDCODE and BYPASS are whole scans, by `tapScan_eq`; the cycle in Shift-DR is
`tapClock_shiftDr`. -/
theorem testAccessPort : Obligations.TestAccessPort := by
  intro s code tdi
  refine ⟨exec_tapReset s, exec_idcode s, ?idcodeCode, ?otherCode, fun hst => ?shift, tdo_eq_none s⟩
  case idcodeCode =>
    rintro rfl
    rw [exec_bypass, exec_idcode, captured, if_pos rfl]
  case otherCode =>
    intro hcode
    rw [exec_bypass, captured, if_neg hcode]
    rfl
  case shift => exact ⟨tdo_shiftDr s hst, tapClock_shiftDr s tdi hst⟩

end Sys2Proof.TapProofs
end

section
/-! SUPPORT. The one rounding of the number formats (RNE of R269): the integer it delivers is at most half a unit from
the fraction and even on a tie, and a power of two in numerator and denominator cancels. -/

namespace Sys2Proof.NumberProofs

open Sys2Proof Sys2Proof.Machine

/-! ### Rounding a fraction -/

theorem rneDiv_nearest {n : Int} {d : Nat} (hd : 0 < d) :
    (2 * (d * rneDiv n d - n)).natAbs ≤ d ∧ ((2 * (d * rneDiv n d - n)).natAbs = d → rneDiv n d % 2 = 0) := by
  have hdiv : d * (n / d) + n % d = n := Int.mul_ediv_add_emod n d
  have hlow : 0 ≤ n % d := Int.emod_nonneg n (by omega)
  have hhigh : n % d < d := Int.emod_lt_of_pos n (by omega)
  have hnext : d * (n / d + 1) = d * (n / d) + d := by rw [Int.mul_add, Int.mul_one]
  simp only [rneDiv]
  split
  · omega
  · split
    · omega
    · split <;> omega

/-- A whole number at or above the fraction is at or above its rounding. -/
theorem rneDiv_le {n k : Int} {d : Nat} (hd : 0 < d) (h : n ≤ d * k) : rneDiv n d ≤ k := by
  obtain ⟨hnear, -⟩ := rneDiv_nearest (n := n) hd
  refine Int.not_lt.mp fun hlt => ?_
  have hstep : (d : Int) * (k + 1) ≤ d * rneDiv n d := Int.mul_le_mul_of_nonneg_left (by omega) (by omega)
  rw [Int.mul_add, Int.mul_one] at hstep
  omega

/-- A whole number at or below the fraction is at or below its rounding. -/
theorem le_rneDiv {n k : Int} {d : Nat} (hd : 0 < d) (h : d * k ≤ n) : k ≤ rneDiv n d := by
  obtain ⟨hnear, -⟩ := rneDiv_nearest (n := n) hd
  refine Int.not_lt.mp fun hlt => ?_
  have hstep : (d : Int) * rneDiv n d ≤ d * (k - 1) := Int.mul_le_mul_of_nonneg_left (by omega) (by omega)
  rw [Int.mul_sub, Int.mul_one] at hstep
  omega

theorem rneDiv_mul_self {v : Int} {d : Nat} (hd : 0 < d) : rneDiv (v * d) d = v :=
  Int.le_antisymm (rneDiv_le hd (Int.le_of_eq (Int.mul_comm v d))) (le_rneDiv hd (Int.le_of_eq (Int.mul_comm d v)))

/-- The rounding depends on the fraction alone: a common factor cancels. -/
theorem rneDiv_mul_mul (n : Int) (d : Nat) {c : Nat} (hc : 0 < c) : rneDiv (n * c) (d * c) = rneDiv n d := by
  have hcast : (0 : Int) < c := by omega
  have hdiv : n * c / (d * c) = n / d := Int.mul_ediv_mul_of_pos_left n d hcast
  have hmod : n * c % (d * c) = n % d * c := by
    rw [Int.mul_comm n, Int.mul_comm d, Int.mul_emod_mul_of_pos _ _ hcast, Int.mul_comm]
  have hlow : 2 * (n % d * c) < d * c ↔ 2 * (n % d) < d := by rw [← Int.mul_assoc, Int.mul_lt_mul_right hcast]
  have hhigh : d * c < 2 * (n % d * c) ↔ d < 2 * (n % d) := by rw [← Int.mul_assoc, Int.mul_lt_mul_right hcast]
  simp only [rneDiv, Int.natCast_mul, hdiv, hmod, hlow, hhigh]

/-! ### Powers of two as fractions -/

theorem pow2Num_eq (e : Int) : pow2Num e = 2 ^ e.toNat := by
  rw [pow2Num]
  split
  next he => rw [Int.toNat_of_nonpos (Int.le_of_lt he), Nat.pow_zero]
  next => rfl

theorem pow2Den_eq (e : Int) : pow2Den e = 2 ^ (-e).toNat := by
  rw [pow2Den]
  split
  next => rfl
  next he => rw [Int.toNat_of_nonpos (by omega), Nat.pow_zero]

section
variable {n q e : Int} {a b : Nat}

/-- Any two exponents with the difference `e` stand a common shift above those of `pow2Num e` and `pow2Den e`. -/
theorem exists_shift (h : (a : Int) - b = e) : ∃ k, a = e.toNat + k ∧ b = (-e).toNat + k :=
  ⟨min a b, by omega, by omega⟩

theorem rneScale_eq_rneDiv (n : Int) (h : (a : Int) - b = e) : rneScale n e = rneDiv (n * (2 ^ a : Nat)) (2 ^ b) := by
  obtain ⟨k, rfl, rfl⟩ := exists_shift h
  rw [rneScale, pow2Num_eq, pow2Den_eq, Nat.pow_add, Nat.pow_add, Int.natCast_mul, ← Int.mul_assoc,
    rneDiv_mul_mul _ _ (Nat.two_pow_pos k)]

/-- Whether a whole number is n · 2^e, decided under any two exponents with the difference `e`. -/
theorem mul_pow2Den_eq_iff (h : (a : Int) - b = e) :
    q * pow2Den e = n * pow2Num e ↔ q * (2 ^ b : Nat) = n * (2 ^ a : Nat) := by
  obtain ⟨k, rfl, rfl⟩ := exists_shift h
  have hk : ((2 ^ k : Nat) : Int) ≠ 0 := Int.natCast_ne_zero.mpr (Nat.ne_of_gt (Nat.two_pow_pos k))
  rw [pow2Num_eq, pow2Den_eq, Nat.pow_add, Nat.pow_add, Int.natCast_mul, Int.natCast_mul, ← Int.mul_assoc,
    ← Int.mul_assoc, Int.mul_eq_mul_right_iff hk]

end

theorem rneScale_mul_pow (n e : Int) (j : Nat) : rneScale (n * (2 ^ j : Nat)) e = rneScale n (e + j) := by
  have hleft : (e.toNat : Int) - (-e).toNat = e := by omega
  have hright : ((j + e.toNat : Nat) : Int) - (-e).toNat = e + j := by omega
  rw [rneScale_eq_rneDiv _ hleft, rneScale_eq_rneDiv _ hright, Nat.pow_add, Int.natCast_mul, Int.mul_assoc]

theorem rneScale_zero (e : Int) : rneScale 0 e = 0 := by
  have hexp : (e.toNat : Int) - (-e).toNat = e := by omega
  rw [rneScale_eq_rneDiv 0 hexp, Int.zero_mul]
  exact Int.le_antisymm (rneDiv_le (Nat.two_pow_pos _) (by omega)) (le_rneDiv (Nat.two_pow_pos _) (by omega))

/-! ### The binary exponent -/

section
variable {p : Nat}

theorem log2_mul_two_pow (hp : p ≠ 0) (j : Nat) : (p * 2 ^ j).log2 = p.log2 + j := by
  have hpos := Nat.two_pow_pos j
  refine (Nat.log2_eq_iff (Nat.mul_ne_zero hp (Nat.ne_of_gt hpos))).mpr ⟨?_, ?_⟩
  · rw [Nat.pow_add]
    exact Nat.mul_le_mul_right _ (Nat.log2_self_le hp)
  · rw [Nat.add_right_comm, Nat.pow_add]
    exact Nat.mul_lt_mul_of_pos_right Nat.lt_log2_self hpos

theorem floorLog2_two_pow (hp : p ≠ 0) (b : Nat) : floorLog2 p (2 ^ b) = p.log2 - b := by
  have htest : 2 ^ b * pow2Num (p.log2 - b) ≤ p * pow2Den (p.log2 - b) := by
    have hexp : b + ((p.log2 : Int) - b).toNat = p.log2 + (-((p.log2 : Int) - b)).toNat := by omega
    rw [pow2Num_eq, pow2Den_eq, ← Nat.pow_add, hexp, Nat.pow_add]
    exact Nat.mul_le_mul_right _ (Nat.log2_self_le hp)
  simp only [floorLog2, Nat.log2_two_pow, if_pos htest]

end

end Sys2Proof.NumberProofs
end

section
/-! SUPPORT. Accumulated words (R281, R282): the sum of one cc in closed form, which no order of the inputs enters. -/

namespace Sys2Proof.AccProofs

open Sys2Proof Sys2Proof.Machine Sys2Proof.NumberProofs

/-- The integer of a finite word, 0 for the markers. -/
def accInt : Acc → Int
  | .fin v => v
  | _ => 0

/-- The table of R281 before the range check. -/
def accTable (l : List Acc) : Acc :=
  if .void ∈ l ∨ .pinf ∈ l ∧ .ninf ∈ l then .void
  else if .pinf ∈ l then .pinf
  else if .ninf ∈ l then .ninf
  else .fin (l.map accInt).sum

theorem accTable_concat (l : List Acc) (x : Acc) : accTable (l ++ [x]) = accAdd (accTable l) x := by
  have hsum : ((l ++ [x]).map accInt).sum = (l.map accInt).sum + accInt x := by
    rw [List.map_append, List.sum_append_int, List.map_singleton, List.sum_singleton]
  simp only [accTable, hsum, List.mem_append, List.mem_singleton]
  by_cases hv : .void ∈ l <;> by_cases hp : .pinf ∈ l <;> by_cases hn : .ninf ∈ l <;> cases x <;>
    simp only [hv, hp, hn, accAdd, accInt, reduceCtorEq, or_true, or_false, and_true, and_false, and_self,
      or_self, if_true, if_false]

theorem foldl_accAdd (l pre : List Acc) : l.foldl accAdd (accTable pre) = accTable (pre ++ l) := by
  induction l generalizing pre with
  | nil => rw [List.append_nil, List.foldl_nil]
  | cons x l ih => rw [List.foldl_cons, ← accTable_concat, ih, List.append_assoc, List.singleton_append]

theorem accSum_eq_accTable (l : List Acc) : accSum l = accTable l := foldl_accAdd l []

theorem sum_accInt_perm {l l' : List Acc} (h : l.Perm l') : (l'.map accInt).sum = (l.map accInt).sum := by
  induction h with
  | nil => rfl
  | cons x h ih => simp only [List.map_cons, List.sum_cons, ih]
  | swap x y l =>
    simp only [List.map_cons, List.sum_cons]
    omega
  | trans h h' ih ih' => exact ih'.trans ih

theorem accTable_perm {l l' : List Acc} (h : l.Perm l') : accTable l' = accTable l := by
  simp only [accTable, h.mem_iff, sum_accInt_perm h]

theorem accTable_map_fin (vs : List Int) : accTable (vs.map .fin) = .fin vs.sum := by
  have hvals : (vs.map Acc.fin).map accInt = vs := by
    rw [List.map_map]
    exact List.map_id vs
  have hmem : ∀ x : Acc, (∀ v, .fin v ≠ x) → x ∉ vs.map .fin := fun x hx h =>
    (List.mem_map.mp h).elim fun v hv => hx v hv.2
  have hv : .void ∉ vs.map Acc.fin := hmem _ nofun
  have hp : .pinf ∉ vs.map Acc.fin := hmem _ nofun
  have hn : .ninf ∉ vs.map Acc.fin := hmem _ nofun
  rw [accTable, if_neg (fun h => h.elim hv fun h => hp h.1), if_neg hp, if_neg hn, hvals]

/-! ### The total of one cc -/

section
variable {l : List Acc}

theorem accTotal_void (h : .void ∈ l ∨ .pinf ∈ l ∧ .ninf ∈ l) : accTotal l = .void := by
  simp only [accTotal, accSum_eq_accTable, accTable, if_pos h]

theorem accTotal_pinf (hv : .void ∉ l) (hp : .pinf ∈ l) (hn : .ninf ∉ l) : accTotal l = .pinf := by
  have hvoid : ¬ (.void ∈ l ∨ .pinf ∈ l ∧ .ninf ∈ l) := fun h => h.elim hv fun h => hn h.2
  simp only [accTotal, accSum_eq_accTable, accTable, if_neg hvoid, if_pos hp]

theorem accTotal_ninf (hv : .void ∉ l) (hn : .ninf ∈ l) (hp : .pinf ∉ l) : accTotal l = .ninf := by
  have hvoid : ¬ (.void ∈ l ∨ .pinf ∈ l ∧ .ninf ∈ l) := fun h => h.elim hv fun h => hp h.1
  simp only [accTotal, accSum_eq_accTable, accTable, if_neg hvoid, if_neg hp, if_pos hn]

theorem accTotal_map_fin (vs : List Int) : accTotal (vs.map .fin) = accClamp vs.sum := by
  simp only [accTotal, accSum_eq_accTable, accTable_map_fin]

theorem accTotal_perm {l' : List Acc} (h : l.Perm l') : accTotal l' = accTotal l := by
  simp only [accTotal, accSum_eq_accTable, accTable_perm h]

end

theorem accClamp_cases (v : Int) : (v.natAbs ≤ 2 ^ 39 - 2 → accClamp v = .fin v) ∧
    (2 ^ 39 - 2 < v → accClamp v = .pinf) ∧ (v < -(2 ^ 39 - 2) → accClamp v = .ninf) := by
  have hlimit : accLimit = 2 ^ 39 - 2 := rfl
  simp only [accClamp]
  refine ⟨fun h => ?inRange, fun h => ?above, fun h => ?below⟩
  case inRange => rw [if_neg (by omega), if_neg (by omega)]
  case above => rw [if_pos (by omega)]
  case below => rw [if_neg (by omega), if_pos (by omega)]

/-! ### Decay -/

/-- A factor of at most 1 never takes the rounding above the magnitude it scales. -/
theorem natAbs_rneDiv_mul_le {v f : Int} {d : Nat} (hd : 0 < d) (hf : 0 ≤ f) (hfd : f ≤ d) :
    (rneDiv (v * f) d).natAbs ≤ v.natAbs := by
  have hup : ∀ w : Int, w * f ≤ d * w.natAbs := fun w =>
    calc w * f ≤ w.natAbs * f := Int.mul_le_mul_of_nonneg_right Int.le_natAbs hf
      _ ≤ w.natAbs * d := Int.mul_le_mul_of_nonneg_left hfd (by omega)
      _ = d * w.natAbs := Int.mul_comm _ _
  have hneg := hup (-v)
  rw [Int.natAbs_neg, Int.neg_mul] at hneg
  have hle := rneDiv_le hd (hup v)
  have hge : -(v.natAbs : Int) ≤ rneDiv (v * f) d := le_rneDiv hd (by rw [Int.mul_neg]; omega)
  omega

theorem accDecay_inf (d : BitVec 17) : accDecay .pinf d = (if d = 0 then .void else .pinf) ∧
    accDecay .ninf d = if d = 0 then .void else .ninf := by
  have hzero : min d.toNat 0x10000 = 0 ↔ d = 0 := by
    rw [← BitVec.toNat_inj, show (0 : BitVec 17).toNat = 0 from rfl]
    omega
  simp only [accDecay, hzero, and_self]

/-- Settles O1: the sum of R281 is the table `accTable` of its inputs, and decay is `rneDiv` of a factor of at most 1. -/
theorem accumulatedWords : Obligations.AccumulatedWords := by
  refine ⟨fun l => ⟨fun h => accTotal_void (.inl h), fun hp hn => accTotal_void (.inr ⟨hp, hn⟩), accTotal_pinf,
    accTotal_ninf, ?sum, fun l' => accTotal_perm⟩, fun v d => ⟨?decay, rfl, accDecay_inf d⟩⟩
  case sum =>
    rintro vs rfl
    rw [accTotal_map_fin]
    exact accClamp_cases vs.sum
  case decay =>
    generalize hmin : min (d.toNat : Int) 65536 = f
    have hone : (0 : Nat) < 65536 := by decide
    have hcast : f = ((min d.toNat 65536 : Nat) : Int) := by omega
    obtain ⟨hnear, htie⟩ := rneDiv_nearest (n := v * f) hone
    have hdecay : accDecay (.fin v) d = .fin (rneDiv (v * f) 65536) := by
      rw [hcast]
      rfl
    refine ⟨_, hdecay, hnear, htie, natAbs_rneDiv_mul_le hone (by omega) (by omega), fun hd => ?_⟩
    have hf : f = ((65536 : Nat) : Int) := by omega
    rw [hf, rneDiv_mul_self hone]

end Sys2Proof.AccProofs
end

section
/-! SUPPORT. F20 results (R273, R276, R291): which values a code decodes to, the codes that an operation may deliver,
the order of two values and the histogram's bins. -/

namespace Sys2Proof.F20Proofs

open Sys2Proof Sys2Proof.Machine

/-! ### Decoding -/

theorem f20Exp_lt (c : F20) : f20Exp c < 128 := (c.extractLsb' 12 7).isLt

theorem f20Frac_lt (c : F20) : f20Frac c < 4096 := (c.extractLsb' 0 12).isLt

theorem f20Exp_xor_sign (c : F20) : f20Exp (c ^^^ 0x80000) = f20Exp c := by
  have hsign : (0x80000 : F20).extractLsb' 12 7 = 0#7 := by decide
  rw [f20Exp, BitVec.extractLsb'_xor, hsign, BitVec.xor_zero, f20Exp]

theorem f20Frac_xor_sign (c : F20) : f20Frac (c ^^^ 0x80000) = f20Frac c := by
  have hsign : (0x80000 : F20).extractLsb' 0 12 = 0#12 := by decide
  rw [f20Frac, BitVec.extractLsb'_xor, hsign, BitVec.xor_zero, f20Frac]

section
variable {c : F20}

theorem f20Dec_top (he : f20Exp c = 127) :
    f20Dec c = if f20Frac c = 0 then .inf (f20Sign c) else .void := by
  rw [f20Dec, if_pos he]

/-- Below the top exponent a code stands for a finite value, a subnormal or zero at the exponent −74. -/
theorem f20Dec_finite (he : f20Exp c ≠ 127) : ∃ m e, f20Dec c = .fin m e ∧ m.natAbs < 8192 ∧ -74 ≤ e ∧ e ≤ 51 ∧
    (m = 0 → e = -74) := by
  have hfrac := f20Frac_lt c
  have hexp := f20Exp_lt c
  have hsign : ∀ k : Nat, ((if f20Sign c then -1 else 1) * (k : Int)).natAbs = k := by
    intro k
    split <;> omega
  by_cases h0 : f20Exp c = 0
  · have hm := hsign (f20Frac c)
    exact ⟨_, _, by rw [f20Dec, if_neg he, if_pos h0], by omega, by omega, by omega, fun _ => rfl⟩
  · have hm := hsign (4096 + f20Frac c)
    exact ⟨_, _, by rw [f20Dec, if_neg he, if_neg h0], by omega, by omega, by omega, fun h => by omega⟩

theorem f20Dec_eq_void_iff : f20Dec c = .void ↔ f20Exp c = 127 ∧ f20Frac c ≠ 0 := by
  by_cases he : f20Exp c = 127
  · rw [f20Dec_top he]
    by_cases hf : f20Frac c = 0
    · rw [if_pos hf]
      exact ⟨nofun, fun h => absurd hf h.2⟩
    · rw [if_neg hf]
      exact ⟨fun _ => ⟨he, hf⟩, fun _ => rfl⟩
  · obtain ⟨m, e, h, -⟩ := f20Dec_finite he
    rw [h]
    exact ⟨nofun, fun h => absurd h.1 he⟩

theorem f20Dec_ne_void_of_exp (h : f20Exp c ≠ 127) : f20Dec c ≠ .void := fun hv => h (f20Dec_eq_void_iff.mp hv).1

theorem f20Exp_ne_of_fin {m e : Int} (h : f20Dec c = .fin m e) : f20Exp c ≠ 127 := by
  intro he
  rw [f20Dec_top he] at h
  split at h <;> cases h

theorem fin_bounds {m e : Int} (h : f20Dec c = .fin m e) :
    m.natAbs < 8192 ∧ -74 ≤ e ∧ e ≤ 51 ∧ (m = 0 → e = -74) := by
  obtain ⟨m', e', h', hbounds⟩ := f20Dec_finite (f20Exp_ne_of_fin h)
  obtain ⟨rfl, rfl⟩ := Num.fin.inj (h.symm.trans h')
  exact hbounds

theorem f20Dec_xor_sign_eq_void_iff : f20Dec (c ^^^ 0x80000) = .void ↔ f20Dec c = .void := by
  rw [f20Dec_eq_void_iff, f20Dec_eq_void_iff, f20Exp_xor_sign, f20Frac_xor_sign]

end

theorem f20Dec_negZero : f20Dec 0x80000 = f20Dec 0 := by decide

/-- Delivering a code in its canonical form leaves the value as it is. -/
theorem f20Dec_f20Canon (c : F20) : f20Dec (f20Canon c) = f20Dec c := by
  unfold f20Canon
  split
  next h => rw [h]; decide
  next m e h =>
    split
    next hm =>
      obtain ⟨-, -, -, hzero⟩ := fin_bounds h
      rw [h, hm, hzero hm]
      decide
    next => rfl
  next => rfl

/-! ### Codes delivered -/

/-- What an operation may deliver: no negative zero, and no void but 0x7_F800 (R273). -/
def Delivered (r : F20) : Prop := r ≠ 0x80000 ∧ (f20Dec r = .void → r = 0x7F800)

theorem delivered_zero : Delivered 0 := by unfold Delivered; decide
theorem delivered_void : Delivered f20Void := by unfold Delivered; decide
theorem delivered_inf (s : Bool) : Delivered (f20Inf s) := by cases s <;> (unfold Delivered; decide)

theorem ne_negZero_of_mant_ne_zero {c : F20} {m e : Int} (h : f20Dec c = .fin m e) (hm : m ≠ 0) :
    c ≠ 0 ∧ c ≠ 0x80000 := by
  constructor <;> rintro rfl <;> exact hm (Num.fin.inj h).1.symm

theorem delivered_f20Canon (c : F20) : Delivered (f20Canon c) := by
  unfold f20Canon
  split
  next => exact delivered_void
  next m e h =>
    split
    next => exact delivered_zero
    next hm => exact ⟨(ne_negZero_of_mant_ne_zero h hm).2, fun hv => by rw [h] at hv; cases hv⟩
  next s h =>
    refine ⟨?_, fun hv => by rw [h] at hv; cases hv⟩
    rintro rfl
    rw [f20Dec_negZero] at h
    cases h

theorem delivered_xor_sign {c : F20} (hzero : c ≠ 0) (hvoid : f20Dec c ≠ .void) : Delivered (c ^^^ 0x80000) :=
  ⟨fun h => hzero ((BitVec.xor_left_inj 0x80000).mp h), fun h => absurd (f20Dec_xor_sign_eq_void_iff.mp h) hvoid⟩

theorem delivered_f20Neg (c : F20) : Delivered (f20Neg c) := by
  unfold f20Neg
  split
  next => exact delivered_void
  next m e h =>
    split
    next => exact delivered_zero
    next hm => exact delivered_xor_sign (ne_negZero_of_mant_ne_zero h hm).1 (by rw [h]; exact nofun)
  next s h => exact delivered_xor_sign (by rintro rfl; cases h) (by rw [h]; exact nofun)

/-- A rounded magnitude below infinity's code, with its sign; a magnitude of 0 loses the sign. -/
theorem delivered_signed {m code : Nat} (neg : Prop) [Decidable neg] (hle : m ≤ code) (hlt : code < 0x7F000) :
    Delivered (if m = 0 then 0 else BitVec.ofNat 20 (if neg then 0x80000 + code else code)) := by
  by_cases hm : m = 0
  · rw [if_pos hm]
    exact delivered_zero
  · rw [if_neg hm]
    have hval : (BitVec.ofNat 20 (if neg then 0x80000 + code else code)).toNat =
        if neg then 0x80000 + code else code := by
      rw [BitVec.toNat_ofNat]
      split <;> omega
    refine ⟨fun h => ?_, fun hv => absurd hv (f20Dec_ne_void_of_exp ?_)⟩
    · rw [h, show (0x80000 : F20).toNat = 0x80000 from rfl] at hval
      split at hval <;> omega
    · rw [f20Exp, BitVec.extractLsb'_toNat, hval, Nat.shiftRight_eq_div_pow]
      split <;> omega

theorem delivered_roundFrac (n : Int) (d : Nat) : Delivered (roundFrac n d).1 := by
  simp only [roundFrac]
  by_cases hn : n = 0
  · rw [if_pos hn]
    exact delivered_zero
  · rw [if_neg hn]
    split
    · exact delivered_inf _
    · exact delivered_signed _ (Nat.le_add_left _ _) (by omega)

theorem delivered_roundDy (m e : Int) : Delivered (roundDy m e).1 := delivered_roundFrac _ _

theorem delivered_roundNum (x : Machine.Num) : Delivered (roundNum x).1 := by
  cases x with
  | fin m e => exact delivered_roundDy m e
  | inf s => exact delivered_inf s
  | void => exact delivered_void

theorem delivered_numAdd (x y : Machine.Num) : Delivered (numAdd x y).1 := by
  unfold numAdd
  split
  case h_3 s t =>
    split
    · exact delivered_inf s
    · exact delivered_void
  case h_6 => exact delivered_roundDy _ _
  case h_1 | h_2 => exact delivered_void
  case h_4 | h_5 => exact delivered_inf _

theorem delivered_numMul (x y : Machine.Num) : Delivered (numMul x y).1 := by
  simp only [numMul]
  split
  · exact delivered_void
  · exact delivered_roundNum _

theorem delivered_numFma (x y z : Machine.Num) : Delivered (numFma x y z).1 := by
  simp only [numFma]
  split
  · exact delivered_void
  · exact delivered_numAdd _ _

/-! ### Order -/

theorem compare_neg_zero (x : Int) : compare (-x) 0 = (compare x 0).swap := by
  rw [Int.compare_swap]
  cases h : compare (0 : Int) x with
  | lt => exact Int.compare_eq_lt.mpr (by have := Int.compare_eq_lt.mp h; omega)
  | eq => exact Int.compare_eq_eq.mpr (by have := Int.compare_eq_eq.mp h; omega)
  | gt => exact Int.compare_eq_gt.mpr (by have := Int.compare_eq_gt.mp h; omega)

theorem dyAdd_neg_swap (m₁ e₁ m₂ e₂ : Int) : (dyAdd m₂ e₂ (-m₁) e₁).1 = -(dyAdd m₁ e₁ (-m₂) e₂).1 := by
  simp only [dyAdd, Int.min_comm e₂ e₁, Int.neg_mul]
  omega

/-- The order of two values turns round with the operands. -/
theorem numCmp_swap (x y : Machine.Num) : numCmp y x = (numCmp x y).map Ordering.swap := by
  match x, y with
  | .void, y => cases y <;> rfl
  | .inf _, .void | .fin _ _, .void => rfl
  | .inf s, .inf t => cases s <;> cases t <;> rfl
  | .inf s, .fin _ _ => cases s <;> rfl
  | .fin _ _, .inf t => cases t <;> rfl
  | .fin m₁ e₁, .fin m₂ e₂ => simp only [numCmp, dyAdd_neg_swap m₁ e₁ m₂ e₂, compare_neg_zero, Option.map_some]

theorem numCmp_eq_none_iff {x y : Machine.Num} : numCmp x y = none ↔ x = .void ∨ y = .void := by
  cases x <;> cases y <;> simp only [numCmp, reduceCtorEq, or_self, or_true, true_or]

section
variable {a b : F20}

theorem f20Cmp_swap (a b : F20) : f20Cmp b a = (f20Cmp a b).map Ordering.swap := numCmp_swap _ _

theorem f20Cmp_eq_none_iff : f20Cmp a b = none ↔ f20Dec a = .void ∨ f20Dec b = .void := numCmp_eq_none_iff

theorem swap_eq_self {o : Ordering} (h : o.swap = o) : o = .eq := by
  cases o with
  | eq => rfl
  | lt | gt => cases h

theorem f20Cmp_self {o : Ordering} (h : f20Cmp a a = some o) : o = .eq := by
  have hswap := f20Cmp_swap a a
  rw [h, Option.map_some] at hswap
  exact swap_eq_self (Option.some.inj hswap).symm

theorem f20Cmp_f20Canon (a b : F20) : f20Cmp (f20Canon a) b = f20Cmp a b := by
  rw [f20Cmp, f20Cmp, f20Dec_f20Canon]

theorem f20Min_of_void (h : f20Cmp a b = none) : f20Min a b = f20Void := by rw [f20Min, h]
theorem f20MaxOf_of_void (h : f20Cmp a b = none) : f20MaxOf a b = f20Void := by rw [f20MaxOf, h]

/-- A choice of B where A stands on the side `o` of it, and else of A, stands on that side of neither. -/
theorem bounds_of_choice {r : F20} {o : Ordering} (ho : o ≠ .eq)
    (h : r = f20Canon b ∧ f20Cmp a b = some o ∨ r = f20Canon a ∧ f20Cmp a b ≠ some o) :
    (r = f20Canon a ∨ r = f20Canon b) ∧ f20Cmp r a ≠ some o ∧ f20Cmp r b ≠ some o := by
  obtain ⟨rfl, hab⟩ | ⟨rfl, hab⟩ := h
  · have hba : f20Cmp b a = some o.swap := by rw [f20Cmp_swap, hab, Option.map_some]
    rw [f20Cmp_f20Canon, f20Cmp_f20Canon, hba]
    exact ⟨.inr rfl, fun hswap => ho (swap_eq_self (Option.some.inj hswap)), fun h => ho (f20Cmp_self h)⟩
  · rw [f20Cmp_f20Canon, f20Cmp_f20Canon]
    exact ⟨.inl rfl, fun h => ho (f20Cmp_self h), hab⟩

theorem f20Min_choice (h : f20Cmp a b ≠ none) : f20Min a b = f20Canon b ∧ f20Cmp a b = some .gt ∨
    f20Min a b = f20Canon a ∧ f20Cmp a b ≠ some .gt := by
  unfold f20Min
  split
  next hnone => exact absurd hnone h
  next hgt => exact .inl ⟨rfl, hgt⟩
  next o hgt ho => exact .inr ⟨rfl, fun heq => hgt (Option.some.inj (ho.symm.trans heq))⟩

theorem f20MaxOf_choice (h : f20Cmp a b ≠ none) : f20MaxOf a b = f20Canon b ∧ f20Cmp a b = some .lt ∨
    f20MaxOf a b = f20Canon a ∧ f20Cmp a b ≠ some .lt := by
  unfold f20MaxOf
  split
  next hnone => exact absurd hnone h
  next hlt => exact .inl ⟨rfl, hlt⟩
  next o hlt ho => exact .inr ⟨rfl, fun heq => hlt (Option.some.inj (ho.symm.trans heq))⟩

/-- MIN delivers an operand, in canonical form, that is above neither (R276). -/
theorem f20Min_bounds (h : f20Cmp a b ≠ none) : (f20Min a b = f20Canon a ∨ f20Min a b = f20Canon b) ∧
    f20Cmp (f20Min a b) a ≠ some .gt ∧ f20Cmp (f20Min a b) b ≠ some .gt :=
  bounds_of_choice (by decide) (f20Min_choice h)

/-- MAX delivers an operand, in canonical form, that is below neither (R276). -/
theorem f20MaxOf_bounds (h : f20Cmp a b ≠ none) : (f20MaxOf a b = f20Canon a ∨ f20MaxOf a b = f20Canon b) ∧
    f20Cmp (f20MaxOf a b) a ≠ some .lt ∧ f20Cmp (f20MaxOf a b) b ≠ some .lt :=
  bounds_of_choice (by decide) (f20MaxOf_choice h)

theorem delivered_f20Min (a b : F20) : Delivered (f20Min a b) := by
  by_cases h : f20Cmp a b = none
  · exact f20Min_of_void h ▸ delivered_void
  · obtain ⟨he | he, -⟩ := f20Min_bounds h <;> exact he ▸ delivered_f20Canon _

theorem delivered_f20MaxOf (a b : F20) : Delivered (f20MaxOf a b) := by
  by_cases h : f20Cmp a b = none
  · exact f20MaxOf_of_void h ▸ delivered_void
  · obtain ⟨he | he, -⟩ := f20MaxOf_bounds h <;> exact he ▸ delivered_f20Canon _

/-- Of the six conditions on the order of A and B, NE alone holds of a void operand. -/
theorem laneFcmp_of_void {cond : Nat} (h : f20Cmp a b = none) (hcond : cond < 6) (free : Bool) :
    laneFcmp cond a b free = decide (cond = 1) := by
  unfold laneFcmp
  split
  next => omega
  next => omega
  next => rw [h]; rfl

end

theorem laneEval_fcmp {i : LaneIns} (h : i.op = 9) (a b c : F20) (free : Bool) :
    laneEval i a b c free = (laneBit (laneFcmp i.aux a b free), 0) := by
  simp only [laneEval, h]

/-! ### Histogram bins -/

section
variable {c : F20}

theorem histBin_normal (hlow : 1 ≤ f20Exp c) (hhigh : f20Exp c ≤ 126) : histBin c = f20Exp c := by
  rw [histBin, if_neg (by omega), if_neg (by omega)]

theorem histBin_subnormal (he : f20Exp c = 0) (hf : f20Frac c ≠ 0) : histBin c = 129 := by
  rw [histBin, if_neg (by omega), if_pos he, if_neg hf]

theorem histBin_void (h : f20Dec c = .void) : histBin c = 131 := by
  obtain ⟨he, hf⟩ := f20Dec_eq_void_iff.mp h
  rw [histBin, if_pos he, if_neg hf]

theorem histBin_range (c : F20) : histBin c ≠ 0 ∧ histBin c ≠ 127 ∧ histBin c < 132 := by
  have hexp := f20Exp_lt c
  rw [histBin]
  split
  · split <;> omega
  · split
    · split <;> omega
    · omega

end

/-- Settles O3: every result is `Delivered`, a negative zero decodes as +0, MIN and MAX bound by `f20Cmp_swap`, and the
bins are the classes of a code. -/
theorem f20Results : Obligations.F20Results := by
  refine ⟨?delivers, fun a b c => ?negZero, fun a b free => ⟨fun h => ?void, fun i c hop => ?fcmp, fun ha hb => ?bounds⟩,
    fun c => ⟨histBin_normal, ?zeros, histBin_subnormal, ?infs, histBin_void, histBin_range c⟩⟩
  case delivers =>
    intro a b c r hr
    have hall : ∀ r ∈ [(f20Add a b).1, (f20Mul a b).1, (f20Fma a b c).1, f20Min a b, f20MaxOf a b, f20Canon a, f20Neg a],
        Delivered r := by
      simp only [List.forall_mem_cons]
      exact ⟨delivered_numAdd _ _, delivered_numMul _ _, delivered_numFma _ _ _, delivered_f20Min a b,
        delivered_f20MaxOf a b, delivered_f20Canon a, delivered_f20Neg a, List.forall_mem_nil _⟩
    exact hall r hr
  case negZero =>
    refine ⟨?_, ?_, ?_, ?_, ?_, by decide, by decide, by decide, fun he hf => f20Dec_eq_void_iff.mpr ⟨he, hf⟩⟩
    · rw [f20Add, f20Add, f20Dec_negZero]
    · rw [f20Mul, f20Mul, f20Dec_negZero]
    · rw [f20Fma, f20Fma, f20Dec_negZero]
    · rw [f20Fma, f20Fma, f20Dec_negZero]
    · rw [f20Cmp, f20Cmp, f20Dec_negZero]
  case void =>
    have hnone : f20Cmp a b = none := f20Cmp_eq_none_iff.mpr h
    exact ⟨f20Min_of_void hnone, f20MaxOf_of_void hnone, fun cond hcond => laneFcmp_of_void hnone hcond free⟩
  case fcmp => rw [laneEval_fcmp hop]
  case bounds =>
    have hsome : f20Cmp a b ≠ none := fun h => (f20Cmp_eq_none_iff.mp h).elim ha hb
    obtain ⟨hmin, hminA, hminB⟩ := f20Min_bounds hsome
    obtain ⟨hmax, hmaxA, hmaxB⟩ := f20MaxOf_bounds hsome
    exact ⟨hmin, hmax, hminA, hminB, hmaxA, hmaxB⟩
  case zeros => rintro (rfl | rfl) <;> decide
  case infs => rintro (rfl | rfl) <;> decide

end Sys2Proof.F20Proofs
end

section
/-! SUPPORT. Conversion of a block (R286, R287). Finite F20 values stand on the grid of step 2^−74; the largest magnitude
of a block is one such whole number, and its scale is the smallest under which that number rounds to Qmax or less. -/

namespace Sys2Proof.BlockProofs

open Sys2Proof Sys2Proof.Machine Sys2Proof.NumberProofs

/-! ### The grid of F20 values -/

/-- The whole number n of a finite value n · 2^−74; 0 for the rest. -/
def f20Grid (c : F20) : Int := numMant (f20Dec c) * 2 ^ (numExp (f20Dec c) + 74).toNat

theorem f20Dec_bounds (c : F20) :
    (numMant (f20Dec c)).natAbs < 8192 ∧ -74 ≤ numExp (f20Dec c) ∧ numExp (f20Dec c) ≤ 51 := by
  cases h : f20Dec c with
  | fin m e =>
    obtain ⟨hmant, hlow, hhigh, -⟩ := F20Proofs.fin_bounds h
    exact ⟨hmant, hlow, hhigh⟩
  | inf | void => exact show 0 < 8192 ∧ (-74 : Int) ≤ 0 ∧ (0 : Int) ≤ 51 by decide

theorem f20Grid_eq (c : F20) :
    f20Grid c = numMant (f20Dec c) * (2 ^ (numExp (f20Dec c) + 74).toNat : Nat) := by
  rw [f20Grid, Int.natCast_pow]
  rfl

theorem natAbs_f20Grid_lt (c : F20) : (f20Grid c).natAbs < 2 ^ 138 := by
  obtain ⟨hmant, -, hhigh⟩ := f20Dec_bounds c
  rw [f20Grid_eq, Int.natAbs_mul, Int.natAbs_natCast]
  calc (numMant (f20Dec c)).natAbs * 2 ^ (numExp (f20Dec c) + 74).toNat
      ≤ (numMant (f20Dec c)).natAbs * 2 ^ 125 := Nat.mul_le_mul_left _ (Nat.pow_le_pow_right (by omega) (by omega))
    _ < 2 ^ 138 := by omega

/-- The same value under a scale, from its code and from the grid. -/
theorem rneScale_f20Grid (c : F20) (e : Int) :
    rneScale (numMant (f20Dec c)) (numExp (f20Dec c) - e) = rneScale (f20Grid c) (-74 - e) := by
  obtain ⟨-, hlow, -⟩ := f20Dec_bounds c
  have hexp : -74 - e + ((numExp (f20Dec c) + 74).toNat : Int) = numExp (f20Dec c) - e := by omega
  rw [f20Grid_eq, rneScale_mul_pow, hexp]

/-! ### The largest magnitude -/

/-- The magnitude of R286 on the grid. -/
def gridMag (f : Fmt) (c : F20) : Nat := if f.signed then (f20Grid c).natAbs else (f20Grid c).toNat

/-- The largest magnitude of a block on the grid. -/
def gridMax (f : Fmt) (vs : List F20) : Nat := (vs.map (gridMag f)).foldl max 0

/-- The largest magnitude as the model carries it, a fraction. -/
def blockLargest (f : Fmt) (vs : List F20) : Nat × Nat :=
  (vs.map f20Dec).foldl (fun m v => fracMax m (blockMag f (numMant v) (numExp v))) (0, 1)

/-- A fraction with a power of two below, which stands for `n` steps of the grid. -/
def OnGrid (p : Nat × Nat) (n : Nat) : Prop := ∃ b s, b + s = 74 ∧ p.2 = 2 ^ b ∧ n = p.1 * 2 ^ s

theorem toNat_mul_natCast (m : Int) (k : Nat) : (m * k).toNat = m.toNat * k := by
  by_cases hm : 0 ≤ m
  · rw [Int.toNat_mul hm (Int.natCast_nonneg k), Int.toNat_natCast]
  · have hprod : m * k ≤ 0 := Int.mul_nonpos_of_nonpos_of_nonneg (by omega) (Int.natCast_nonneg k)
    rw [Int.toNat_of_nonpos hprod, Int.toNat_of_nonpos (by omega), Nat.zero_mul]

theorem gridMag_eq (f : Fmt) (c : F20) : gridMag f c =
    (if f.signed then (numMant (f20Dec c)).natAbs else (numMant (f20Dec c)).toNat) *
      2 ^ (numExp (f20Dec c) + 74).toNat := by
  rw [gridMag, f20Grid_eq]
  split
  · rw [Int.natAbs_mul, Int.natAbs_natCast]
  · rw [toNat_mul_natCast]

theorem onGrid_blockMag (f : Fmt) (c : F20) :
    OnGrid (blockMag f (numMant (f20Dec c)) (numExp (f20Dec c))) (gridMag f c) := by
  obtain ⟨-, hlow, -⟩ := f20Dec_bounds c
  have hexp : (numExp (f20Dec c) + 74).toNat = (numExp (f20Dec c)).toNat + (74 - (-numExp (f20Dec c)).toNat) := by omega
  refine ⟨(-numExp (f20Dec c)).toNat, 74 - (-numExp (f20Dec c)).toNat, by omega, pow2Den_eq _, ?_⟩
  rw [gridMag_eq, hexp, Nat.pow_add, ← Nat.mul_assoc, blockMag, pow2Num_eq]

/-- Two such fractions stand in the order of their steps. -/
theorem onGrid_lt_iff {p q : Nat × Nat} {m n : Nat} (hp : OnGrid p m) (hq : OnGrid q n) :
    p.1 * q.2 < q.1 * p.2 ↔ m < n := by
  obtain ⟨b, s, hbs, hpd, rfl⟩ := hp
  obtain ⟨b', s', hbs', hqd, rfl⟩ := hq
  have hs : b' + (s + s') = s + 74 := by omega
  have hs' : b + (s + s') = s' + 74 := by omega
  rw [hpd, hqd, ← Nat.mul_lt_mul_right (Nat.two_pow_pos (s + s')), Nat.mul_assoc, Nat.mul_assoc, ← Nat.pow_add,
    ← Nat.pow_add, hs, hs', Nat.pow_add, Nat.pow_add, ← Nat.mul_assoc, ← Nat.mul_assoc,
    Nat.mul_lt_mul_right (Nat.two_pow_pos 74)]

theorem onGrid_fracMax {p q : Nat × Nat} {m n : Nat} (hp : OnGrid p m) (hq : OnGrid q n) :
    OnGrid (fracMax p q) (max m n) := by
  have hlt := onGrid_lt_iff hp hq
  rw [fracMax]
  split
  next h =>
    rw [Nat.max_eq_right (Nat.le_of_lt (hlt.mp h))]
    exact hq
  next h =>
    rw [Nat.max_eq_left (Nat.not_lt.mp fun hmn => h (hlt.mpr hmn))]
    exact hp

theorem onGrid_foldl (f : Fmt) (vs : List F20) {p : Nat × Nat} {n : Nat} (h : OnGrid p n) :
    OnGrid ((vs.map f20Dec).foldl (fun m v => fracMax m (blockMag f (numMant v) (numExp v))) p)
      ((vs.map (gridMag f)).foldl max n) := by
  induction vs generalizing p n with
  | nil => exact h
  | cons c vs ih => exact ih (onGrid_fracMax h (onGrid_blockMag f c))

theorem onGrid_blockLargest (f : Fmt) (vs : List F20) : OnGrid (blockLargest f vs) (gridMax f vs) :=
  onGrid_foldl f vs ⟨0, 74, rfl, rfl, rfl⟩

theorem foldl_max_lt {l : List Nat} {n b : Nat} (hn : n < b) (hl : ∀ x ∈ l, x < b) : l.foldl max n < b := by
  induction l generalizing n with
  | nil => exact hn
  | cons x l ih =>
    obtain ⟨hx, hrest⟩ := List.forall_mem_cons.mp hl
    exact ih (Nat.max_lt.mpr ⟨hn, hx⟩) hrest

theorem gridMax_lt (f : Fmt) (vs : List F20) : gridMax f vs < 2 ^ 138 := by
  refine foldl_max_lt (Nat.two_pow_pos 138) (List.forall_mem_map.mpr fun c _ => ?_)
  have hlt := natAbs_f20Grid_lt c
  rw [gridMag]
  split
  · exact hlt
  · omega

/-! ### The scale -/

section
variable {f : Fmt} {n : Nat} {x e : Int}

theorem magBits_bounds (f : Fmt) : 3 ≤ f.magBits ∧ f.magBits ≤ 8 := by cases f <;> decide

theorem qmax_eq (f : Fmt) : f.qmax = (2 ^ f.magBits : Nat) - 1 := by
  rw [Fmt.qmax, Int.natCast_pow]
  rfl

/-- An exponent that leaves the magnitude at or above 2^bits is too large. -/
theorem qmax_lt_rneScale (hn : n ≠ 0) (hx : f.magBits - n.log2 ≤ x) : f.qmax < rneScale n x := by
  have hexp : (x.toNat : Int) - (-x).toNat = x := by omega
  have hle : 2 ^ (-x).toNat * 2 ^ f.magBits ≤ n * 2 ^ x.toNat :=
    calc 2 ^ (-x).toNat * 2 ^ f.magBits = 2 ^ ((-x).toNat + f.magBits) := (Nat.pow_add _ _ _).symm
      _ ≤ 2 ^ (n.log2 + x.toNat) := Nat.pow_le_pow_right (by omega) (by omega)
      _ = 2 ^ n.log2 * 2 ^ x.toNat := Nat.pow_add _ _ _
      _ ≤ n * 2 ^ x.toNat := Nat.mul_le_mul_right _ (Nat.log2_self_le hn)
  have hround : ((2 ^ f.magBits : Nat) : Int) ≤ rneScale n x := by
    rw [rneScale_eq_rneDiv _ hexp]
    exact le_rneDiv (Nat.two_pow_pos _) (by rw [← Int.natCast_mul, ← Int.natCast_mul]; exact Int.ofNat_le.mpr hle)
  rw [qmax_eq]
  omega

/-- An exponent that brings the magnitude below 2^(bits − 1) is small enough. -/
theorem rneScale_le_qmax (hx : x + 1 + n.log2 < f.magBits) : rneScale n x ≤ f.qmax := by
  obtain ⟨hbits, -⟩ := magBits_bounds f
  have hexp : (x.toNat : Int) - (-x).toNat = x := by omega
  have hpow : 2 ^ f.magBits = 2 ^ (f.magBits - 1) * 2 := by
    rw [← Nat.pow_succ, Nat.succ_eq_add_one, Nat.sub_add_cancel (by omega)]
  have hpos := Nat.two_pow_pos (f.magBits - 1)
  have hle : n * 2 ^ x.toNat ≤ 2 ^ (-x).toNat * 2 ^ (f.magBits - 1) :=
    calc n * 2 ^ x.toNat ≤ 2 ^ (n.log2 + 1) * 2 ^ x.toNat := Nat.mul_le_mul_right _ (Nat.le_of_lt Nat.lt_log2_self)
      _ = 2 ^ (n.log2 + 1 + x.toNat) := (Nat.pow_add _ _ _).symm
      _ ≤ 2 ^ ((-x).toNat + (f.magBits - 1)) := Nat.pow_le_pow_right (by omega) (by omega)
      _ = 2 ^ (-x).toNat * 2 ^ (f.magBits - 1) := Nat.pow_add _ _ _
  have hround : rneScale n x ≤ ((2 ^ (f.magBits - 1) : Nat) : Int) := by
    rw [rneScale_eq_rneDiv _ hexp]
    exact rneDiv_le (Nat.two_pow_pos _) (by rw [← Int.natCast_mul, ← Int.natCast_mul]; exact Int.ofNat_le.mpr hle)
  rw [qmax_eq]
  omega

/-- The test of `blockScale`, on the grid. -/
theorem rneDiv_onGrid {p : Nat × Nat} (hp : OnGrid p n) (e : Int) :
    rneDiv ((p.1 * pow2Den e : Nat) : Int) (p.2 * pow2Num e) = rneScale n (-74 - e) := by
  obtain ⟨b, s, hbs, hpd, rfl⟩ := hp
  have hexp : ((-e).toNat : Int) - (b + e.toNat : Nat) = -74 - e + s := by omega
  rw [hpd, pow2Den_eq, pow2Num_eq, ← Nat.pow_add, Int.natCast_mul, Int.natCast_mul, rneScale_mul_pow,
    rneScale_eq_rneDiv _ hexp]

theorem floorLog2_onGrid {p : Nat × Nat} (hp : OnGrid p n) (hn : n ≠ 0) :
    p.1 ≠ 0 ∧ floorLog2 p.1 p.2 = n.log2 - 74 := by
  obtain ⟨b, s, hbs, hpd, rfl⟩ := hp
  have hnum : p.1 ≠ 0 := fun h0 => hn (by rw [h0, Nat.zero_mul])
  refine ⟨hnum, ?_⟩
  rw [hpd, floorLog2_two_pow hnum, log2_mul_two_pow hnum]
  omega

/-- What the scale of R286 is: the smallest under which the magnitude rounds to Qmax or less. -/
def IsScale (f : Fmt) (n : Nat) (e : Int) : Prop :=
  rneScale n (-74 - e) ≤ f.qmax ∧ ∀ x, x < e → f.qmax < rneScale n (-74 - x)

/-- The first guess of `blockScale` fits or the next scale does; every scale below the guess is too small. -/
theorem isScale_guess (hn : n ≠ 0) (he : e = n.log2 - 74 - f.magBits + 1) :
    IsScale f n (if rneScale n (-74 - e) ≤ f.qmax then e else e + 1) := by
  have hbelow : ∀ x, x < e → f.qmax < rneScale n (-74 - x) := fun x hx => qmax_lt_rneScale hn (by omega)
  split
  next hfits => exact ⟨hfits, hbelow⟩
  next hfits =>
    refine ⟨rneScale_le_qmax (by omega), fun x hx => ?_⟩
    obtain hx | rfl : x < e ∨ x = e := by omega
    · exact hbelow x hx
    · exact Int.not_le.mp hfits

theorem blockScale_isScale {p : Nat × Nat} (hp : OnGrid p n) (hn : n ≠ 0) (hlt : n < 2 ^ 138) :
    IsScale f n (blockScale f p) ∧ -127 < blockScale f p ∧ blockScale f p < 127 := by
  obtain ⟨hnum, hfloor⟩ := floorLog2_onGrid hp hn
  have hlog : n.log2 < 138 := (Nat.log2_lt hn).mpr hlt
  obtain ⟨hbLow, hbHigh⟩ := magBits_bounds f
  generalize he : floorLog2 p.1 p.2 - f.magBits + 1 = e
  have hguess := isScale_guess (f := f) hn (show e = n.log2 - 74 - f.magBits + 1 by omega)
  have hscale : blockScale f p = if rneScale n (-74 - e) ≤ f.qmax then e else e + 1 := by
    simp only [blockScale, if_neg hnum, he, rneDiv_onGrid hp, decide_eq_true_eq]
    split <;> omega
  rw [hscale]
  refine ⟨hguess, ?_⟩
  split <;> omega

theorem blockScale_of_zero {p : Nat × Nat} (hp : OnGrid p 0) : blockScale f p = -127 := by
  obtain ⟨b, s, -, -, hzero⟩ := hp
  have hnum : p.1 = 0 := (Nat.mul_eq_zero.mp hzero.symm).resolve_right (Nat.ne_of_gt (Nat.two_pow_pos s))
  rw [blockScale, if_pos hnum]

end

/-! ### The elements -/

section
variable {f : Fmt} {vs : List F20}

/-- A quotient limited to the format (R286). -/
def gridQuot (f : Fmt) (e : Int) (c : F20) : Int := min (max (rneScale (f20Grid c) (-74 - e)) f.qmin) f.qmax

theorem blockElem_fst (f : Fmt) (e : Int) (c : F20) : (blockElem f e (f20Dec c)).1 = gridQuot f e c := by
  rw [blockElem, gridQuot, rneScale_f20Grid]

/-- An element is exact when its quotient stands for the value, compared in steps of 2^−127. -/
theorem blockElem_snd {e : Int} (he : -127 ≤ e) (c : F20) : (blockElem f e (f20Dec c)).2 = true ↔
    gridQuot f e c * 2 ^ (e + 127).toNat = f20Grid c * 2 ^ 53 := by
  obtain ⟨-, hlow, -⟩ := f20Dec_bounds c
  have hexp : (((numExp (f20Dec c) + 74).toNat + 53 : Nat) : Int) - (e + 127).toNat = numExp (f20Dec c) - e := by omega
  have hcast : ((2 ^ (e + 127).toNat : Nat) : Int) = 2 ^ (e + 127).toNat := Int.natCast_pow _ _
  have hgrid : numMant (f20Dec c) * (2 ^ ((numExp (f20Dec c) + 74).toNat + 53) : Nat) = f20Grid c * 2 ^ 53 := by
    rw [f20Grid_eq, Nat.pow_add, Int.natCast_mul, ← Int.mul_assoc]
    rfl
  calc (blockElem f e (f20Dec c)).2 = true
      ↔ gridQuot f e c * pow2Den (numExp (f20Dec c) - e) = numMant (f20Dec c) * pow2Num (numExp (f20Dec c) - e) := by
        rw [← blockElem_fst, blockElem, decide_eq_true_eq]
    _ ↔ gridQuot f e c * 2 ^ (e + 127).toNat = f20Grid c * 2 ^ 53 := by
        rw [mul_pow2Den_eq_iff hexp, hcast, hgrid]

theorem gridQuot_range (f : Fmt) (e : Int) (c : F20) : f.qmin ≤ gridQuot f e c ∧ gridQuot f e c ≤ f.qmax := by
  have hrange : f.qmin ≤ f.qmax := by cases f <;> decide
  rw [gridQuot]
  omega

theorem value_code {q : Int} (hlow : f.qmin ≤ q) (hhigh : q ≤ f.qmax) : f.value (f.code q) = q := by
  have hnibble : ∀ x : BitVec 4, (x.setWidth 8).extractLsb' 0 4 = x := by decide
  cases f
  case s8 =>
    have hrange : -127 ≤ q ∧ q ≤ 127 := ⟨hlow, hhigh⟩
    exact BitVec.toInt_ofInt_eq_self (by decide) (by omega) (by omega)
  case u8 =>
    have hrange : 0 ≤ q ∧ q ≤ 255 := ⟨hlow, hhigh⟩
    show ((BitVec.ofInt 8 q).toNat : Int) = q
    rw [BitVec.toNat_ofInt]
    omega
  case s4 =>
    have hrange : -7 ≤ q ∧ q ≤ 7 := ⟨hlow, hhigh⟩
    show (((BitVec.ofInt 4 q).setWidth 8).extractLsb' 0 4).toInt = q
    rw [hnibble]
    exact BitVec.toInt_ofInt_eq_self (by decide) (by omega) (by omega)
  case u4 =>
    have hrange : 0 ≤ q ∧ q ≤ 15 := ⟨hlow, hhigh⟩
    show ((((BitVec.ofInt 4 q).setWidth 8).extractLsb' 0 4).toNat : Int) = q
    rw [hnibble, BitVec.toNat_ofInt]
    omega

/-! ### The block -/

/-- The scale that a finite block takes. -/
def blockExp (f : Fmt) (vs : List F20) : Int := blockScale f (blockLargest f vs)

theorem blockExp_eq_of_zero (h : gridMax f vs = 0) : blockExp f vs = -127 :=
  blockScale_of_zero (h ▸ onGrid_blockLargest f vs)

theorem blockExp_isScale (h : gridMax f vs ≠ 0) :
    IsScale f (gridMax f vs) (blockExp f vs) ∧ -127 < blockExp f vs ∧ blockExp f vs < 127 :=
  blockScale_isScale (onGrid_blockLargest f vs) h (gridMax_lt f vs)

theorem blockExp_range (f : Fmt) (vs : List F20) : -127 ≤ blockExp f vs ∧ blockExp f vs < 127 := by
  by_cases h : gridMax f vs = 0
  · rw [blockExp_eq_of_zero h]
    omega
  · obtain ⟨-, hlow, hhigh⟩ := blockExp_isScale h
    exact ⟨Int.le_of_lt hlow, hhigh⟩

/-- The scale of R286, whether or not a magnitude is above 0. -/
theorem blockExp_smallest (f : Fmt) (vs : List F20) :
    rneScale (gridMax f vs) (-74 - blockExp f vs) ≤ f.qmax ∧
      ∀ x, -127 ≤ x → x < blockExp f vs → f.qmax < rneScale (gridMax f vs) (-74 - x) := by
  by_cases h : gridMax f vs = 0
  · rw [h, blockExp_eq_of_zero h, Int.natCast_zero, rneScale_zero]
    exact ⟨by cases f <;> decide, fun x hlow hlt => by omega⟩
  · obtain ⟨⟨hfits, hsmaller⟩, -⟩ := blockExp_isScale h
    exact ⟨hfits, fun x _ hlt => hsmaller x hlt⟩

/-- A block of finite values (R286). -/
theorem blockF20_of_finite (h : ∀ c ∈ vs, numIsFin (f20Dec c) = true) : blockF20 f vs =
    { scale := BitVec.ofInt 8 (blockExp f vs), codes := vs.map fun c => f.code (gridQuot f (blockExp f vs) c),
      flags := if vs.all (fun c => (blockElem f (blockExp f vs) (f20Dec c)).2) then 0 else flIX } := by
  have hall : (vs.map f20Dec).all numIsFin = true := by simpa using h
  have hcodes : ((vs.map f20Dec).map (blockElem f (blockExp f vs))).map (fun q => f.code q.1) =
      vs.map fun c => f.code (gridQuot f (blockExp f vs) c) := by
    simp only [List.map_map, Function.comp_def, blockElem_fst]
  have hexact : ((vs.map f20Dec).map (blockElem f (blockExp f vs))).all (·.2) =
      vs.all fun c => (blockElem f (blockExp f vs) (f20Dec c)).2 := by
    simp only [List.map_map, List.all_map, Function.comp_def]
  rw [← hcodes, ← hexact, blockF20, blockOf, if_pos hall]
  rfl

/-- A block with a void or an infinite value (R287). -/
theorem blockF20_of_not_finite (h : ∃ c ∈ vs, numIsFin (f20Dec c) = false) : blockF20 f vs =
    { scale := 0x80, codes := vs.map fun _ => 0,
      flags := if vs.any (fun c => numIsInf (f20Dec c)) then flIV else 0 } := by
  have hnone : ¬ (vs.map f20Dec).all numIsFin = true := by simpa using h
  rw [blockF20, blockOf, if_neg hnone]
  simp only [List.map_map, List.any_map, Function.comp_def, e8Void]

theorem blockF20_codes_length (f : Fmt) (vs : List F20) : (blockF20 f vs).codes.length = vs.length := by
  by_cases h : ∀ c ∈ vs, numIsFin (f20Dec c) = true
  · rw [blockF20_of_finite h, List.length_map]
  · rw [blockF20_of_not_finite (by simpa using h), List.length_map]

section
variable (h : ∀ c ∈ vs, numIsFin (f20Dec c) = true)
include h

theorem blockF20_scale : (blockF20 f vs).scale.toInt = blockExp f vs := by
  obtain ⟨hlow, hhigh⟩ := blockExp_range f vs
  rw [blockF20_of_finite h]
  exact BitVec.toInt_ofInt_eq_self (by decide) (by omega) (by omega)

theorem blockF20_code {i : Nat} {c : F20} (hi : vs[i]? = some c) :
    ∃ x, (blockF20 f vs).codes[i]? = some x ∧ f.value x = gridQuot f (blockExp f vs) c := by
  obtain ⟨hlow, hhigh⟩ := gridQuot_range f (blockExp f vs) c
  refine ⟨f.code (gridQuot f (blockExp f vs) c), ?_, value_code hlow hhigh⟩
  rw [blockF20_of_finite h, List.getElem?_map, hi, Option.map_some]

theorem blockF20_flags : ((blockF20 f vs).flags = 0 ∨ (blockF20 f vs).flags = flIX) ∧ ((blockF20 f vs).flags = flIX ↔
    ∃ c ∈ vs, gridQuot f (blockExp f vs) c * 2 ^ (blockExp f vs + 127).toNat ≠ f20Grid c * 2 ^ 53) := by
  obtain ⟨hlow, -⟩ := blockExp_range f vs
  have hexact : vs.all (fun c => (blockElem f (blockExp f vs) (f20Dec c)).2) = true ↔
      ∀ c ∈ vs, gridQuot f (blockExp f vs) c * 2 ^ (blockExp f vs + 127).toNat = f20Grid c * 2 ^ 53 := by
    simp only [List.all_eq_true, blockElem_snd hlow]
  have hzero : (0 : Fl) ≠ flIX := by decide
  rw [blockF20_of_finite h]
  by_cases hall : vs.all (fun c => (blockElem f (blockExp f vs) (f20Dec c)).2) = true
  · rw [if_pos hall]
    exact ⟨.inl rfl, fun h => absurd h hzero, fun ⟨c, hc, hne⟩ => absurd (hexact.mp hall c hc) hne⟩
  · rw [if_neg hall]
    refine ⟨.inr rfl, fun _ => Classical.byContradiction fun hnone => hall (hexact.mpr fun c hc => ?_), fun _ => rfl⟩
    exact Classical.byContradiction fun hne => hnone ⟨c, hc, hne⟩

end
end

/-- Settles O2: the largest magnitude is `gridMax` steps of 2^−74, its scale `blockScale_isScale`, and each element
`gridQuot` under it. -/
theorem blockConversion : Obligations.BlockConversion := by
  intro f vs b n mag big e q
  refine ⟨blockF20_codes_length f vs, fun hfin => ?finite, fun hnot => ?void⟩
  case void =>
    have hb : b = _ := blockF20_of_not_finite hnot
    rw [hb]
    refine ⟨rfl, fun x hx => ?_, rfl⟩
    obtain ⟨-, -, rfl⟩ := List.mem_map.mp hx
    rfl
  case finite =>
    have he : e = blockExp f vs := blockF20_scale hfin
    have hq : ∀ c, q c = gridQuot f (blockExp f vs) c := fun c => he ▸ rfl
    obtain ⟨hlow, -⟩ := blockExp_range f vs
    obtain ⟨hfits, hsmaller⟩ := blockExp_smallest f vs
    obtain ⟨hflags, hinexact⟩ := blockF20_flags hfin
    simp only [he, hq]
    exact ⟨hlow, hfits, hsmaller, blockExp_eq_of_zero, fun hbig => (blockExp_isScale hbig).2,
      fun i c hi => blockF20_code hfin hi, hflags, hinexact⟩

end Sys2Proof.BlockProofs
end

section
/-! SUPPORT. END, SELECT and the readers of a pending q register (R474, R525, R526). An instruction of one word that its
core holds has its effect on the core's registers alone, so each statement turns on what that effect is on the registers
at hand: the replay's end with a next-list index, or the stall. -/

namespace Sys2Proof.ReplayProofs

open Sys2Proof Sys2Proof.Machine Sys2Proof.Laws

variable {s : State} {f : Fetch}

/-! ### The effect on the registers of a core -/

theorem updCc_congr {c : CoreId} {g h : Cc → Cc} (heq : g (s.core c).cc = h (s.core c).cc) :
    updCc s c g = updCc s c h :=
  updCore_congr (congrArg (fun cc => { s.core c with cc := cc }) heq)

theorem updCc_ccTouched_congr {g h : Cc → Cc} (heq : g (s.core f.core).cc = h (s.core f.core).cc) :
    updCc (ccTouched s f 1) f.core g = updCc (ccTouched s f 1) f.core h :=
  updCc_congr (by simpa using heq)

/-- The core's registers with the next-list index set (R525). -/
def withNext (c : Cc) (next : BitVec 4) : Cc := { c with r := { c.r with next := next } }

/-- The state after a replay that ends with the next-list index `next` (R525, R526). -/
def replayEnded (s : State) (f : Fetch) (next : BitVec 4) : State :=
  ccDone s f 1 fun c => { c with list := false, r := { c.r with next := next } }

/-- The end of the replay also clears the count of a REP; none stands here, where the instruction retires (R520). -/
theorem endReplay_advance {c : Cc} (hrep : c.rep = none) :
    (c.advance 1).endReplay = { c with list := false, pos := c.pos + 1, qwait := none, cmp := 2 } := by
  simp only [Cc.endReplay, Cc.advance, hrep]

theorem updCc_endReplay {g : Cc → Cc} {next : BitVec 4} (hrep : (s.core f.core).cc.rep = none)
    (hg : g (s.core f.core).cc = ((withNext (s.core f.core).cc next).advance 1).endReplay) :
    updCc (ccTouched s f 1) f.core g = replayEnded s f next := by
  rw [replayEnded, ccDone]
  exact updCc_ccTouched_congr (hg.trans (endReplay_advance (c := withNext _ next) hrep))

/-- The state after a stall on the q register `q` (R474). -/
def stalledOn (s : State) (f : Fetch) (q : BitVec 3) : State :=
  updCc (ccTouched s f 1) f.core fun c => { c with qwait := some q }

theorem awaitQ_toNat (c : Cc) (q : BitVec 3) : c.awaitQ q.toNat = { c with qwait := some q } := by
  rw [Cc.awaitQ, BitVec.ofNat_toNat, BitVec.setWidth_eq]

theorem updCc_awaitQ {g : Cc → Cc} {q : BitVec 3} (hg : g (s.core f.core).cc = (s.core f.core).cc.awaitQ q.toNat) :
    updCc (ccTouched s f 1) f.core g = stalledOn s f q :=
  updCc_ccTouched_congr (hg.trans (awaitQ_toNat _ q))

/-- The index that a SELECT sets (R525). -/
def selectIndex (c : Cc) (immf : Bool) (q : BitVec 3) (index : BitVec 4) : BitVec 4 :=
  if immf then index else if (c.qr q.toNat).toNat < 16 then BitVec.ofNat 4 (c.qr q.toNat).toNat else 15

theorem selectIndex_register (c : Cc) (q : BitVec 3) (index : BitVec 4) :
    selectIndex c false q index = BitVec.ofNat 4 (min (smGet 0 c.r.q q.toNat).toNat 15) := by
  change (if (c.qr q.toNat).toNat < 16 then _ else _) = BitVec.ofNat 4 (min (c.qr q.toNat).toNat 15)
  split
  case isTrue hlow => rw [Nat.min_eq_left (by omega)]
  case isFalse hhigh => rw [Nat.min_eq_right (by omega)]; rfl

/-- What a SELECT with its unused field 0 does to the registers of its core (R474, R525). -/
def selectEffect (immf : Bool) (q : BitVec 3) (index : BitVec 4) (c : Cc) : Cc :=
  if !immf && c.r.pends q.toNat then c.awaitQ q.toNat
  else ((withNext c (selectIndex c immf q index)).advance 1).endReplay

/-! ### The instructions -/

section
variable {i : Instr} {w : Word} {q : BitVec 3} (ready : ccReady s f 1) (hrep : (s.core f.core).cc.rep = none)
include ready hrep

theorem ccInstr_of_ccHolds (hfetch : i.fetch = some f) (hword : i.ccWord = some w) (held : ccHolds s i)
    (eff : State → State) : ccInstr s f w eff = eff (ccTouched s f 1) := by
  obtain ⟨f', w', hf, hw, hwords⟩ := held
  obtain rfl : f = f' := Option.some.inj (hfetch.symm.trans hf)
  obtain rfl : w = w' := Option.some.inj (hword.symm.trans hw)
  exact ccInstr_ready ready hwords hrep eff

theorem execEndList_of_ccHolds (held : ccHolds s (.endList f)) :
    execEndList f s = .next (replayEnded s f (s.core f.core).cc.r.next) := by
  rw [execEndList, ccInstr_of_ccHolds ready hrep rfl rfl held]
  exact congrArg _ (updCc_endReplay hrep rfl)

theorem execSelect_of_ccHolds {immf : Bool} {index : BitVec 4} (held : ccHolds s (.select f immf q index))
    (hform : (if immf then q != 0 else index != 0) = false) :
    execSelect f immf q index s = .next (updCc (ccTouched s f 1) f.core (selectEffect immf q index)) := by
  rw [execSelect, ccInstr_of_ccHolds ready hrep rfl rfl held, hform]
  rfl

theorem execSelect_index {index : BitVec 4} (held : ccHolds s (.select f true 0 index)) :
    execSelect f true 0 index s = .next (replayEnded s f index) := by
  rw [execSelect_of_ccHolds ready hrep held rfl]
  exact congrArg _ (updCc_endReplay hrep rfl)

theorem execSelect_register (held : ccHolds s (.select f false q 0))
    (hfree : (s.core f.core).cc.r.pends q.toNat = false) : execSelect f false q 0 s =
      .next (replayEnded s f (BitVec.ofNat 4 (min (smGet 0 (s.core f.core).cc.r.q q.toNat).toNat 15))) := by
  rw [execSelect_of_ccHolds ready hrep held rfl, ← selectIndex_register _ q 0]
  exact congrArg _ (updCc_endReplay hrep (if_neg (by simp [hfree])))

section
variable (pending : (s.core f.core).cc.r.pends q.toNat = true)
include pending

theorem execRdq_pending {rd : BitVec 5} (held : ccHolds s (.rdq f rd q)) :
    execRdq f rd q s = .next (stalledOn s f q) := by
  rw [execRdq, ccInstr_of_ccHolds ready hrep rfl rfl held]
  exact congrArg _ (updCc_awaitQ (if_pos pending))

theorem execQset_pending {rs : BitVec 5} (held : ccHolds s (.qset f q rs)) :
    execQset f q rs s = .next (stalledOn s f q) := by
  rw [execQset, ccInstr_of_ccHolds ready hrep rfl rfl held]
  exact congrArg _ (updCc_awaitQ (if_pos pending))

theorem execSelect_pending (held : ccHolds s (.select f false q 0)) :
    execSelect f false q 0 s = .next (stalledOn s f q) := by
  rw [execSelect_of_ccHolds ready hrep held rfl]
  exact congrArg _ (updCc_awaitQ (if_pos pending))

end
end

/-- Settles O6: a held END or SELECT ends the replay by `updCc_endReplay`, and a reader of a pending q register stalls by
`updCc_awaitQ`. -/
theorem replayEnds : Obligations.ReplayEnds := by
  intro s f rd rs q index ready hrep c goes ends stalls
  refine ⟨execEndList_of_ccHolds ready hrep, execSelect_index ready hrep,
    fun hfree held => execSelect_register ready hrep held hfree, fun pending => ⟨?rdq, ?qset, ?select⟩⟩
  case rdq => exact execRdq_pending ready hrep pending
  case qset => exact execQset_pending ready hrep pending
  case select => exact execSelect_pending ready hrep pending

end Sys2Proof.ReplayProofs
end
